-- ==== Sys2Proof/Word.lean ====
section
/-!
DEFINITION. The word types of the tv7 FM voice core and the fixed-size register groups its state is made of
(00_scope.md R6, R8, R9). Arithmetic on reals is in Machine/Real.lean, field extraction in Machine/Operands.lean.
-/
namespace Sys2Proof

/-- A byte of an image or an opcode; bit 0 is the least significant (R8). -/
abbrev Byte := BitVec 8

/-- `u32` of R9: the phase accumulator type; addition wraps modulo 2^32 (R142). -/
abbrev U32 := BitVec 32

/-- A value of format `REAL` (R7): its encoding, the bits as one number. `REAL` is an argument of the machine
(`Formats`), so the number of bits is open (log 1). -/
abbrev RealBits := Nat

/-- A value of format `BUF_FMT` (R7): its encoding, the bits as one number. `BUF_FMT` is an argument of the machine
(`Formats`); with its value here a sample has the 32 bits of R62 (log 2). -/
abbrev SampleBits := Nat

/-- A buffer slot number 0..3 (R60). -/
abbrev Slot := BitVec 2

/-- One thing per operator, `NUM_OPS` = 6 (R6). -/
structure Six (α : Type) where
  o0 : α
  o1 : α
  o2 : α
  o3 : α
  o4 : α
  o5 : α
deriving DecidableEq, Repr, Inhabited

/-- Entry `k` of a group of six, `k` = 0..5. -/
def Six.get {α : Type} (x : Six α) : Nat → α
  | 0 => x.o0
  | 1 => x.o1
  | 2 => x.o2
  | 3 => x.o3
  | 4 => x.o4
  | _ => x.o5

/-- The group with entry `k` replaced; an index outside 0..5 replaces nothing. -/
def Six.set {α : Type} (x : Six α) (k : Nat) (v : α) : Six α :=
  match k with
  | 0 => { x with o0 := v }
  | 1 => { x with o1 := v }
  | 2 => { x with o2 := v }
  | 3 => { x with o3 := v }
  | 4 => { x with o4 := v }
  | 5 => { x with o5 := v }
  | _ => x

/-- The group whose entry `k` is `f k`. -/
def Six.ofFn {α : Type} (f : Nat → α) : Six α := ⟨f 0, f 1, f 2, f 3, f 4, f 5⟩

/-- The same function applied to every entry. -/
def Six.map {α β : Type} (f : α → β) (x : Six α) : Six β :=
  ⟨f x.o0, f x.o1, f x.o2, f x.o3, f x.o4, f x.o5⟩

/-- The entries in ascending index order. -/
def Six.toList {α : Type} (x : Six α) : List α := [x.o0, x.o1, x.o2, x.o3, x.o4, x.o5]

/-- Every entry satisfies a test. -/
def Six.all {α : Type} (p : α → Bool) (x : Six α) : Bool :=
  p x.o0 && p x.o1 && p x.o2 && p x.o3 && p x.o4 && p x.o5

/-- One thing per envelope stage, `NUM_STAGES` = 4 (R6). -/
structure Four (α : Type) where
  s0 : α
  s1 : α
  s2 : α
  s3 : α
deriving DecidableEq, Repr, Inhabited

/-- Entry `i` of a group of four; the index is taken modulo 4, as in R195's `(stage − 1) mod N`. -/
def Four.get {α : Type} (x : Four α) (i : Fin 4) : α :=
  match i with
  | 0 => x.s0
  | 1 => x.s1
  | 2 => x.s2
  | 3 => x.s3

/-- The group whose entry `i` is `f i`. -/
def Four.ofFn {α : Type} (f : Fin 4 → α) : Four α := ⟨f 0, f 1, f 2, f 3⟩

/-- The same function applied to every entry. -/
def Four.map {α β : Type} (f : α → β) (x : Four α) : Four β := ⟨f x.s0, f x.s1, f x.s2, f x.s3⟩

/-- Every entry satisfies a test. -/
def Four.all {α : Type} (p : α → Bool) (x : Four α) : Bool := p x.s0 && p x.s1 && p x.s2 && p x.s3

/-- All four entries, when every one of them is written. -/
def Four.sequence {α : Type} (x : Four (Option α)) : Option (Four α) :=
  match x.s0, x.s1, x.s2, x.s3 with
  | some a, some b, some c, some d => some ⟨a, b, c, d⟩
  | _, _, _, _ => none

end Sys2Proof
end

