-- ==== Sys2Proof/Config.lean ====
section
/-!
DEFINITION. What an instance of the block fixes and the spec leaves open (00_scope.md R7, 92_eei_decisions.md):
named parameters with no value here, so that no proof can lean on one. How an open table is read, with the entries the
spec does fix, is Machine/Rom.lean; how EXP2 is read is Machine/Exp2.lean. The two number formats are an argument of
the machine, which holds them in its state (log 1, log 2); `ieee` are the two that R7 uses. What the spec fixes for
every instance (the bank and voice sizes) are plain definitions.
-/
namespace Sys2Proof

/-- The open parameters of R7 that are functions or tables. Every meaning that depends on one takes a `Params`;
`exec` supplies `Config.params` (Machine/Instance.lean). -/
structure Config.Params where
  /-- `EXP2` as the instance computes it (R122, D4); read through `Machine.exp2`, which keeps the spec's bound. -/
  exp2 : RealBits → RealBits
  /-- `LUT_COARSE` (R125, D8); read through `Machine.lutCoarse`. -/
  coarse : Nat → RealBits
  /-- `LUT_AMP_MOD_SENSITIVITY` (R126, D8); read through `Machine.lutAms`. -/
  ams : Nat → RealBits
  /-- `LUT_PITCH_MOD_SENSITIVITY` (R127, D8); read through `Machine.lutPms`. -/
  pms : Nat → RealBits
  /-- `LUT_CUBE_ROOT` (R128, D8); read through `Machine.lutCubeRoot`. -/
  cubeRoot : Nat → RealBits
  /-- `ALG_ROM` (R170, D9): row, then operator index; read through `Machine.algRow`, which fixes row 31. Every row
  of the instance that runs is well formed (R178, `Machine.withAdmissibleRom`). -/
  algRom : Nat → Nat → Byte
  /-- `SH_DRAW` (R229, D10): the n-th sample-and-hold draw; read through `Machine.shDraw`, which keeps it in [0,1). -/
  shDraw : Nat → RealBits
deriving Inhabited

/-- The instance's open parameters: a free value, nothing is known of it (log 3 to 6). -/
opaque Config.openParams : Config.Params

/-- `floor` of a NaN or an infinity, to which the spec gives no value (R10 defines `floor` on reals): a free value
that depends on the operand (log 16; safe). -/
opaque Config.floorNonFinite : RealBits → Int

/-- How far `BMAX` of the instance exceeds 1: a free value, nothing is known of it (log 7). -/
opaque Config.bmaxLess1 : Nat

/-- `BMAX`, the largest block size (R7, D6): open, and at least 1, for D6 writes 1 <= B <= `BMAX` (log 7). -/
def Config.bmax : Nat := Config.bmaxLess1 + 1

/-- An IEEE-754 binary format: its bits of precision (the leading one counted) and of exponent; with the sign bit they
give the width of an encoding. -/
structure FloatFormat where
  precision : Nat
  exponentBits : Nat
deriving DecidableEq, Repr

/-- IEEE-754 binary64. -/
def binary64 : FloatFormat := { precision := 53, exponentBits := 11 }

/-- IEEE-754 binary32. -/
def binary32 : FloatFormat := { precision := 24, exponentBits := 8 }

/-- The two number formats an instance fixes (R7, D2, D3): an argument of every operation on reals and samples, and of
the machine, which finds them in its state (`State.formats`, log 1, log 2). -/
structure Formats where
  /-- `REAL`: the format of every real outside the buffers -/
  real : FloatFormat
  /-- `BUF_FMT`: the format of a buffer sample -/
  buf : FloatFormat
deriving DecidableEq, Repr

/-- The formats R7 uses in the test vectors: binary64 for `REAL`, binary32 for `BUF_FMT`. -/
def ieee : Formats := { real := binary64, buf := binary32 }

/-- `NUM_SLOTS`, the sample buffers per voice (R6). -/
def Config.numSlots : Nat := 4

/-- The length of a packed voice (R6, R262). -/
def Config.voiceBytes : Nat := 128

/-- The length of a bank (R6, R266). -/
def Config.bankBytes : Nat := 4104

end Sys2Proof
end

