-- ==== Sys2Proof/Machine/Real.lean ====
section
/-!
DEFINITION. The arithmetic of format `REAL` (00_scope.md R7, R15: an IEEE-754 binary format, round to nearest even, one
rounding per written operation, gradual underflow, no exception flags) and its conversion to and from `BUF_FMT`
(R7, R62). Decoding and rounding are written once over a format; `fm.real` and `fm.buf` are the two, open parameters
that every operation takes as an argument (log 1, log 2). Every operation converts its operands to exact numbers, computes exactly, and rounds once.
-/
namespace Sys2Proof.Machine

/-- What an encoded real stands for: a NaN, an infinity, or exactly `± m · 2^e`. -/
inductive Exact where
  | nan
  | inf (neg : Bool)
  | fin (neg : Bool) (m : Nat) (e : Int)
deriving DecidableEq, Repr

/-- The signed integer `± m`. -/
def signed (neg : Bool) (m : Nat) : Int := if neg then -(m : Int) else (m : Int)

/-- Round `m · 2^e` to nearest even with `p` bits of precision and least exponent `emin`; the answer is the magnitude
field of the encoding (biased exponent and fraction), before the test for overflow. -/
def roundMag (p : Nat) (emin : Int) (m : Nat) (e : Int) : Nat :=
  if m = 0 then 0
  else
    let top : Int := max (e + (Nat.log2 m : Int) - ((p : Int) - 1)) emin
    let q :=
      if top ≤ e then m <<< (e - top).toNat
      else
        let sh := (top - e).toNat
        let q0 := m >>> sh
        let r := m % 2 ^ sh
        let half := 2 ^ (sh - 1)
        if half < r || (r == half && q0 % 2 == 1) then q0 + 1 else q0
    (top - emin).toNat * 2 ^ (p - 1) + q

/-! ### A binary format (R7: `REAL`, `BUF_FMT`)

An encoding is the sign bit over the magnitude field, which is the biased exponent over the fraction. -/

/-- Bits of the magnitude field. -/
def fmtMagBits (f : FloatFormat) : Nat := f.precision - 1 + f.exponentBits

/-- The exponent of the least positive number, which is 2 to that power. -/
def fmtLeast (f : FloatFormat) : Int := 3 - 2 ^ (f.exponentBits - 1) - (f.precision : Int)

/-- The magnitude field of infinity. -/
def fmtInf (f : FloatFormat) : Nat := (2 ^ f.exponentBits - 1) * 2 ^ (f.precision - 1)

/-- The magnitude field of the one NaN the operations produce: the quiet one of the format (log 19). -/
def fmtNaN (f : FloatFormat) : Nat := fmtInf f + 2 ^ (f.precision - 2)

/-- Biased exponent and fraction as one number; it orders the magnitudes. A number too large for an encoding of the
format counts as a NaN: its magnitude is the greatest there is (log 1). -/
def fmtMag (f : FloatFormat) (bits : Nat) : Nat :=
  if bits < 2 ^ fmtMagBits f then bits else min (bits - 2 ^ fmtMagBits f) (2 ^ fmtMagBits f - 1)

/-- The sign bit. -/
def fmtSign (f : FloatFormat) (bits : Nat) : Bool := 2 ^ fmtMagBits f ≤ bits

/-- The encoding of a sign and a magnitude field. -/
def fmtEncode (f : FloatFormat) (neg : Bool) (mag : Nat) : Nat := mag + (if neg then 2 ^ fmtMagBits f else 0)

/-- What an encoding of the format stands for. -/
def fmtExact (f : FloatFormat) (bits : Nat) : Exact :=
  let mag := fmtMag f bits
  let be : Nat := mag / 2 ^ (f.precision - 1)
  let frac : Nat := mag % 2 ^ (f.precision - 1)
  let neg := fmtSign f bits
  if fmtInf f ≤ mag then (if mag = fmtInf f then .inf neg else .nan)
  else if be = 0 then .fin neg frac (fmtLeast f)
  else .fin neg (2 ^ (f.precision - 1) + frac) ((be : Int) + (fmtLeast f - 1))

/-- The encoding of the number of the format nearest to `± m · 2^e`, ties to even; overflow gives an infinity. -/
def fmtPack (f : FloatFormat) (neg : Bool) (m : Nat) (e : Int) : Nat :=
  let mag := roundMag f.precision (fmtLeast f) m e
  fmtEncode f neg (if fmtInf f ≤ mag then fmtInf f else mag)

/-! ### REAL -/

/-- The `REAL` encoding of a sign and a magnitude field. -/
def rEncode (fm : Formats) (neg : Bool) (mag : Nat) : RealBits := fmtEncode fm.real neg mag

/-- The one NaN the operations produce (log 19). -/
def rNaN (fm : Formats) : RealBits := rEncode fm false (fmtNaN fm.real)

/-- ± infinity. -/
def rInf (fm : Formats) (neg : Bool) : RealBits := rEncode fm neg (fmtInf fm.real)

/-- ± 0.0. -/
def rZero (fm : Formats) (neg : Bool) : RealBits := rEncode fm neg 0

/-- The sign bit. -/
def rSign (fm : Formats) (x : RealBits) : Bool := fmtSign fm.real x

/-- Biased exponent and fraction as one number; it orders the magnitudes. -/
def rMag (fm : Formats) (x : RealBits) : Nat := fmtMag fm.real x

/-- A NaN. -/
def rIsNaN (fm : Formats) (x : RealBits) : Bool := fmtInf fm.real < rMag fm x

/-- Neither a NaN nor an infinity. -/
def rIsFinite (fm : Formats) (x : RealBits) : Bool := rMag fm x < fmtInf fm.real

/-- What a real register stands for. -/
def rExact (fm : Formats) (x : RealBits) : Exact := fmtExact fm.real x

/-- The `REAL` value nearest to `± m · 2^e`, ties to even; overflow gives an infinity. -/
def rPack (fm : Formats) (neg : Bool) (m : Nat) (e : Int) : RealBits := fmtPack fm.real neg m e

/-- `−x` by its sign bit (used only inside subtraction). -/
def rNeg (fm : Formats) (x : RealBits) : RealBits := rEncode fm (!rSign fm x) (rMag fm x)

/-- `abs` (R10). -/
def rAbs (fm : Formats) (x : RealBits) : RealBits := rEncode fm false (rMag fm x)

/-- `x + y`. -/
def rAdd (fm : Formats) (x y : RealBits) : RealBits :=
  match rExact fm x, rExact fm y with
  | .nan, _ => rNaN fm
  | _, .nan => rNaN fm
  | .inf s, .inf t => if s = t then rInf fm s else rNaN fm
  | .inf s, .fin _ _ _ => rInf fm s
  | .fin _ _ _, .inf t => rInf fm t
  | .fin s m e, .fin t n f =>
    let g := min e f
    let sum := signed s (m <<< (e - g).toNat) + signed t (n <<< (f - g).toNat)
    if sum = 0 then rZero fm (s && t) else rPack fm (sum < 0) sum.natAbs g

/-- `x - y`. -/
def rSub (fm : Formats) (x y : RealBits) : RealBits := rAdd fm x (rNeg fm y)

/-- `x * y`. -/
def rMul (fm : Formats) (x y : RealBits) : RealBits :=
  match rExact fm x, rExact fm y with
  | .nan, _ => rNaN fm
  | _, .nan => rNaN fm
  | .inf s, .inf t => rInf fm (s ^^ t)
  | .inf s, .fin t n _ => if n = 0 then rNaN fm else rInf fm (s ^^ t)
  | .fin s m _, .inf t => if m = 0 then rNaN fm else rInf fm (s ^^ t)
  | .fin s m e, .fin t n f => rPack fm (s ^^ t) (m * n) (e + f)

/-- `x / y`: the quotient to more bits than a real has, with the remainder folded into one extra low bit, rounded
once. -/
def rDiv (fm : Formats) (x y : RealBits) : RealBits :=
  match rExact fm x, rExact fm y with
  | .nan, _ => rNaN fm
  | _, .nan => rNaN fm
  | .inf _, .inf _ => rNaN fm
  | .inf s, .fin t _ _ => rInf fm (s ^^ t)
  | .fin s _ _, .inf t => rZero fm (s ^^ t)
  | .fin s m e, .fin t n f =>
    if n = 0 then (if m = 0 then rNaN fm else rInf fm (s ^^ t))
    else
      let k := fm.real.precision + 3 + Nat.log2 n
      let num := m <<< k
      let sticky := if num % n = 0 then 0 else 1
      rPack fm (s ^^ t) (2 * (num / n) + sticky) (e - f - (k : Int) - 1)

/-- The order-preserving key of a number that is no NaN; the two zeros have one key. -/
def rKey (fm : Formats) (x : RealBits) : Int := signed (rSign fm x) (rMag fm x)

/-- `x < y`; false when either is a NaN. -/
def rLt (fm : Formats) (x y : RealBits) : Bool := !rIsNaN fm x && !rIsNaN fm y && decide (rKey fm x < rKey fm y)

/-- `x <= y`; false when either is a NaN. -/
def rLe (fm : Formats) (x y : RealBits) : Bool := !rIsNaN fm x && !rIsNaN fm y && decide (rKey fm x ≤ rKey fm y)

/-- `x = y` as numbers; false when either is a NaN. -/
def rEq (fm : Formats) (x y : RealBits) : Bool := !rIsNaN fm x && !rIsNaN fm y && decide (rKey fm x = rKey fm y)

/-- `min(x, y)` (R10): IEEE-754 minimum, a NaN if either is one, −0.0 below +0.0 (log 18). -/
def rMin (fm : Formats) (x y : RealBits) : RealBits :=
  if rIsNaN fm x || rIsNaN fm y then rNaN fm
  else if rKey fm y < rKey fm x then y
  else if rKey fm x < rKey fm y then x
  else if rSign fm x then x else y

/-- `max(x, y)` (R10): IEEE-754 maximum, a NaN if either is one, −0.0 below +0.0 (log 18). -/
def rMax (fm : Formats) (x y : RealBits) : RealBits :=
  if rIsNaN fm x || rIsNaN fm y then rNaN fm
  else if rKey fm x < rKey fm y then y
  else if rKey fm y < rKey fm x then x
  else if rSign fm x then y else x

/-- `real(n)` for an integer (R9, R10): exact when it fits, else the nearest real. -/
def rOfInt (fm : Formats) (n : Int) : RealBits := rPack fm (n < 0) n.natAbs 0

/-- The `REAL` value nearest to the fraction `num/den`, `den > 0`: how a decimal literal is read (R130). -/
def rLit (fm : Formats) (num den : Nat) : RealBits := rDiv fm (rOfInt fm num) (rOfInt fm den)

/-- `floor(x)` (R10): the greatest integer not above x; a NaN or an infinity has none and gives a free value
(log 16). -/
def rFloor (fm : Formats) (x : RealBits) : Int :=
  match rExact fm x with
  | .fin s m e => if 0 ≤ e then signed s (m <<< e.toNat) else (signed s m) / (2 ^ (-e).toNat : Nat)
  | _ => Config.floorNonFinite x

/-- `trunc_u32(x)` (R10, R153): floor, as a u32. -/
def rTruncU32 (fm : Formats) (x : RealBits) : U32 := BitVec.ofInt 32 (rFloor fm x)

/-! ### BUF_FMT -/

/-- What a sample stands for. -/
def sExact (fm : Formats) (x : SampleBits) : Exact := fmtExact fm.buf x

/-- The `BUF_FMT` value nearest to `± m · 2^e`, ties to even; overflow gives an infinity. -/
def sPack (fm : Formats) (neg : Bool) (m : Nat) (e : Int) : SampleBits := fmtPack fm.buf neg m e

/-- The `BUF_FMT` encoding of a sign and a magnitude field. -/
def sEncode (fm : Formats) (neg : Bool) (mag : Nat) : SampleBits := fmtEncode fm.buf neg mag

/-- `f32(x)`: a real rounded to `BUF_FMT` (R10, R62). A NaN, reachable only from a NaN the host put into a buffer, gives
the one NaN of `BUF_FMT` (7FC00000 of binary32), for which the spec states no pattern (DESIGN CHOICE, log 19). -/
def toSample (fm : Formats) (x : RealBits) : SampleBits :=
  match rExact fm x with
  | .nan => sEncode fm false (fmtNaN fm.buf)
  | .inf s => sEncode fm s (fmtInf fm.buf)
  | .fin s m e => sPack fm s m e

/-- `real(v)` for a sample: exact (R62). -/
def ofSample (fm : Formats) (v : SampleBits) : RealBits :=
  match sExact fm v with
  | .nan => rNaN fm
  | .inf s => rInf fm s
  | .fin s m e => rPack fm s m e

/-- A binary64 number as a real: the number itself where `REAL` holds it, else the nearest (log 1). -/
def rOfBinary64 (fm : Formats) (bits : Nat) : RealBits :=
  match fmtExact binary64 bits with
  | .nan => rNaN fm
  | .inf s => rInf fm s
  | .fin s m e => rPack fm s m e

/-! ### Constants used in many rules -/

/-- 0.0, whose encoding is 0 in every format -/
def r0 : RealBits := 0
/-- 0.5 -/
def rHalf (fm : Formats) : RealBits := rPack fm false 1 (-1)
/-- 1.0 -/
def r1 (fm : Formats) : RealBits := rPack fm false 1 0
/-- 2.0 -/
def r2 (fm : Formats) : RealBits := rPack fm false 1 1

end Sys2Proof.Machine
end

