-- ==== Sys2Proof/Machine/Exp2.lean ====
section
/-!
DEFINITION. `EXP2` (00_scope.md R7, 40_unit_conversions.md R122, D4): an open parameter of which only the spec's bound
|EXP2(x)/2^x − 1| <= 0.01 may be assumed. `exp2Rounded` is R7's value, 2^x correctly rounded to `REAL`; `exp2` reads
the instance's function and keeps it to the bound or to that value (log 3).
-/
namespace Sys2Proof.Machine

/-- Bits of the fixed-point work of `exp2Rounded`. -/
def exp2Bits : Nat := 160

/-- floor(ln 2 · 2^160). -/
def ln2Fixed : Nat := 1013035739299659071135698605846798551586536899366

/-- Terms `k, k+1, …` of the series of e^t in fixed point, `n` of them, added to `sum`; `term` is the one before. -/
def expSeries (t : Nat) : Nat → Nat → Nat → Nat → Nat
  | 0, _, _, sum => sum
  | n + 1, k, term, sum =>
    let next := ((term * t) >>> exp2Bits) / k
    expSeries t n (k + 1) next (sum + next)

/-- 2^r in fixed point for r = `frac` / 2^160 in [0,1): the series of e^(r·ln 2). -/
def exp2Frac (frac : Nat) : Nat :=
  expSeries ((frac * ln2Fixed) >>> exp2Bits) 40 1 (1 <<< exp2Bits) (1 <<< exp2Bits)

/-- 2^x as `m · 2^k` before rounding, for x = `± m₀ · 2^e` with floor `n`. The fixed-point value is off by less than
2^-150; its lowest bit is set whenever 2^x is no power of two (log 3). -/
def exp2Fixed (s : Bool) (m₀ : Nat) (e n : Int) : Nat × Int :=
  if 0 ≤ e then (1, n)
  else
    let den : Nat := 2 ^ (-e).toNat
    let r : Nat := ((signed s m₀) % (den : Int)).toNat
    if r = 0 then (1, n) else (2 * exp2Frac ((r <<< exp2Bits) / den) + 1, n - (exp2Bits : Int) - 1)

/-- The floors of the arguments whose power of two is worked out: below them (−1080 for binary64) it rounds to 0.0,
above them (from 1025 on) no number of the format is within 1 % of it. -/
def exp2InRange (fm : Formats) (n : Int) : Bool := fmtLeast fm.real - 6 ≤ n && n < 2 ^ (fm.real.exponentBits - 1) + 1

/-- 2^x rounded to `REAL`: for binary64 R7's value of EXP2, the correctly rounded one, PRESUMED so where 2^x lies closer
than 2^-150 to a rounding boundary (log 3). -/
def exp2Rounded (fm : Formats) (x : RealBits) : RealBits :=
  match rExact fm x with
  | .nan => rNaN fm
  | .inf s => if s then rZero fm false else rInf fm false
  | .fin s m e =>
    let n := rFloor fm x
    if exp2InRange fm n then
      let c := exp2Fixed s m e n
      rPack fm false c.1 c.2
    else if n < 0 then rZero fm false else rInf fm false

/-- |y/2^x − 1| <= 0.01 (R122): y is finite and within 1 % of 2^x. -/
def exp2Within (fm : Formats) (x y : RealBits) : Bool :=
  match rExact fm x, rExact fm y with
  | .fin s m e, .fin _ k f =>
    let n := rFloor fm x
    let c := exp2Fixed s m e n
    let g := min c.2 f
    let cm := c.1 <<< (c.2 - g).toNat
    let ym := k <<< (f - g).toNat
    exp2InRange fm n && decide (99 * cm ≤ 100 * ym) && decide (100 * ym ≤ 101 * cm)
  | _, _ => false

/-- The finite real nearest to 2^x: the rounded one, or the largest there is. -/
def exp2Nearest (fm : Formats) (x : RealBits) : RealBits :=
  let c := exp2Rounded fm x
  if rIsFinite fm c then c else fmtInf fm.real - 1

/-- `y` may be EXP2(x): it is R7's value, the correctly rounded one, or R122's bound does not exclude it. Then it is no
negative number, and a NaN only if x is one; where some real is within 1 % of 2^x, so is y (R122); and where
none is, the bound fixes no value and y is free on the far side of the numbers it can hold of: at most 50
least numbers below them (50 · 2^-1074 for binary64), at least the greatest power of two or infinite above them
(2^1023). From 1024 to about 1024.014 R7's value is +infinity, which the bound excludes: both are admitted (DESIGN
CHOICE, log 3). -/
def exp2Allowed (fm : Formats) (x y : RealBits) : Bool :=
  if rIsNaN fm x then rIsNaN fm y || !rSign fm y
  else
    y = exp2Rounded fm x ||
      (!rIsNaN fm y && !rSign fm y &&
        (if exp2Within fm x (exp2Nearest fm x) then exp2Within fm x y
         else if rIsFinite fm (exp2Rounded fm x) then decide (rMag fm y ≤ 50)
         else decide (fmtInf fm.real - 2 ^ (fm.real.precision - 1) ≤ rMag fm y)))

/-- `EXP2(x)` of an instance (R122): its own function where `exp2Allowed` admits the value, else R7's, the correctly
rounded 2^x. -/
def exp2 (fm : Formats) (cfg : Config.Params) (x : RealBits) : RealBits :=
  if exp2Allowed fm x (cfg.exp2 x) then cfg.exp2 x else exp2Rounded fm x

end Sys2Proof.Machine
end

