-- ==== Sys2Proof/Machine/Rom.lean ====
section
/-!
DEFINITION. How the open tables of Config are read, with every entry and bound the spec does fix put in by
construction: the four LUTs (40_unit_conversions.md R125 to R128), ALG_ROM (43_algorithm_router.md R170, R181) and
the sample-and-hold draws (45_lfo.md R229).
-/
namespace Sys2Proof.Machine

/-- A table entry is a real number: an instance's entry that is a NaN or an infinity reads as 0.0 (log 4). -/
def tableReal (fm : Formats) (x : RealBits) : RealBits := if rIsFinite fm x then x else r0

/-- `LUT_COARSE[i]`: entry 1 is 0.0 (R125), the others are open. R125 gives them no range, and R239 calls every ratio
positive: the model admits every finite entry, so that an extreme one makes a RATIO 0.0 or +infinity (DESIGN CHOICE,
log 4). -/
def lutCoarse (fm : Formats) (cfg : Config.Params) (i : Nat) : RealBits :=
  if i = 1 then r0 else tableReal fm (cfg.coarse i)

/-- `LUT_AMP_MOD_SENSITIVITY[i]` (R126), open. -/
def lutAms (fm : Formats) (cfg : Config.Params) (i : Nat) : RealBits := tableReal fm (cfg.ams i)

/-- `LUT_PITCH_MOD_SENSITIVITY[i]` (R127), open. -/
def lutPms (fm : Formats) (cfg : Config.Params) (i : Nat) : RealBits := tableReal fm (cfg.pms i)

/-- How `x` compares with the cube root of i/16, exactly: `16 · x³` with `i`. What is no number counts as above. -/
def cubeRootCompare (fm : Formats) (i : Nat) (x : RealBits) : Ordering :=
  match rExact fm x with
  | .fin s m e =>
    compare (signed s (16 * m ^ 3) * 2 ^ (3 * e).toNat) ((i : Int) * 2 ^ (-(3 * e)).toNat)
  | _ => .gt

/-- `y` is the cube root of i/16 but for its rounding, which R128 leaves open: the cube root itself, or the `REAL`
number next below or next above it (DEDUCED, log 4). The encodings of positive numbers rise with the numbers, so the
next one's is one more. -/
def cubeRootAllowed (fm : Formats) (i : Nat) (y : RealBits) : Bool :=
  rLt fm r0 y &&
    (match cubeRootCompare fm i y with
    | .eq => true
    | .lt => cubeRootCompare fm i (y + 1) == .gt
    | .gt => cubeRootCompare fm i (y - 1) == .lt)

/-- The greatest number whose cube is at most `n`, from `r` on, with `k` binary digits still to be found. -/
def cubeRootDigits (n : Nat) : Nat → Nat → Nat
  | 0, r => r
  | k + 1, r => cubeRootDigits n k (if (r + 2 ^ k) ^ 3 ≤ n then r + 2 ^ k else r)

/-- The correctly rounded cube root of i/16, for i in 1..15: seven binary digits more than a real has, and one more that
is set where they are not all of it. -/
def cubeRootNearest (fm : Formats) (i : Nat) : RealBits :=
  let k := fm.real.precision + 7
  let q := cubeRootDigits (i * 2 ^ (3 * k - 4)) k 0
  rPack fm false (2 * q + (if q ^ 3 = i * 2 ^ (3 * k - 4) then 0 else 1)) (-(k : Int) - 1)

/-- `LUT_CUBE_ROOT[i]`: entries 0 and 16 are 0.0 and 1.0 (R128, R120). Entries 1 to 15 are the cube root of i/16, and
their rounding is open (R128): the instance's own entry where `cubeRootAllowed` admits it, else the nearest number
(log 4). -/
def lutCubeRoot (fm : Formats) (cfg : Config.Params) (i : Nat) : RealBits :=
  if i = 0 then r0
  else if i = 16 then r1 fm
  else if cubeRootAllowed fm i (cfg.cubeRoot i) then cfg.cubeRoot i
  else cubeRootNearest fm i

/-- The n-th draw from SH_DRAW: a real in [0,1) and nothing else is known of it (R229). -/
def shDraw (fm : Formats) (cfg : Config.Params) (n : Nat) : RealBits :=
  if rLe fm r0 (cfg.shDraw n) && rLt fm (cfg.shDraw n) (r1 fm) then cfg.shDraw n else r0

/-- Row 31 of ALG_ROM: `fb > out+ !` and five `none > out+` (R181). -/
def algRow31 : Six Byte := ⟨0x74#8, 0x04#8, 0x04#8, 0x04#8, 0x04#8, 0x04#8⟩

/-- `ALG_ROM[g]`: row 31 as R181 gives it, the others open (R170, D9). That they are well formed (R178) is
`Machine.romAdmissible`, which holds of the instance that runs. -/
def algRow (cfg : Config.Params) (g : Nat) : Six Byte := if g = 31 then algRow31 else Six.ofFn (cfg.algRom g)

end Sys2Proof.Machine
end

