-- ==== Sys2Proof/Syntax.lean ====
section
/-!
DEFINITION. The instruction set: one constructor of `Instr` per row of spec/opcode_table.json, in the table's order
(30_encoding.md R80: format R routing opcodes, format K chain calls, format C host commands), and the packets that
carry them.
-/
namespace Sys2Proof

/-- The operands of RENDER (R86, R240). -/
structure RenderArgs where
  /-- key held -/
  gate : Bool
  /-- scrubbing mode -/
  sustain : Bool
  /-- MIDI note number, fractions allowed -/
  note : RealBits
  /-- key velocity, contract [0,1] -/
  velocity : RealBits
  /-- contract [0,1], 0.5 neutral -/
  brightness : RealBits
  /-- "envelopeControl", contract [0,1] -/
  envctl : RealBits
  /-- external pitch modulation, octaves -/
  pitchMod : RealBits
  /-- external amplitude modulation -/
  ampMod : RealBits
  /-- block size B -/
  block : Int
  /-- sample time of the scrubbed evaluation, read only when `sustain` -/
  scrubT : RealBits
  /-- gate duration of the scrubbed evaluation, read only when `sustain` -/
  scrubG : RealBits
deriving DecidableEq, Repr

/-- The instructions of spec/opcode_table.json. -/
inductive Instr where
  /-- OPN: operator with no modulation input (R173) -/
  | opn (dst : Slot) (add tap : Bool)
  /-- OPX1: operator modulated by slot 1 (R174) -/
  | opx1 (dst : Slot) (add tap : Bool)
  /-- OPX2: operator modulated by slot 2 (R174) -/
  | opx2 (dst : Slot) (add tap : Bool)
  /-- OPF: operator modulated by the feedback history (R175) -/
  | opf (dst : Slot) (add tap : Bool)
  /-- CH1.NONE.W (R158) -/
  | ch1NoneW (first : Fin 6) (inp out : Slot)
  /-- CH1.NONE.A (R159) -/
  | ch1NoneA (first : Fin 6) (inp out : Slot)
  /-- CH1.EXT.W (R160) -/
  | ch1ExtW (first : Fin 6) (inp out : Slot)
  /-- CH1.EXT.A (R161) -/
  | ch1ExtA (first : Fin 6) (inp out : Slot)
  /-- CH1.FB0.W (R162) -/
  | ch1Fb0W (first : Fin 6) (inp out : Slot)
  /-- CH1.FB0.A (R163) -/
  | ch1Fb0A (first : Fin 6) (inp out : Slot)
  /-- CH2.FB1.A (R164) -/
  | ch2Fb1A (first : Fin 6) (inp out : Slot)
  /-- CH3.FB2.A (R165) -/
  | ch3Fb2A (first : Fin 6) (inp out : Slot)
  /-- VRESET (R236) -/
  | vreset (sr : RealBits)
  /-- PLOAD (R262) -/
  | pload (img : List Byte)
  /-- SETUP (R238) -/
  | setup
  /-- RENDER (R240) -/
  | render (args : RenderArgs)
  /-- OPRESET (R146) -/
  | opreset (k : Int)
  /-- LCFG (R217) -/
  | lcfg
  /-- LRESET (R219) -/
  | lreset
  /-- LSTEP (R220) -/
  | lstep (scale : RealBits)
  /-- LSCRUB (R222) -/
  | lscrub (sample : RealBits)
  /-- BUNPACK (R266) -/
  | bunpack (bank : List Byte)
deriving DecidableEq, Repr

/-- The three code spaces an instruction word can belong to (R80). Each numbers its codes from 0. -/
inductive Format where
  /-- R: a routing opcode, one byte of a row of ALG_ROM (R81) -/
  | routing
  /-- K: a chain call, keyed by the table's selector (R85) -/
  | chain
  /-- C: a host command (R86) -/
  | command
deriving DecidableEq, Repr

/-- A typed operand carried beside a code (R80, R86; log 12). -/
inductive Operand where
  | real (x : RealBits)
  | flag (b : Bool)
  | int (n : Int)
  | bytes (l : List Byte)
deriving DecidableEq, Repr

/-- One instruction as it reaches the block: which code space, the 8-bit code, the operands beside it (log 12). -/
structure Packet where
  format : Format
  code : Byte
  operands : List Operand
deriving DecidableEq, Repr

end Sys2Proof
end

