-- ==== Sys2Proof/Machine/State.lean ====
section
/-!
DEFINITION. The architectural state (10_state.md R20 to R39), the state right after reset (70_reset_and_hazards.md
R302), and the reasons a step can stop. `none` in an `Option` register is the spec's own "unwritten" (R9, log 9).
-/
namespace Sys2Proof.Machine

/-- One operator: `OP[k].PHASE` and `OP[k].AMP` (R21). -/
structure Oper where
  phase : U32
  amp : RealBits
deriving DecidableEq, Repr, Inhabited

/-- An envelope's `START`: a real, or the sentinel PREVIOUS_LEVEL (R9, R23). -/
inductive Start where
  | previousLevel
  | level (x : RealBits)
deriving DecidableEq, Repr, Inhabited

/-- One envelope unit (R23). `RESHAPE` is hard-wired and not stored: see `EnvUnit.reshape`. -/
structure Env where
  stage : Fin 4
  phase : RealBits
  start : Start
  incr : Four (Option RealBits)
  level : Four (Option RealBits)
  scale : RealBits
deriving DecidableEq, Repr, Inhabited

/-- The keyboard-scaling registers `P.OP[k].KS.*` (R29): break point, left and right depth, left and right curve. -/
structure KeyScaling where
  bp : Nat
  ld : Nat
  rd : Nat
  lc : Nat
  rc : Nat
deriving DecidableEq, Repr, Inhabited

/-- The per-operator control registers `P.OP[k].*` (R29). -/
structure OpPatch where
  rate : Four Nat
  level : Four Nat
  ks : KeyScaling
  rs : Nat
  ams : Nat
  vs : Nat
  olevel : Nat
  mode : Nat
  coarse : Nat
  fine : Nat
  detune : Nat
deriving DecidableEq, Repr, Inhabited

/-- The control registers `P.LFO.*` (R30). -/
structure LfoPatch where
  rate : Nat
  delay : Nat
  pmd : Nat
  amd : Nat
  sync : Nat
  wave : Nat
  pms : Nat
deriving DecidableEq, Repr, Inhabited

/-- The decoded patch, all `P.*` control registers (R28 to R31). -/
structure Patch where
  op : Six OpPatch
  prate : Four Nat
  plevel : Four Nat
  alg : Nat
  fb : Nat
  resetPhase : Nat
  transpose : Nat
  lfo : LfoPatch
  name : List Byte
  active : BitVec 6
deriving DecidableEq, Repr, Inhabited

/-- The LFO registers `L.*` (R35). `delayInc0`, `delayInc1` are `L.DELAY_INC[0]`, `L.DELAY_INC[1]`. -/
structure Lfo where
  phase : RealBits
  freq : Option RealBits
  delayPhase : RealBits
  delayInc0 : Option RealBits
  delayInc1 : Option RealBits
  sh : RealBits
  value : RealBits
  amd : RealBits
  pmd : RealBits
  wave : Nat
  resetPhase : Bool
  phaseInt : Int
deriving DecidableEq, Repr, Inhabited

/-- The buffer memory `BUF[s][i]` (R33, R60): pairs of a sample address and its value, addresses strictly rising; an
address that is not listed is unwritten (R63). -/
abbrev Memory := List (Nat × SampleBits)

/-- What a running RENDER has bound for its chain calls (R151, R179) and the router index (R37). It exists only inside
a RENDER (log 14). -/
structure RenderCtx where
  /-- the router index, 0..6 -/
  index : Nat
  /-- B -/
  block : Nat
  /-- f[0..5], cycles per sample -/
  f : Six RealBits
  /-- a[0..5], linear -/
  a : Six RealBits
  /-- the row the router walks -/
  row : Six Byte
deriving DecidableEq, Repr, Inhabited

/-- The four error kinds (R281). -/
inductive ErrorKind where
  /-- raised by BUNPACK (R284) -/
  | badBankLength
  /-- raised by BUNPACK (R286) -/
  | badBankHeader
  /-- raised by PLOAD (R285) -/
  | badVoiceLength
  /-- never raised (R282) -/
  | badOperatorIndex
deriving DecidableEq, Repr

/-- A command's return value (R281): ok, ok with BUNPACK's images (R266), or one error kind. -/
inductive Result where
  | ok
  | images (l : List (List Byte))
  | error (e : ErrorKind)
deriving DecidableEq, Repr

/-- One host operation waiting to be done (R13, R64; log 10). -/
inductive HostOp where
  /-- an instruction packet -/
  | packet (p : Packet)
  /-- a write of one sample through the host's buffer port (R64) -/
  | writeSample (slot index : Nat) (v : SampleBits)
deriving DecidableEq, Repr

/-- The machine stops with a fault. -/
inductive Fault where
  /-- Raised by the host's buffer port on a slot above 3 or an index at or above BMAX: the address does not exist
  (R60). Safe: the model stops where the spec gives nothing. -/
  | noSuchSample
deriving DecidableEq, Repr

/-- A situation the spec refuses: it has no defined result (60_exceptions.md R280, R290). Every one is safe: the model
stops where the spec gives no effect. -/
inductive Refusal where
  /-- raised by `exec` for an instruction with no meaning in the model; safe -/
  | notModelled (mnemonic : String)
  /-- raised by every command but VRESET and BUNPACK, and by the host's port, before the first VRESET (R300); safe -/
  | notConstructed
  /-- raised by VRESET: `sr` NaN, infinite, zero or negative (R236); safe -/
  | sampleRateOutOfDomain
  /-- raised by SETUP, RENDER, LCFG with PATCH_VALID = 0 (R238, R240, R217), and by a chain call with a feedback
  source that would read an unwritten `P.FB` (R28); safe -/
  | noPatchLoaded
  /-- raised by RENDER: a NaN or infinite real operand, velocity < 0, or scrub operands out of domain (R240); safe -/
  | renderOperandOutOfDomain
  /-- raised by RENDER: B outside 1..BMAX (R240); safe -/
  | blockSizeOutOfDomain
  /-- raised by RENDER: NOTE unwritten at step 5 (R246); safe -/
  | noteUnwritten
  /-- raised by RENDER and by a routing opcode: the row is not well formed, or its chain has no specialization
  (R178, R92); safe -/
  | rowIllFormed
  /-- raised by RENDER: an envelope unit whose LEVEL or INCR is unwritten (R24, R201 "else refused", R205,
  93_implementation_defined.md U4); in no state a run reaches, since RENDER begins with SETUP; safe -/
  | envelopeUnwritten
  /-- raised by RENDER: RATIO or HEADROOM unwritten (R26, 10_state.md preamble, 93_implementation_defined.md U4); in no
  state a run reaches, since RENDER begins with SETUP; safe -/
  | setupUnwritten
  /-- raised by a chain call: BufRead of an unwritten sample (R63); safe -/
  | sampleUnwritten
  /-- raised by OPRESET: k outside 0..5 (R146); safe -/
  | operatorIndexOutOfDomain
  /-- raised by LSTEP and LSCRUB: L.FREQ or L.DELAY_INC unwritten (R220, R222, R290, 93_implementation_defined.md U4);
  safe -/
  | lfoNotConfigured
  /-- raised by LSTEP: scale negative, NaN or infinite (R220); safe -/
  | scaleOutOfDomain
  /-- raised by LSCRUB: sample negative, NaN or infinite (R222); safe -/
  | sampleOutOfDomain
  /-- raised by a chain call: f negative or NaN, or a not finite (R151); safe -/
  | callOperandOutOfDomain
  /-- raised by a chain call that names operators beyond 5 (R85, R290); safe -/
  | callOutOfRange
  /-- raised by a chain call or a routing opcode outside a RENDER: only the router issues them (42_chain_renderer.md,
  opening paragraph; log 14); safe -/
  | outsideRender
  /-- raised by a routing opcode when the router index has reached 6 (R37); safe -/
  | routerAtEnd
  /-- raised by the step: a packet with an unassigned command code (R93); safe -/
  | unassignedCommand
  /-- raised by the step: a routing opcode with a reserved bit set (R92); safe -/
  | reservedOpcode
  /-- raised by the step: a selector of none of the eight specializations (R150, R290); safe -/
  | unassignedSelector
  /-- raised by the step: operands that are not the code's (R86; log 12); safe -/
  | malformedOperands
deriving DecidableEq, Repr

/-- The state of the block. -/
structure State where
  /-- a VRESET has been executed (R300) -/
  constructed : Bool
  /-- `SAMPLE_RATE` (R32) -/
  sampleRate : RealBits
  /-- `OP[0..5]` (R21) -/
  ops : Six Oper
  /-- `ENV[0..5]` (R23) -/
  env : Six Env
  /-- `PENV` (R23) -/
  penv : Env
  /-- `FB_HIST[0]`, the newer (R25) -/
  fb0 : RealBits
  /-- `FB_HIST[1]` (R25) -/
  fb1 : RealBits
  /-- `NOTE` (R25) -/
  note : Option RealBits
  /-- `NVEL` (R25) -/
  nvel : Option RealBits
  /-- `RATIO[0..5]` (R25) -/
  ratio : Six (Option RealBits)
  /-- `HEADROOM[0..5]` (R25) -/
  headroom : Six (Option RealBits)
  /-- `LEVEL_OUT[0..5]` (R25) -/
  levelOut : Six (Option RealBits)
  /-- `GATE_PREV` (R27) -/
  gatePrev : Bool
  /-- `DIRTY` (R27) -/
  dirty : Bool
  /-- `PATCH_VALID` (R27) -/
  patchValid : Bool
  /-- the control registers `P.*` (R28) -/
  patch : Option Patch
  /-- `BUF` (R33) -/
  buf : Memory
  /-- the LFO registers `L.*` (R35) -/
  lfo : Lfo
  /-- the context of a running RENDER (R37, R151); none between commands -/
  rc : Option RenderCtx
  /-- the model's own: how many sample-and-hold draws have been taken (R229, log 6) -/
  draws : Nat
  /-- the model's own: host operations not yet done, oldest first (log 10) -/
  port : List HostOp
  /-- the model's own: the return value of the last command (R281, log 11) -/
  result : Result
  /-- the model's own: `REAL` and `BUF_FMT` of the instance (R7). R20 calls them parameters of the step and no state;
  they travel here because `step` takes nothing but the state, and no instruction writes them (log 1, log 2) -/
  formats : Formats
deriving DecidableEq, Repr

/-- An envelope unit after reset with the given SCALE (R24). -/
def Env.reset (fm : Formats) (scale : RealBits) : Env :=
  { stage := 3
    phase := r1 fm
    start := .previousLevel
    incr := ⟨none, none, none, none⟩
    level := ⟨none, none, none, none⟩
    scale := scale }

/-- The LFO registers after reset (R35, R216). -/
def Lfo.reset : Lfo :=
  { phase := r0, freq := none, delayPhase := r0, delayInc0 := none, delayInc1 := none, sh := r0,
    value := r0, amd := r0, pmd := r0, wave := 0, resetPhase := false, phaseInt := 0 }

/-- The machine right after reset (R302): every element at the value R302 states after `VRESET 44100.0`, the sample
rate of R7 (DESIGN CHOICE, log 8); nothing pending at the port, no draw taken, and the
formats R7 uses (DESIGN CHOICE, log 1, log 2). Every SCALE is 1.0 = 44100/44100. -/
def State.reset : State :=
  { constructed := true
    sampleRate := rLit ieee 44100 1
    ops := Six.ofFn fun _ => ⟨0#32, r0⟩
    env := Six.ofFn fun _ => Env.reset ieee (r1 ieee)
    penv := Env.reset ieee (r1 ieee)
    fb0 := r0
    fb1 := r0
    note := none
    nvel := none
    ratio := Six.ofFn fun _ => none
    headroom := Six.ofFn fun _ => none
    levelOut := Six.ofFn fun _ => none
    gatePrev := false
    dirty := true
    patchValid := false
    patch := none
    buf := []
    lfo := Lfo.reset
    rc := none
    draws := 0
    port := []
    result := .ok
    formats := ieee }

/-- The block before the first VRESET (R300): nothing it holds is defined, and no operation reads it: every operation
but VRESET and BUNPACK is refused while `constructed` is false. -/
def State.powerUp : State := { State.reset with constructed := false }

end Sys2Proof.Machine
end

