-- ==== Sys2Proof/Machine/Convert.lean ====
section
/-!
DEFINITION. The unit conversions (40_unit_conversions.md R110 to R124): pure functions from the 0..99 parameter space to
levels, increments, frequencies and ratios. Real arithmetic stands in the order the spec writes it (R10).
-/
namespace Sys2Proof.Machine

/-- `operator_level(L)`, 0..99 to 0..127 (R111). -/
def operatorLevel (l : Nat) : Nat :=
  if l < 15 then (l * (36 - l)) / 8 else if l < 20 then l + 27 else l + 28

/-- `pitch_envelope_level(L)`, octaves (R112). -/
def pitchEnvelopeLevel (fm : Formats) (l : Nat) : RealBits :=
  let x := rDiv fm (rOfInt fm ((l : Int) - 50)) (rLit fm 32 1)
  let tail := rMax fm (rSub fm (rAdd fm (rAbs fm x) (rLit fm 2 100)) (r1 fm)) r0
  rMul fm x (rAdd fm (r1 fm) (rMul fm (rMul fm tail tail) (rLit fm 53056 10000)))

/-- `operator_envelope_increment(R)` (R113). -/
def operatorEnvelopeIncrement (fm : Formats) (r : Nat) : RealBits :=
  let q := (r * 41) / 64
  let mantissa := 4 + (q &&& 3)
  let exponent := 2 + (q >>> 2)
  rDiv fm (rOfInt fm ((mantissa <<< exponent : Nat) : Int)) (rLit fm 16777216 1)

/-- `pitch_envelope_increment(R)`, with r⁴ formed as `((r*r)*r)*r` (R114). -/
def pitchEnvelopeIncrement (fm : Formats) (rate : Nat) : RealBits :=
  let r := rDiv fm (rOfInt fm rate) (rLit fm 100 1)
  let r4 := rMul fm (rMul fm (rMul fm r r) r) r
  rDiv fm (rAdd fm (r1 fm) (rMul fm (rMul fm (rLit fm 192 1) r) (rAdd fm r4 (rDiv fm (r1 fm) (rLit fm 3 1)))))
    (rMul fm (rLit fm 213 10) (rLit fm 44100 1))

/-- `MIN_LFO_FREQUENCY` = 0.005865 (R6). -/
def minLfoFrequency (fm : Formats) : RealBits := rLit fm 5865 1000000

/-- `lfo_frequency(R)`, Hz; both divisions are integer (R115, D26). -/
def lfoFrequency (fm : Formats) (r : Nat) : RealBits :=
  let s := if r = 0 then 1 else (r * 165) / 64
  let s := s * (if s < 160 then 11 else 11 + (s - 160) / 16)
  rMul fm (rOfInt fm s) (minLfoFrequency fm)

/-- `lfo_delay(D)`, the onset and the ramp increment (R116). -/
def lfoDelay (fm : Formats) (delay : Nat) : RealBits × RealBits :=
  if delay = 0 then (rLit fm 100000 1, rLit fm 100000 1)
  else
    let d := 99 - delay
    let scaled := (16 + (d &&& 15)) <<< (1 + (d >>> 4))
    (rMul fm (rOfInt fm scaled) (minLfoFrequency fm),
      rMul fm (rOfInt fm (max 128 (scaled &&& 0xFF80) : Nat)) (minLfoFrequency fm))

/-- `rate_scaling(note, rs)` (R117). -/
def rateScaling (fm : Formats) (cfg : Config.Params) (note : RealBits) (rs : Nat) : RealBits :=
  exp2 fm cfg (rDiv fm (rMul fm (rOfInt fm rs) (rSub fm (rDiv fm note (rLit fm 3 1)) (rLit fm 7 1))) (rLit fm 32 1))

/-- `keyboard_scaling(note, ks)` (R118). -/
def keyboardScaling (fm : Formats) (note : RealBits) (ks : KeyScaling) : RealBits :=
  let x := rSub fm (rSub fm note (rOfInt fm ks.bp)) (rLit fm 15 1)
  let right := rLt fm r0 x
  let curve := if right then ks.rc else ks.lc
  let depth := if right then ks.rd else ks.ld
  let t := rAbs fm x
  let t :=
    if curve = 1 ∨ curve = 2 then
      let u := rMin fm (rMul fm t (rLit fm 10467 1000000)) (r1 fm)
      rMul fm (rMul fm (rMul fm u u) u) (rLit fm 96 1)
    else t
  let t := if curve < 2 then rSub fm r0 t else t
  rMul fm (rMul fm t (rOfInt fm depth)) (rLit fm 2677 100000)

/-- `pow2_fast(x, order)` (R121). Its integer power is EXP2's too, the eighth site of R122, where R121 writes an exact
scaling (DEDUCED, log 31). No data path of the block uses it. -/
def pow2Fast (fm : Formats) (cfg : Config.Params) (x : RealBits) (order : Nat) : RealBits :=
  if order = 1 then exp2 fm cfg x
  else
    let xi := rFloor fm x
    let xf := rSub fm x (rOfInt fm xi)
    let p :=
      if order = 2 then rAdd fm (r1 fm) (rMul fm xf (rAdd fm (rLit fm 6565 10000) (rMul fm (rLit fm 3435 10000) xf)))
      else
        rAdd fm (r1 fm) (rMul fm xf (rAdd fm (rLit fm 6958 10000)
          (rMul fm xf (rAdd fm (rLit fm 2251 10000) (rMul fm (rLit fm 791 10000) xf)))))
    rMul fm p (exp2 fm cfg (rOfInt fm xi))

/-- The first loop of `semitones_to_ratio_safe`: take off 120 semitones while more than 120 are left, at most `n`
times. -/
def chunksDown (fm : Formats) : Nat → RealBits → RealBits → RealBits × RealBits
  | 0, s, scale => (s, scale)
  | n + 1, s, scale =>
    if rLt fm (rLit fm 120 1) s then chunksDown fm n (rSub fm s (rLit fm 120 1)) (rMul fm scale (rLit fm 1024 1))
    else (s, scale)

/-- The second loop: add 120 semitones while fewer than −120 are left, at most `n` times. -/
def chunksUp (fm : Formats) : Nat → RealBits → RealBits → RealBits × RealBits
  | 0, s, scale => (s, scale)
  | n + 1, s, scale =>
    if rLt fm s (rNeg fm (rLit fm 120 1)) then
      chunksUp fm n (rAdd fm s (rLit fm 120 1)) (rMul fm scale (rDiv fm (r1 fm) (rLit fm 1024 1)))
    else (s, scale)

/-- `semitones_to_ratio_safe(s)` (R123). After 128 chunks the scale is already +infinity (or 0.0), and every further
chunk leaves the product so: the limit is taken there, also where a chunk no longer changes `s` (log 17). -/
def semitonesToRatioSafe (fm : Formats) (cfg : Config.Params) (s : RealBits) : RealBits :=
  let down := chunksDown fm 128 s (r1 fm)
  if rLt fm (rLit fm 120 1) down.1 then rInf fm false
  else
    let up := chunksUp fm 128 down.1 down.2
    if rLt fm up.1 (rNeg fm (rLit fm 120 1)) then r0
    else rMul fm up.2 (exp2 fm cfg (rDiv fm up.1 (rLit fm 12 1)))

/-- `frequency_ratio(op)` (R119). -/
def frequencyRatio (fm : Formats) (cfg : Config.Params) (op : OpPatch) : RealBits :=
  let base :=
    if op.mode = 0 then lutCoarse fm cfg op.coarse
    else rMul fm (rOfInt fm ((op.coarse &&& 3) * 100 + op.fine : Nat)) (rLit fm 39864 100000)
  let fineMult :=
    if op.mode = 0 ∧ op.fine ≠ 0 then rAdd fm (r1 fm) (rMul fm (rLit fm 1 100) (rOfInt fm op.fine)) else r1 fm
  let base := rAdd fm base (rMul fm (rOfInt fm ((op.detune : Int) - 7)) (rLit fm 15 1000))
  rMul fm (semitonesToRatioSafe fm cfg base) fineMult

/-- `normalize_velocity(v)` for v not below 0 (R120, D27); from v·16 = 16 on, entry 16 is read. -/
def normalizeVelocity (fm : Formats) (cfg : Config.Params) (v : RealBits) : RealBits :=
  let x := rMul fm v (rLit fm 16 1)
  let c :=
    if rLe fm (rLit fm 16 1) x then lutCubeRoot fm cfg 16
    else
      let i := (rFloor fm x).toNat
      rAdd fm (lutCubeRoot fm cfg i)
        (rMul fm (rSub fm (lutCubeRoot fm cfg (i + 1)) (lutCubeRoot fm cfg i)) (rSub fm x (rOfInt fm i)))
  rMul fm (rLit fm 16 1) (rSub fm c (rLit fm 918 1000))

end Sys2Proof.Machine
end

