-- ==== Sys2Proof/WellFormed.lean ====
section
/-!
DEFINITION. Which instructions the spec's encodings can express (30_encoding.md R85, R60). Everything else about an
operand (a sample rate above 0, an operator index 0..5, a block size) is a domain that the command itself checks and
refuses (60_exceptions.md R290), not a matter of form.
-/
namespace Sys2Proof

/-- The operators `first .. first + n − 1` of a chain exist (R85); true of every chain of length 1. -/
def chainFits (first : Fin 6) (n : Nat) : Bool := first.val + n ≤ 6

/-- A slot an operator can read: a source field of 1 or 2 (R60, R82). A call that names another runs all the same (log
30). -/
def readableSlot (s : Slot) : Bool := s = 1#2 || s = 2#2

/-- An instruction the encodings of 30_encoding.md can express. -/
def Instr.wellFormed : Instr → Bool
  | .opn _ _ _ => true
  | .opx1 _ _ _ => true
  | .opx2 _ _ _ => true
  | .opf _ _ _ => true
  | .ch1NoneW _ _ _ => true
  | .ch1NoneA _ _ _ => true
  | .ch1ExtW _ inp _ => readableSlot inp
  | .ch1ExtA _ inp _ => readableSlot inp
  | .ch1Fb0W _ _ _ => true
  | .ch1Fb0A _ _ _ => true
  | .ch2Fb1A first _ _ => chainFits first 2
  | .ch3Fb2A first _ _ => chainFits first 3
  | .vreset _ => true
  | .pload _ => true
  | .setup => true
  | .render _ => true
  | .opreset _ => true
  | .lcfg => true
  | .lreset => true
  | .lstep _ => true
  | .lscrub _ => true
  | .bunpack _ => true

end Sys2Proof
end

