-- ==== Sys2Proof/Decode.lean ====
section
/-!
DEFINITION. The decoder and the encoder of the three code spaces (30_encoding.md R80 to R86), the fields of a routing
opcode (R81, R82), the spec's assembler text for one (R95), and `decodeTableWord`, the decoder read on the bare words
of spec/opcode_table.json. Total: every packet decodes to an instruction or is rejected by name.
-/
namespace Sys2Proof

/-! ### Fields of a routing opcode (R81, R82) -/

/-- `dst = o[1:0]`: the slot written; 0 is OUTPUT. -/
def opcodeDst (o : Byte) : Slot := o.extractLsb' 0 2

/-- `add = o[2]`: 1 adds into the destination, 0 overwrites it. -/
def opcodeAdd (o : Byte) : Bool := o.getLsbD 2

/-- `src = o[5:4]`: 0 no modulation, 1 and 2 a slot, 3 the feedback history. -/
def opcodeSrc (o : Byte) : Slot := o.extractLsb' 4 2

/-- `tap = o[6]`: this operator's output taps the feedback history. -/
def opcodeTap (o : Byte) : Bool := o.getLsbD 6

/-- Bits 7 and 3 are reserved and must be 0 (R81, R92). -/
def opcodeReservedClear (o : Byte) : Bool := !o.getLsbD 7 && !o.getLsbD 3

/-- The opcode byte with the given fields, reserved bits 0 (R81). -/
def routingByte (src dst : Slot) (add tap : Bool) : Byte :=
  (0#1 ++ BitVec.ofBool tap ++ src ++ 0#1 ++ BitVec.ofBool add ++ dst : BitVec 8)

/-! ### Decoding -/

/-- Why a packet is no instruction. -/
inductive DecodeError where
  /-- a routing opcode with bit 7 or bit 3 set (R83, R92) -/
  | reservedOpcode
  /-- a selector of none of the eight specializations (R85, R150) -/
  | unassignedSelector
  /-- a command code not in the table of R86 (R93) -/
  | unassignedCommand
  /-- the operands beside the code are not those R85 or R86 gives it (log 12) -/
  | malformedOperands
deriving DecidableEq, Repr

/-- Format R: the match and mask of R83. -/
def decodeRouting (o : Byte) : Except DecodeError Instr :=
  if o &&& 0xB8#8 = 0x00#8 then .ok (.opn (opcodeDst o) (opcodeAdd o) (opcodeTap o))
  else if o &&& 0xB8#8 = 0x10#8 then .ok (.opx1 (opcodeDst o) (opcodeAdd o) (opcodeTap o))
  else if o &&& 0xB8#8 = 0x20#8 then .ok (.opx2 (opcodeDst o) (opcodeAdd o) (opcodeTap o))
  else if o &&& 0xB8#8 = 0x30#8 then .ok (.opf (opcodeDst o) (opcodeAdd o) (opcodeTap o))
  else .error .reservedOpcode

/-- The three operands of a chain call (R85): an operator index and two slot numbers, when they are in range. -/
def chainOperands (ops : List Operand) : Option (Fin 6 × Slot × Slot) :=
  match ops with
  | [.int (.ofNat first), .int (.ofNat inp), .int (.ofNat out)] =>
    if h : first < 6 then
      if inp < 4 ∧ out < 4 then some (⟨first, h⟩, BitVec.ofNat 2 inp, BitVec.ofNat 2 out) else none
    else none
  | _ => none

/-- The constructor a selector of R85 keys: `((n − 1) << 4) | ((S + 2) << 1) | A` over six bits. -/
def selectorCtor (sel : Byte) : Option (Fin 6 → Slot → Slot → Instr) :=
  if sel = 0x00#8 then some .ch1ExtW
  else if sel = 0x01#8 then some .ch1ExtA
  else if sel = 0x02#8 then some .ch1NoneW
  else if sel = 0x03#8 then some .ch1NoneA
  else if sel = 0x04#8 then some .ch1Fb0W
  else if sel = 0x05#8 then some .ch1Fb0A
  else if sel = 0x17#8 then some .ch2Fb1A
  else if sel = 0x29#8 then some .ch3Fb2A
  else none

/-- Format K: the record of R85. A record no row compiles to is decoded too, among them CH1.EXT.* reading slot 0 or 3
(DESIGN CHOICE, log 30). -/
def decodeChain (sel : Byte) (ops : List Operand) : Except DecodeError Instr :=
  match selectorCtor sel with
  | none => .error .unassignedSelector
  | some ctor =>
    match chainOperands ops with
    | none => .error .malformedOperands
    | some (first, inp, out) => .ok (ctor first inp out)

/-- The codes of R86's table. -/
def isCommandCode (code : Byte) : Bool :=
  [0x01#8, 0x02#8, 0x03#8, 0x04#8, 0x05#8, 0x08#8, 0x09#8, 0x0A#8, 0x0B#8, 0x10#8].contains code

/-- A command and its typed operands (R86), none when the operands are not the command's. -/
def commandOf (code : Byte) (ops : List Operand) : Option Instr :=
  if code = 0x01#8 then
    match ops with
    | [.real sr] => some (.vreset sr)
    | _ => none
  else if code = 0x02#8 then
    match ops with
    | [.bytes img] => some (.pload img)
    | _ => none
  else if code = 0x03#8 then
    match ops with
    | [] => some .setup
    | _ => none
  else if code = 0x04#8 then
    match ops with
    | [.flag gate, .flag sustain, .real note, .real velocity, .real brightness, .real envctl, .real pitchMod,
        .real ampMod, .int block, .real scrubT, .real scrubG] =>
      some (.render ⟨gate, sustain, note, velocity, brightness, envctl, pitchMod, ampMod, block, scrubT, scrubG⟩)
    | _ => none
  else if code = 0x05#8 then
    match ops with
    | [.int k] => some (.opreset k)
    | _ => none
  else if code = 0x08#8 then
    match ops with
    | [] => some .lcfg
    | _ => none
  else if code = 0x09#8 then
    match ops with
    | [] => some .lreset
    | _ => none
  else if code = 0x0A#8 then
    match ops with
    | [.real scale] => some (.lstep scale)
    | _ => none
  else if code = 0x0B#8 then
    match ops with
    | [.real sample] => some (.lscrub sample)
    | _ => none
  else if code = 0x10#8 then
    match ops with
    | [.bytes bank] => some (.bunpack bank)
    | _ => none
  else none

/-- Format C: R86's table; a code not in it is unassigned (R92, R93). -/
def decodeCommand (code : Byte) (ops : List Operand) : Except DecodeError Instr :=
  if isCommandCode code then
    match commandOf code ops with
    | some i => .ok i
    | none => .error .malformedOperands
  else .error .unassignedCommand

/-- The decoder: each format has its own code space (R80). A routing opcode carries no operands beside it. -/
def decode (p : Packet) : Except DecodeError Instr :=
  match p.format with
  | .routing => if p.operands = [] then decodeRouting p.code else .error .malformedOperands
  | .chain => decodeChain p.code p.operands
  | .command => decodeCommand p.code p.operands

/-! ### Encoding -/

/-- A routing opcode's packet. -/
def routingPacket (o : Byte) : Packet := ⟨.routing, o, []⟩

/-- A chain call's packet. -/
def chainPacket (sel : Byte) (first : Fin 6) (inp out : Slot) : Packet :=
  ⟨.chain, sel, [.int first.val, .int inp.toNat, .int out.toNat]⟩

/-- The packet of an instruction, from the tables of R81 to R86. -/
def encode : Instr → Packet
  | .opn dst add tap => routingPacket (routingByte 0#2 dst add tap)
  | .opx1 dst add tap => routingPacket (routingByte 1#2 dst add tap)
  | .opx2 dst add tap => routingPacket (routingByte 2#2 dst add tap)
  | .opf dst add tap => routingPacket (routingByte 3#2 dst add tap)
  | .ch1NoneW first inp out => chainPacket 0x02#8 first inp out
  | .ch1NoneA first inp out => chainPacket 0x03#8 first inp out
  | .ch1ExtW first inp out => chainPacket 0x00#8 first inp out
  | .ch1ExtA first inp out => chainPacket 0x01#8 first inp out
  | .ch1Fb0W first inp out => chainPacket 0x04#8 first inp out
  | .ch1Fb0A first inp out => chainPacket 0x05#8 first inp out
  | .ch2Fb1A first inp out => chainPacket 0x17#8 first inp out
  | .ch3Fb2A first inp out => chainPacket 0x29#8 first inp out
  | .vreset sr => ⟨.command, 0x01#8, [.real sr]⟩
  | .pload img => ⟨.command, 0x02#8, [.bytes img]⟩
  | .setup => ⟨.command, 0x03#8, []⟩
  | .render a =>
    ⟨.command, 0x04#8, [.flag a.gate, .flag a.sustain, .real a.note, .real a.velocity, .real a.brightness,
      .real a.envctl, .real a.pitchMod, .real a.ampMod, .int a.block, .real a.scrubT, .real a.scrubG]⟩
  | .opreset k => ⟨.command, 0x05#8, [.int k]⟩
  | .lcfg => ⟨.command, 0x08#8, []⟩
  | .lreset => ⟨.command, 0x09#8, []⟩
  | .lstep scale => ⟨.command, 0x0A#8, [.real scale]⟩
  | .lscrub sample => ⟨.command, 0x0B#8, [.real sample]⟩
  | .bunpack bank => ⟨.command, 0x10#8, [.bytes bank]⟩

/-! ### Bare table words -/

/-- The operands of a command when every operand word is 0: reals 0.0, flags 0, integers 0, empty byte sequences. -/
def zeroOperands (code : Byte) : List Operand :=
  if code = 0x01#8 then [.real 0]
  else if code = 0x02#8 then [.bytes []]
  else if code = 0x04#8 then
    [.flag false, .flag false, .real 0, .real 0, .real 0, .real 0, .real 0, .real 0, .int 0,
      .real 0, .real 0]
  else if code = 0x05#8 then [.int 0]
  else if code = 0x0A#8 then [.real 0]
  else if code = 0x0B#8 then [.real 0]
  else if code = 0x10#8 then [.bytes []]
  else []

/-- The packet a bare word of spec/opcode_table.json stands for. The table numbers three code spaces from 0, so one
number can be a word of several: a word of six bits is a selector; an eight-bit word is a command code if the table
of R86 has it, else a selector if R85 has it, else a routing opcode (log 13). Operand words are zeros. -/
def tablePacket (nbits w : Nat) : Packet :=
  let code : Byte := BitVec.ofNat 8 w
  if nbits ≤ 6 then ⟨.chain, code, [.int 0, .int 0, .int 0]⟩
  else if isCommandCode code then ⟨.command, code, zeroOperands code⟩
  else if (selectorCtor code).isSome then ⟨.chain, code, [.int 0, .int 0, .int 0]⟩
  else routingPacket code

/-- The instruction the decoder reads from a table word. -/
def decodeTableWord (nbits w : Nat) : Option Instr :=
  match decode (tablePacket nbits w) with
  | .ok i => some i
  | .error _ => none

/-! ### Assembler text of a routing opcode (R95) -/

/-- The `<src>` part. -/
def asmSource (s : Slot) : String :=
  if s = 0#2 then "none" else if s = 1#2 then "b1" else if s = 2#2 then "b2" else "fb"

/-- The `<dst>` part. -/
def asmDest (s : Slot) : String :=
  if s = 0#2 then "out" else if s = 1#2 then "b1" else if s = 2#2 then "b2" else "b3"

/-- `<src> > <dst>[+][ !]` (R95, D25). -/
def asmOpcode (o : Byte) : String :=
  asmSource (opcodeSrc o) ++ " > " ++ asmDest (opcodeDst o) ++ (if opcodeAdd o then "+" else "")
    ++ (if opcodeTap o then " !" else "")

end Sys2Proof
end

