-- ==== Sys2Proof/Machine/Ops.lean ====
section
/-!
DEFINITION. The named operations over memory and registers that every meaning is written with: how a computation
stops, the buffer memory (20_memory.md R60 to R65), named updates of State, and raising an error, this hardware's
whole exception mechanism (60_exceptions.md R281 to R292).
-/
namespace Sys2Proof.Machine

/-! ### How a computation stops -/

/-- A stop: a fault or a refusal. -/
inductive Stop where
  | fault (r : Fault)
  | refusal (r : Refusal)
deriving DecidableEq, Repr

/-- A computation that gives a value or stops. -/
abbrev Run (α : Type) := Except Stop α

/-- Refuse under a name (R280). -/
def refuse {α : Type} (r : Refusal) : Run α := .error (.refusal r)

/-- Stop with a fault. -/
def faultWith {α : Type} (r : Fault) : Run α := .error (.fault r)

/-- Go on only if a condition holds, else refuse. -/
def require (c : Bool) (r : Refusal) : Run Unit := if c then .ok () else refuse r

/-- The value an option register holds; an unwritten one is refused (R9, 10_state.md preamble). -/
def written {α : Type} (x : Option α) (r : Refusal) : Run α :=
  match x with
  | some v => .ok v
  | none => refuse r

/-- A computation's end as the host's outcome. -/
def finish (x : Run State) : Host.Outcome State Fault Refusal :=
  match x with
  | .ok s => .next s
  | .error (.fault r) => .fault r
  | .error (.refusal r) => .refused r

/-- An outcome read back as a computation, so that RENDER can issue the chain calls' own meanings (R179). -/
def resume (o : Host.Outcome State Fault Refusal) : Run State :=
  match o with
  | .next s => .ok s
  | .fault r => faultWith r
  | .refused r => refuse r

/-! ### The buffer memory (R60 to R63)

The accesses take `BMAX` as an argument (R7): it says which samples there are. -/

/-- The place of sample (slot, index) in the list of samples (log 21). -/
def sampleAddr (slot index : Nat) : Nat := index * Config.numSlots + slot

/-- The sample exists: slot 0..3, index 0..`bmax`−1 (R33, R60); said by what it is not, so that sample 0 can be seen
to exist in every instance. -/
def sampleExists (bmax slot index : Nat) : Bool := slot < Config.numSlots && !decide (bmax ≤ index)

/-- What an address holds; `none` is unwritten, and so is every address after reset (R33). -/
def memRead : Memory → Nat → Option SampleBits
  | [], _ => none
  | (b, v) :: rest, a => if b = a then some v else memRead rest a

/-- The memory with one address written, in the canonical order. -/
def memWrite : Memory → Nat → SampleBits → Memory
  | [], a, v => [(a, v)]
  | (b, w) :: rest, a, v =>
    if a < b then (a, v) :: (b, w) :: rest
    else if a = b then (a, v) :: rest
    else (b, w) :: memWrite rest a v

/-- Addresses strictly above `lo`, strictly rising, each of a sample that exists. -/
def memRising (lo : Nat) : Memory → Bool
  | [] => true
  | (b, _) :: rest => lo ≤ b && b < Config.numSlots * Config.bmax && memRising (b + 1) rest

/-- The canonical form: addresses strictly rising, each of a sample that exists. -/
def Memory.wf (m : Memory) : Bool := memRising 0 m

/-- `BufRead(s, i)` (R10, R62): the sample; refused when unwritten (R63). -/
def bufRead (bmax : Nat) (m : Memory) (slot index : Nat) : Run SampleBits :=
  if sampleExists bmax slot index then written (memRead m (sampleAddr slot index)) .sampleUnwritten
  else faultWith .noSuchSample

/-- `BufWrite(s, i, v)` for a value already of format BUF_FMT (R10, R62). -/
def bufWrite (bmax : Nat) (m : Memory) (slot index : Nat) (v : SampleBits) : Run Memory :=
  if sampleExists bmax slot index then .ok (memWrite m (sampleAddr slot index) v)
  else faultWith .noSuchSample

/-- The adding write of R62: the sum in REAL, rounded once to BUF_FMT. -/
def bufAdd (fm : Formats) (bmax : Nat) (m : Memory) (slot index : Nat) (v : RealBits) : Run Memory := do
  let old ← bufRead bmax m slot index
  bufWrite bmax m slot index (toSample fm (rAdd fm (ofSample fm old) v))

/-- What the host reads at (slot, index) between operations (R64): the sample, or nothing where it is unwritten or
does not exist. -/
def State.sample (s : State) (slot index : Nat) : Option SampleBits :=
  if sampleExists Config.bmax slot index then memRead s.buf (sampleAddr slot index) else none

/-! ### Named updates -/

/-- A command's return value (R281). -/
def State.withResult (s : State) (r : Result) : State := { s with result := r }

/-- The operator file (R21). -/
def State.withOps (s : State) (x : Six Oper) : State := { s with ops := x }

/-- The seven envelope units (R23). -/
def State.withEnvs (s : State) (env : Six Env) (penv : Env) : State := { s with env := env, penv := penv }

/-- The feedback history (R25); `h0` the newer. -/
def State.withHistory (s : State) (h0 h1 : RealBits) : State := { s with fb0 := h0, fb1 := h1 }

/-- The latched note and velocity (R245). -/
def State.withLatch (s : State) (note nvel : RealBits) : State := { s with note := some note, nvel := some nvel }

/-- The caches SETUP writes (R238). -/
def State.withCaches (s : State) (ratio headroom : Six (Option RealBits)) : State :=
  { s with ratio := ratio, headroom := headroom }

/-- The readout LEVEL_OUT (R248). -/
def State.withLevelOut (s : State) (x : Six (Option RealBits)) : State := { s with levelOut := x }

/-- The flag GATE_PREV (R27). -/
def State.withGatePrev (s : State) (g : Bool) : State := { s with gatePrev := g }

/-- The flag DIRTY (R27). -/
def State.withDirty (s : State) (d : Bool) : State := { s with dirty := d }

/-- All control registers at once, with PATCH_VALID set (R28, R262). -/
def State.withPatch (s : State) (p : Patch) : State := { s with patch := some p, patchValid := true }

/-- The buffer memory (R33). -/
def State.withBuf (s : State) (m : Memory) : State := { s with buf := m }

/-- The LFO registers (R35). -/
def State.withLfo (s : State) (l : Lfo) : State := { s with lfo := l }

/-- The context of a running RENDER (R37, R151). -/
def State.withRc (s : State) (c : Option RenderCtx) : State := { s with rc := c }

/-- How many draws have been taken (R229). -/
def State.withDraws (s : State) (n : Nat) : State := { s with draws := n }

/-- The host operations still to be done. -/
def State.withPort (s : State) (l : List HostOp) : State := { s with port := l }

/-! ### Errors (60_exceptions.md R280 to R292)

Taking an exception on this hardware is raising an error: the command ends before its first write and returns the
kind; no register is saved, no mode changes, no control moves (R283, R291). There is no return from one: the next
command is simply accepted (R292). -/

/-- `raise E` (R10, R283): the command returns E and changes no state of the block. -/
def State.raiseError (s : State) (e : ErrorKind) : State := s.withResult (.error e)

/-- The code of an error kind in R281's table; 0 is ok. -/
def errorCode (e : ErrorKind) : Nat :=
  match e with
  | .badBankLength => 1
  | .badBankHeader => 2
  | .badVoiceLength => 3
  | .badOperatorIndex => 4

/-- The code of a command's result in R281's table. -/
def resultCode (r : Result) : Nat :=
  match r with
  | .ok => 0
  | .images _ => 0
  | .error e => errorCode e

/-- Every command but VRESET and BUNPACK needs a VRESET before it (R300). -/
def State.needConstructed (s : State) : Run Unit := require s.constructed .notConstructed

/-- The patch registers; refused while PATCH_VALID is 0 or they are unwritten (R238, R28). -/
def State.needPatch (s : State) : Run Patch := do
  require s.patchValid .noPatchLoaded
  written s.patch .noPatchLoaded

end Sys2Proof.Machine
end

