-- ==== Sys2Proof/Machine/Operands.lean ====
section
/-!
DEFINITION. The operand forms: fields of an image byte (30_encoding.md R89, 47_patch.md R262), the operand domains the
commands check (46_voice.md R236, R240; 45_lfo.md R220, R222; 41_sine_operator.md R146), and the operands of a chain
call (42_chain_renderer.md R151).
-/
namespace Sys2Proof.Machine

/-! ### Fields of an image byte -/

/-- `(byte >> lo) & ((1 << width) − 1)` (R89, R262). -/
def byteField (b : Byte) (lo width : Nat) : Nat := (b.toNat >>> lo) &&& ((1 <<< width) - 1)

/-- A field clamped to its documented maximum (R89, R262). -/
def clampField (b : Byte) (lo width top : Nat) : Nat := min (byteField b lo width) top

/-- Byte k of an image (R66). -/
def byteAt (img : List Byte) (k : Nat) : Byte := img.getD k 0#8

/-! ### Operand domains -/

/-- A real operand must be finite (R124). -/
def finiteOperand (fm : Formats) (x : RealBits) : Bool := rIsFinite fm x

/-- A finite real that is not below 0.0 (R205, R220, R222, R240). -/
def nonNegOperand (fm : Formats) (x : RealBits) : Bool := rIsFinite fm x && !rLt fm x r0

/-- VRESET's `sr`: finite and above 0.0 (R236). -/
def sampleRateOk (fm : Formats) (sr : RealBits) : Bool := rIsFinite fm sr && rLt fm r0 sr

/-- RENDER's real operands (R240's table): finite; velocity not below 0; the scrub operands, when they are read,
finite and not below 0. -/
def renderRealsOk (fm : Formats) (a : RenderArgs) : Bool :=
  finiteOperand fm a.note && nonNegOperand fm a.velocity && finiteOperand fm a.brightness && finiteOperand fm a.envctl
    && finiteOperand fm a.pitchMod && finiteOperand fm a.ampMod
    && (!a.sustain || (nonNegOperand fm a.scrubT && nonNegOperand fm a.scrubG))

/-- RENDER's block size: 1 <= B <= BMAX (R240); said so that B = 1 can be seen to be in range in every instance. -/
def blockOk (b : Int) : Bool := 1 ≤ b && !decide (Config.bmax < b.toNat)

/-- OPRESET's operator index: 0..5 (R146). -/
def operatorIndexOk (k : Int) : Bool := 0 ≤ k && k ≤ 5

/-! ### Operands of a chain call (R151) -/

/-- A target frequency the renderer takes: not a NaN and not negative; +infinity is taken and clamped (R151). -/
def callFreqOk (fm : Formats) (f : RealBits) : Bool := !rIsNaN fm f && !rLt fm f r0

/-- A target amplitude the renderer takes: finite (R151, R290). R151's table types it above 0.0, its last sentence and
R290 refuse only one that is not finite: a finite a at or below 0.0 (0.0 where EXP2 underflows) is run by the formulas
(DEDUCED, log 20). -/
def callAmpOk (fm : Formats) (a : RealBits) : Bool := rIsFinite fm a

end Sys2Proof.Machine
end

