-- ==== Sys2Proof/Machine/SineRom.lean ====
section
/-!
DEFINITION. The contents of SINE_ROM (41_sine_operator.md R140, D7): its first quarter, entries 0..128, as binary64
encodings; entry i is the binary64 nearest to sin(2π·i/512), with entry 0 exactly 0 and entry 128 exactly 1. The other
entries follow by the symmetries R140 states (Machine/Sine.lean).
-/
namespace Sys2Proof.Machine

/-- Entries 0 to 31 of SINE_ROM (R140). -/
def sineQuarter0 : List RealBits :=
  [0x0000000000000000, 0x3F8921D1FCDEC784, 0x3F992155F7A3667E, 0x3FA2D865759455CD,
   0x3FA91F65F10DD814, 0x3FAF656E79F820E0, 0x3FB2D52092CE19F6, 0x3FB5F6D00A9AA419,
   0x3FB917A6BC29B42C, 0x3FBC3785C79EC2D5, 0x3FBF564E56A9730E, 0x3FC139F0CEDAF577,
   0x3FC2C8106E8E613A, 0x3FC45576B1293E5A, 0x3FC5E214448B3FC6, 0x3FC76DD9DE50BF31,
   0x3FC8F8B83C69A60B, 0x3FCA82A025B00451, 0x3FCC0B826A7E4F63, 0x3FCD934FE5454311,
   0x3FCF19F97B215F1B, 0x3FD04FB80E37FDAE, 0x3FD111D262B1F677, 0x3FD1D3443F4CDB3E,
   0x3FD294062ED59F06, 0x3FD35410C2E18152, 0x3FD4135C94176601, 0x3FD4D1E24278E76A,
   0x3FD58F9A75AB1FDD, 0x3FD64C7DDD3F27C6, 0x3FD7088530FA459F, 0x3FD7C3A9311DCCE7]

/-- Entries 32 to 63 of SINE_ROM (R140). -/
def sineQuarter1 : List RealBits :=
  [0x3FD87DE2A6AEA963, 0x3FD9372A63BC93D7, 0x3FD9EF7943A8ED8A, 0x3FDAA6C82B6D3FCA,
   0x3FDB5D1009E15CC0, 0x3FDC1249D8011EE7, 0x3FDCC66E9931C45E, 0x3FDD79775B86E389,
   0x3FDE2B5D3806F63B, 0x3FDEDC1952EF78D6, 0x3FDF8BA4DBF89ABA, 0x3FE01CFC874C3EB7,
   0x3FE073879922FFEE, 0x3FE0C9704D5D898F, 0x3FE11EB3541B4B23, 0x3FE1734D63DEDB49,
   0x3FE1C73B39AE68C8, 0x3FE21A799933EB59, 0x3FE26D054CDD12DF, 0x3FE2BEDB25FAF3EA,
   0x3FE30FF7FCE17035, 0x3FE36058B10659F3, 0x3FE3AFFA292050B9, 0x3FE3FED9534556D4,
   0x3FE44CF325091DD6, 0x3FE49A449B9B0939, 0x3FE4E6CABBE3E5E9, 0x3FE5328292A35596,
   0x3FE57D69348CECA0, 0x3FE5C77BBE65018C, 0x3FE610B7551D2CDF, 0x3FE6591925F0783D]

/-- Entries 64 to 95 of SINE_ROM (R140). -/
def sineQuarter2 : List RealBits :=
  [0x3FE6A09E667F3BCD, 0x3FE6E74454EAA8AF, 0x3FE72D0837EFFF96, 0x3FE771E75F037261,
   0x3FE7B5DF226AAFAF, 0x3FE7F8ECE3571771, 0x3FE83B0E0BFF976E, 0x3FE87C400FBA2EBF,
   0x3FE8BC806B151741, 0x3FE8FBCCA3EF940D, 0x3FE93A22499263FB, 0x3FE9777EF4C7D742,
   0x3FE9B3E047F38741, 0x3FE9EF43EF29AF94, 0x3FEA29A7A0462782, 0x3FEA63091B02FAE2,
   0x3FEA9B66290EA1A3, 0x3FEAD2BC9E21D511, 0x3FEB090A58150200, 0x3FEB3E4D3EF55712,
   0x3FEB728345196E3E, 0x3FEBA5AA673590D2, 0x3FEBD7C0AC6F952A, 0x3FEC08C426725549,
   0x3FEC38B2F180BDB1, 0x3FEC678B3488739B, 0x3FEC954B213411F5, 0x3FECC1F0F3FCFC5C,
   0x3FECED7AF43CC773, 0x3FED17E7743E35DC, 0x3FED4134D14DC93A, 0x3FED696173C9E68B]

/-- Entries 96 to 127 of SINE_ROM (R140). -/
def sineQuarter3 : List RealBits :=
  [0x3FED906BCF328D46, 0x3FEDB6526238A09B, 0x3FEDDB13B6CCC23C, 0x3FEDFEAE622DBE2B,
   0x3FEE212104F686E5, 0x3FEE426A4B2BC17E, 0x3FEE6288EC48E112, 0x3FEE817BAB4CD10D,
   0x3FEE9F4156C62DDA, 0x3FEEBBD8C8DF0B74, 0x3FEED740E7684963, 0x3FEEF178A3E473C2,
   0x3FEF0A7EFB9230D7, 0x3FEF2252F7763ADA, 0x3FEF38F3AC64E589, 0x3FEF4E603B0B2F2D,
   0x3FEF6297CFF75CB0, 0x3FEF7599A3A12077, 0x3FEF8764FA714BA9, 0x3FEF97F924C9099B,
   0x3FEFA7557F08A517, 0x3FEFB5797195D741, 0x3FEFC26470E19FD3, 0x3FEFCE15FD6DA67B,
   0x3FEFD88DA3D12526, 0x3FEFE1CAFCBD5B09, 0x3FEFE9CDAD01883A, 0x3FEFF095658E71AD,
   0x3FEFF621E3796D7E, 0x3FEFFA72EFFEF75D, 0x3FEFFD886084CD0D, 0x3FEFFF62169B92DB]

/-- Entries 128 to 128 of SINE_ROM (R140). -/
def sineQuarter4 : List RealBits :=
  [0x3FF0000000000000]

/-- Entries 0 to 128 of SINE_ROM (R140). -/
def sineQuarter : List RealBits := sineQuarter0 ++ sineQuarter1 ++ sineQuarter2 ++ sineQuarter3 ++ sineQuarter4

end Sys2Proof.Machine
end

