-- ==== Sys2Proof/Machine/Sine.lean ====
section
/-!
DEFINITION. SINE_ROM and the lookups `sine`, `pm_offset`, `sine_pm` (41_sine_operator.md R140 to R145). Pure functions.
-/
namespace Sys2Proof.Machine

/-- `SINE_ROM[i]`, i = 0..512, from the first quarter by R140's symmetries: `[256 − i] = [i]`, `[256 + i] = −[i]`, with
entries 0, 256 and 512 exactly 0. -/
def sineRom (fm : Formats) (i : Nat) : RealBits :=
  if i ≤ 128 then rOfBinary64 fm (sineQuarter.getD i 0)
  else if i ≤ 256 then rOfBinary64 fm (sineQuarter.getD (256 - i) 0)
  else if i = 512 then r0
  else if i ≤ 384 then rNeg fm (rOfBinary64 fm (sineQuarter.getD (i - 256) 0))
  else rNeg fm (rOfBinary64 fm (sineQuarter.getD (512 - i) 0))

/-- Linear interpolation between entries i and i + 1: `a + (b - a) * fr` (R141, R144). -/
def sineBetween (fm : Formats) (i : Nat) (fr : RealBits) : RealBits :=
  rAdd fm (sineRom fm i) (rMul fm (rSub fm (sineRom fm (i + 1)) (sineRom fm i)) fr)

/-- `sine(phase)` (R141): the phase wrapped into [0,1), then the interpolated lookup. -/
def sine (fm : Formats) (phase : RealBits) : RealBits :=
  let p := rSub fm phase (rOfInt fm (rFloor fm phase))
  let x := rMul fm p (rLit fm 512 1)
  let xi := rFloor fm x
  sineBetween fm (xi % 512).toNat (rSub fm x (rOfInt fm xi))

/-- `pm_offset(pm)` (R143, conflict C4): `floor((pm + 32) · 2^26)` as a u32, times 64 with wrap. -/
def pmOffset (fm : Formats) (pm : RealBits) : U32 :=
  BitVec.ofInt 32 (rFloor fm (rMul fm (rAdd fm pm (rLit fm 32 1)) (rLit fm 67108864 1))) * 64#32

/-- `sine_pm(phase, pm)` (R144): the offset added with wrap; bits 31..23 index SINE_ROM, bits 22..0 over 2^23 are the
fraction. -/
def sinePm (fm : Formats) (phase : U32) (pm : RealBits) : RealBits :=
  let p := phase + pmOffset fm pm
  sineBetween fm (p.toNat / 2 ^ 23) (rDiv fm (rOfInt fm (p.toNat % 2 ^ 23 : Nat)) (rLit fm 8388608 1))

end Sys2Proof.Machine
end

