-- ==== Sys2Proof/Machine/Chain.lean ====
section
/-!
DEFINITION. The operator-chain renderer and the eight chain calls, format K (42_chain_renderer.md R150 to R166): the
body once over (N, S, A), and one meaning per specialization.
-/
namespace Sys2Proof.Machine

/-- The modulation source S (R85): NONE, EXTERNAL, or FEEDBACK(k). -/
inductive Source where
  | none
  | external
  | feedback (k : Nat)
deriving DecidableEq, Repr, Inhabited

/-- S is FEEDBACK (R156). -/
def Source.isFeedback (src : Source) : Bool :=
  match src with
  | .feedback _ => true
  | _ => false

/-- The locals of one operator of a chain (R153): phase, amplitude, increment, slope. -/
structure Lane where
  ph : U32
  am : RealBits
  inc : U32
  sl : RealBits
deriving DecidableEq, Repr

/-- What the sample loop carries: the operators' locals, the feedback history, the buffers. -/
structure ChainState where
  lanes : List Lane
  h0 : RealBits
  h1 : RealBits
  buf : Memory
deriving DecidableEq, Repr

/-- 4.0, the amplitude clamp (R152). -/
def r4 (fm : Formats) : RealBits := rLit fm 4 1

/-- Steps 0 and 1 for one operator (R152, R153): clamps, increment, snapshot, slope. -/
def laneStart (fm : Formats) (o : Oper) (f a : RealBits) (block : Nat) : Lane :=
  { ph := o.phase
    am := o.amp
    inc := rTruncU32 fm (rMul fm (rMin fm f (rHalf fm)) (rLit fm 4294967296 1))
    sl := rDiv fm (rSub fm (rMin fm a (r4 fm)) o.amp) (rOfInt fm block) }

/-- Step 2, the feedback scale: 0 or `(1 << feedback) / 512` (R154). -/
def fbScale (fm : Formats) (fb : Nat) : RealBits :=
  if fb = 0 then r0 else rDiv fm (rOfInt fm ((1 <<< fb : Nat) : Int)) (rLit fm 512 1)

/-- The operators of one sample in ascending k (R155): advance the phase, look up, scale, add the slope, and shift the
history at k = S. The answer is the lanes, the last output, and the history. -/
def runLanes (fm : Formats) (src : Source) :
    Nat → List Lane → RealBits → RealBits → RealBits → List Lane × RealBits × RealBits × RealBits
  | _, [], pm, h0, h1 => ([], pm, h0, h1)
  | k, l :: rest, pm, h0, h1 =>
    let ph := l.ph + l.inc
    let out := rMul fm (sinePm fm ph pm) l.am
    let l' := { l with ph := ph, am := rAdd fm l.am l.sl }
    let hist := if src = .feedback k then (out, h0) else (h0, h1)
    let r := runLanes fm src (k + 1) rest out hist.1 hist.2
    (l' :: r.1, r.2)

/-- The modulation seed of one sample (R155). The slot read is the one the call names, also slot 0 or 3, which no row
compiles to (DESIGN CHOICE, log 30). -/
def chainSeed (fm : Formats) (bmax : Nat) (src : Source) (scale : RealBits) (inp : Slot) (i : Nat)
    (c : ChainState) : Run RealBits :=
  match src with
  | .none => .ok r0
  | .external => do
    let v ← bufRead bmax c.buf inp.toNat i
    .ok (ofSample fm v)
  | .feedback _ => .ok (rMul fm (rAdd fm c.h0 c.h1) scale)

/-- The store that ends one sample: adding or replacing (R155, R62). -/
def chainStore (fm : Formats) (bmax : Nat) (add : Bool) (m : Memory) (out : Slot) (i : Nat)
    (pm : RealBits) : Run Memory :=
  if add then bufAdd fm bmax m out.toNat i pm else bufWrite bmax m out.toNat i (toSample fm pm)

/-- One sample (R155). -/
def chainSample (fm : Formats) (bmax : Nat) (src : Source) (add : Bool) (scale : RealBits) (inp out : Slot) (i : Nat)
    (c : ChainState) : Run ChainState := do
  let seed ← chainSeed fm bmax src scale inp i c
  let r := runLanes fm src 0 c.lanes seed c.h0 c.h1
  let buf ← chainStore fm bmax add c.buf out i r.2.1
  .ok { lanes := r.1, h0 := r.2.2.1, h1 := r.2.2.2, buf := buf }

/-- The samples i, i + 1, …, `n` of them, in index order (R155). -/
def chainSamples (fm : Formats) (bmax : Nat) (src : Source) (add : Bool) (scale : RealBits) (inp out : Slot) :
    Nat → Nat → ChainState → Run ChainState
  | 0, _, c => .ok c
  | n + 1, i, c => do
    let c' ← chainSample fm bmax src add scale inp out i c
    chainSamples fm bmax src add scale inp out n (i + 1) c'

/-- The operators `first, first + 1, …` with their locals' phases and amplitudes written back (R156). -/
def commitLanes (ops : Six Oper) : Nat → List Lane → Six Oper
  | _, [] => ops
  | k, l :: rest => commitLanes (ops.set k ⟨l.ph, l.am⟩) (k + 1) rest

/-- The lanes of a call: the operators `first .. first + n − 1` with the bound f and a (R151, R153). -/
def chainLanes (fm : Formats) (ops : Six Oper) (c : RenderCtx) (first n : Nat) : List Lane :=
  (List.range n).map fun k => laneStart fm (ops.get (first + k)) (c.f.get (first + k)) (c.a.get (first + k)) c.block

/-- The bound f and a of a call's operators are in the renderer's types (R151). -/
def chainOperandsOk (fm : Formats) (c : RenderCtx) (first n : Nat) : Bool :=
  (List.range n).all fun k => callFreqOk fm (c.f.get (first + k)) && callAmpOk fm (c.a.get (first + k))

/-- The feedback scale a call uses: read from `P.FB` only when S is FEEDBACK (R154, R151). -/
def chainScale (src : Source) (s : State) : Run RealBits :=
  if src.isFeedback then do
    let p ← written s.patch .noPatchLoaded
    .ok (fbScale s.formats p.fb)
  else .ok r0

/-- The state after a call: step 4, the commit (R156), and the router index moved past the call's operators (R37). -/
def chainCommit (src : Source) (first n : Nat) (c : RenderCtx) (r : ChainState) (s : State) : State :=
  let s := ((s.withOps (commitLanes s.ops first r.lanes)).withBuf r.buf).withRc (some { c with index := first + n })
  if src.isFeedback then s.withHistory r.h0 r.h1 else s

/-- A chain call {first, n, S, A, in, out} inside a RENDER (R151 to R156), in an instance of the given `BMAX`. -/
def chainCall (bmax n : Nat) (src : Source) (add : Bool) (first : Nat) (inp out : Slot) (s : State) : Run State := do
  let c ← written s.rc .outsideRender
  require (first + n ≤ 6) .callOutOfRange
  require (chainOperandsOk s.formats c first n) .callOperandOutOfDomain
  let scale ← chainScale src s
  let start : ChainState := ⟨chainLanes s.formats s.ops c first n, s.fb0, s.fb1, s.buf⟩
  let r ← chainSamples s.formats bmax src add scale inp out c.block 0 start
  .ok (chainCommit src first n c r s)

/-! ### The eight specializations (R150) -/

/-- CH1.NONE.W (R158). -/
def execCh1NoneW (first : Fin 6) (inp out : Slot) (s : State) : Host.Outcome State Fault Refusal :=
  finish (chainCall Config.bmax 1 .none false first.val inp out s)

/-- CH1.NONE.A (R159). -/
def execCh1NoneA (first : Fin 6) (inp out : Slot) (s : State) : Host.Outcome State Fault Refusal :=
  finish (chainCall Config.bmax 1 .none true first.val inp out s)

/-- CH1.EXT.W (R160). -/
def execCh1ExtW (first : Fin 6) (inp out : Slot) (s : State) : Host.Outcome State Fault Refusal :=
  finish (chainCall Config.bmax 1 .external false first.val inp out s)

/-- CH1.EXT.A (R161). -/
def execCh1ExtA (first : Fin 6) (inp out : Slot) (s : State) : Host.Outcome State Fault Refusal :=
  finish (chainCall Config.bmax 1 .external true first.val inp out s)

/-- CH1.FB0.W (R162). -/
def execCh1Fb0W (first : Fin 6) (inp out : Slot) (s : State) : Host.Outcome State Fault Refusal :=
  finish (chainCall Config.bmax 1 (.feedback 0) false first.val inp out s)

/-- CH1.FB0.A (R163). -/
def execCh1Fb0A (first : Fin 6) (inp out : Slot) (s : State) : Host.Outcome State Fault Refusal :=
  finish (chainCall Config.bmax 1 (.feedback 0) true first.val inp out s)

/-- CH2.FB1.A (R164). -/
def execCh2Fb1A (first : Fin 6) (inp out : Slot) (s : State) : Host.Outcome State Fault Refusal :=
  finish (chainCall Config.bmax 2 (.feedback 1) true first.val inp out s)

/-- CH3.FB2.A (R165). -/
def execCh3Fb2A (first : Fin 6) (inp out : Slot) (s : State) : Host.Outcome State Fault Refusal :=
  finish (chainCall Config.bmax 3 (.feedback 2) true first.val inp out s)

end Sys2Proof.Machine
end

