-- ==== Sys2Proof/Machine/Router.lean ====
section
/-!
DEFINITION. The algorithm router (43_algorithm_router.md R170 to R182): the compile function from a row of six routing
opcodes to chain calls, well-formed rows, dispatch, and the four routing opcodes, format R.
-/
namespace Sys2Proof.Machine

/-- The eight specializations, `SPECS` (R150). -/
inductive ChainSpec where
  | ch1NoneW
  | ch1NoneA
  | ch1ExtW
  | ch1ExtA
  | ch1Fb0W
  | ch1Fb0A
  | ch2Fb1A
  | ch3Fb2A
deriving DecidableEq, Repr

/-- The specialization a tuple (n, S, A) selects, if there is one (R85, R150). -/
def specOf (n : Nat) (src : Source) (add : Bool) : Option ChainSpec :=
  match n, src, add with
  | 1, .none, false => some .ch1NoneW
  | 1, .none, true => some .ch1NoneA
  | 1, .external, false => some .ch1ExtW
  | 1, .external, true => some .ch1ExtA
  | 1, .feedback 0, false => some .ch1Fb0W
  | 1, .feedback 0, true => some .ch1Fb0A
  | 2, .feedback 1, true => some .ch2Fb1A
  | 3, .feedback 2, true => some .ch3Fb2A
  | _, _, _ => none

/-- One entry of a call plan (R85): the specialization, the first operator, the chain length, the slots, and whether it
adds. -/
structure Call where
  spec : ChainSpec
  first : Nat
  n : Nat
  add : Bool
  inp : Slot
  out : Slot
deriving DecidableEq, Repr

/-- A modulator: its opcode's destination is not OUTPUT (R172). -/
def isModulator (row : Six Byte) (k : Nat) : Bool := opcodeDst (row.get k) != 0#2

/-! ### compile (R176, R177) -/

/-- The extension loop: how long the chain that starts at `first` gets, `prev` its last opcode so far and `n` its
length; where it is broken by an opcode that reads what `first` writes, it is cut back to `first` alone. -/
def extendChain (first : Byte) : Byte → List Byte → Nat → Nat
  | _, [], n => n
  | prev, next :: rest, n =>
    if opcodeAdd prev || opcodeDst prev != opcodeSrc next then
      if opcodeSrc next = opcodeDst first then 1 else n
    else extendChain first next rest (n + 1)

/-- The position of the last opcode with its tap bit set, counting from `j`. -/
def lastTap : List Byte → Nat → Option Nat → Option Nat
  | [], _, found => found
  | o :: rest, j, found => lastTap rest (j + 1) (if opcodeTap o then some j else found)

/-- S of a chain of opcodes: NONE, EXTERNAL, FEEDBACK at its last tap, or unresolved. -/
def chainSource (chain : List Byte) : Option Source :=
  match chain with
  | [] => none
  | first :: _ =>
    if opcodeSrc first = 0#2 then some .none
    else if opcodeSrc first ≠ 3#2 then some .external
    else (lastTap chain 0 none).map .feedback

/-- The call of a chain of opcodes that starts at operator i, if a specialization exists. -/
def callOf (i : Nat) (chain : List Byte) : Option Call :=
  match chain with
  | [] => none
  | first :: _ =>
    let last := chain.getLastD first
    match chainSource chain with
    | none => none
    | some src =>
      match specOf chain.length src (opcodeAdd last) with
      | none => none
      | some spec =>
        some { spec := spec, first := i, n := chain.length, add := opcodeAdd last, inp := opcodeSrc first,
               out := opcodeDst last }

/-- One turn of the outer loop at router index i with the opcodes `ops` from i on: the longest chain, else the fall-back
to the first opcode alone, else none (FAIL). -/
def callAt (i : Nat) (ops : List Byte) : Option Call :=
  match ops with
  | [] => none
  | first :: rest =>
    let n := extendChain first first rest 1
    match callOf i (ops.take n) with
    | some c => some c
    | none => if 1 < n then callOf i [first] else none

/-- The outer loop: the calls for the opcodes from router index i on; `fuel` bounds the turns. -/
def compileFrom : Nat → Nat → List Byte → Option (List Call)
  | _, _, [] => some []
  | 0, _, _ :: _ => none
  | fuel + 1, i, o :: rest =>
    match callAt i (o :: rest) with
    | none => none
    | some c =>
      match compileFrom fuel (i + c.n) ((o :: rest).drop c.n) with
      | none => none
      | some plan => some (c :: plan)

/-- `compile(row)`: the call plan, or none for FAIL (R176). -/
def compile (row : Six Byte) : Option (List Call) := compileFrom 6 0 row.toList

/-- `row_wf(row)` (R178): reserved bits clear, the row compiles, and some call adds into OUTPUT. -/
def rowWf (row : Six Byte) : Bool :=
  row.all opcodeReservedClear &&
    (match compile row with
    | none => false
    | some plan => plan.any fun c => c.add && c.out = 0#2)

/-! ### Dispatch (R179) -/

/-- Issue one call of a plan: the meaning of its specialization (R179). -/
def runCall (c : Call) (s : State) : Run State :=
  if h : c.first < 6 then
    match c.spec with
    | .ch1NoneW => resume (execCh1NoneW ⟨c.first, h⟩ c.inp c.out s)
    | .ch1NoneA => resume (execCh1NoneA ⟨c.first, h⟩ c.inp c.out s)
    | .ch1ExtW => resume (execCh1ExtW ⟨c.first, h⟩ c.inp c.out s)
    | .ch1ExtA => resume (execCh1ExtA ⟨c.first, h⟩ c.inp c.out s)
    | .ch1Fb0W => resume (execCh1Fb0W ⟨c.first, h⟩ c.inp c.out s)
    | .ch1Fb0A => resume (execCh1Fb0A ⟨c.first, h⟩ c.inp c.out s)
    | .ch2Fb1A => resume (execCh2Fb1A ⟨c.first, h⟩ c.inp c.out s)
    | .ch3Fb2A => resume (execCh3Fb2A ⟨c.first, h⟩ c.inp c.out s)
  else refuse .callOutOfRange

/-- The calls of a plan in order; each runs all its samples before the next starts (R179). -/
def runPlan : List Call → State → Run State
  | [], s => .ok s
  | c :: rest, s => do
    let s' ← runCall c s
    runPlan rest s'

/-! ### The routing opcodes, format R -/

/-- One routing opcode at the router index of a running RENDER: the chain that starts at it is issued, and the index
moves past that chain's operators (R173 to R176). Its followers are the rest of the row. -/
def routeOpcode (o : Byte) (s : State) : Run State := do
  let c ← written s.rc .outsideRender
  require (c.index < 6) .routerAtEnd
  let call ← written (callAt c.index (o :: c.row.toList.drop (c.index + 1))) .rowIllFormed
  runCall call s

/-- OPN (R173): a call with S = NONE. -/
def execOpn (dst : Slot) (add tap : Bool) (s : State) : Host.Outcome State Fault Refusal :=
  finish (routeOpcode (routingByte 0#2 dst add tap) s)

/-- OPX1 (R174): a call with S = EXTERNAL reading slot 1. -/
def execOpx1 (dst : Slot) (add tap : Bool) (s : State) : Host.Outcome State Fault Refusal :=
  finish (routeOpcode (routingByte 1#2 dst add tap) s)

/-- OPX2 (R174): a call with S = EXTERNAL reading slot 2. -/
def execOpx2 (dst : Slot) (add tap : Bool) (s : State) : Host.Outcome State Fault Refusal :=
  finish (routeOpcode (routingByte 2#2 dst add tap) s)

/-- OPF (R175): the feedback chain that starts here. -/
def execOpf (dst : Slot) (add tap : Bool) (s : State) : Host.Outcome State Fault Refusal :=
  finish (routeOpcode (routingByte 3#2 dst add tap) s)

/-- The router walking its row opcode by opcode, at most `fuel` of them: the reading of R37 and R173 to R176 in which
each opcode is an instruction. `runPlan` of the compiled row is what RENDER runs (R179). -/
def walkRow : Nat → State → Run State
  | 0, s => .ok s
  | fuel + 1, s => do
    let c ← written s.rc .outsideRender
    if c.index < 6 then
      let s' ← routeOpcode (c.row.get c.index) s
      walkRow fuel s'
    else .ok s

end Sys2Proof.Machine
end

