-- ==== Sys2Proof/Machine/Instance.lean ====
section
/-!
DEFINITION. The instance of the block that `exec` runs: its open parameters with an admissible ALG_ROM
(43_algorithm_router.md R178, R180; 92_eei_decisions.md D9).
-/
namespace Sys2Proof

namespace Machine

/-- `ALG_ROM` of an instance is admissible (R178): all 32 rows are well formed (by clause (c), every algorithm adds into
OUTPUT, R180's P7) and row 31 is as R181 gives it. -/
def romAdmissible (cfg : Config.Params) : Bool :=
  (List.range 32).all (fun g => rowWf (algRow cfg g)) && algRow cfg 31 = algRow31

/-- A row of an admissible ROM: the given one where it is well formed, else row 31's (log 5). -/
def admittedRow (row : Six Byte) : Six Byte := if rowWf row then row else algRow31

/-- The instance with an admissible ROM: a well-formed row stays as it is (log 5). -/
def withAdmissibleRom (cfg : Config.Params) : Config.Params :=
  { cfg with algRom := fun g k => (admittedRow (algRow cfg g)).get k }

end Machine

/-- The parameters of the instance: the open ones, of which nothing is known, with an admissible ALG_ROM (R170, R178).
-/
def Config.params : Config.Params := Machine.withAdmissibleRom Config.openParams

end Sys2Proof
end

