-- ==== Sys2Proof/Machine/LfoUnit.lean ====
section
/-!
DEFINITION. The LFO unit (45_lfo.md R215 to R229): LCFG, LRESET, LSTEP, LSCRUB, the waveforms and the two outputs.
-/
namespace Sys2Proof.Machine

/-- `wave(w, phase, sh)` (R224); w is 0..5. -/
def lfoWave (fm : Formats) (w : Nat) (phase sh : RealBits) : RealBits :=
  match w with
  | 0 =>
    if rLt fm phase (rHalf fm) then rMul fm (r2 fm) (rSub fm (rHalf fm) phase)
    else rMul fm (r2 fm) (rSub fm phase (rHalf fm))
  | 1 => rSub fm (r1 fm) phase
  | 2 => phase
  | 3 => if rLt fm phase (rHalf fm) then r0 else r1 fm
  | 4 => rAdd fm (rHalf fm) (rMul fm (rHalf fm) (sine fm (rAdd fm phase (rHalf fm))))
  | _ => sh

/-- `delay_ramp()` (R225). -/
def Lfo.delayRamp (fm : Formats) (l : Lfo) : RealBits :=
  if rLt fm l.delayPhase (rHalf fm) then r0 else rMul fm (rSub fm l.delayPhase (rHalf fm)) (r2 fm)

/-- `LFO_PITCH_MOD` (R226). -/
def Lfo.pitchMod (fm : Formats) (l : Lfo) : RealBits :=
  rMul fm (rMul fm (rSub fm l.value (rHalf fm)) (l.delayRamp fm)) l.pmd

/-- `LFO_AMP_MOD` (R226). -/
def Lfo.ampMod (fm : Formats) (l : Lfo) : RealBits := rMul fm (rMul fm (rSub fm (r1 fm) l.value) (l.delayRamp fm)) l.amd

/-- The LFO as LCFG leaves it (R217). -/
def lfoConfigure (fm : Formats) (cfg : Config.Params) (p : LfoPatch) (sampleRate : RealBits) (l : Lfo) : Lfo :=
  { l with
    freq := some (rDiv fm (lfoFrequency fm p.rate) sampleRate)
    delayInc0 := some (rDiv fm (lfoDelay fm p.delay).1 sampleRate)
    delayInc1 := some (rDiv fm (lfoDelay fm p.delay).2 sampleRate)
    amd := rMul fm (rOfInt fm p.amd) (rLit fm 1 100)
    pmd := rMul fm (rMul fm (rOfInt fm p.pmd) (rLit fm 1 100)) (lutPms fm cfg p.pms)
    wave := p.wave
    resetPhase := p.sync = 1 }

/-- LCFG (R217). -/
def execLcfg (s : State) : Host.Outcome State Fault Refusal :=
  finish do
    s.needConstructed
    let p ← s.needPatch
    .ok ((s.withLfo (lfoConfigure s.formats Config.params p.lfo s.sampleRate s.lfo)).withResult .ok)

/-- The LFO as LRESET leaves it (R219). -/
def lfoRestart (l : Lfo) : Lfo :=
  { l with phase := if l.resetPhase then r0 else l.phase, delayPhase := r0 }

/-- LRESET (R219). -/
def execLreset (s : State) : Host.Outcome State Fault Refusal :=
  finish do
    s.needConstructed
    .ok ((s.withLfo (lfoRestart s.lfo)).withResult .ok)

/-- The LFO after a streaming step, given its FREQ and DELAY_INC and the draw it takes if it wraps (R220). -/
def lfoAdvance (fm : Formats) (scale freq inc0 inc1 draw : RealBits) (l : Lfo) : Lfo :=
  let moved := rAdd fm l.phase (rMul fm scale freq)
  let wraps := rLe fm (r1 fm) moved
  let phase := if wraps then rSub fm moved (r1 fm) else moved
  let sh := if wraps then draw else l.sh
  let delay := rAdd fm l.delayPhase (rMul fm scale (if rLt fm l.delayPhase (rHalf fm) then inc0 else inc1))
  { l with
    phase := phase
    sh := sh
    value := lfoWave fm l.wave phase sh
    delayPhase := if rLe fm (r1 fm) delay then r1 fm else delay }

/-- A streaming step takes a draw (R220): the phase reaches 1.0. -/
def lfoStepDraws (fm : Formats) (scale freq : RealBits) (l : Lfo) : Bool :=
  rLe fm (r1 fm) (rAdd fm l.phase (rMul fm scale freq))

/-- LSTEP scale, for an instance (R220). -/
def lstepWith (cfg : Config.Params) (scale : RealBits) (s : State) : Run State := do
  s.needConstructed
  let freq ← written s.lfo.freq .lfoNotConfigured
  let inc0 ← written s.lfo.delayInc0 .lfoNotConfigured
  let inc1 ← written s.lfo.delayInc1 .lfoNotConfigured
  require (nonNegOperand s.formats scale) .scaleOutOfDomain
  let draws := if lfoStepDraws s.formats scale freq s.lfo then s.draws + 1 else s.draws
  let l := lfoAdvance s.formats scale freq inc0 inc1 (shDraw s.formats cfg s.draws) s.lfo
  .ok (((s.withLfo l).withDraws draws).withResult .ok)

/-- LSTEP (R220). -/
def execLstep (scale : RealBits) (s : State) : Host.Outcome State Fault Refusal :=
  finish (lstepWith Config.params scale s)

/-- The LFO after a scrubbed evaluation, given its FREQ and DELAY_INC and the draw it takes if the cycle changed
(R222). -/
def lfoScrub (fm : Formats) (sample freq inc0 inc1 draw : RealBits) (l : Lfo) : Lfo :=
  let x := rMul fm sample freq
  let xi := rFloor fm x
  let phase := rSub fm x (rOfInt fm xi)
  let sh := if xi ≠ l.phaseInt then draw else l.sh
  let dp := rMul fm sample inc0
  let late := rAdd fm (rHalf fm) (rMul fm (rSub fm sample (rDiv fm (rHalf fm) inc0)) inc1)
  { l with
    phase := phase
    phaseInt := xi
    sh := sh
    value := lfoWave fm l.wave phase sh
    delayPhase := if rLt fm (rHalf fm) dp then (if rLe fm (r1 fm) late then r1 fm else late) else dp }

/-- A scrubbed evaluation takes a draw (R222): the integer part differs from `L.PHASE_INT`. -/
def lfoScrubDraws (fm : Formats) (sample freq : RealBits) (l : Lfo) : Bool :=
  rFloor fm (rMul fm sample freq) ≠ l.phaseInt

/-- LSCRUB sample, for an instance (R222). -/
def lscrubWith (cfg : Config.Params) (sample : RealBits) (s : State) : Run State := do
  s.needConstructed
  let freq ← written s.lfo.freq .lfoNotConfigured
  let inc0 ← written s.lfo.delayInc0 .lfoNotConfigured
  let inc1 ← written s.lfo.delayInc1 .lfoNotConfigured
  require (nonNegOperand s.formats sample) .sampleOutOfDomain
  let draws := if lfoScrubDraws s.formats sample freq s.lfo then s.draws + 1 else s.draws
  let l := lfoScrub s.formats sample freq inc0 inc1 (shDraw s.formats cfg s.draws) s.lfo
  .ok (((s.withLfo l).withDraws draws).withResult .ok)

/-- LSCRUB (R222). -/
def execLscrub (sample : RealBits) (s : State) : Host.Outcome State Fault Refusal :=
  finish (lscrubWith Config.params sample s)

end Sys2Proof.Machine
end

