-- ==== Sys2Proof/Machine/Flags.lean ====
section
/-!
DEFINITION. The three flags (10_state.md R27): who sets, clears and reads each. There are no condition codes.
-/
namespace Sys2Proof.Machine

/-- PLOAD: sets PATCH_VALID (with the registers, `State.withPatch`) and DIRTY (R27, R262). -/
def State.flagsAfterLoad (s : State) : State := s.withDirty true

/-- SETUP and the preamble of RENDER: clear DIRTY (R27, R238). -/
def State.flagsAfterSetup (s : State) : State := s.withDirty false

/-- Rising-edge detection: gate held now and not in the previous RENDER (R245). -/
def noteOn (gate gatePrev : Bool) : Bool := gate && !gatePrev

/-- NOTE and NVEL are latched on a rising edge, and in every scrubbing block (R245). -/
def latchesNote (gate gatePrev sustain : Bool) : Bool := noteOn gate gatePrev || sustain

end Sys2Proof.Machine
end

