-- ==== Sys2Proof/Machine/Patch.lean ====
section
/-!
DEFINITION. The patch decoder (47_patch.md R260 to R270): PLOAD, BUNPACK, the packed voice and its inverse, and the
ranges of the control registers (10_state.md R29, R30).
-/
namespace Sys2Proof.Machine

/-- A whole-byte field: masked to 7 bits, clamped (R263, R264). -/
def field7 (img : List Byte) (k top : Nat) : Nat := clampField (byteAt img k) 0 7 top

/-- Operator block k, bytes 17k .. 17k + 16 (R263). -/
def decodeOp (img : List Byte) (k : Nat) : OpPatch :=
  let o := 17 * k
  { rate := Four.ofFn fun i => field7 img (o + i.val) 99
    level := Four.ofFn fun i => field7 img (o + 4 + i.val) 99
    ks :=
      { bp := field7 img (o + 8) 99
        ld := field7 img (o + 9) 99
        rd := field7 img (o + 10) 99
        lc := byteField (byteAt img (o + 11)) 0 2
        rc := byteField (byteAt img (o + 11)) 2 2 }
    rs := byteField (byteAt img (o + 12)) 0 3
    detune := clampField (byteAt img (o + 12)) 3 4 14
    ams := byteField (byteAt img (o + 13)) 0 2
    vs := byteField (byteAt img (o + 13)) 2 3
    olevel := field7 img (o + 14) 99
    mode := byteField (byteAt img (o + 15)) 0 1
    coarse := byteField (byteAt img (o + 15)) 1 5
    fine := field7 img (o + 16) 99 }

/-- All control registers from a packed voice (R262, R263); `P.ACTIVE` is all-on (R31). -/
def decodeVoice (img : List Byte) : Patch :=
  { op := Six.ofFn (decodeOp img)
    prate := Four.ofFn fun i => field7 img (102 + i.val) 99
    plevel := Four.ofFn fun i => field7 img (106 + i.val) 99
    alg := byteField (byteAt img 110) 0 5
    fb := byteField (byteAt img 111) 0 3
    resetPhase := byteField (byteAt img 111) 3 1
    lfo :=
      { rate := field7 img 112 99
        delay := field7 img 113 99
        pmd := field7 img 114 99
        amd := field7 img 115 99
        sync := byteField (byteAt img 116) 0 1
        wave := clampField (byteAt img 116) 1 3 5
        pms := byteField (byteAt img 116) 4 3 }
    transpose := field7 img 117 48
    name := (List.range 10).map fun i => byteAt img (118 + i) &&& 0x7F#8
    active := 0x3F#6 }

/-! ### The inverse mapping (R268); no command performs it (R5 (d)) -/

/-- The 17 bytes of operator block k. -/
def packOp (p : OpPatch) : List Byte :=
  [p.rate.s0, p.rate.s1, p.rate.s2, p.rate.s3, p.level.s0, p.level.s1, p.level.s2, p.level.s3, p.ks.bp, p.ks.ld,
    p.ks.rd, p.ks.lc ||| (p.ks.rc <<< 2), p.rs ||| (p.detune <<< 3), p.ams ||| (p.vs <<< 2), p.olevel,
    p.mode ||| (p.coarse <<< 1), p.fine].map (BitVec.ofNat 8)

/-- `pack(P)`: the 128-byte image of a patch (R268). -/
def packVoice (p : Patch) : List Byte :=
  packOp p.op.o0 ++ packOp p.op.o1 ++ packOp p.op.o2 ++ packOp p.op.o3 ++ packOp p.op.o4 ++ packOp p.op.o5 ++
    [p.prate.s0, p.prate.s1, p.prate.s2, p.prate.s3, p.plevel.s0, p.plevel.s1, p.plevel.s2, p.plevel.s3, p.alg,
      p.fb ||| (p.resetPhase <<< 3), p.lfo.rate, p.lfo.delay, p.lfo.pmd, p.lfo.amd,
      p.lfo.sync ||| (p.lfo.wave <<< 1) ||| (p.lfo.pms <<< 4), p.transpose].map (BitVec.ofNat 8) ++ p.name

/-! ### Ranges -/

/-- The per-operator registers are in the ranges of R29. -/
def OpPatch.inRange (p : OpPatch) : Bool :=
  p.rate.all (· ≤ 99) && p.level.all (· ≤ 99) && p.ks.bp ≤ 99 && p.ks.ld ≤ 99 && p.ks.rd ≤ 99 && p.ks.lc ≤ 3
    && p.ks.rc ≤ 3 && p.rs ≤ 7 && p.ams ≤ 3 && p.vs ≤ 7 && p.olevel ≤ 99 && p.mode ≤ 1 && p.coarse ≤ 31
    && p.fine ≤ 99 && p.detune ≤ 14

/-- The LFO registers of a patch are in the ranges of R30. -/
def LfoPatch.inRange (p : LfoPatch) : Bool :=
  p.rate ≤ 99 && p.delay ≤ 99 && p.pmd ≤ 99 && p.amd ≤ 99 && p.sync ≤ 1 && p.wave ≤ 5 && p.pms ≤ 7

/-- Every control register is in the range R29 and R30 give it; the name is ten 7-bit characters. -/
def Patch.inRange (p : Patch) : Bool :=
  p.op.all OpPatch.inRange && p.prate.all (· ≤ 99) && p.plevel.all (· ≤ 99) && p.alg ≤ 31 && p.fb ≤ 7
    && p.resetPhase ≤ 1 && p.transpose ≤ 48 && p.lfo.inRange && p.name.length = 10 && p.name.all (· ≤ 0x7F#8)
    && p.active = 0x3F#6

/-! ### PLOAD and BUNPACK -/

/-- PLOAD img (R262): `BadVoiceLength` unless 128 bytes; else every register at once, PATCH_VALID and DIRTY set. -/
def execPload (img : List Byte) (s : State) : Host.Outcome State Fault Refusal :=
  finish do
    s.needConstructed
    if img.length ≠ Config.voiceBytes then .ok (s.raiseError .badVoiceLength)
    else .ok (((s.withPatch (decodeVoice img)).flagsAfterLoad).withResult .ok)

/-- The bank header `F0 43 00 09 20 00` (R266). -/
def bankHeader : List Byte := [0xF0#8, 0x43#8, 0x00#8, 0x09#8, 0x20#8, 0x00#8]

/-- The 32 packed voices of a bank: bytes 6 + 128n .. 6 + 128n + 127 (R266). -/
def bankVoices (bank : List Byte) : List (List Byte) :=
  (List.range 32).map fun n => (bank.drop (6 + Config.voiceBytes * n)).take Config.voiceBytes

/-- BUNPACK bank (R266): the length is tested before the header (R288); no state is read or written, and it runs even
before the first VRESET (R300). -/
def execBunpack (bank : List Byte) (s : State) : Host.Outcome State Fault Refusal :=
  finish (
    if bank.length ≠ Config.bankBytes then .ok (s.raiseError .badBankLength)
    else if bank.take 6 ≠ bankHeader then .ok (s.raiseError .badBankHeader)
    else .ok (s.withResult (.images (bankVoices bank))))

/-- `P.NAME`, a readout (R87); nothing before the first PLOAD. -/
def State.patchName (s : State) : Option (List Byte) := s.patch.map (·.name)

end Sys2Proof.Machine
end

