-- ==== Sys2Proof/Machine/Envelope.lean ====
section
/-!
DEFINITION. The envelope generator (44_envelope.md R190 to R206): configuration from the patch, the value function, the
gated and the scrubbed render.
-/
namespace Sys2Proof.Machine

/-- Which kind of unit: `ENV[k]` or `PENV` (R23). -/
inductive EnvUnit where
  | operator
  | pitch
deriving DecidableEq, Repr

/-- The hard-wired `RESHAPE` (R23): 1 for the operator envelopes, 0 for the pitch envelope. -/
def EnvUnit.reshape (u : EnvUnit) : Bool :=
  match u with
  | .operator => true
  | .pitch => false

/-- 6.7, the floor of an ascending operator segment (R192, R195). -/
def r67 (fm : Formats) : RealBits := rLit fm 67 10

/-! ### Configuration -/

/-- The stored level of stage i of an operator envelope (R191); `g` is the global level. -/
def operatorStageLevel (fm : Formats) (p : OpPatch) (g : Nat) (i : Fin 4) : RealBits :=
  let l := operatorLevel (p.level.get i)
  let raw : Int := ((l - l % 2 : Nat) : Int) + (g : Int) - 133
  rMul fm (rLit fm 125 1000) (if raw < 1 then rHalf fm else rOfInt fm raw)

/-- The four stored levels of an operator envelope (R191). -/
def operatorStageLevels (fm : Formats) (p : OpPatch) : Four RealBits :=
  Four.ofFn (operatorStageLevel fm p (operatorLevel p.olevel))

/-- The increment of stage i of an operator envelope (R192), from the stored levels. -/
def operatorStageIncr (fm : Formats) (p : OpPatch) (levels : Four RealBits) (scale : RealBits) (i : Fin 4) : RealBits :=
  let fromL := levels.get (i - 1)
  let toL := levels.get i
  let incr := operatorEnvelopeIncrement fm (p.rate.get i)
  let incr :=
    if rEq fm fromL toL then
      let slow := rMul fm incr (rLit fm 6 10)
      if i = 0 ∧ p.level.get 0 = 0 then rMul fm slow (rLit fm 20 1) else slow
    else if rLt fm fromL toL then
      let lo := rMax fm (r67 fm) fromL
      let hi := rMax fm (r67 fm) toL
      if rEq fm lo hi then r1 fm else rDiv fm (rMul fm incr (rLit fm 72 10)) (rSub fm hi lo)
    else rDiv fm incr (rSub fm fromL toL)
  rMul fm incr scale

/-- `ENV.SETOP k` (R190): all four levels, then all four increments; STAGE, PHASE and START stay. -/
def envSetOp (fm : Formats) (p : OpPatch) (e : Env) : Env :=
  { e with
    level := (operatorStageLevels fm p).map some
    incr := (Four.ofFn (operatorStageIncr fm p (operatorStageLevels fm p) e.scale)).map some }

/-- The four levels of the pitch envelope (R194). -/
def pitchStageLevels (fm : Formats) (p : Patch) : Four RealBits := p.plevel.map (pitchEnvelopeLevel fm)

/-- The increment of stage i of the pitch envelope (R194). -/
def pitchStageIncr (fm : Formats) (p : Patch) (scale : RealBits) (i : Fin 4) : RealBits :=
  let fromL := (pitchStageLevels fm p).get (i - 1)
  let toL := (pitchStageLevels fm p).get i
  let incr := pitchEnvelopeIncrement fm (p.prate.get i)
  let incr :=
    if !rEq fm fromL toL then rDiv fm incr (rAbs fm (rSub fm fromL toL))
    else if i ≠ 3 then rLit fm 2 10
    else incr
  rMul fm incr scale

/-- `ENV.SETPITCH` (R194). -/
def envSetPitch (fm : Formats) (p : Patch) (e : Env) : Env :=
  { e with
    level := (pitchStageLevels fm p).map some
    incr := (Four.ofFn (pitchStageIncr fm p e.scale)).map some }

/-! ### The value function -/

/-- `value(E, stage, phase, start)` (R195). -/
def envValue (fm : Formats) (u : EnvUnit) (levels : Four RealBits) (stage : Fin 4) (phase : RealBits)
    (start : Start) : RealBits :=
  let fromL :=
    match start with
    | .previousLevel => levels.get (stage - 1)
    | .level x => x
  let toL := levels.get stage
  if u.reshape && rLt fm fromL toL then
    let lo := rMax fm (r67 fm) fromL
    let hi := rMax fm (r67 fm) toL
    let ph := rDiv fm (rMul fm (rMul fm phase (rSub fm (rLit fm 25 10) phase)) (r2 fm)) (rLit fm 3 1)
    rAdd fm lo (rMul fm ph (rSub fm hi lo))
  else rAdd fm fromL (rMul fm phase (rSub fm toL fromL))

/-! ### The gated render -/

/-- The gate's effect on the stage before the advance (R201): note-on in the release stage, note-off outside it. -/
def envGate (fm : Formats) (u : EnvUnit) (levels : Four RealBits) (gate : Bool) (e : Env) : Env :=
  if gate then
    if e.stage = 3 then
      { e with start := .level (envValue fm u levels e.stage e.phase e.start), stage := 0, phase := r0 }
    else e
  else
    if e.stage ≠ 3 then
      { e with start := .level (envValue fm u levels e.stage e.phase e.start), stage := 3, phase := r0 }
    else e

/-- The advance of the phase by one block, and of the stage when the phase reaches 1.0 (R201). R201 takes `rate`, `ad`
and `rel` to be positive finite reals; the formula is applied as it stands to 0.0 and to an infinity too, which extreme
operands of RENDER give, and the phase may then be a NaN (DEDUCED, log 32). -/
def envAdvance (fm : Formats) (incr : Four RealBits) (rate ad rel : RealBits) (e : Env) : Env :=
  let phase := rAdd fm e.phase (rMul fm (rMul fm (incr.get e.stage) rate) (if e.stage = 3 then rel else ad))
  if rLe fm (r1 fm) phase then
    if 2 ≤ e.stage then { e with phase := r1 fm }
    else { e with stage := e.stage + 1, phase := r0, start := .previousLevel }
  else { e with phase := phase }

/-- `ENV.RENDER E, gate, rate, ad, rel` (R201): the unit after one block, and its new value; refused when LEVEL or
INCR is unwritten. -/
def envRender (fm : Formats) (u : EnvUnit) (e : Env) (gate : Bool) (rate ad rel : RealBits) : Run (Env × RealBits) := do
  let levels ← written e.level.sequence .envelopeUnwritten
  let incr ← written e.incr.sequence .envelopeUnwritten
  let e' := envAdvance fm incr rate ad rel (envGate fm u levels gate e)
  .ok (e', envValue fm u levels e'.stage e'.phase e'.start)

/-! ### The scrubbed render -/

/-- The gate-held part of `scrub` (R205): walk the stages from `st` on, taking off each one's duration; `n` is how many
of the three gate stages are left. -/
def scrubHeld (fm : Formats) (u : EnvUnit) (levels incr : Four RealBits) : Nat → Fin 4 → RealBits → RealBits
  | 0, _, _ => envValue fm u levels 2 (r1 fm) .previousLevel
  | n + 1, st, t =>
    let d := rDiv fm (r1 fm) (incr.get st)
    if rLt fm t d then envValue fm u levels st (rMul fm t (incr.get st)) .previousLevel
    else scrubHeld fm u levels incr n (st + 1) (rSub fm t d)

/-- `scrub(E, t, G)` (R205): the release branch for t > G, from the level reached at G. -/
def scrubValue (fm : Formats) (u : EnvUnit) (levels incr : Four RealBits) (t g : RealBits) : RealBits :=
  if rLt fm g t then
    let ph := rMul fm (rSub fm t g) (incr.get 3)
    if rLe fm (r1 fm) ph then levels.get 3
    else envValue fm u levels 3 ph (.level (scrubHeld fm u levels incr 3 0 g))
  else scrubHeld fm u levels incr 3 0 t

/-- `ENV.SCRUB E, t, G` (R205): no state is written; refused when LEVEL or INCR is unwritten. -/
def envScrub (fm : Formats) (u : EnvUnit) (e : Env) (t g : RealBits) : Run RealBits := do
  let levels ← written e.level.sequence .envelopeUnwritten
  let incr ← written e.incr.sequence .envelopeUnwritten
  .ok (scrubValue fm u levels incr t g)

/-- One block's value of a unit, scrubbed or gated (R243, R247); a scrubbed unit stays as it is. -/
def envBlock (fm : Formats) (u : EnvUnit) (e : Env) (args : RenderArgs) (rate ad rel : RealBits) :
    Run (Env × RealBits) :=
  if args.sustain then do
    let l ← envScrub fm u e args.scrubT args.scrubG
    .ok (e, l)
  else envRender fm u e args.gate rate ad rel

end Sys2Proof.Machine
end

