-- ==== Sys2Proof/Machine/Voice.lean ====
section
/-!
DEFINITION. The voice driver (46_voice.md R235 to R253): VRESET, SETUP, RENDER, and OPRESET (41_sine_operator.md R146).
A meaning that depends on the instance's open parameters is written over `Config.Params`; `exec…` supplies
`Config.params`.
-/
namespace Sys2Proof.Machine

/-! ### VRESET and OPRESET -/

/-- VRESET sr (R236): every element of R302 at its reset value; SAMPLE_RATE and the envelope scale from the operand.
The draw count and the host operations still waiting are the model's own and stay (log 6, log 10). -/
def execVreset (sr : RealBits) (s : State) : Host.Outcome State Fault Refusal :=
  finish do
    require (sampleRateOk s.formats sr) .sampleRateOutOfDomain
    let unit := Env.reset s.formats (rDiv s.formats (rLit s.formats 44100 1) sr)
    .ok
      { constructed := true
        sampleRate := sr
        ops := Six.ofFn fun _ => ⟨0#32, r0⟩
        env := Six.ofFn fun _ => unit
        penv := unit
        fb0 := r0
        fb1 := r0
        note := none
        nvel := none
        ratio := Six.ofFn fun _ => none
        headroom := Six.ofFn fun _ => none
        levelOut := Six.ofFn fun _ => none
        gatePrev := false
        dirty := true
        patchValid := false
        patch := none
        buf := []
        lfo := Lfo.reset
        rc := none
        draws := s.draws
        port := s.port
        result := .ok
        formats := s.formats }

/-- OPRESET k (R146): phase 0 and amplitude 0.0; an index outside 0..5 is refused. -/
def execOpreset (k : Int) (s : State) : Host.Outcome State Fault Refusal :=
  finish do
    s.needConstructed
    require (operatorIndexOk k) .operatorIndexOutOfDomain
    .ok ((s.withOps (s.ops.set k.toNat ⟨0#32, r0⟩)).withResult .ok)

/-! ### SETUP -/

/-- `HEADROOM[k]`: 127 − operator_level(output level) (R238). -/
def headroomOf (fm : Formats) (p : OpPatch) : RealBits := rOfInt fm (127 - (operatorLevel p.olevel : Int))

/-- `RATIO[k]`: the frequency ratio, negative in fixed mode (R238, R239). -/
def ratioOf (fm : Formats) (cfg : Config.Params) (p : OpPatch) : RealBits :=
  rMul fm (if p.mode = 0 then r1 fm else rNeg fm (r1 fm)) (frequencyRatio fm cfg p)

/-- The seven envelope units, configured (R238). -/
def setupEnvs (p : Patch) (s : State) : State :=
  s.withEnvs (Six.ofFn fun k => envSetOp s.formats (p.op.get k) (s.env.get k)) (envSetPitch s.formats p s.penv)

/-- The two caches, derived (R238). -/
def setupCaches (cfg : Config.Params) (p : Patch) (s : State) : State :=
  s.withCaches (p.op.map fun q => some (ratioOf s.formats cfg q)) (p.op.map fun q => some (headroomOf s.formats q))

/-- SETUP's effect, also the preamble of RENDER (R238, R241): refused with no patch, a no-op when not dirty. -/
def setupWith (cfg : Config.Params) (s : State) : Run State := do
  let p ← s.needPatch
  if s.dirty then .ok (setupCaches cfg p (setupEnvs p s)).flagsAfterSetup else .ok s

/-- SETUP (R238). -/
def execSetup (s : State) : Host.Outcome State Fault Refusal :=
  finish do
    s.needConstructed
    let s' ← setupWith Config.params s
    .ok (s'.withResult .ok)

/-! ### RENDER, steps 1 to 5 -/

/-- Step 1: adScale (R242). -/
def adScale (fm : Formats) (cfg : Config.Params) (envctl : RealBits) : RealBits :=
  exp2 fm cfg (rMul fm (rSub fm (rHalf fm) envctl) (rLit fm 8 1))

/-- Step 1: releaseScale (R242). -/
def releaseScale (fm : Formats) (cfg : Config.Params) (envctl : RealBits) : RealBits :=
  exp2 fm cfg (rMul fm (rSub fm r0 (rAbs fm (rSub fm envctl (rLit fm 3 10)))) (rLit fm 8 1))

/-- Step 1: envelopeRate = B (R242). -/
def envelopeRate (fm : Formats) (a : RenderArgs) : RealBits := rOfInt fm a.block

/-- Step 3: the base frequency f0, cycles per sample (R244). -/
def baseFrequency (fm : Formats) (cfg : Config.Params) (sampleRate note pitchMod : RealBits)
    (transpose : Nat) : RealBits :=
  let inputNote := rAdd fm (rSub fm note (rLit fm 24 1)) (rOfInt fm transpose)
  rMul fm (rMul fm (rDiv fm (rLit fm 55 1) sampleRate) (rLit fm 25 100))
    (semitonesToRatioSafe fm cfg (rAdd fm (rSub fm inputNote (rLit fm 9 1)) (rMul fm (rLit fm 12 1) pitchMod)))

/-- Step 4: the phases of all operators cleared, amplitudes kept (R245). -/
def clearPhases (ops : Six Oper) : Six Oper := ops.map fun o => { o with phase := 0#32 }

/-- Step 4: note-on detection, latches, phase clear (R245). -/
def noteStep (cfg : Config.Params) (p : Patch) (a : RenderArgs) (s : State) : State :=
  let on := noteOn a.gate s.gatePrev
  let latch := latchesNote a.gate s.gatePrev a.sustain
  let s := s.withGatePrev a.gate
  let s := if latch then s.withLatch a.note (normalizeVelocity s.formats cfg a.velocity) else s
  if on && p.resetPhase = 1 then s.withOps (clearPhases s.ops) else s

/-- Step 5: f[i], the first line (R244): fixed mode by the magnitude of RATIO in Hz, ratio mode times f0. -/
def targetFrequency (fm : Formats) (sampleRate f0 ratio : RealBits) : RealBits :=
  if rLt fm ratio r0 then rMul fm (rSub fm r0 ratio) (rDiv fm (r1 fm) sampleRate) else rMul fm ratio f0

/-- Step 5: the adjusted level l2 (R248). -/
def adjustedLevel (fm : Formats) (p : OpPatch) (modulator : Bool)
    (brightness note nvel headroom l : RealBits) : RealBits :=
  let kb := keyboardScaling fm note p.ks
  let vs := rMul fm nvel (rOfInt fm p.vs)
  let br := if modulator then rMul fm (rSub fm brightness (rHalf fm)) (rLit fm 32 1) else r0
  rAdd fm l (rMul fm (rLit fm 125 1000) (rMin fm (rAdd fm (rAdd fm kb vs) br) headroom))

/-- Step 5: a[i] (R249). -/
def targetAmplitude (fm : Formats) (cfg : Config.Params) (ams : Nat) (ampMod l2 : RealBits) : RealBits :=
  let logMod := rSub fm (rMul fm (lutAms fm cfg ams) ampMod) (r1 fm)
  let levelMod := rSub fm (r1 fm) (exp2 fm cfg (rMul fm (rLit fm 64 10) logMod))
  exp2 fm cfg (rAdd fm (rNeg fm (rLit fm 14 1)) (rMul fm l2 levelMod))

/-- What step 5 gives for one operator: its envelope after the block, f, l2 and a. -/
structure OpTarget where
  env : Env
  f : RealBits
  level : RealBits
  a : RealBits
deriving DecidableEq, Repr

/-- What step 5 reads that is the same for every operator. -/
structure BlockInput where
  args : RenderArgs
  row : Six Byte
  sampleRate : RealBits
  f0 : RealBits
  ad : RealBits
  rel : RealBits
  note : RealBits
  nvel : RealBits
deriving DecidableEq, Repr

/-- Step 5 for operator i (R244, R247, R248, R249). -/
def opTarget (cfg : Config.Params) (b : BlockInput) (p : Patch) (s : State) (i : Nat) : Run OpTarget := do
  let q := p.op.get i
  let ratio ← written (s.ratio.get i) .setupUnwritten
  let headroom ← written (s.headroom.get i) .setupUnwritten
  let rate := rMul s.formats (envelopeRate s.formats b.args) (rateScaling s.formats cfg b.note q.rs)
  let (env, l) ← envBlock s.formats .operator (s.env.get i) b.args rate b.ad b.rel
  let l2 := adjustedLevel s.formats q (isModulator b.row i) b.args.brightness b.note b.nvel headroom l
  .ok ⟨env, targetFrequency s.formats b.sampleRate b.f0 ratio, l2, targetAmplitude s.formats cfg q.ams b.args.ampMod l2⟩

/-- Step 5 for all six operators (R251: each touches only its own registers). -/
def opTargets (cfg : Config.Params) (b : BlockInput) (p : Patch) (s : State) : Run (Six OpTarget) := do
  let t0 ← opTarget cfg b p s 0
  let t1 ← opTarget cfg b p s 1
  let t2 ← opTarget cfg b p s 2
  let t3 ← opTarget cfg b p s 3
  let t4 ← opTarget cfg b p s 4
  let t5 ← opTarget cfg b p s 5
  .ok ⟨t0, t1, t2, t3, t4, t5⟩

/-- The checks RENDER makes before any effect (R240), in the order of log 26: operands, a loaded patch, a well-formed
row. -/
def renderChecks (cfg : Config.Params) (a : RenderArgs) (s : State) : Run Patch := do
  s.needConstructed
  require (blockOk a.block) .blockSizeOutOfDomain
  require (renderRealsOk s.formats a) .renderOperandOutOfDomain
  let p ← s.needPatch
  require (decide (p.alg < 32) && rowWf (algRow cfg p.alg)) .rowIllFormed
  .ok p

/-- Steps 1 to 5 of RENDER after the preamble (R242 to R249): the state with the pitch and operator envelopes, the
flag and latches, the cleared phases and LEVEL_OUT written, and the context step 6 runs in. -/
def renderTargets (cfg : Config.Params) (a : RenderArgs) (p : Patch) (s : State) : Run State := do
  let ad := adScale s.formats cfg a.envctl
  let rel := releaseScale s.formats cfg a.envctl
  let (penv, pe) ← envBlock s.formats .pitch s.penv a (envelopeRate s.formats a) ad rel
  let f0 := baseFrequency s.formats cfg s.sampleRate a.note (rAdd s.formats pe a.pitchMod) p.transpose
  let s := noteStep cfg p a s
  let note ← written s.note .noteUnwritten
  let nvel ← written s.nvel .noteUnwritten
  let row := algRow cfg p.alg
  let t ← opTargets cfg ⟨a, row, s.sampleRate, f0, ad, rel, note, nvel⟩ p s
  .ok (((s.withEnvs (t.map (·.env)) penv).withLevelOut (t.map fun x => some x.level)).withRc
    (some { index := 0, block := a.block.toNat, f := t.map (·.f), a := t.map (·.a), row := row }))

/-- Step 6 (R179, R250): the compiled plan of the row, over the block; the context ends with the operation (R37). -/
def renderDispatch (cfg : Config.Params) (p : Patch) (s : State) : Run State := do
  let plan ← written (compile (algRow cfg p.alg)) .rowIllFormed
  let s ← runPlan plan s
  .ok (s.withRc none)

/-- RENDER for an instance (R240): checks, preamble, steps 1 to 6. -/
def renderWith (cfg : Config.Params) (a : RenderArgs) (s : State) : Run State := do
  let p ← renderChecks cfg a s
  let s ← setupWith cfg s
  let s ← renderTargets cfg a p s
  let s ← renderDispatch cfg p s
  .ok (s.withResult .ok)

/-- RENDER (R240). -/
def execRender (args : RenderArgs) (s : State) : Host.Outcome State Fault Refusal :=
  finish (renderWith Config.params args s)

end Sys2Proof.Machine
end

