-- ==== Sys2Proof/Machine/Dispatch.lean ====
section
/-! DEFINITION. `exec`: one arm per instruction, in the order of spec/opcode_table.json. -/
namespace Sys2Proof.Machine

def exec (i : Instr) (s : State) : Host.Outcome State Fault Refusal :=
  match i with
  | .opn dst add tap => Sys2Proof.Machine.execOpn dst add tap s
  | .opx1 dst add tap => Sys2Proof.Machine.execOpx1 dst add tap s
  | .opx2 dst add tap => Sys2Proof.Machine.execOpx2 dst add tap s
  | .opf dst add tap => Sys2Proof.Machine.execOpf dst add tap s
  | .ch1NoneW first inp out => Sys2Proof.Machine.execCh1NoneW first inp out s
  | .ch1NoneA first inp out => Sys2Proof.Machine.execCh1NoneA first inp out s
  | .ch1ExtW first inp out => Sys2Proof.Machine.execCh1ExtW first inp out s
  | .ch1ExtA first inp out => Sys2Proof.Machine.execCh1ExtA first inp out s
  | .ch1Fb0W first inp out => Sys2Proof.Machine.execCh1Fb0W first inp out s
  | .ch1Fb0A first inp out => Sys2Proof.Machine.execCh1Fb0A first inp out s
  | .ch2Fb1A first inp out => Sys2Proof.Machine.execCh2Fb1A first inp out s
  | .ch3Fb2A first inp out => Sys2Proof.Machine.execCh3Fb2A first inp out s
  | .vreset sr => Sys2Proof.Machine.execVreset sr s
  | .pload img => Sys2Proof.Machine.execPload img s
  | .setup => Sys2Proof.Machine.execSetup s
  | .render args => Sys2Proof.Machine.execRender args s
  | .opreset k => Sys2Proof.Machine.execOpreset k s
  | .lcfg => Sys2Proof.Machine.execLcfg s
  | .lreset => Sys2Proof.Machine.execLreset s
  | .lstep scale => Sys2Proof.Machine.execLstep scale s
  | .lscrub sample => Sys2Proof.Machine.execLscrub sample s
  | .bunpack bank => Sys2Proof.Machine.execBunpack bank s

end Sys2Proof.Machine
end

