-- ==== Sys2Proof/Machine/Port.lean ====
section
/-!
DEFINITION. The host's port: the next operation the block takes (00_scope.md R13), writes through the buffer port
(20_memory.md R64), and the context in which a bare table word of formats R and K is run (log 14).
-/
namespace Sys2Proof.Machine

/-- The next thing the block does. -/
inductive NextOp where
  | idle
  | write (slot index : Nat) (v : SampleBits) (rest : List HostOp)
  | instr (i : Instr) (rest : List HostOp)
  | reject (r : Refusal)
deriving DecidableEq, Repr

/-- A decoder's rejection as a refusal (R290). -/
def rejection (e : DecodeError) : Refusal :=
  match e with
  | .reservedOpcode => .reservedOpcode
  | .unassignedSelector => .unassignedSelector
  | .unassignedCommand => .unassignedCommand
  | .malformedOperands => .malformedOperands

/-- The oldest host operation, with a packet decoded (R13, R70). -/
def nextOp (s : State) : NextOp :=
  match s.port with
  | [] => .idle
  | .writeSample slot index v :: rest => .write slot index v rest
  | .packet p :: rest =>
    match decode p with
    | .ok i => .instr i rest
    | .error e => .reject (rejection e)

/-- A write of one sample by the host (R64): refused before the first VRESET (R300), a fault at an address that does
not exist (R60). -/
def portWrite (slot index : Nat) (v : SampleBits) (s : State) : Host.Outcome State Fault Refusal :=
  finish do
    s.needConstructed
    let m ← bufWrite Config.bmax s.buf slot index v
    .ok (s.withBuf m)

/-- The context a bare table word of format R or K is run in: the first operator of a block of one sample, every f
and a 0.0, the row starting with the word (log 14). -/
def tableCtx (p : Packet) : RenderCtx :=
  { index := 0
    block := 1
    f := Six.ofFn fun _ => r0
    a := Six.ofFn fun _ => r0
    row := (Six.ofFn fun _ => 0#8).set 0 p.code }

end Sys2Proof.Machine
end

