-- ==== Sys2Proof/Machine/Step.lean ====
section
/-!
DEFINITION. One step: the oldest host operation waiting at the port (00_scope.md R13, 20_memory.md R70). Taking a
packet apart and the buffer port are Machine/Port.lean's.
-/
namespace Sys2Proof.Machine

/-- One step. With nothing waiting the block holds its state (R299). A packet is decoded and executed; one that is no
instruction is refused (R92, R93). A port write stores one sample (R64). -/
def step (s : State) : Host.Outcome State Fault Refusal :=
  match nextOp s with
  | .idle => .next s
  | .write slot index v rest => portWrite slot index v (s.withPort rest)
  | .instr i rest => exec i (s.withPort rest)
  | .reject r => .refused r

/-- The state in which the given table word is the next thing the step fetches and runs: the word's packet stands
first at the port; a routing opcode or a chain call, which the block takes only inside a RENDER, stands in one whose
context is `tableCtx` (log 10, log 14). -/
def State.withFetchWord (s : State) (nbits w : Nat) : State :=
  let p := tablePacket nbits w
  (s.withPort (.packet p :: s.port)).withRc (if p.format = .command then s.rc else some (tableCtx p))

end Sys2Proof.Machine
end

