-- ==== Sys2Proof/Safety.lean ====
section
/-!
DEFINITION. The terms claims about the machine use: the invariant of every reachable state, the coherence of the
registers SETUP derives with the patch they derive from, and the closed forms the chain renderer is measured against
(42_chain_renderer.md R152 to R156), written without its loops.
-/
namespace Sys2Proof.Machine

/-! ### The invariant -/

/-- All four entries of a table are written. -/
def allWritten (x : Four (Option RealBits)) : Bool := x.s0.isSome && x.s1.isSome && x.s2.isSome && x.s3.isSome

/-- All four entries of a table are unwritten. -/
def allUnwritten (x : Four (Option RealBits)) : Bool := x.s0.isNone && x.s1.isNone && x.s2.isNone && x.s3.isNone

/-- The tables SETUP writes in one envelope unit. -/
def Env.tablesWritten (e : Env) : Bool := allWritten e.level && allWritten e.incr

/-- The same tables, unwritten. -/
def Env.tablesUnwritten (e : Env) : Bool := allUnwritten e.level && allUnwritten e.incr

/-- Everything SETUP writes is written: both tables of the seven envelope units, RATIO and HEADROOM (R238). -/
def State.setupWritten (s : State) : Bool :=
  s.env.all Env.tablesWritten && s.penv.tablesWritten && s.ratio.all Option.isSome && s.headroom.all Option.isSome

/-- Nothing SETUP writes is written, as after VRESET (R302). -/
def State.setupUnwritten (s : State) : Bool :=
  s.env.all Env.tablesUnwritten && s.penv.tablesUnwritten && s.ratio.all Option.isNone && s.headroom.all Option.isNone

/-- Not below 0.0. It says nothing of a NaN, which extreme operands can give a phase (log 32). -/
def notNegative (fm : Formats) (x : RealBits) : Bool := !rLt fm x r0

/-- Unwritten, or not below 0.0. -/
def noneOrNotNegative (fm : Formats) (x : Option RealBits) : Bool :=
  match x with
  | none => true
  | some v => notNegative fm v

/-- An envelope's PHASE is not below 0.0 and not above 1.0 (R23: real in [0,1]; R201 saturates it). -/
def Env.phaseOk (fm : Formats) (e : Env) : Bool := notNegative fm e.phase && !rLt fm (r1 fm) e.phase

/-- An envelope's SCALE and increments are not below 0.0: no phase moves backwards (R191, R192, R194). -/
def Env.ratesOk (fm : Formats) (e : Env) : Bool :=
  notNegative fm e.scale && noneOrNotNegative fm e.incr.s0 && noneOrNotNegative fm e.incr.s1 &&
    noneOrNotNegative fm e.incr.s2 && noneOrNotNegative fm e.incr.s3

/-- L.PHASE is not below 0.0 and L.DELAY_PHASE not below 0.0 and not above 1.0 (R35). That L.PHASE may stay at or above
1.0 is R220's. -/
def Lfo.phasesOk (fm : Formats) (l : Lfo) : Bool :=
  notNegative fm l.phase && notNegative fm l.delayPhase && !rLt fm (r1 fm) l.delayPhase

/-- L.FREQ and both L.DELAY_INC are not below 0.0 (R217). -/
def Lfo.ratesOk (fm : Formats) (l : Lfo) : Bool :=
  noneOrNotNegative fm l.freq && noneOrNotNegative fm l.delayInc0 && noneOrNotNegative fm l.delayInc1

/-- A running RENDER's context is one RENDER makes: router index 0..6 (R37), block size 1..BMAX (R240). -/
def RenderCtx.ok (c : RenderCtx) : Bool := c.index ≤ 6 && 1 ≤ c.block && c.block ≤ Config.bmax

/-- What holds in every state the machine reaches: the ranges the spec gives the registers, and which registers are
written together. -/
structure State.Inv (s : State) : Prop where
  /-- the number formats are those R7 uses: the ranges below are stated of them (log 1) -/
  formats : s.formats = ieee
  /-- `BUF` is in canonical form, every entry a sample that exists (R33) -/
  buf : Memory.wf s.buf = true
  /-- SAMPLE_RATE is a positive real once a VRESET has run (R32, R236) -/
  rate : s.constructed = true → sampleRateOk s.formats s.sampleRate = true
  /-- PATCH_VALID says whether the `P.*` registers are written (R27, R28) -/
  valid : s.patchValid = s.patch.isSome
  /-- every `P.*` register is in its range (R29, R30) -/
  patch : ∀ p, s.patch = some p → p.inRange = true
  /-- what SETUP writes is written all together or not at all (R238) -/
  setup : s.setupWritten = true ∨ s.setupUnwritten = true
  /-- when it is not, the state is dirty (R27, R302) -/
  dirty : s.setupUnwritten = true → s.dirty = true
  /-- NOTE and NVEL are latched together (R245, R246) -/
  latch : s.note.isSome = s.nvel.isSome
  /-- GATE_PREV = 1 cannot occur before a first note-on (R246) -/
  gate : s.gatePrev = true → s.note.isSome = true
  /-- the six readouts LEVEL_OUT are written together (R248) -/
  levelOut : s.levelOut.all Option.isSome = true ∨ s.levelOut.all Option.isNone = true
  /-- no envelope's PHASE is below 0.0 or above 1.0 (R23) -/
  phases : s.env.all (Env.phaseOk s.formats) = true ∧ s.penv.phaseOk s.formats = true
  /-- no envelope's SCALE or increment is below 0.0 (R191, R192, R194) -/
  rates : s.env.all (Env.ratesOk s.formats) = true ∧ s.penv.ratesOk s.formats = true
  /-- L.WAVE is 0..5 (R35, R224) -/
  wave : s.lfo.wave ≤ 5
  /-- L.FREQ and L.DELAY_INC are written together (R217) -/
  lfoFreq : s.lfo.freq.isSome = s.lfo.delayInc0.isSome ∧ s.lfo.freq.isSome = s.lfo.delayInc1.isSome
  /-- L.SH is in [0,1) (R35, R229) -/
  hold : (rLe s.formats r0 s.lfo.sh && rLt s.formats s.lfo.sh (r1 s.formats)) = true
  /-- L.PHASE is not below 0.0, L.DELAY_PHASE not below 0.0 and not above 1.0 (R35, R218, R220) -/
  lfoPhases : s.lfo.phasesOk s.formats = true
  /-- L.FREQ and L.DELAY_INC are not below 0.0 (R217) -/
  lfoRates : s.lfo.ratesOk s.formats = true
  /-- a RENDER under way has a context RENDER makes (R37) -/
  rc : ∀ c, s.rc = some c → c.ok = true

/-- The registers SETUP derives hold what it would derive again from the patch and each unit's SCALE (R73(b), R238):
the envelope tables are those of the patch, and so are the two caches. -/
def State.DerivedFrom (s : State) (p : Patch) : Prop :=
  (∀ k < 6, envSetOp s.formats (p.op.get k) (s.env.get k) = s.env.get k) ∧ envSetPitch s.formats p s.penv = s.penv ∧
    (∀ k < 6, s.ratio.get k = some (ratioOf s.formats Config.params (p.op.get k))) ∧
    (∀ k < 6, s.headroom.get k = some (headroomOf s.formats (p.op.get k)))

/-- While a patch is loaded and DIRTY is clear, the derived registers are coherent with the patch (R73(b)). -/
def State.Coherent (s : State) : Prop :=
  s.dirty = false → ∀ p, s.patch = some p → s.DerivedFrom p

/-! ### The chain renderer in closed form -/

/-- The phase after `i` samples: the phase before the block plus `i` increments, wrapping (R142, R155). -/
def phaseAt (phase inc : U32) (i : Nat) : U32 := phase + BitVec.ofNat 32 i * inc

/-- The amplitude after `i` samples: `i` slopes accumulated one at a time (R155, R156). -/
def ampAt (fm : Formats) (amp slope : RealBits) : Nat → RealBits
  | 0 => amp
  | i + 1 => rAdd fm (ampAt fm amp slope i) slope

/-- The phase increment of a target frequency (R152, R153). -/
def incOf (fm : Formats) (f : RealBits) : U32 := rTruncU32 fm (rMul fm (rMin fm f (rHalf fm)) (rLit fm 4294967296 1))

/-- The amplitude slope of a target amplitude over a block (R152, R153). -/
def slopeOf (fm : Formats) (a amp : RealBits) (block : Nat) : RealBits :=
  rDiv fm (rSub fm (rMin fm a (r4 fm)) amp) (rOfInt fm block)

/-- Operator k's output in sample `i` of a block, with phase modulation `pm` (R155): the phase already advanced, the
amplitude not yet. -/
def opOut (s : State) (c : RenderCtx) (k i : Nat) (pm : RealBits) : RealBits :=
  rMul s.formats (sinePm s.formats (phaseAt (s.ops.get k).phase (incOf s.formats (c.f.get k)) (i + 1)) pm)
    (ampAt s.formats (s.ops.get k).amp (slopeOf s.formats (c.a.get k) (s.ops.get k).amp c.block) i)

/-- Operator k's registers after the block (R156). -/
def opAfter (s : State) (c : RenderCtx) (k : Nat) : Oper :=
  { phase := phaseAt (s.ops.get k).phase (incOf s.formats (c.f.get k)) c.block
    amp := ampAt s.formats (s.ops.get k).amp (slopeOf s.formats (c.a.get k) (s.ops.get k).amp c.block) c.block }

/-- The feedback history before sample `i`, newer first, for a chain whose last operator gives `out i pm` (R155). -/
def histAt (fm : Formats) (out : Nat → RealBits → RealBits) (scale h0 h1 : RealBits) : Nat → RealBits × RealBits
  | 0 => (h0, h1)
  | i + 1 =>
    let h := histAt fm out scale h0 h1 i
    (out i (rMul fm (rAdd fm h.1 h.2) scale), h.1)

/-- The first `n` samples of a slot are written. -/
def State.blockWritten (s : State) (slot : Slot) (n : Nat) : Prop :=
  ∀ i < n, ∃ v, s.sample slot.toNat i = some v

/-- The machine is inside a RENDER whose context is `c`, of at most BMAX samples, and the operands it has bound for
the operators `first .. first + n − 1` are in the renderer's types (R151). -/
def State.inRender (s : State) (c : RenderCtx) (first n : Nat) : Prop :=
  s.rc = some c ∧ c.block ≤ Config.bmax ∧
    ∀ k, first ≤ k → k < first + n → callFreqOk s.formats (c.f.get k) = true ∧ callAmpOk s.formats (c.a.get k) = true

/-- What a chain call of operators `first .. first + n − 1` into slot `out` leaves as it was: every register but those
operators, the feedback history, the buffer and the router index, which moves past the operators; every other
operator; every sample but the block's samples of slot `out`. -/
def chainFrame (s t : State) (c : RenderCtx) (first n : Nat) (out : Slot) : Prop :=
  t = { s with
    ops := t.ops, buf := t.buf, fb0 := t.fb0, fb1 := t.fb1, rc := some { c with index := first + n } } ∧
  (∀ k < 6, k < first ∨ first + n ≤ k → t.ops.get k = s.ops.get k) ∧
  (∀ slot i, slot ≠ out.toNat ∨ c.block ≤ i → t.sample slot i = s.sample slot i)

/-! ### The router as instructions -/

/-- The instruction a call of a plan issues (R85, R179). -/
def Call.instr (c : Call) : Option Instr :=
  if h : c.first < 6 then
    match c.spec with
    | .ch1NoneW => some (.ch1NoneW ⟨c.first, h⟩ c.inp c.out)
    | .ch1NoneA => some (.ch1NoneA ⟨c.first, h⟩ c.inp c.out)
    | .ch1ExtW => some (.ch1ExtW ⟨c.first, h⟩ c.inp c.out)
    | .ch1ExtA => some (.ch1ExtA ⟨c.first, h⟩ c.inp c.out)
    | .ch1Fb0W => some (.ch1Fb0W ⟨c.first, h⟩ c.inp c.out)
    | .ch1Fb0A => some (.ch1Fb0A ⟨c.first, h⟩ c.inp c.out)
    | .ch2Fb1A => some (.ch2Fb1A ⟨c.first, h⟩ c.inp c.out)
    | .ch3Fb2A => some (.ch3Fb2A ⟨c.first, h⟩ c.inp c.out)
  else none

/-- Instructions executed one after the other, up to the first that does not answer a next state. -/
def execAll : List Instr → State → Host.Outcome State Fault Refusal
  | [], s => .next s
  | i :: rest, s =>
    match exec i s with
    | .next s' => execAll rest s'
    | o => o

/-- The router inside a RENDER as a machine that fetches: decode the opcode of the row at the router index, execute
it, and go on, for at most `fuel` opcodes, until the index is 6 (R37). -/
def runRow : Nat → State → Host.Outcome State Fault Refusal
  | 0, s => .next s
  | fuel + 1, s =>
    match s.rc with
    | none => .refused .outsideRender
    | some c =>
      if c.index < 6 then
        match decodeRouting (c.row.get c.index) with
        | .error e => .refused (rejection e)
        | .ok i =>
          match exec i s with
          | .next s' => runRow fuel s'
          | o => o
      else .next s

/-- The slots a call needs written over the block: the one it reads as EXTERNAL, and the one it adds into (R62, R63). -/
def Call.needs (c : Call) : List Slot :=
  match c.spec with
  | .ch1NoneW => []
  | .ch1NoneA => [c.out]
  | .ch1ExtW => [c.inp]
  | .ch1ExtA => [c.inp, c.out]
  | .ch1Fb0W => []
  | .ch1Fb0A => [c.out]
  | .ch2Fb1A => [c.out]
  | .ch3Fb2A => [c.out]

/-- The slots a plan needs written before it starts: those a call needs and no earlier call of the plan wrote, nor are
they among `done` (R178's last sentence, R310). -/
def readsFirst : List Slot → List Call → List Slot
  | _, [] => []
  | done, c :: rest => c.needs.filter (fun slot => !done.contains slot) ++ readsFirst (c.out :: done) rest

/-! ### Images in range -/

/-- No unused bit of a packed voice is set and no clamped field exceeds its maximum (R90, R263, R268). -/
def imageClean (img : List Byte) : Prop :=
  img.length = 128 ∧ ∀ j < 128, ∀ b, img[j]? = some b →
    (if j < 102 then
      (if j % 17 = 11 then b.toNat < 16
       else if j % 17 = 12 then b.toNat < 128 ∧ b.toNat / 8 ≤ 14
       else if j % 17 = 13 then b.toNat < 32
       else if j % 17 = 15 then b.toNat < 64
       else b.toNat ≤ 99)
     else if j = 110 then b.toNat < 32
     else if j = 111 then b.toNat < 16
     else if j = 116 then b.toNat < 128 ∧ b.toNat / 2 % 8 ≤ 5
     else if j = 117 then b.toNat ≤ 48
     else if j < 118 then b.toNat ≤ 99
     else b.toNat ≤ 127)

/-! ### Runs of an envelope unit -/

/-- A unit after one gated call per entry of a list of gates, with the same rate and scales each time (R201); none
when the unit's tables are unwritten. -/
def envRun (fm : Formats) (u : EnvUnit) (rate ad rel : RealBits) : List Bool → Env → Option Env
  | [], e => some e
  | g :: rest, e =>
    match envRender fm u e g rate ad rel with
    | .ok (e', _) => envRun fm u rate ad rel rest e'
    | .error _ => none

end Sys2Proof.Machine
end

