-- ==== Sys2Proof/Certificates/Slice0/Obligations.lean ====
section
/-!
DEFINITION. The statements for the provers. Each docstring names the rules of spec/ it formalises; where a clause is
the model's own choice it names the log entry. A statement about what an instruction computes holds in whatever number
formats the state has (R7); worked values and ranges are stated in the formats R7 uses, `ieee` (log 1).
-/
open Sys2Proof Sys2Proof.Machine

/-! ### Encodings and the step -/

/-- R81 to R86: the decoder inverts the encoder on every instruction, and a packet that decodes is the one packet that
encodes its instruction, so each word has one meaning. The operands of formats K and C travel typed (log 12). -/
def Obligations.DecodeInvertsEncode : Prop :=
  (∀ i : Instr, decode (encode i) = .ok i) ∧ ∀ (p : Packet) (i : Instr), decode p = .ok i → encode i = p

/-- R83, R85, R86, R95: a few words written out from the tables, one of each format's corners. -/
def Obligations.DecodeOfWrittenWords : Prop :=
  decode ⟨.routing, 0x74#8, []⟩ = .ok (.opf 0#2 true true) ∧
  decode ⟨.routing, 0x25#8, []⟩ = .ok (.opx2 1#2 true false) ∧
  decode ⟨.routing, 0x11#8, []⟩ = .ok (.opx1 1#2 false false) ∧
  decode ⟨.routing, 0x47#8, []⟩ = .ok (.opn 3#2 true true) ∧
  decode ⟨.chain, 0x17#8, [.int 4, .int 3, .int 0]⟩ = .ok (.ch2Fb1A 4 3#2 0#2) ∧
  decode ⟨.chain, 0x00#8, [.int 5, .int 1, .int 2]⟩ = .ok (.ch1ExtW 5 1#2 2#2) ∧
  decode ⟨.command, 0x05#8, [.int 2]⟩ = .ok (.opreset 2) ∧
  decode ⟨.command, 0x10#8, [.bytes []]⟩ = .ok (.bunpack [])

/-- R83: the four mnemonics, told apart by the byte under mask 0xB8, with dst = o[1:0], add = o[2], tap = o[6] (R82);
every other byte is a reserved encoding. -/
def Obligations.RoutingOpcodesDecode : Prop :=
  ∀ o : Byte, decode ⟨.routing, o, []⟩ =
    if o &&& 0xB8#8 = 0x00#8 then .ok (.opn (o.extractLsb' 0 2) (o.getLsbD 2) (o.getLsbD 6))
    else if o &&& 0xB8#8 = 0x10#8 then .ok (.opx1 (o.extractLsb' 0 2) (o.getLsbD 2) (o.getLsbD 6))
    else if o &&& 0xB8#8 = 0x20#8 then .ok (.opx2 (o.extractLsb' 0 2) (o.getLsbD 2) (o.getLsbD 6))
    else if o &&& 0xB8#8 = 0x30#8 then .ok (.opf (o.extractLsb' 0 2) (o.getLsbD 2) (o.getLsbD 6))
    else .error .reservedOpcode

/-- R13, R70 (the port is log 10): a step whose oldest host operation is a packet that decodes runs exactly that
instruction, on the state with the packet taken off the port. -/
def Obligations.StepRunsTheDecodedInstruction : Prop :=
  ∀ (s : State) (p : Packet) (rest : List HostOp) (i : Instr),
    s.port = .packet p :: rest → decode p = .ok i → step s = exec i { s with port := rest }

/-- R92, R93, R150: a command code outside R86's table, a routing opcode with bit 7 or bit 3 set and a selector of
none of the eight specializations are refused by the step, whatever operands stand beside them. -/
def Obligations.UnassignedCodesAreRefused : Prop :=
  ∀ (s : State) (code : Byte) (ops : List Operand) (rest : List HostOp),
    (code ∉ [0x01#8, 0x02#8, 0x03#8, 0x04#8, 0x05#8, 0x08#8, 0x09#8, 0x0A#8, 0x0B#8, 0x10#8] →
      s.port = .packet ⟨.command, code, ops⟩ :: rest → step s = .refused .unassignedCommand) ∧
    (code.getLsbD 7 = true ∨ code.getLsbD 3 = true →
      s.port = .packet ⟨.routing, code, []⟩ :: rest → step s = .refused .reservedOpcode) ∧
    (code ∉ [0x00#8, 0x01#8, 0x02#8, 0x03#8, 0x04#8, 0x05#8, 0x17#8, 0x29#8] →
      s.port = .packet ⟨.chain, code, ops⟩ :: rest → step s = .refused .unassignedSelector)

/-- R64, R299: with nothing waiting a step holds the state; a host write of a sample that exists completes, the sample
then reads as written, and every other sample and every register is as before. An address that does not exist (a slot
above 3, an index at or above BMAX, which is open, log 7) faults (the model's choice, log 22). -/
def Obligations.HostPortWrites : Prop :=
  ∀ (s : State) (slot i : Nat) (v : SampleBits) (rest : List HostOp),
    (s.port = [] → step s = .next s) ∧
    (s.port = .writeSample slot i v :: rest → s.constructed = true → slot < 4 → i < Config.bmax →
      ∃ t, step s = .next t ∧ t = { s with port := rest, buf := t.buf } ∧ t.sample slot i = some v ∧
        ∀ slot' i', (slot' ≠ slot ∨ i' ≠ i) → t.sample slot' i' = s.sample slot' i') ∧
    (s.port = .writeSample slot i v :: rest → s.constructed = true → (4 ≤ slot ∨ Config.bmax ≤ i) →
      step s = .fault .noSuchSample)

/-! ### Reset -/

/-- R302 with the sample rate of R7 (that State.reset stands after a VRESET of 44100.0 is the model's choice, log 8):
VRESET from power-up gives State.reset. -/
def Obligations.ResetIsVresetFromPowerUp : Prop :=
  exec (.vreset 0x40E5888000000000) State.powerUp = .next State.reset ∧ step State.reset = .next State.reset

/-- R236, R302: for a finite operand above 0.0 every piece of state takes its reset value, whatever it held, with
SAMPLE_RATE the operand and every SCALE 44100.0 / sr; any other operand is refused. What stays is the model's own: the
draws taken, the host operations waiting and the formats (log 6, log 10, log 1). -/
def Obligations.VresetResult : Prop :=
  ∀ (sr : RealBits) (s : State),
    let fm := s.formats
    (rIsFinite fm sr = true → rLt fm r0 sr = true →
      exec (.vreset sr) s = .next
        { constructed := true, sampleRate := sr
          ops := ⟨⟨0, r0⟩, ⟨0, r0⟩, ⟨0, r0⟩, ⟨0, r0⟩, ⟨0, r0⟩, ⟨0, r0⟩⟩
          env := Six.ofFn fun _ =>
            ⟨3, r1 fm, .previousLevel, ⟨none, none, none, none⟩, ⟨none, none, none, none⟩,
              rDiv fm (rLit fm 44100 1) sr⟩
          penv := ⟨3, r1 fm, .previousLevel, ⟨none, none, none, none⟩, ⟨none, none, none, none⟩,
            rDiv fm (rLit fm 44100 1) sr⟩
          fb0 := r0, fb1 := r0, note := none, nvel := none
          ratio := ⟨none, none, none, none, none, none⟩
          headroom := ⟨none, none, none, none, none, none⟩
          levelOut := ⟨none, none, none, none, none, none⟩
          gatePrev := false, dirty := true, patchValid := false, patch := none, buf := []
          lfo := { phase := r0, freq := none, delayPhase := r0, delayInc0 := none, delayInc1 := none, sh := r0,
                   value := r0, amd := r0, pmd := r0, wave := 0, resetPhase := false, phaseInt := 0 }
          rc := none, draws := s.draws, port := s.port, result := .ok, formats := s.formats }) ∧
    ((rIsFinite fm sr = false ∨ rLt fm r0 sr = false) → exec (.vreset sr) s = .refused .sampleRateOutOfDomain)

/-- R300: before the first VRESET every command but VRESET and BUNPACK is refused, BUNPACK runs, and so does a VRESET
of a finite rate above 0.0. The model's own: the name of the refusal where a second one applies (log 26), the host's
write of a sample refused too (log 22), and a routing opcode or chain call refused outside a RENDER (log 14). -/
def Obligations.BeforeTheFirstVreset : Prop :=
  ∀ s : State,
    let fm := s.formats
    s.constructed = false →
    (∀ i : Instr, (encode i).format = .command → (∀ sr, i ≠ .vreset sr) → (∀ bank, i ≠ .bunpack bank) →
      exec i s = .refused .notConstructed) ∧
    (∀ bank, ∃ r, exec (.bunpack bank) s = .next { s with result := r }) ∧
    (∀ sr, rIsFinite fm sr = true → rLt fm r0 sr = true → ∃ t, exec (.vreset sr) s = .next t ∧ t.constructed = true) ∧
    (∀ i : Instr, (encode i).format ≠ .command → s.rc = none → exec i s = .refused .outsideRender) ∧
    (∀ slot j v rest, s.port = .writeSample slot j v :: rest → step s = .refused .notConstructed)

/-! ### The patch decoder -/

/-- R262, R263, R264: PLOAD of 128 bytes writes every control register from its byte, bits and maximum, with P.ACTIVE
all-on, sets PATCH_VALID and DIRTY, and touches nothing else. -/
def Obligations.PloadWritesTheFieldTable : Prop :=
  ∀ (img : List Byte) (s : State), s.constructed = true → img.length = 128 →
    ∃ p, exec (.pload img) s = .next { s with patch := some p, patchValid := true, dirty := true, result := .ok } ∧
      (let g := fun j => (img.getD j 0#8).toNat
       (∀ k < 6,
          let b := fun j => g (17 * k + j)
          (p.op.get k).rate = ⟨min (b 0 % 128) 99, min (b 1 % 128) 99, min (b 2 % 128) 99, min (b 3 % 128) 99⟩ ∧
          (p.op.get k).level = ⟨min (b 4 % 128) 99, min (b 5 % 128) 99, min (b 6 % 128) 99, min (b 7 % 128) 99⟩ ∧
          (p.op.get k).ks =
            ⟨min (b 8 % 128) 99, min (b 9 % 128) 99, min (b 10 % 128) 99, b 11 % 4, b 11 / 4 % 4⟩ ∧
          (p.op.get k).rs = b 12 % 8 ∧ (p.op.get k).detune = min (b 12 / 8 % 16) 14 ∧
          (p.op.get k).ams = b 13 % 4 ∧ (p.op.get k).vs = b 13 / 4 % 8 ∧
          (p.op.get k).olevel = min (b 14 % 128) 99 ∧
          (p.op.get k).mode = b 15 % 2 ∧ (p.op.get k).coarse = b 15 / 2 % 32 ∧
          (p.op.get k).fine = min (b 16 % 128) 99) ∧
        p.prate = ⟨min (g 102 % 128) 99, min (g 103 % 128) 99, min (g 104 % 128) 99, min (g 105 % 128) 99⟩ ∧
        p.plevel = ⟨min (g 106 % 128) 99, min (g 107 % 128) 99, min (g 108 % 128) 99, min (g 109 % 128) 99⟩ ∧
        p.alg = g 110 % 32 ∧ p.fb = g 111 % 8 ∧ p.resetPhase = g 111 / 8 % 2 ∧
        p.lfo = ⟨min (g 112 % 128) 99, min (g 113 % 128) 99, min (g 114 % 128) 99, min (g 115 % 128) 99, g 116 % 2,
                 min (g 116 / 2 % 8) 5, g 116 / 16 % 8⟩ ∧
        p.transpose = min (g 117 % 128) 48 ∧
        p.name.length = 10 ∧ (∀ j < 10, p.name[j]? = some (BitVec.ofNat 8 (g (118 + j) % 128))) ∧
        p.active = 0x3F#6)

/-- R285, R283: PLOAD of any other length returns BadVoiceLength and leaves every register as it was. -/
def Obligations.PloadOfAWrongLength : Prop :=
  ∀ (img : List Byte) (s : State), s.constructed = true → img.length ≠ 128 →
    exec (.pload img) s = .next { s with result := .error .badVoiceLength }

/-- R269: whatever the 128 bytes, every register PLOAD writes is within the range of R29 and R30, so every table index
taken from a patch field is in range. -/
def Obligations.PloadedPatchIsInRange : Prop :=
  ∀ (img : List Byte) (s t : State), exec (.pload img) s = .next t → t.result = .ok →
    ∃ p, t.patch = some p ∧ p.inRange = true ∧ p.alg < 32 ∧ p.lfo.pms < 8 ∧ p.lfo.wave ≤ 5 ∧
      ∀ k < 6, (p.op.get k).coarse < 32 ∧ (p.op.get k).ams < 4

/-- R268: `unpack(pack(P)) = P` for every register file in range, and `pack(unpack(img)) = img` exactly for the images
whose unused bits are 0 and whose clamped fields are at or below their maximum. -/
def Obligations.PackAndUnpack : Prop :=
  (∀ p : Patch, p.inRange = true → (packVoice p).length = 128 ∧ decodeVoice (packVoice p) = p) ∧
  (∀ img : List Byte, img.length = 128 → (packVoice (decodeVoice img) = img ↔ imageClean img))

/-- R266: the length is tested before the header; a bank that passes both gives 32 images of 128 bytes, image n being
bytes 6 + 128n .. 6 + 128n + 127; no register but the returned result is written, and it may be issued in any
state. -/
def Obligations.BunpackResult : Prop :=
  ∀ (bank : List Byte) (s : State),
    (bank.length ≠ 4104 → exec (.bunpack bank) s = .next { s with result := .error .badBankLength }) ∧
    (bank.length = 4104 → bank.take 6 ≠ [0xF0#8, 0x43#8, 0x00#8, 0x09#8, 0x20#8, 0x00#8] →
      exec (.bunpack bank) s = .next { s with result := .error .badBankHeader }) ∧
    (bank.length = 4104 → bank.take 6 = [0xF0#8, 0x43#8, 0x00#8, 0x09#8, 0x20#8, 0x00#8] →
      ∃ l : List (List Byte), exec (.bunpack bank) s = .next { s with result := .images l } ∧ l.length = 32 ∧
        ∀ n < 32, ∃ img, l[n]? = some img ∧ img.length = 128 ∧ ∀ j < 128, img[j]? = bank[6 + 128 * n + j]?)

/-- R91, R266: the two trailing bytes of a bank have no effect. -/
def Obligations.BunpackIgnoresTheTrailer : Prop :=
  ∀ (bank bank' : List Byte) (s : State), bank.length = 4104 → bank'.length = 4104 →
    (∀ j < 4102, bank[j]? = bank'[j]?) → exec (.bunpack bank) s = exec (.bunpack bank') s

/-! ### Errors -/

/-- R283, R291: a command that returns an error leaves every register, flag, sample and LFO register as it was; only
the returned result (log 11) says so. -/
def Obligations.ErrorsChangeNothing : Prop :=
  ∀ (i : Instr) (s t : State) (e : ErrorKind), (encode i).format = .command → exec i s = .next t →
    t.result = .error e → t = { s with result := .error e }

/-- R281, R282, R284 to R286: which command raises which error, and on what operand exactly; BadOperatorIndex is raised
by none. -/
def Obligations.WhichCommandRaisesWhichError : Prop :=
  ∀ (i : Instr) (s t : State) (e : ErrorKind), (encode i).format = .command → exec i s = .next t →
    t.result = .error e →
      (∃ bank, i = .bunpack bank ∧ e = .badBankLength ∧ bank.length ≠ 4104) ∨
      (∃ bank, i = .bunpack bank ∧ e = .badBankHeader ∧ bank.length = 4104 ∧
        bank.take 6 ≠ [0xF0#8, 0x43#8, 0x00#8, 0x09#8, 0x20#8, 0x00#8]) ∨
      (∃ img, i = .pload img ∧ e = .badVoiceLength ∧ img.length ≠ 128)

/-! ### SETUP, OPRESET and the envelope tables -/

/-- R238: SETUP is refused with no patch, returns at once when not dirty, and otherwise configures the seven envelope
units (their STAGE, PHASE, START and SCALE kept), writes HEADROOM and RATIO, clears DIRTY, and touches nothing
else. -/
def Obligations.SetupResult : Prop :=
  ∀ s : State,
    let fm := s.formats
    s.constructed = true →
    (s.patchValid = false → exec .setup s = .refused .noPatchLoaded) ∧
    (∀ p, s.patchValid = true → s.patch = some p →
      (s.dirty = false → exec .setup s = .next { s with result := .ok }) ∧
      (s.dirty = true →
        ∃ t, exec .setup s = .next t ∧
          t = { s with env := t.env, penv := t.penv, ratio := t.ratio, headroom := t.headroom, dirty := false,
                       result := .ok } ∧
          t.penv = envSetPitch fm p s.penv ∧ t.penv.stage = s.penv.stage ∧ t.penv.phase = s.penv.phase ∧
          t.penv.start = s.penv.start ∧ t.penv.scale = s.penv.scale ∧
          ∀ k < 6,
            t.env.get k = envSetOp fm (p.op.get k) (s.env.get k) ∧ (t.env.get k).stage = (s.env.get k).stage ∧
            (t.env.get k).phase = (s.env.get k).phase ∧ (t.env.get k).start = (s.env.get k).start ∧
            (t.env.get k).scale = (s.env.get k).scale ∧
            t.headroom.get k = some (rOfInt fm (127 - (operatorLevel (p.op.get k).olevel : Int))) ∧
            t.ratio.get k = some (rMul fm (if (p.op.get k).mode = 0 then r1 fm else rNeg fm (r1 fm))
              (frequencyRatio fm Config.params (p.op.get k)))))

/-- R238: a second SETUP changes nothing; and, where the first ran with DIRTY set or the derived registers were coherent
(R73(b), `EveryStepKeepsCoherence`), even with DIRTY set again it would recompute the same values. -/
def Obligations.SetupIsIdempotent : Prop :=
  ∀ s t : State, exec .setup s = .next t →
    exec .setup t = .next t ∧ (s.dirty = true ∨ s.Coherent → exec .setup { t with dirty := true } = .next t)

/-- R193: the four worked configurations of an operator envelope (output levels 99, 99, 99, 60; SCALE 1.0; the first
also at SCALE 0.91875): LEVEL and INCR to the last bit. R194: the two worked configurations of the pitch envelope. -/
def Obligations.WorkedEnvelopeConfigurations : Prop :=
  (∀ (p : OpPatch) (e : Env),
    (p.olevel = 99 → p.rate = ⟨80, 50, 30, 60⟩ → p.level = ⟨99, 80, 70, 0⟩ →
      (envSetOp ieee p e).level = ⟨some 0x402E000000000000, some 0x4029800000000000, some 0x4027000000000000,
        some 0x3FB0000000000000⟩ ∧
      (e.scale = r1 ieee →
        (envSetOp ieee p e).incr = ⟨some 0x3F784A062B2E43DA, some 0x3F1C71C71C71C71C, some 0x3EF6666666666666,
          some 0x3F10C9714FBCDA3B⟩) ∧
      (e.scale = 0x3FED666666666666 →
        (envSetOp ieee p e).incr = ⟨some 0x3F7650CF4478E7F0, some 0x3F1A222222222221, some 0x3EF4947AE147AE14,
          some 0x3F0ED88D02849DCC⟩)) ∧
    (p.olevel = 99 → p.rate = ⟨0, 0, 0, 0⟩ → p.level = ⟨99, 99, 99, 99⟩ → e.scale = r1 ieee →
      (envSetOp ieee p e).level = ⟨some 0x402E000000000000, some 0x402E000000000000, some 0x402E000000000000,
        some 0x402E000000000000⟩ ∧
      (envSetOp ieee p e).incr = ⟨some 0x3EA3333333333333, some 0x3EA3333333333333, some 0x3EA3333333333333,
        some 0x3EA3333333333333⟩) ∧
    (p.olevel = 99 → p.rate = ⟨50, 50, 50, 50⟩ → p.level = ⟨0, 0, 0, 0⟩ → e.scale = r1 ieee →
      (envSetOp ieee p e).level = ⟨some 0x3FB0000000000000, some 0x3FB0000000000000, some 0x3FB0000000000000,
        some 0x3FB0000000000000⟩ ∧
      (envSetOp ieee p e).incr = ⟨some 0x3F68000000000000, some 0x3F23333333333333, some 0x3F23333333333333,
        some 0x3F23333333333333⟩) ∧
    (p.olevel = 60 → p.rate = ⟨50, 50, 50, 50⟩ → p.level = ⟨30, 20, 10, 0⟩ → e.scale = r1 ieee →
      (envSetOp ieee p e).level = ⟨some 0x3FFA000000000000, some 0x3FD8000000000000, some 0x3FB0000000000000,
        some 0x3FB0000000000000⟩ ∧
      (envSetOp ieee p e).incr = ⟨some 0x3FF0000000000000, some 0x3F2999999999999A, some 0x3F4999999999999A,
        some 0x3F23333333333333⟩)) ∧
  (∀ (p : Patch) (e : Env), e.scale = r1 ieee →
    (p.plevel = ⟨50, 50, 50, 50⟩ → p.prate = ⟨99, 99, 99, 99⟩ →
      (envSetPitch ieee p e).level = ⟨some r0, some r0, some r0, some r0⟩ ∧
      (envSetPitch ieee p e).incr = ⟨some 0x3FC999999999999A, some 0x3FC999999999999A, some 0x3FC999999999999A,
        some 0x3F313ABBF72F3E0B⟩) ∧
    (p.plevel = ⟨60, 40, 50, 50⟩ → p.prate = ⟨50, 60, 70, 80⟩ →
      (envSetPitch ieee p e).level = ⟨some 0x3FD4000000000000, some 0xBFD4000000000000, some r0, some r0⟩ ∧
      (envSetPitch ieee p e).incr = ⟨some 0x3F216A10584A6FF2, some 0x3F18426AAE51D046,
        some 0x3F316E085CDF7481, some 0x3F20101573E87C12⟩))

/-- R146: OPRESET of an index 0..5 clears that operator and nothing else; any other index is refused. -/
def Obligations.OpresetResult : Prop :=
  ∀ (k : Int) (s : State), s.constructed = true →
    (0 ≤ k → k ≤ 5 →
      ∃ t, exec (.opreset k) s = .next t ∧ t = { s with ops := t.ops, result := .ok } ∧
        t.ops.get k.toNat = ⟨0, r0⟩ ∧ ∀ j < 6, j ≠ k.toNat → t.ops.get j = s.ops.get j) ∧
    ((k < 0 ∨ 5 < k) → exec (.opreset k) s = .refused .operatorIndexOutOfDomain)

/-! ### The LFO -/

/-- R217: LCFG derives its seven LFO registers from the patch and SAMPLE_RATE, leaves the other LFO registers and
everything else as they were, and is refused with no patch. -/
def Obligations.LcfgResult : Prop :=
  ∀ s : State,
    let fm := s.formats
    s.constructed = true →
    (s.patchValid = false → exec .lcfg s = .refused .noPatchLoaded) ∧
    (∀ p, s.patchValid = true → s.patch = some p →
      exec .lcfg s = .next { s with
        lfo := { s.lfo with
          freq := some (rDiv fm (lfoFrequency fm p.lfo.rate) s.sampleRate)
          delayInc0 := some (rDiv fm (lfoDelay fm p.lfo.delay).1 s.sampleRate)
          delayInc1 := some (rDiv fm (lfoDelay fm p.lfo.delay).2 s.sampleRate)
          amd := rMul fm (rOfInt fm p.lfo.amd) (rLit fm 1 100)
          pmd := rMul fm (rMul fm (rOfInt fm p.lfo.pmd) (rLit fm 1 100)) (lutPms fm Config.params p.lfo.pms)
          wave := p.lfo.wave
          resetPhase := decide (p.lfo.sync = 1) }
        result := .ok })

/-- R219: LRESET restarts the waveform when the reset-phase flag is set, always restarts the delay, and changes
nothing else. -/
def Obligations.LresetResult : Prop :=
  ∀ s : State, s.constructed = true →
    exec .lreset s = .next { s with
      lfo := { s.lfo with phase := (if s.lfo.resetPhase = true then r0 else s.lfo.phase), delayPhase := r0 }
      result := .ok }

/-- R220: LSTEP line by line, with the draw a value in [0,1), in the formats R7 uses, of which nothing else is said
(R229); it is refused before LCFG and for a scale that is negative, NaN or infinite. The draw count is the model's own
(log 6). -/
def Obligations.LstepResult : Prop :=
  ∀ (scale : RealBits) (s : State),
    let fm := s.formats
    s.constructed = true →
    (s.lfo.freq = none → exec (.lstep scale) s = .refused .lfoNotConfigured) ∧
    (∀ f d0 d1, s.lfo.freq = some f → s.lfo.delayInc0 = some d0 → s.lfo.delayInc1 = some d1 →
      ((rIsFinite fm scale = false ∨ rLt fm scale r0 = true) → exec (.lstep scale) s = .refused .scaleOutOfDomain) ∧
      (rIsFinite fm scale = true → rLt fm scale r0 = false →
        ∃ draw, (fm = ieee → rLe ieee r0 draw = true ∧ rLt ieee draw (r1 ieee) = true) ∧
          (let x := rAdd fm s.lfo.phase (rMul fm scale f)
           let wraps := rLe fm (r1 fm) x
           let phase := if wraps = true then rSub fm x (r1 fm) else x
           let sh := if wraps = true then draw else s.lfo.sh
           let inc := if rLt fm s.lfo.delayPhase (rHalf fm) = true then d0 else d1
           let d := rAdd fm s.lfo.delayPhase (rMul fm scale inc)
           exec (.lstep scale) s = .next { s with
             lfo := { s.lfo with
               phase := phase, sh := sh, value := lfoWave fm s.lfo.wave phase sh
               delayPhase := if rLe fm (r1 fm) d = true then r1 fm else d }
             draws := if wraps = true then s.draws + 1 else s.draws
             result := .ok })))

/-- R222: LSCRUB line by line, with the draw as in LstepResult; it is refused before LCFG and for a sample time that is
negative, NaN or infinite. -/
def Obligations.LscrubResult : Prop :=
  ∀ (sample : RealBits) (s : State),
    let fm := s.formats
    s.constructed = true →
    (s.lfo.freq = none → exec (.lscrub sample) s = .refused .lfoNotConfigured) ∧
    (∀ f d0 d1, s.lfo.freq = some f → s.lfo.delayInc0 = some d0 → s.lfo.delayInc1 = some d1 →
      ((rIsFinite fm sample = false ∨ rLt fm sample r0 = true) →
        exec (.lscrub sample) s = .refused .sampleOutOfDomain) ∧
      (rIsFinite fm sample = true → rLt fm sample r0 = false →
        ∃ draw, (fm = ieee → rLe ieee r0 draw = true ∧ rLt ieee draw (r1 ieee) = true) ∧
          (let x := rMul fm sample f
           let xi := rFloor fm x
           let phase := rSub fm x (rOfInt fm xi)
           let sh := if xi = s.lfo.phaseInt then s.lfo.sh else draw
           let dp := rMul fm sample d0
           let late := rAdd fm (rHalf fm) (rMul fm (rSub fm sample (rDiv fm (rHalf fm) d0)) d1)
           exec (.lscrub sample) s = .next { s with
             lfo := { s.lfo with
               phase := phase, phaseInt := xi, sh := sh, value := lfoWave fm s.lfo.wave phase sh
               delayPhase :=
                 if rLt fm (rHalf fm) dp = true then (if rLe fm (r1 fm) late = true then r1 fm else late) else dp }
             draws := if xi = s.lfo.phaseInt then s.draws else s.draws + 1
             result := .ok })))

/-- R219, R225, R226: LRESET clears the delay phase; no instruction but LSTEP and LSCRUB sets it to anything but what it
was or 0.0; and while it is below 0.5 both outputs are zero (in the formats R7 uses), whatever finite value the waveform
holds and whatever finite depths are set. So both outputs stay zero from a LRESET until the next LSTEP or LSCRUB. -/
def Obligations.LresetSilencesTheOutputs : Prop :=
  (∀ s t : State, exec .lreset s = .next t → t.lfo.delayPhase = r0) ∧
  (∀ (i : Instr) (s t : State), exec i s = .next t → (∀ x, i ≠ .lstep x) → (∀ x, i ≠ .lscrub x) →
    t.lfo.delayPhase = s.lfo.delayPhase ∨ t.lfo.delayPhase = r0) ∧
  (∀ l : Lfo, rLt ieee l.delayPhase (rHalf ieee) = true → rIsFinite ieee l.value = true → rIsFinite ieee l.pmd = true →
    rIsFinite ieee l.amd = true → rEq ieee (l.pitchMod ieee) r0 = true ∧ rEq ieee (l.ampMod ieee) r0 = true)

/-- R218: in the formats R7 uses, under LSTEP the delay phase never decreases and stays within 0.0 .. 1.0, given finite
increments that are not negative. -/
def Obligations.DelayPhaseNeverDecreases : Prop :=
  ∀ (scale d0 d1 : RealBits) (s t : State), s.formats = ieee → exec (.lstep scale) s = .next t →
    s.lfo.delayInc0 = some d0 → s.lfo.delayInc1 = some d1 →
    nonNegOperand ieee d0 = true → nonNegOperand ieee d1 = true →
    rLe ieee r0 s.lfo.delayPhase = true → rLe ieee s.lfo.delayPhase (r1 ieee) = true →
    rLe ieee s.lfo.delayPhase t.lfo.delayPhase = true ∧ rLe ieee r0 t.lfo.delayPhase = true ∧
      rLe ieee t.lfo.delayPhase (r1 ieee) = true

/-! ### Sine and conversions -/

/-- R145(a): `sine_pm(phase, 0)` equals `sine` at phase/2^32, bit for bit, for every phase, in the formats R7 uses.
-/
def Obligations.SinePmAtZeroIsSine : Prop :=
  ∀ phase : U32, sinePm ieee phase r0 = sine ieee (rDiv ieee (rOfInt ieee phase.toNat) (rLit ieee 4294967296 1))

/-- R143: the low 6 bits of every offset are 0; and pm_offset at 0, 0.25, −0.25, 1.0, 0.3 and −1e-9. -/
def Obligations.PmOffsetIsAMultipleOf64 : Prop :=
  (∀ (fm : Formats) (pm : RealBits), (pmOffset fm pm).toNat % 64 = 0) ∧ pmOffset ieee r0 = 0x00000000#32 ∧
  pmOffset ieee 0x3FD0000000000000 = 0x40000000#32 ∧ pmOffset ieee 0xBFD0000000000000 = 0xC0000000#32 ∧
  pmOffset ieee (r1 ieee) = 0x00000000#32 ∧ pmOffset ieee 0x3FD3333333333333 = 0x4CCCCCC0#32 ∧
  pmOffset ieee 0xBE112E0BE826D695 = 0xFFFFFFC0#32

/-- R111 to R120, R123: the checks, corner cases and worked values of the conversions; those that go through EXP2 in
terms of it, in every instance; and entries 0 and 16 of the cube-root table, which R120 fixes. The clause on its entries
1 to 15, that each is the `REAL` number next below or next above the cube root of i/16 (or equal to it), is the model's
choice (log 4, DEDUCED): R128 leaves their rounding open. -/
def Obligations.ConversionCorners : Prop :=
  operatorLevel 0 = 0 ∧ operatorLevel 14 = 38 ∧ operatorLevel 15 = 42 ∧ operatorLevel 19 = 46 ∧
  operatorLevel 20 = 48 ∧ operatorLevel 50 = 78 ∧ operatorLevel 99 = 127 ∧
  operatorEnvelopeIncrement ieee 0 = operatorEnvelopeIncrement ieee 1 ∧
  operatorEnvelopeIncrement ieee 50 = 0x3F30000000000000 ∧ operatorEnvelopeIncrement ieee 99 = 0x3FAC000000000000 ∧
  lfoFrequency ieee 0 = rMul ieee (rLit ieee 11 1) (minLfoFrequency ieee) ∧
    lfoFrequency ieee 99 = rLit ieee 239292 10000 ∧
  lfoDelay ieee 0 = (rLit ieee 100000 1, rLit ieee 100000 1) ∧
    lfoDelay ieee 99 = (rLit ieee 18768 100000, rLit ieee 75072 100000) ∧
  pitchEnvelopeLevel ieee 0 = 0xC011805B70691EA8 ∧ pitchEnvelopeLevel ieee 18 = 0xBFF008B154764EE7 ∧
  pitchEnvelopeLevel ieee 19 = 0xBFEF000000000000 ∧ pitchEnvelopeLevel ieee 50 = r0 ∧
  pitchEnvelopeLevel ieee 99 = 0x401000010A5BF97B ∧
  pitchEnvelopeIncrement ieee 0 = 0x3EB1DC5F8880DBD7 ∧ pitchEnvelopeIncrement ieee 50 = 0x3F05C4946E5D0BEF ∧
  pitchEnvelopeIncrement ieee 99 = 0x3F313ABBF72F3E0B ∧
  (∀ ld lc : Nat, let k := fun rc => keyboardScaling ieee 0x404E000000000000 ⟨27, ld, 50, lc, rc⟩
    k 0 = 0xC03817CED916872B ∧ k 1 = 0xBFEB7FDAFCD72064 ∧ k 2 = 0x3FEB7FDAFCD72064 ∧
    k 3 = 0x403817CED916872B) ∧
  (∀ cfg : Config.Params,
    normalizeVelocity ieee cfg r0 = 0xC02D604189374BC7 ∧ normalizeVelocity ieee cfg (r1 ieee) = 0x3FF4FDF3B645A1C8 ∧
    (∀ i, 1 ≤ i → i ≤ 15 → cubeRootAllowed ieee i (lutCubeRoot ieee cfg i) = true) ∧
    lutCubeRoot ieee cfg 0 = r0 ∧ lutCubeRoot ieee cfg 16 = r1 ieee ∧
    rateScaling ieee cfg 0x404E000000000000 0 = exp2 ieee cfg r0 ∧
    rateScaling ieee cfg 0x404E000000000000 7 = exp2 ieee cfg 0x4006C00000000000 ∧
    (∀ rs < 8, rateScaling ieee cfg 0x4035000000000000 rs = exp2 ieee cfg r0) ∧
    (∀ s, rLe ieee 0xC05E000000000000 s = true → rLe ieee s 0x405E000000000000 = true →
      semitonesToRatioSafe ieee cfg s = rMul ieee (r1 ieee) (exp2 ieee cfg (rDiv ieee s 0x4028000000000000))) ∧
    semitonesToRatioSafe ieee cfg 0x4060400000000000 =
      rMul ieee 0x4090000000000000 (exp2 ieee cfg (rDiv ieee 0x4024000000000000 0x4028000000000000)) ∧
    (∀ op : OpPatch, op.mode = 0 → op.coarse = 1 → op.detune = 7 →
      (op.fine = 0 → frequencyRatio ieee cfg op = rMul ieee (rMul ieee (r1 ieee) (exp2 ieee cfg r0)) (r1 ieee)) ∧
      (op.fine = 50 → frequencyRatio ieee cfg op =
        rMul ieee (rMul ieee (r1 ieee) (exp2 ieee cfg r0)) 0x3FF8000000000000)) ∧
    (∀ op : OpPatch, op.mode = 1 → op.fine = 0 → op.detune = 7 →
      (op.coarse = 0 → frequencyRatio ieee cfg op = rMul ieee (rMul ieee (r1 ieee) (exp2 ieee cfg r0)) (r1 ieee)) ∧
      (op.coarse = 5 → frequencyRatio ieee cfg op =
        rMul ieee (rMul ieee (r1 ieee) (exp2 ieee cfg (rDiv ieee 0x4043EE978D4FDF3B 0x4028000000000000))) (r1 ieee))))

/-! ### The chain renderer -/

/-- R158, R159: the unmodulated specializations inside a RENDER: the samples, the operator after the block, the
history untouched, and everything else as it was. -/
def Obligations.Ch1NoneResult : Prop :=
  ∀ (first : Fin 6) (inp out : Slot) (s : State) (c : RenderCtx),
    let fm := s.formats
    s.inRender c first 1 →
    (∃ t, exec (.ch1NoneW first inp out) s = .next t ∧ chainFrame s t c first 1 out ∧
      t.ops.get first = opAfter s c first ∧ t.fb0 = s.fb0 ∧ t.fb1 = s.fb1 ∧
      ∀ i < c.block, t.sample out.toNat i = some (toSample fm (opOut s c first i r0))) ∧
    (s.blockWritten out c.block →
      ∃ t, exec (.ch1NoneA first inp out) s = .next t ∧ chainFrame s t c first 1 out ∧
        t.ops.get first = opAfter s c first ∧ t.fb0 = s.fb0 ∧ t.fb1 = s.fb1 ∧
        ∀ i < c.block, ∀ v, s.sample out.toNat i = some v →
          t.sample out.toNat i = some (toSample fm (rAdd fm (ofSample fm v) (opOut s c first i r0))))

/-- R160, R161, R65: the specializations modulated by a buffer. The modulation of sample i is what the slot read held
at i before the call, also where the slot read is the slot written. For slots 1 and 2 this is R160 and R161; that a call
reading slot 0 or 3, which no row compiles to (R60), runs alike is the model's choice (log 30). -/
def Obligations.Ch1ExtResult : Prop :=
  ∀ (first : Fin 6) (inp out : Slot) (s : State) (c : RenderCtx),
    let fm := s.formats
    s.inRender c first 1 →
    s.blockWritten inp c.block →
    (∃ t, exec (.ch1ExtW first inp out) s = .next t ∧ chainFrame s t c first 1 out ∧
      t.ops.get first = opAfter s c first ∧ t.fb0 = s.fb0 ∧ t.fb1 = s.fb1 ∧
      ∀ i < c.block, ∀ u, s.sample inp.toNat i = some u →
        t.sample out.toNat i = some (toSample fm (opOut s c first i (ofSample fm u)))) ∧
    (s.blockWritten out c.block →
      ∃ t, exec (.ch1ExtA first inp out) s = .next t ∧ chainFrame s t c first 1 out ∧
        t.ops.get first = opAfter s c first ∧ t.fb0 = s.fb0 ∧ t.fb1 = s.fb1 ∧
        ∀ i < c.block, ∀ u v, s.sample inp.toNat i = some u → s.sample out.toNat i = some v →
          t.sample out.toNat i = some (toSample fm (rAdd fm (ofSample fm v) (opOut s c first i (ofSample fm u)))))

/-- R162, R163, R154: the self-modulating specializations. The seed is the sum of the two history samples times the
feedback scale, 0 or 2^P.FB / 512; the history is shifted once a sample, also where the scale is 0. -/
def Obligations.Ch1FbResult : Prop :=
  ∀ (first : Fin 6) (inp out : Slot) (s : State) (c : RenderCtx) (p : Patch),
    let fm := s.formats
    s.inRender c first 1 →
    s.patch = some p →
    (let scale := if p.fb = 0 then r0 else rDiv fm (rOfInt fm (2 ^ p.fb)) (rLit fm 512 1)
     let y := fun i pm => opOut s c first i pm
     let h := histAt fm y scale s.fb0 s.fb1
     let x := fun i => y i (rMul fm (rAdd fm (h i).1 (h i).2) scale)
     (∃ t, exec (.ch1Fb0W first inp out) s = .next t ∧ chainFrame s t c first 1 out ∧
        t.ops.get first = opAfter s c first ∧ t.fb0 = (h c.block).1 ∧ t.fb1 = (h c.block).2 ∧
        ∀ i < c.block, t.sample out.toNat i = some (toSample fm (x i))) ∧
     (s.blockWritten out c.block →
        ∃ t, exec (.ch1Fb0A first inp out) s = .next t ∧ chainFrame s t c first 1 out ∧
          t.ops.get first = opAfter s c first ∧ t.fb0 = (h c.block).1 ∧ t.fb1 = (h c.block).2 ∧
          ∀ i < c.block, ∀ v, s.sample out.toNat i = some v →
            t.sample out.toNat i = some (toSample fm (rAdd fm (ofSample fm v) (x i)))))

/-- R164: two operators; the first is modulated by the history, the second by the first in the same sample, and the
second is the tap and is added into the destination. -/
def Obligations.Ch2FbResult : Prop :=
  ∀ (first : Fin 6) (inp out : Slot) (s : State) (c : RenderCtx) (p : Patch),
    let fm := s.formats
    first.val + 2 ≤ 6 →
    s.inRender c first 2 → s.patch = some p → s.blockWritten out c.block →
    (let scale := if p.fb = 0 then r0 else rDiv fm (rOfInt fm (2 ^ p.fb)) (rLit fm 512 1)
     let y := fun i pm => opOut s c (first + 1) i (opOut s c first i pm)
     let h := histAt fm y scale s.fb0 s.fb1
     ∃ t, exec (.ch2Fb1A first inp out) s = .next t ∧ chainFrame s t c first 2 out ∧
       t.ops.get first = opAfter s c first ∧ t.ops.get (first + 1) = opAfter s c (first + 1) ∧
       t.fb0 = (h c.block).1 ∧ t.fb1 = (h c.block).2 ∧
       ∀ i < c.block, ∀ v, s.sample out.toNat i = some v →
         t.sample out.toNat i = some (toSample fm (rAdd fm (ofSample fm v)
           (y i (rMul fm (rAdd fm (h i).1 (h i).2) scale)))))

/-- R165: three operators in series; the first is modulated by the history, the third is the tap and is added into the
destination. -/
def Obligations.Ch3FbResult : Prop :=
  ∀ (first : Fin 6) (inp out : Slot) (s : State) (c : RenderCtx) (p : Patch),
    let fm := s.formats
    first.val + 3 ≤ 6 →
    s.inRender c first 3 → s.patch = some p → s.blockWritten out c.block →
    (let scale := if p.fb = 0 then r0 else rDiv fm (rOfInt fm (2 ^ p.fb)) (rLit fm 512 1)
     let y := fun i pm => opOut s c (first + 2) i (opOut s c (first + 1) i (opOut s c first i pm))
     let h := histAt fm y scale s.fb0 s.fb1
     ∃ t, exec (.ch3Fb2A first inp out) s = .next t ∧ chainFrame s t c first 3 out ∧
       t.ops.get first = opAfter s c first ∧ t.ops.get (first + 1) = opAfter s c (first + 1) ∧
       t.ops.get (first + 2) = opAfter s c (first + 2) ∧
       t.fb0 = (h c.block).1 ∧ t.fb1 = (h c.block).2 ∧
       ∀ i < c.block, ∀ v, s.sample out.toNat i = some v →
         t.sample out.toNat i = some (toSample fm (rAdd fm (ofSample fm v)
           (y i (rMul fm (rAdd fm (h i).1 (h i).2) scale)))))

/-- R63, R151, R85 and the opening of 42_chain_renderer.md: where a chain call or a routing opcode stops. Outside a
RENDER it is refused (log 14); inside one, a chain that runs past operator 5, a target out of the renderer's types, a
feedback call with no patch (R28) and an unwritten sample of the slot read or added into are refused. Which refusal is
named where two apply is the model's order (log 26). -/
def Obligations.ChainCallRefusals : Prop :=
  ∀ (s : State),
    let fm := s.formats
    (∀ i : Instr, (encode i).format ≠ .command → s.rc = none → exec i s = .refused .outsideRender) ∧
    (∀ (first : Fin 6) (inp out : Slot) (c : RenderCtx), s.rc = some c →
      ((callFreqOk fm (c.f.get first) = false ∨ callAmpOk fm (c.a.get first) = false) →
        exec (.ch1NoneW first inp out) s = .refused .callOperandOutOfDomain ∧
        exec (.ch1NoneA first inp out) s = .refused .callOperandOutOfDomain ∧
        exec (.ch1ExtW first inp out) s = .refused .callOperandOutOfDomain ∧
        exec (.ch1ExtA first inp out) s = .refused .callOperandOutOfDomain ∧
        exec (.ch1Fb0W first inp out) s = .refused .callOperandOutOfDomain ∧
        exec (.ch1Fb0A first inp out) s = .refused .callOperandOutOfDomain) ∧
      (6 < first.val + 2 → exec (.ch2Fb1A first inp out) s = .refused .callOutOfRange) ∧
      (6 < first.val + 3 → exec (.ch3Fb2A first inp out) s = .refused .callOutOfRange) ∧
      (first.val + 2 ≤ 6 →
        (∃ k, first.val ≤ k ∧ k < first.val + 2 ∧
          (callFreqOk fm (c.f.get k) = false ∨ callAmpOk fm (c.a.get k) = false)) →
        exec (.ch2Fb1A first inp out) s = .refused .callOperandOutOfDomain) ∧
      (first.val + 3 ≤ 6 →
        (∃ k, first.val ≤ k ∧ k < first.val + 3 ∧
          (callFreqOk fm (c.f.get k) = false ∨ callAmpOk fm (c.a.get k) = false)) →
        exec (.ch3Fb2A first inp out) s = .refused .callOperandOutOfDomain) ∧
      (s.inRender c first 2 → first.val + 2 ≤ 6 →
        (s.patch = none → exec (.ch2Fb1A first inp out) s = .refused .noPatchLoaded) ∧
        (s.patch.isSome = true → ¬ s.blockWritten out c.block →
          exec (.ch2Fb1A first inp out) s = .refused .sampleUnwritten)) ∧
      (s.inRender c first 3 → first.val + 3 ≤ 6 →
        (s.patch = none → exec (.ch3Fb2A first inp out) s = .refused .noPatchLoaded) ∧
        (s.patch.isSome = true → ¬ s.blockWritten out c.block →
          exec (.ch3Fb2A first inp out) s = .refused .sampleUnwritten)) ∧
      (s.inRender c first 1 →
        (s.patch = none →
          exec (.ch1Fb0W first inp out) s = .refused .noPatchLoaded ∧
          exec (.ch1Fb0A first inp out) s = .refused .noPatchLoaded) ∧
        (¬ s.blockWritten inp c.block →
          exec (.ch1ExtW first inp out) s = .refused .sampleUnwritten ∧
          exec (.ch1ExtA first inp out) s = .refused .sampleUnwritten) ∧
        (¬ s.blockWritten out c.block →
          exec (.ch1NoneA first inp out) s = .refused .sampleUnwritten ∧
          exec (.ch1ExtA first inp out) s = .refused .sampleUnwritten ∧
          (s.patch.isSome = true → exec (.ch1Fb0A first inp out) s = .refused .sampleUnwritten))))

/-- R153: for every frequency the renderer takes, in the formats R7 uses, `fk * 2^32` is within 0 .. 2^31, so the cast
is always in range and the increment is at most half a cycle. -/
def Obligations.IncrementIsAtMostHalfACycle : Prop :=
  ∀ f : RealBits, callFreqOk ieee f = true →
    0 ≤ rFloor ieee (rMul ieee (rMin ieee f (rHalf ieee)) (rLit ieee 4294967296 1)) ∧
    rFloor ieee (rMul ieee (rMin ieee f (rHalf ieee)) (rLit ieee 4294967296 1)) ≤ 2147483648 ∧
    ((incOf ieee f).toNat : Int) = rFloor ieee (rMul ieee (rMin ieee f (rHalf ieee)) (rLit ieee 4294967296 1))

/-! ### The router -/

/-- R173, R174, R93: OPN, OPX1 and OPX2 at the router index issue one chain call of their own operator, with S = NONE
or EXTERNAL, A = add, out = dst, in = src, whatever opcodes follow and whatever the tap bit is; the call completes
where its samples are written. That an opcode is executed as an instruction of its own is log 14. -/
def Obligations.UnfusedRoutingOpcodes : Prop :=
  ∀ (dst : Slot) (add tap : Bool) (s : State) (c : RenderCtx) (h : c.index < 6), s.rc = some c →
    (let k : Fin 6 := ⟨c.index, h⟩
     let own := fun (src : Slot) => if add = true then Instr.ch1ExtA k src dst else Instr.ch1ExtW k src dst
     let none' := if add = true then Instr.ch1NoneA k 0#2 dst else Instr.ch1NoneW k 0#2 dst
     exec (.opn dst add tap) s = exec none' s ∧
     exec (.opx1 dst add tap) s = exec (own 1#2) s ∧
     exec (.opx2 dst add tap) s = exec (own 2#2) s ∧
     (s.inRender c c.index 1 → (add = true → s.blockWritten dst c.block) →
       (∃ t, exec (.opn dst add tap) s = .next t ∧ exec none' s = .next t) ∧
       (s.blockWritten 1#2 c.block →
         ∃ t, exec (.opx1 dst add tap) s = .next t ∧ exec (own 1#2) s = .next t) ∧
       (s.blockWritten 2#2 c.block →
         ∃ t, exec (.opx2 dst add tap) s = .next t ∧ exec (own 2#2) s = .next t)))

/-- R175, R176, R177: OPF at the router index. Where the next opcode (or the next two) continue the chain, the last
adds and is the tap, and no opcode after it reads what the first writes, it is the fused call. In every other case (a
chain that does not extend, is cut back, or has no specialization) it is self-feedback of one operator if it has its
own tap, else it has no specialization and is refused. The calls complete where their samples are written. That an
opcode is executed as an instruction of its own is log 14. -/
def Obligations.FeedbackRoutingOpcode : Prop :=
  ∀ (dst : Slot) (add tap : Bool) (s : State) (c : RenderCtx) (p : Patch) (h : c.index < 6),
    s.rc = some c → s.patch = some p →
    (let k : Fin 6 := ⟨c.index, h⟩
     let o := fun j => c.row.get (c.index + j)
     let fusesTwo := add = false ∧ c.index + 2 ≤ 6 ∧ opcodeSrc (o 1) = dst ∧ opcodeAdd (o 1) = true ∧
       opcodeTap (o 1) = true ∧ (c.index + 2 = 6 ∨ opcodeSrc (o 2) ≠ dst)
     let fusesThree := add = false ∧ c.index + 3 ≤ 6 ∧ opcodeSrc (o 1) = dst ∧ opcodeAdd (o 1) = false ∧
       opcodeSrc (o 2) = opcodeDst (o 1) ∧ opcodeAdd (o 2) = true ∧ opcodeTap (o 2) = true ∧
       (c.index + 3 = 6 ∨ opcodeSrc (o 3) ≠ dst)
     let single := if add = true then Instr.ch1Fb0A k 3#2 dst else Instr.ch1Fb0W k 3#2 dst
     (¬ fusesTwo → ¬ fusesThree →
       (tap = true → exec (.opf dst add tap) s = exec single s ∧
         (s.inRender c c.index 1 → (add = true → s.blockWritten dst c.block) →
           ∃ t, exec (.opf dst add tap) s = .next t ∧ exec single s = .next t)) ∧
       (tap = false → exec (.opf dst add tap) s = .refused .rowIllFormed)) ∧
     (fusesTwo →
       exec (.opf dst add tap) s = exec (.ch2Fb1A k 3#2 (opcodeDst (o 1))) s ∧
       (s.inRender c c.index 2 → s.blockWritten (opcodeDst (o 1)) c.block →
         ∃ t, exec (.opf dst add tap) s = .next t)) ∧
     (fusesThree →
       exec (.opf dst add tap) s = exec (.ch3Fb2A k 3#2 (opcodeDst (o 2))) s ∧
       (s.inRender c c.index 3 → s.blockWritten (opcodeDst (o 2)) c.block →
         ∃ t, exec (.opf dst add tap) s = .next t)))

/-- R180: a plan covers each operator index 0..5 exactly once, in ascending order, and its calls' lengths sum to 6. -/
def Obligations.PlanCoversEachOperatorOnce : Prop :=
  ∀ (row : Six Byte) (plan : List Call), compile row = some plan →
    (plan.flatMap fun c => List.range' c.first c.n) = [0, 1, 2, 3, 4, 5] ∧ (plan.map (·.n)).sum = 6

/-- R176, R150: every call of a plan reads the source of its first opcode, writes the destination of its last and adds
as its last does; its specialization is the one of (n, S, A); and a call of more than one operator is a feedback chain
whose intermediate opcodes overwrite the slot the next one reads and whose last adds and is the tap. -/
def Obligations.CallsOfAPlan : Prop :=
  ∀ (row : Six Byte) (plan : List Call) (c : Call), compile row = some plan → c ∈ plan →
    1 ≤ c.n ∧ c.first + c.n ≤ 6 ∧
    c.inp = opcodeSrc (row.get c.first) ∧ c.out = opcodeDst (row.get (c.first + c.n - 1)) ∧
    c.add = opcodeAdd (row.get (c.first + c.n - 1)) ∧
    (opcodeSrc (row.get c.first) = 0#2 → specOf c.n .none c.add = some c.spec) ∧
    (opcodeSrc (row.get c.first) = 1#2 ∨ opcodeSrc (row.get c.first) = 2#2 →
      specOf c.n .external c.add = some c.spec) ∧
    (opcodeSrc (row.get c.first) = 3#2 →
      ∃ j < c.n, opcodeTap (row.get (c.first + j)) = true ∧ specOf c.n (.feedback j) c.add = some c.spec) ∧
    (1 < c.n →
      opcodeSrc (row.get c.first) = 3#2 ∧ c.add = true ∧ opcodeTap (row.get (c.first + c.n - 1)) = true ∧
      ∀ j, j + 1 < c.n → opcodeAdd (row.get (c.first + j)) = false ∧
        opcodeDst (row.get (c.first + j)) = opcodeSrc (row.get (c.first + j + 1)))

/-- R182: the worked compilations, well formed and ill formed. -/
def Obligations.WorkedCompilations : Prop :=
  compile ⟨0x71, 0x11, 0x11, 0x14, 0x01, 0x14⟩ = some
    [⟨.ch1Fb0W, 0, 1, false, 3, 1⟩, ⟨.ch1ExtW, 1, 1, false, 1, 1⟩, ⟨.ch1ExtW, 2, 1, false, 1, 1⟩,
     ⟨.ch1ExtA, 3, 1, true, 1, 0⟩, ⟨.ch1NoneW, 4, 1, false, 0, 1⟩, ⟨.ch1ExtA, 5, 1, true, 1, 0⟩] ∧
  compile ⟨0x31, 0x11, 0x54, 0x01, 0x11, 0x14⟩ = some
    [⟨.ch3Fb2A, 0, 3, true, 3, 0⟩, ⟨.ch1NoneW, 3, 1, false, 0, 1⟩, ⟨.ch1ExtW, 4, 1, false, 1, 1⟩,
     ⟨.ch1ExtA, 5, 1, true, 1, 0⟩] ∧
  compile ⟨0x31, 0x54, 0x01, 0x14, 0x01, 0x14⟩ = some
    [⟨.ch2Fb1A, 0, 2, true, 3, 0⟩, ⟨.ch1NoneW, 2, 1, false, 0, 1⟩, ⟨.ch1ExtA, 3, 1, true, 1, 0⟩,
     ⟨.ch1NoneW, 4, 1, false, 0, 1⟩, ⟨.ch1ExtA, 5, 1, true, 1, 0⟩] ∧
  compile ⟨0x71, 0x14, 0x14, 0x01, 0x11, 0x14⟩ = some
    [⟨.ch1Fb0W, 0, 1, false, 3, 1⟩, ⟨.ch1ExtA, 1, 1, true, 1, 0⟩, ⟨.ch1ExtA, 2, 1, true, 1, 0⟩,
     ⟨.ch1NoneW, 3, 1, false, 0, 1⟩, ⟨.ch1ExtW, 4, 1, false, 1, 1⟩, ⟨.ch1ExtA, 5, 1, true, 1, 0⟩] ∧
  compile ⟨0x31, 0x14, 0x04, 0x04, 0x04, 0x04⟩ = none ∧
  (compile ⟨0x01, 0x01, 0x01, 0x01, 0x01, 0x01⟩).isSome = true ∧
  rowWf ⟨0x01, 0x01, 0x01, 0x01, 0x01, 0x01⟩ = false ∧
  rowWf ⟨0x84, 0x04, 0x04, 0x04, 0x04, 0x04⟩ = false

/-- R37, R176, R179: inside a RENDER, decoding and executing the routing opcodes of a row one by one from router index
0 is executing the chain calls the row compiles to, in order. (That an opcode is an instruction of its own is log
14.) -/
def Obligations.WalkingTheRowIsItsPlan : Prop :=
  ∀ (s : State) (c : RenderCtx) (plan : List Call), s.rc = some c → c.index = 0 →
    c.row.all opcodeReservedClear = true → compile c.row = some plan →
    ∃ is, plan.mapM Call.instr = some is ∧ runRow 6 s = execAll is s

/-! ### RENDER -/

/-- R240, R246, R63, R151: a RENDER runs to its end when a VRESET has run, its operands are in the checked domain, a
patch is loaded, what SETUP writes is written or will be (DIRTY), NOTE and NVEL are latched or will be, the targets of
step 5 are in the renderer's types (as R151 says finite operands make them, log 20) and the samples 0 .. B−1 are
written of every slot that the row's plan reads or adds into before it writes it. Of row 31 (R181) that is slot 0
alone, which the host writes before every RENDER (R305, R310). -/
def Obligations.RenderCompletes : Prop :=
  (∀ plan, compile (algRow Config.params 31) = some plan → readsFirst [] plan = [0#2]) ∧
  ∀ (a : RenderArgs) (s : State) (p : Patch),
    s.constructed = true → 1 ≤ a.block → a.block ≤ (Config.bmax : Int) → renderRealsOk s.formats a = true →
    s.patchValid = true → s.patch = some p → p.alg < 32 →
    (s.dirty = true ∨ s.setupWritten = true) →
    ((a.gate = true ∧ s.gatePrev = false) ∨ a.sustain = true ∨ (s.note.isSome = true ∧ s.nvel.isSome = true)) →
    (∀ s1 t1 c, setupWith Config.params s = .ok s1 → renderTargets Config.params a p s1 = .ok t1 → t1.rc = some c →
      ∀ k < 6, callFreqOk s.formats (c.f.get k) = true ∧ callAmpOk s.formats (c.a.get k) = true) →
    (∀ plan, compile (algRow Config.params p.alg) = some plan →
      ∀ slot ∈ readsFirst [] plan, s.blockWritten slot a.block.toNat) →
    ∃ t, exec (.render a) s = .next t ∧ t.gatePrev = a.gate ∧ t.dirty = false ∧ t.result = .ok ∧ t.rc = none ∧
      t.patch = some p ∧ t.levelOut.all Option.isSome = true

/-- R241 to R250: what a RENDER that runs to its end has computed. From the state SETUP leaves: the pitch envelope and
the six operator envelopes over one block (R243, R247), f0 and each target frequency (R244), each level (R248) and
target amplitude (R249) from the latched note and velocity (R245); then the chain calls of the row's plan, executed as
instructions, give the operators, the feedback history and the buffers. -/
def Obligations.RenderMeaning : Prop :=
  ∀ (a : RenderArgs) (s t : State),
    let fm := s.formats
    exec (.render a) s = .next t →
    ∃ p s1 s2 c plan is t2 note nvel pe,
      s.patch = some p ∧ exec .setup s = .next s1 ∧
      (let cfg := Config.params
       let row := algRow cfg p.alg
       let on := a.gate = true ∧ s.gatePrev = false
       let ad := exp2 fm cfg (rMul fm (rSub fm (rHalf fm) a.envctl) (rLit fm 8 1))
       let rel := exp2 fm cfg (rMul fm (rSub fm r0 (rAbs fm (rSub fm a.envctl (rLit fm 3 10)))) (rLit fm 8 1))
       let f0 := rMul fm (rMul fm (rDiv fm (rLit fm 55 1) s.sampleRate) (rLit fm 25 100)) (semitonesToRatioSafe fm cfg
         (rAdd fm (rSub fm (rAdd fm (rSub fm a.note (rLit fm 24 1)) (rOfInt fm p.transpose)) (rLit fm 9 1))
           (rMul fm (rLit fm 12 1) (rAdd fm pe a.pitchMod))))
       envBlock fm .pitch s1.penv a (rOfInt fm a.block) ad rel = .ok (t.penv, pe) ∧
       t.note = some note ∧ t.nvel = some nvel ∧
       (on ∨ a.sustain = true → note = a.note ∧ nvel = normalizeVelocity fm cfg a.velocity) ∧
       (¬ on → a.sustain = false → s.note = some note ∧ s.nvel = some nvel) ∧
       (∀ k < 6, ∃ l l2 r hr, s1.ratio.get k = some r ∧ s1.headroom.get k = some hr ∧
         envBlock fm .operator (s1.env.get k) a
           (rMul fm (rOfInt fm a.block) (rateScaling fm cfg note (p.op.get k).rs)) ad rel
           = .ok (t.env.get k, l) ∧
         l2 = rAdd fm l (rMul fm (rLit fm 125 1000) (rMin fm (rAdd fm (rAdd fm (keyboardScaling fm note (p.op.get k).ks)
           (rMul fm nvel (rOfInt fm (p.op.get k).vs)))
           (if opcodeDst (row.get k) = 0#2 then r0
            else rMul fm (rSub fm a.brightness (rHalf fm)) (rLit fm 32 1))) hr)) ∧
         t.levelOut.get k = some l2 ∧
         c.f.get k = (if rLt fm r r0 = true then rMul fm (rSub fm r0 r) (rDiv fm (r1 fm) s.sampleRate)
           else rMul fm r f0) ∧
         c.a.get k = exp2 fm cfg (rAdd fm (rNeg fm (rLit fm 14 1))
           (rMul fm l2 (rSub fm (r1 fm) (exp2 fm cfg (rMul fm (rLit fm 64 10)
           (rSub fm (rMul fm (lutAms fm cfg (p.op.get k).ams) a.ampMod) (r1 fm)))))))) ∧
       s2.rc = some c ∧ c.index = 0 ∧ c.block = a.block.toNat ∧ c.row = row ∧
       s2.buf = s.buf ∧ s2.fb0 = s.fb0 ∧ s2.fb1 = s.fb1 ∧ s2.patch = some p ∧
       (∀ k < 6, s2.ops.get k =
         if on ∧ p.resetPhase = 1 then { s.ops.get k with phase := 0 } else s.ops.get k) ∧
       compile row = some plan ∧ plan.mapM Call.instr = some is ∧ execAll is s2 = .next t2 ∧
       t = { t2 with rc := none, result := .ok })

/-- R251, R240: what a RENDER writes and what it never writes. Samples at or beyond B, and slots no call of the plan
writes, keep their contents; in scrubbing mode no envelope moves. -/
def Obligations.RenderFrame : Prop :=
  ∀ (a : RenderArgs) (s t : State), exec (.render a) s = .next t →
    t = { s with
      ops := t.ops, env := t.env, penv := t.penv, fb0 := t.fb0, fb1 := t.fb1, note := t.note, nvel := t.nvel,
      ratio := t.ratio, headroom := t.headroom, levelOut := t.levelOut, gatePrev := a.gate, dirty := false,
      buf := t.buf, rc := none, result := .ok } ∧
    (s.dirty = false → t.ratio = s.ratio ∧ t.headroom = s.headroom ∧ t.penv.level = s.penv.level ∧
      t.penv.incr = s.penv.incr ∧
      ∀ k < 6, (t.env.get k).level = (s.env.get k).level ∧ (t.env.get k).incr = (s.env.get k).incr) ∧
    (t.penv.scale = s.penv.scale ∧ ∀ k < 6, (t.env.get k).scale = (s.env.get k).scale) ∧
    (a.sustain = true → t.penv.stage = s.penv.stage ∧ t.penv.phase = s.penv.phase ∧ t.penv.start = s.penv.start ∧
      ∀ k < 6, (t.env.get k).stage = (s.env.get k).stage ∧ (t.env.get k).phase = (s.env.get k).phase ∧
        (t.env.get k).start = (s.env.get k).start) ∧
    (a.gate = false ∨ s.gatePrev = true → a.sustain = false → t.note = s.note ∧ t.nvel = s.nvel) ∧
    (∀ slot i, a.block.toNat ≤ i → t.sample slot i = s.sample slot i) ∧
    (∀ p plan, s.patch = some p → compile (algRow Config.params p.alg) = some plan →
      ∀ slot i, (∀ c ∈ plan, c.out.toNat ≠ slot) → t.sample slot i = s.sample slot i)

/-- R241: RENDER begins by executing SETUP, so a SETUP issued before it changes nothing. -/
def Obligations.RenderBeginsWithSetup : Prop :=
  ∀ (a : RenderArgs) (s s1 : State), exec .setup s = .next s1 → exec (.render a) s = exec (.render a) s1

/-- R240, R246, R178, R310: where a RENDER is refused, each with the earlier checks passed, in the model's order
(log 26): B below 1 or above BMAX (open, log 7), a real operand out of domain, no patch, a row that is not
well formed (of any instance; the one that runs has none, log 5), NOTE unwritten at step 5, and (row 31, R181) a sample
of slot 0 the host has not written, whether the note is latched now or was before. -/
def Obligations.RenderRefusals : Prop :=
  ∀ (a : RenderArgs) (s : State),
    let fm := s.formats
    s.constructed = true →
    (a.block < 1 ∨ (Config.bmax : Int) < a.block → exec (.render a) s = .refused .blockSizeOutOfDomain) ∧
    (1 ≤ a.block → a.block ≤ (Config.bmax : Int) →
      ((rIsFinite fm a.note = false ∨ rIsFinite fm a.velocity = false ∨ rLt fm a.velocity r0 = true ∨
          rIsFinite fm a.brightness = false ∨ rIsFinite fm a.envctl = false ∨ rIsFinite fm a.pitchMod = false ∨
          rIsFinite fm a.ampMod = false ∨
          (a.sustain = true ∧ (rIsFinite fm a.scrubT = false ∨ rLt fm a.scrubT r0 = true ∨
            rIsFinite fm a.scrubG = false ∨
            rLt fm a.scrubG r0 = true))) →
        exec (.render a) s = .refused .renderOperandOutOfDomain) ∧
      (renderRealsOk fm a = true →
        (s.patchValid = false → exec (.render a) s = .refused .noPatchLoaded) ∧
        (∀ p, s.patchValid = true → s.patch = some p →
          (∀ cfg : Config.Params, rowWf (algRow cfg p.alg) = false → renderWith cfg a s = refuse .rowIllFormed) ∧
          (p.alg < 32 → (s.dirty = true ∨ s.setupWritten = true) →
            a.sustain = false → (a.gate = false ∨ s.gatePrev = true) → s.note = none →
            exec (.render a) s = .refused .noteUnwritten) ∧
          (p.alg = 31 → (s.dirty = true ∨ s.setupWritten = true) →
            ((a.gate = true ∧ s.gatePrev = false) ∨ a.sustain = true ∨
              (s.note.isSome = true ∧ s.nvel.isSome = true)) →
            (∀ s1 t1 c, setupWith Config.params s = .ok s1 → renderTargets Config.params a p s1 = .ok t1 →
              t1.rc = some c → ∀ k < 6, callFreqOk fm (c.f.get k) = true ∧ callAmpOk fm (c.a.get k) = true) →
            ¬ s.blockWritten 0#2 a.block.toNat → exec (.render a) s = .refused .sampleUnwritten))))

/-- R240, R172, R247: operands RENDER does not use: the scrub operands when sustain = 0; brightness when the patch
selects row 31, which has no modulator; envctl in scrubbing mode. -/
def Obligations.RenderIgnores : Prop :=
  ∀ (a : RenderArgs) (s : State),
    let fm := s.formats
    (a.sustain = false → ∀ t g, exec (.render { a with scrubT := t, scrubG := g }) s = exec (.render a) s) ∧
    ((∀ p, s.patch = some p → p.alg = 31) → rIsFinite fm a.brightness = true → ∀ b, rIsFinite fm b = true →
      exec (.render { a with brightness := b }) s = exec (.render a) s) ∧
    (a.sustain = true → rIsFinite fm a.envctl = true → ∀ e, rIsFinite fm e = true →
      exec (.render { a with envctl := e }) s = exec (.render a) s)

/-! ### Envelopes -/

/-- R195, R201, R202: the value function and the gated render line by line, the START snapshot and the choice of `ad` or
`rel` among it, and the stage graph it makes. While every call has gate = 1 the stage never decreases (once out of the
release stage) and the sustain stage is never left, nor is its PHASE once saturated at 1.0 (in the formats R7 uses, with
a phase advance that is not negative); a call with gate = 1 always leaves the release stage; a call with gate = 0 always
ends in it. A unit with an unwritten table is refused. In gated mode RENDER advances a unit by this (R243, R247). -/
def Obligations.EnvelopeStageGraph : Prop :=
  ∀ (fm : Formats) (u : EnvUnit) (rate ad rel : RealBits) (e e' : Env) (n : Nat),
    (let value := fun (lv : Four RealBits) (stage : Fin 4) (phase : RealBits) (start : Start) =>
       let lo := match start with
         | .previousLevel => lv.get (stage - 1)
         | .level x => x
       let hi := lv.get stage
       if u = .operator ∧ rLt fm lo hi = true then
         let lo' := rMax fm (rLit fm 67 10) lo
         rAdd fm lo' (rMul fm (rDiv fm (rMul fm (rMul fm phase (rSub fm (rLit fm 5 2) phase)) (rLit fm 2 1))
           (rLit fm 3 1))
           (rSub fm (rMax fm (rLit fm 67 10) hi) lo'))
       else rAdd fm lo (rMul fm phase (rSub fm hi lo))
     (∀ lv stage phase start, envValue fm u lv stage phase start = value lv stage phase start) ∧
     (∀ lv inc gate, e.level.sequence = some lv → e.incr.sequence = some inc →
       (let e1 :=
          if gate = true ∧ e.stage = 3 then
            { e with start := .level (value lv e.stage e.phase e.start), stage := 0, phase := r0 }
          else if gate = false ∧ e.stage ≠ 3 then
            { e with start := .level (value lv e.stage e.phase e.start), stage := 3, phase := r0 }
          else e
        let phase := rAdd fm e1.phase (rMul fm (rMul fm (inc.get e1.stage) rate) (if e1.stage = 3 then rel else ad))
        let e2 :=
          if rLe fm (r1 fm) phase = true then
            (if e1.stage = 2 ∨ e1.stage = 3 then { e1 with phase := r1 fm }
             else { e1 with stage := e1.stage + 1, phase := r0, start := .previousLevel })
          else { e1 with phase := phase }
        envRender fm u e gate rate ad rel = .ok (e2, value lv e2.stage e2.phase e2.start)))) ∧
    (∀ gate, e.level.sequence = none ∨ e.incr.sequence = none →
      envRender fm u e gate rate ad rel = refuse .envelopeUnwritten) ∧
    (∀ a : RenderArgs, a.sustain = false → envBlock fm u e a rate ad rel = envRender fm u e a.gate rate ad rel) ∧
    (envRun fm u rate ad rel (List.replicate n true) e = some e' →
      (e.stage ≠ 3 → e.stage ≤ e'.stage ∧ e'.stage ≠ 3) ∧
      (e.stage = 2 → e'.stage = 2) ∧
      (1 ≤ n → e'.stage ≠ 3) ∧
      (fm = ieee → e.stage = 2 → e.phase = r1 fm →
        (∀ inc, e.incr.get 2 = some inc → rLe fm r0 (rMul fm (rMul fm inc rate) ad) = true) → e'.phase = r1 fm)) ∧
    (envRun fm u rate ad rel (List.replicate n false) e = some e' → 1 ≤ n → e'.stage = 3)

/-- R205, R206: the scrubbed render line by line: the walk over the three gate stages, the release from the level
reached at G (the value function is `EnvelopeStageGraph`'s); the worked scrubs of an operator unit; and, in the formats
R7 uses, a scrub at the end of the gate (t = G), when all three gate stages are over by then, gives the value the gated
render returns in the sustain stage once saturated. In scrubbing mode RENDER evaluates a unit by this and leaves it as
it is (R243, R247). -/
def Obligations.ScrubAtGateEndIsSustain : Prop :=
  (∀ (fm : Formats) (u : EnvUnit) (e : Env) (lv inc : Four RealBits) (t g : RealBits),
    e.level.sequence = some lv → e.incr.sequence = some inc →
    (let held := fun x =>
       let x1 := rSub fm x (rDiv fm (r1 fm) inc.s0)
       let x2 := rSub fm x1 (rDiv fm (r1 fm) inc.s1)
       if rLt fm x (rDiv fm (r1 fm) inc.s0) = true then envValue fm u lv 0 (rMul fm x inc.s0) .previousLevel
       else if rLt fm x1 (rDiv fm (r1 fm) inc.s1) = true then envValue fm u lv 1 (rMul fm x1 inc.s1) .previousLevel
       else if rLt fm x2 (rDiv fm (r1 fm) inc.s2) = true then envValue fm u lv 2 (rMul fm x2 inc.s2) .previousLevel
       else envValue fm u lv 2 (r1 fm) .previousLevel
     let v :=
       if rLt fm g t = true then
         (if rLe fm (r1 fm) (rMul fm (rSub fm t g) inc.s3) = true then lv.s3
          else envValue fm u lv 3 (rMul fm (rSub fm t g) inc.s3) (.level (held g)))
       else held t
     envScrub fm u e t g = .ok v ∧
       ∀ (a : RenderArgs) (rate ad rel : RealBits), a.sustain = true → a.scrubT = t → a.scrubG = g →
         envBlock fm u e a rate ad rel = .ok (e, v))) ∧
  (∀ e : Env, e.level = ⟨some 0x402E000000000000, some 0x4029800000000000, some 0x4027000000000000,
      some 0x3FB0000000000000⟩ →
    e.incr = ⟨some 0x3F784A062B2E43DA, some 0x3F1C71C71C71C71C, some 0x3EF6666666666666,
      some 0x3F10C9714FBCDA3B⟩ →
    (let at' := fun t g v => envScrub ieee .operator e t g = .ok v
     at' 0x0000000000000000 0x408F400000000000 0x401ACCCCCCCCCCCD ∧
     at' 0x4059000000000000 0x40F0266000000000 0x4029EA2A416350D0 ∧
     at' 0x409F400000000000 0x40F0266000000000 0x402D1B1451451451 ∧
     at' 0x40D3880000000000 0x40F0266000000000 0x4028EEDE38E38E39 ∧
     at' 0x40F0266000000000 0x40F0266000000000 0x4027000000000000 ∧
     at' 0x40F1170000000000 0x40F0266000000000 0x40215C4000000000 ∧
     at' 0x413044A600000000 0x40F0266000000000 0x3FB0000000000000 ∧
     at' 0x407F400000000000 0x4069000000000000 0x402D693A7C095378)) ∧
  ∀ (u : EnvUnit) (e : Env) (lv inc : Four RealBits) (g rate ad rel : RealBits),
    e.level.sequence = some lv → e.incr.sequence = some inc →
    (let span := fun i => rDiv ieee (r1 ieee) (inc.get i)
     rLt ieee g (span 0) = false ∧ rLt ieee (rSub ieee g (span 0)) (span 1) = false ∧
       rLt ieee (rSub ieee (rSub ieee g (span 0)) (span 1)) (span 2) = false) →
    e.stage = 2 → e.phase = r1 ieee → e.start = .previousLevel →
    rLe ieee r0 (rMul ieee (rMul ieee inc.s2 rate) ad) = true →
    ∃ v, envScrub ieee u e g g = .ok v ∧ envRender ieee u e true rate ad rel = .ok (e, v)

/-! ### The whole machine -/

/-- R302 (with log 1, 6, 8, 10): the state right after reset meets the invariant and is coherent. -/
def Obligations.ResetMeetsTheInvariant : Prop := State.reset.Inv ∧ State.reset.Coherent

/-- R23, R28 to R30, R33, R35, R37, R224, R246: every step keeps the invariant: the canonical form of the buffer, the
ranges of the control registers, L.WAVE in 0..5, L.SH in [0,1), no envelope phase and no L.DELAY_PHASE below 0.0 or
above 1.0, no L.PHASE below 0.0 (R220 lets it stay above 1.0), none of the rates that move them below 0.0, and what is
written together; the formats stay those R7 uses, of which the ranges are stated (log 1). Of a phase that is a NaN
(log 32) the ranges say nothing. -/
def Obligations.EveryStepKeepsTheInvariant : Prop :=
  ∀ s t : State, s.Inv → step s = .next t → t.Inv

/-- R73(b), R238, R241: every step keeps the registers SETUP derives coherent with the loaded patch: whenever DIRTY is
clear, they hold what SETUP would compute. -/
def Obligations.EveryStepKeepsCoherence : Prop :=
  ∀ s t : State, s.Coherent → step s = .next t → t.Coherent

/-- R287, R157: no instruction faults in a state that meets the invariant (no operation traps). -/
def Obligations.NoInstructionFaults : Prop :=
  ∀ (s : State) (i : Instr) (r : Fault), s.Inv → exec i s ≠ .fault r

/-- R28, R21, R23, R25, R27, R32, R33, R35, R318: who writes what. A register that an instruction changes is changed by
one that the tables of 10_state.md name as its writer: each L.* register by the LFO commands of its own row in R35,
FB_HIST by the chain calls with S = FEEDBACK; the formats by none (log 1). RENDER counts as a writer of what its steps
write, OPF of what the chain call it issues writes, and VRESET writes everything. -/
def Obligations.OnlyTheNamedWriters : Prop :=
  ∀ (i : Instr) (s t : State), exec i s = .next t → (∀ sr, i ≠ .vreset sr) →
    t.constructed = s.constructed ∧ t.sampleRate = s.sampleRate ∧ t.formats = s.formats ∧ t.port = s.port ∧
    (t.penv.scale = s.penv.scale ∧ ∀ k < 6, (t.env.get k).scale = (s.env.get k).scale) ∧
    ((∀ img, i ≠ .pload img) → t.patch = s.patch ∧ t.patchValid = s.patchValid) ∧
    (i ≠ .lcfg → t.lfo.freq = s.lfo.freq ∧ t.lfo.delayInc0 = s.lfo.delayInc0 ∧ t.lfo.delayInc1 = s.lfo.delayInc1 ∧
      t.lfo.amd = s.lfo.amd ∧ t.lfo.pmd = s.lfo.pmd ∧ t.lfo.wave = s.lfo.wave ∧
      t.lfo.resetPhase = s.lfo.resetPhase) ∧
    ((∀ x, i ≠ .lstep x) → (∀ x, i ≠ .lscrub x) →
      t.lfo.sh = s.lfo.sh ∧ t.lfo.value = s.lfo.value ∧ t.draws = s.draws ∧
      (i ≠ .lreset → t.lfo.phase = s.lfo.phase ∧ t.lfo.delayPhase = s.lfo.delayPhase)) ∧
    ((∀ x, i ≠ .lscrub x) → t.lfo.phaseInt = s.lfo.phaseInt) ∧
    ((∀ a, i ≠ .render a) → (∀ d add tap, i ≠ .opf d add tap) →
      (∀ f p q, i ≠ .ch1Fb0W f p q ∧ i ≠ .ch1Fb0A f p q ∧ i ≠ .ch2Fb1A f p q ∧ i ≠ .ch3Fb2A f p q) →
      t.fb0 = s.fb0 ∧ t.fb1 = s.fb1) ∧
    ((∀ a, i ≠ .render a) →
      t.note = s.note ∧ t.nvel = s.nvel ∧ t.gatePrev = s.gatePrev ∧ t.levelOut = s.levelOut ∧
      (t.penv.stage = s.penv.stage ∧ t.penv.phase = s.penv.phase ∧ t.penv.start = s.penv.start) ∧
      (∀ k < 6, (t.env.get k).stage = (s.env.get k).stage ∧ (t.env.get k).phase = (s.env.get k).phase ∧
        (t.env.get k).start = (s.env.get k).start) ∧
      (i ≠ .setup → t.env = s.env ∧ t.penv = s.penv ∧ t.ratio = s.ratio ∧ t.headroom = s.headroom ∧
        ((∀ img, i ≠ .pload img) → t.dirty = s.dirty)) ∧
      ((encode i).format = .command → t.buf = s.buf ∧ ((∀ k, i ≠ .opreset k) → t.ops = s.ops)))

/-- R228, R312: the voice does not see the LFO. Every instruction but VRESET and the four LFO commands does the same
whatever the LFO registers hold, and carries them along. -/
def Obligations.VoiceDoesNotSeeTheLfo : Prop :=
  ∀ (i : Instr) (s : State) (l : Lfo), (∀ sr, i ≠ .vreset sr) → i ≠ .lcfg → i ≠ .lreset → (∀ x, i ≠ .lstep x) →
    (∀ x, i ≠ .lscrub x) →
    (∀ t, exec i s = .next t → exec i { s with lfo := l } = .next { t with lfo := l }) ∧
    (∀ r, exec i s = .refused r → exec i { s with lfo := l } = .refused r)

/-! ### Formulas of the LFO, the ROM, EXP2 -/

/-- R224, R225, R226: the six waveforms, the delay ramp and the two outputs, written out; and the values the rules
print, in the formats R7 uses. -/
def Obligations.LfoWaveformsAndOutputs : Prop :=
  (∀ (fm : Formats) (phase sh : RealBits),
    lfoWave fm 0 phase sh =
      (if rLt fm phase (rHalf fm) = true then rMul fm (r2 fm) (rSub fm (rHalf fm) phase)
       else rMul fm (r2 fm) (rSub fm phase (rHalf fm))) ∧
    lfoWave fm 1 phase sh = rSub fm (r1 fm) phase ∧ lfoWave fm 2 phase sh = phase ∧
    lfoWave fm 3 phase sh = (if rLt fm phase (rHalf fm) = true then r0 else r1 fm) ∧
    lfoWave fm 4 phase sh = rAdd fm (rHalf fm) (rMul fm (rHalf fm) (sine fm (rAdd fm phase (rHalf fm)))) ∧
    lfoWave fm 5 phase sh = sh) ∧
  (∀ (fm : Formats) (l : Lfo),
    l.delayRamp fm =
      (if rLt fm l.delayPhase (rHalf fm) = true then r0 else rMul fm (rSub fm l.delayPhase (rHalf fm)) (r2 fm)) ∧
    l.pitchMod fm = rMul fm (rMul fm (rSub fm l.value (rHalf fm)) (l.delayRamp fm)) l.pmd ∧
    l.ampMod fm = rMul fm (rMul fm (rSub fm (r1 fm) l.value) (l.delayRamp fm)) l.amd) ∧
  (∀ l : Lfo,
    (l.delayPhase = 0x3FD0000000000000 ∨ l.delayPhase = rHalf ieee → l.delayRamp ieee = r0) ∧
    (l.delayPhase = 0x3FE8000000000000 → l.delayRamp ieee = rHalf ieee) ∧
    (l.delayPhase = r1 ieee → l.delayRamp ieee = r1 ieee)) ∧
  (∀ sh, lfoWave ieee 0 0x3FEFF7CED916872B sh = 0x3FEFEF9DB22D0E56 ∧
    lfoWave ieee 1 0x3FEFF7CED916872B sh = 0x3F50624DD2F1AA00 ∧ lfoWave ieee 3 0x3FEFF7CED916872B sh = r1 ieee ∧
    lfoWave ieee 4 r0 sh = rHalf ieee ∧ lfoWave ieee 4 0x3FD0000000000000 sh = r0 ∧
    lfoWave ieee 4 0x3FE8000000000000 sh = r1 ieee ∧
    lfoWave ieee 4 0x3FEFF7CED916872B sh = 0x3FE019BC3B6125A6)

/-- R170, R178, R180, R181: the ROM of the instance that runs is admissible: every algorithm 0..31 has a well-formed
row, whose plan adds into OUTPUT at least once (P7), and row 31 is the one R181 gives. A well-formed row of the
instance is the row that runs (a row that is not reads as row 31: the model's choice, log 5). -/
def Obligations.RomIsAdmissible : Prop :=
  romAdmissible Config.params = true ∧
  (∀ g < 32, rowWf (algRow Config.params g) = true ∧ (algRow Config.params g).all opcodeReservedClear = true ∧
    ∃ plan, compile (algRow Config.params g) = some plan ∧ ∃ c ∈ plan, c.out = 0#2 ∧ c.add = true) ∧
  algRow Config.params 31 = ⟨0x74#8, 0x04#8, 0x04#8, 0x04#8, 0x04#8, 0x04#8⟩ ∧
  (∀ (cfg : Config.Params) (g : Nat), rowWf (algRow cfg g) = true → algRow (withAdmissibleRom cfg) g = algRow cfg g)

/-- R122, R7: the bound on EXP2 in any instance of the formats R7 uses. At an integer −1022..1023 it is 99 % to 101 % of
the power of two, compared exactly in units of 2^-1074. At any operand that is no NaN it is no NaN and not below 0.0; it
is within 1 % of the power of two wherever R7's value, the correctly rounded one, is; and where that is +infinity and a
finite number is within 1 % (1024 to about 1024.014), it is within 1 % or that infinity (where no number is within 1 %,
nothing more is said: the model's choice, log 3). -/
def Obligations.Exp2IsWithinOnePercent : Prop :=
  ∀ cfg : Config.Params,
    (∀ n : Int, -1022 ≤ n → n ≤ 1023 →
      ∃ k f, rExact ieee (exp2 ieee cfg (rOfInt ieee n)) = .fin false k f ∧ -1074 ≤ f ∧
        99 * 2 ^ (n + 1074).toNat ≤ 100 * (k * 2 ^ (f + 1074).toNat) ∧
        100 * (k * 2 ^ (f + 1074).toNat) ≤ 101 * 2 ^ (n + 1074).toNat) ∧
    (∀ x, rIsNaN ieee x = false → rIsNaN ieee (exp2 ieee cfg x) = false ∧ rLt ieee (exp2 ieee cfg x) r0 = false ∧
      (exp2Within ieee x (exp2Rounded ieee x) = true → exp2Within ieee x (exp2 ieee cfg x) = true) ∧
      (exp2Within ieee x (exp2Nearest ieee x) = true → exp2Within ieee x (exp2 ieee cfg x) = true ∨
        exp2 ieee cfg x = rInf ieee false))
end

