-- ==== Sys2Proof/Laws/Run.lean ====
section
/-!
SUPPORT. What each of the small combinators that stop a computation can do: `require`, `written`, `finish`, `resume`,
`needConstructed`, `needPatch`. Proofs cite these and do not unfold them.
-/
namespace Sys2Proof.Machine

@[simp] theorem refuse_ne_ok {α : Type} (r : Refusal) (x : α) : (refuse r : Run α) = .ok x ↔ False := by
  simp [refuse]

@[simp] theorem faultWith_ne_ok {α : Type} (r : Fault) (x : α) : (faultWith r : Run α) = .ok x ↔ False := by
  simp [faultWith]

@[simp] theorem require_ok (c : Bool) (r : Refusal) (u : Unit) : require c r = .ok u ↔ c = true := by
  unfold require; split <;> simp_all

@[simp] theorem require_true (r : Refusal) : require true r = .ok () := rfl

@[simp] theorem require_false (r : Refusal) : require false r = refuse r := rfl

@[simp] theorem written_ok {α : Type} (x : Option α) (r : Refusal) (v : α) : written x r = .ok v ↔ x = some v := by
  unfold written; split <;> simp_all

@[simp] theorem written_some {α : Type} (v : α) (r : Refusal) : written (some v) r = .ok v := rfl

@[simp] theorem written_none {α : Type} (r : Refusal) : written (none : Option α) r = refuse r := rfl

/-- A sequence of two computations ends well exactly when both do. -/
theorem bind_ok {α β : Type} (x : Run α) (f : α → Run β) (y : β) :
    (x >>= f) = .ok y ↔ ∃ a, x = .ok a ∧ f a = .ok y := by
  cases x <;> simp [bind, Except.bind]

@[simp] theorem ok_bind {α β : Type} (a : α) (f : α → Run β) : ((Except.ok a : Run α) >>= f) = f a := rfl

@[simp] theorem refuse_bind {α β : Type} (r : Refusal) (f : α → Run β) : ((refuse r : Run α) >>= f) = refuse r := rfl

@[simp] theorem faultWith_bind {α β : Type} (r : Fault) (f : α → Run β) :
    ((faultWith r : Run α) >>= f) = faultWith r := rfl

@[simp] theorem finish_ok (s : State) : finish (.ok s) = .next s := rfl

@[simp] theorem finish_refuse (r : Refusal) : finish (refuse r) = .refused r := rfl

@[simp] theorem finish_faultWith (r : Fault) : finish (faultWith r) = .fault r := rfl

@[simp] theorem finish_next (x : Run State) (s : State) : finish x = .next s ↔ x = .ok s := by
  unfold finish; split <;> simp_all

@[simp] theorem finish_fault (x : Run State) (r : Fault) : finish x = .fault r ↔ x = faultWith r := by
  unfold finish faultWith; split <;> simp_all

@[simp] theorem finish_refused (x : Run State) (r : Refusal) : finish x = .refused r ↔ x = refuse r := by
  unfold finish refuse; split <;> simp_all

/-- RENDER reads an outcome back without loss. -/
@[simp] theorem resume_finish (x : Run State) : resume (finish x) = x := by
  unfold finish resume faultWith refuse; split <;> rename_i h <;> split at h <;> simp_all

theorem needConstructed_ok (s : State) (u : Unit) : s.needConstructed = .ok u ↔ s.constructed = true := by
  simp [State.needConstructed]

theorem needPatch_ok (s : State) (p : Patch) :
    s.needPatch = .ok p ↔ s.patchValid = true ∧ s.patch = some p := by
  simp [State.needPatch, bind_ok]

end Sys2Proof.Machine
end

