-- ==== Sys2Proof/Laws/Memory.lean ====
section
/-!
SUPPORT. The laws of the buffer memory (20_memory.md R60 to R65): a read after a write, every other sample as before,
and the canonical form, which every write keeps.
-/
namespace Sys2Proof.Machine

variable {fm : Formats}

/-- Reading the address just written. -/
theorem memRead_memWrite_same (m : Memory) (a : Nat) (v : SampleBits) : memRead (memWrite m a v) a = some v := by
  induction m with
  | nil => simp [memWrite, memRead]
  | cons x rest ih =>
    obtain ⟨b, w⟩ := x
    simp only [memWrite]
    split
    · simp [memRead]
    · split
      · simp [memRead]
      · simp_all [memRead, eq_comm]

/-- Reading any other address. -/
theorem memRead_memWrite_other (m : Memory) (a b : Nat) (v : SampleBits) (h : b ≠ a) :
    memRead (memWrite m a v) b = memRead m b := by
  induction m with
  | nil => simp [memWrite, memRead, h.symm]
  | cons x rest ih =>
    obtain ⟨c, w⟩ := x
    simp only [memWrite]
    split
    · simp [memRead, h.symm]
    · split
      · subst_vars; simp [memRead, h.symm]
      · simp [memRead, ih]

/-- A write keeps the canonical form above any lower bound that admits its address. -/
theorem memRising_memWrite (m : Memory) (lo a : Nat) (v : SampleBits) (hm : memRising lo m = true) (hlo : lo ≤ a)
    (ha : a < Config.numSlots * Config.bmax) : memRising lo (memWrite m a v) = true := by
  induction m generalizing lo with
  | nil => simp [memWrite, memRising, hlo, ha]
  | cons x rest ih =>
    obtain ⟨b, w⟩ := x
    simp only [memRising, Bool.and_eq_true, decide_eq_true_eq] at hm
    simp only [memWrite]
    split
    · rename_i h
      simp only [memRising, Bool.and_eq_true, decide_eq_true_eq]
      exact ⟨⟨hlo, ha⟩, ⟨⟨by omega, hm.1.2⟩, hm.2⟩⟩
    · split
      · subst_vars
        simp only [memRising, Bool.and_eq_true, decide_eq_true_eq]
        exact ⟨hm.1, hm.2⟩
      · simp only [memRising, Bool.and_eq_true, decide_eq_true_eq]
        exact ⟨hm.1, ih _ hm.2 (by omega)⟩

/-- A write to an address that exists keeps the canonical form. -/
theorem memWrite_wf (m : Memory) (a : Nat) (v : SampleBits) (hm : m.wf = true)
    (ha : a < Config.numSlots * Config.bmax) : (memWrite m a v).wf = true :=
  memRising_memWrite m 0 a v hm (Nat.zero_le _) ha

/-- The memory after reset has the canonical form. -/
theorem reset_buf_wf : Memory.wf State.reset.buf = true := rfl

/-- Which samples exist (R33, R60). -/
theorem sampleExists_iff (bmax slot index : Nat) :
    sampleExists bmax slot index = true ↔ slot < Config.numSlots ∧ index < bmax := by
  simp [sampleExists]

/-- An address of a sample that exists is in range. -/
theorem sampleAddr_lt (slot index : Nat) (h : sampleExists Config.bmax slot index = true) :
    sampleAddr slot index < Config.numSlots * Config.bmax := by
  have h' := (sampleExists_iff _ _ _).1 h
  simp only [sampleAddr, Config.numSlots] at *
  omega

/-- A slot number of two bits names a slot. -/
theorem slot_lt (s : Slot) : s.toNat < Config.numSlots := s.isLt

/-- Two samples of slots 0..3 have one address only if they are the same sample. -/
theorem sampleAddr_inj (s i t j : Nat) (hs : s < Config.numSlots) (ht : t < Config.numSlots)
    (h : sampleAddr s i = sampleAddr t j) : s = t ∧ i = j := by
  simp only [sampleAddr, Config.numSlots] at *; omega

/-- A slot number of two bits and an index below BMAX name a sample that exists. -/
theorem slot_exists (s : Slot) (i : Nat) (h : i < Config.bmax) : sampleExists Config.bmax s.toNat i = true :=
  (sampleExists_iff _ _ _).2 ⟨slot_lt s, h⟩

/-- Everything `bufRead` can do when it answers. -/
theorem bufRead_ok (m : Memory) (slot index : Nat) (v : SampleBits) :
    bufRead Config.bmax m slot index = .ok v ↔
      sampleExists Config.bmax slot index = true ∧ memRead m (sampleAddr slot index) = some v := by
  unfold bufRead; split <;> simp_all

/-- Everything `bufWrite` can do when it answers. -/
theorem bufWrite_ok (m m' : Memory) (slot index : Nat) (v : SampleBits) :
    bufWrite Config.bmax m slot index v = .ok m' ↔
      sampleExists Config.bmax slot index = true ∧ m' = memWrite m (sampleAddr slot index) v := by
  unfold bufWrite
  by_cases h : sampleExists Config.bmax slot index = true
  · simp [h, eq_comm]
  · simp [h]

/-- Everything `bufAdd` can do when it answers. -/
theorem bufAdd_ok (m m' : Memory) (slot index : Nat) (x : RealBits) :
    bufAdd fm Config.bmax m slot index x = .ok m' ↔
      sampleExists Config.bmax slot index = true ∧ ∃ old, memRead m (sampleAddr slot index) = some old ∧
        m' = memWrite m (sampleAddr slot index) (toSample fm (rAdd fm (ofSample fm old) x)) := by
  simp only [bufAdd, bind_ok, bufRead_ok, bufWrite_ok]
  constructor
  · rintro ⟨old, ⟨h, h'⟩, -, rfl⟩; exact ⟨h, old, h', rfl⟩
  · rintro ⟨h, old, h', rfl⟩; exact ⟨old, ⟨h, h'⟩, h, rfl⟩

/-- Reading a sample that exists is reading its address. -/
theorem State.sample_eq (s : State) (slot : Slot) (i : Nat) (h : i < Config.bmax) :
    s.sample slot.toNat i = memRead s.buf (sampleAddr slot.toNat i) := by
  simp [State.sample, slot_exists slot i h]

/-- Everything the host's buffer port can do when it answers (R64). -/
theorem portWrite_next (slot index : Nat) (v : SampleBits) (s t : State) :
    portWrite slot index v s = .next t ↔
      s.constructed = true ∧ sampleExists Config.bmax slot index = true ∧
        t = s.withBuf (memWrite s.buf (sampleAddr slot index) v) := by
  simp only [portWrite, finish_next, bind_ok, needConstructed_ok, bufWrite_ok]
  constructor
  · rintro ⟨-, h, m, ⟨h', rfl⟩, h''⟩
    exact ⟨h, h', by simpa [eq_comm] using h''⟩
  · rintro ⟨h, h', rfl⟩; exact ⟨(), h, _, ⟨h', rfl⟩, rfl⟩

end Sys2Proof.Machine
end

