-- ==== Sys2Proof/Laws/State.lean ====
section
/-!
SUPPORT. One lemma per register and named update of State: an update writes its own registers and leaves every other.
-/
namespace Sys2Proof.Machine

/-! ### withResult -/

@[simp] theorem State.withResult_constructed (s : State) (r : Result) : (s.withResult r).constructed = s.constructed := rfl
@[simp] theorem State.withResult_sampleRate (s : State) (r : Result) : (s.withResult r).sampleRate = s.sampleRate := rfl
@[simp] theorem State.withResult_ops (s : State) (r : Result) : (s.withResult r).ops = s.ops := rfl
@[simp] theorem State.withResult_env (s : State) (r : Result) : (s.withResult r).env = s.env := rfl
@[simp] theorem State.withResult_penv (s : State) (r : Result) : (s.withResult r).penv = s.penv := rfl
@[simp] theorem State.withResult_fb0 (s : State) (r : Result) : (s.withResult r).fb0 = s.fb0 := rfl
@[simp] theorem State.withResult_fb1 (s : State) (r : Result) : (s.withResult r).fb1 = s.fb1 := rfl
@[simp] theorem State.withResult_note (s : State) (r : Result) : (s.withResult r).note = s.note := rfl
@[simp] theorem State.withResult_nvel (s : State) (r : Result) : (s.withResult r).nvel = s.nvel := rfl
@[simp] theorem State.withResult_ratio (s : State) (r : Result) : (s.withResult r).ratio = s.ratio := rfl
@[simp] theorem State.withResult_headroom (s : State) (r : Result) : (s.withResult r).headroom = s.headroom := rfl
@[simp] theorem State.withResult_levelOut (s : State) (r : Result) : (s.withResult r).levelOut = s.levelOut := rfl
@[simp] theorem State.withResult_gatePrev (s : State) (r : Result) : (s.withResult r).gatePrev = s.gatePrev := rfl
@[simp] theorem State.withResult_dirty (s : State) (r : Result) : (s.withResult r).dirty = s.dirty := rfl
@[simp] theorem State.withResult_patchValid (s : State) (r : Result) : (s.withResult r).patchValid = s.patchValid := rfl
@[simp] theorem State.withResult_patch (s : State) (r : Result) : (s.withResult r).patch = s.patch := rfl
@[simp] theorem State.withResult_buf (s : State) (r : Result) : (s.withResult r).buf = s.buf := rfl
@[simp] theorem State.withResult_lfo (s : State) (r : Result) : (s.withResult r).lfo = s.lfo := rfl
@[simp] theorem State.withResult_rc (s : State) (r : Result) : (s.withResult r).rc = s.rc := rfl
@[simp] theorem State.withResult_draws (s : State) (r : Result) : (s.withResult r).draws = s.draws := rfl
@[simp] theorem State.withResult_port (s : State) (r : Result) : (s.withResult r).port = s.port := rfl
@[simp] theorem State.withResult_result (s : State) (r : Result) : (s.withResult r).result = r := rfl
@[simp] theorem State.withResult_formats (s : State) (r : Result) : (s.withResult r).formats = s.formats := rfl

/-! ### withOps -/

@[simp] theorem State.withOps_constructed (s : State) (x : Six Oper) : (s.withOps x).constructed = s.constructed := rfl
@[simp] theorem State.withOps_sampleRate (s : State) (x : Six Oper) : (s.withOps x).sampleRate = s.sampleRate := rfl
@[simp] theorem State.withOps_ops (s : State) (x : Six Oper) : (s.withOps x).ops = x := rfl
@[simp] theorem State.withOps_env (s : State) (x : Six Oper) : (s.withOps x).env = s.env := rfl
@[simp] theorem State.withOps_penv (s : State) (x : Six Oper) : (s.withOps x).penv = s.penv := rfl
@[simp] theorem State.withOps_fb0 (s : State) (x : Six Oper) : (s.withOps x).fb0 = s.fb0 := rfl
@[simp] theorem State.withOps_fb1 (s : State) (x : Six Oper) : (s.withOps x).fb1 = s.fb1 := rfl
@[simp] theorem State.withOps_note (s : State) (x : Six Oper) : (s.withOps x).note = s.note := rfl
@[simp] theorem State.withOps_nvel (s : State) (x : Six Oper) : (s.withOps x).nvel = s.nvel := rfl
@[simp] theorem State.withOps_ratio (s : State) (x : Six Oper) : (s.withOps x).ratio = s.ratio := rfl
@[simp] theorem State.withOps_headroom (s : State) (x : Six Oper) : (s.withOps x).headroom = s.headroom := rfl
@[simp] theorem State.withOps_levelOut (s : State) (x : Six Oper) : (s.withOps x).levelOut = s.levelOut := rfl
@[simp] theorem State.withOps_gatePrev (s : State) (x : Six Oper) : (s.withOps x).gatePrev = s.gatePrev := rfl
@[simp] theorem State.withOps_dirty (s : State) (x : Six Oper) : (s.withOps x).dirty = s.dirty := rfl
@[simp] theorem State.withOps_patchValid (s : State) (x : Six Oper) : (s.withOps x).patchValid = s.patchValid := rfl
@[simp] theorem State.withOps_patch (s : State) (x : Six Oper) : (s.withOps x).patch = s.patch := rfl
@[simp] theorem State.withOps_buf (s : State) (x : Six Oper) : (s.withOps x).buf = s.buf := rfl
@[simp] theorem State.withOps_lfo (s : State) (x : Six Oper) : (s.withOps x).lfo = s.lfo := rfl
@[simp] theorem State.withOps_rc (s : State) (x : Six Oper) : (s.withOps x).rc = s.rc := rfl
@[simp] theorem State.withOps_draws (s : State) (x : Six Oper) : (s.withOps x).draws = s.draws := rfl
@[simp] theorem State.withOps_port (s : State) (x : Six Oper) : (s.withOps x).port = s.port := rfl
@[simp] theorem State.withOps_result (s : State) (x : Six Oper) : (s.withOps x).result = s.result := rfl
@[simp] theorem State.withOps_formats (s : State) (x : Six Oper) : (s.withOps x).formats = s.formats := rfl

/-! ### withEnvs -/

@[simp] theorem State.withEnvs_constructed (s : State) (e : Six Env) (q : Env) : (s.withEnvs e q).constructed = s.constructed := rfl
@[simp] theorem State.withEnvs_sampleRate (s : State) (e : Six Env) (q : Env) : (s.withEnvs e q).sampleRate = s.sampleRate := rfl
@[simp] theorem State.withEnvs_ops (s : State) (e : Six Env) (q : Env) : (s.withEnvs e q).ops = s.ops := rfl
@[simp] theorem State.withEnvs_env (s : State) (e : Six Env) (q : Env) : (s.withEnvs e q).env = e := rfl
@[simp] theorem State.withEnvs_penv (s : State) (e : Six Env) (q : Env) : (s.withEnvs e q).penv = q := rfl
@[simp] theorem State.withEnvs_fb0 (s : State) (e : Six Env) (q : Env) : (s.withEnvs e q).fb0 = s.fb0 := rfl
@[simp] theorem State.withEnvs_fb1 (s : State) (e : Six Env) (q : Env) : (s.withEnvs e q).fb1 = s.fb1 := rfl
@[simp] theorem State.withEnvs_note (s : State) (e : Six Env) (q : Env) : (s.withEnvs e q).note = s.note := rfl
@[simp] theorem State.withEnvs_nvel (s : State) (e : Six Env) (q : Env) : (s.withEnvs e q).nvel = s.nvel := rfl
@[simp] theorem State.withEnvs_ratio (s : State) (e : Six Env) (q : Env) : (s.withEnvs e q).ratio = s.ratio := rfl
@[simp] theorem State.withEnvs_headroom (s : State) (e : Six Env) (q : Env) : (s.withEnvs e q).headroom = s.headroom := rfl
@[simp] theorem State.withEnvs_levelOut (s : State) (e : Six Env) (q : Env) : (s.withEnvs e q).levelOut = s.levelOut := rfl
@[simp] theorem State.withEnvs_gatePrev (s : State) (e : Six Env) (q : Env) : (s.withEnvs e q).gatePrev = s.gatePrev := rfl
@[simp] theorem State.withEnvs_dirty (s : State) (e : Six Env) (q : Env) : (s.withEnvs e q).dirty = s.dirty := rfl
@[simp] theorem State.withEnvs_patchValid (s : State) (e : Six Env) (q : Env) : (s.withEnvs e q).patchValid = s.patchValid := rfl
@[simp] theorem State.withEnvs_patch (s : State) (e : Six Env) (q : Env) : (s.withEnvs e q).patch = s.patch := rfl
@[simp] theorem State.withEnvs_buf (s : State) (e : Six Env) (q : Env) : (s.withEnvs e q).buf = s.buf := rfl
@[simp] theorem State.withEnvs_lfo (s : State) (e : Six Env) (q : Env) : (s.withEnvs e q).lfo = s.lfo := rfl
@[simp] theorem State.withEnvs_rc (s : State) (e : Six Env) (q : Env) : (s.withEnvs e q).rc = s.rc := rfl
@[simp] theorem State.withEnvs_draws (s : State) (e : Six Env) (q : Env) : (s.withEnvs e q).draws = s.draws := rfl
@[simp] theorem State.withEnvs_port (s : State) (e : Six Env) (q : Env) : (s.withEnvs e q).port = s.port := rfl
@[simp] theorem State.withEnvs_result (s : State) (e : Six Env) (q : Env) : (s.withEnvs e q).result = s.result := rfl
@[simp] theorem State.withEnvs_formats (s : State) (e : Six Env) (q : Env) : (s.withEnvs e q).formats = s.formats := rfl

/-! ### withHistory -/

@[simp] theorem State.withHistory_constructed (s : State) (x y : RealBits) : (s.withHistory x y).constructed = s.constructed := rfl
@[simp] theorem State.withHistory_sampleRate (s : State) (x y : RealBits) : (s.withHistory x y).sampleRate = s.sampleRate := rfl
@[simp] theorem State.withHistory_ops (s : State) (x y : RealBits) : (s.withHistory x y).ops = s.ops := rfl
@[simp] theorem State.withHistory_env (s : State) (x y : RealBits) : (s.withHistory x y).env = s.env := rfl
@[simp] theorem State.withHistory_penv (s : State) (x y : RealBits) : (s.withHistory x y).penv = s.penv := rfl
@[simp] theorem State.withHistory_fb0 (s : State) (x y : RealBits) : (s.withHistory x y).fb0 = x := rfl
@[simp] theorem State.withHistory_fb1 (s : State) (x y : RealBits) : (s.withHistory x y).fb1 = y := rfl
@[simp] theorem State.withHistory_note (s : State) (x y : RealBits) : (s.withHistory x y).note = s.note := rfl
@[simp] theorem State.withHistory_nvel (s : State) (x y : RealBits) : (s.withHistory x y).nvel = s.nvel := rfl
@[simp] theorem State.withHistory_ratio (s : State) (x y : RealBits) : (s.withHistory x y).ratio = s.ratio := rfl
@[simp] theorem State.withHistory_headroom (s : State) (x y : RealBits) : (s.withHistory x y).headroom = s.headroom := rfl
@[simp] theorem State.withHistory_levelOut (s : State) (x y : RealBits) : (s.withHistory x y).levelOut = s.levelOut := rfl
@[simp] theorem State.withHistory_gatePrev (s : State) (x y : RealBits) : (s.withHistory x y).gatePrev = s.gatePrev := rfl
@[simp] theorem State.withHistory_dirty (s : State) (x y : RealBits) : (s.withHistory x y).dirty = s.dirty := rfl
@[simp] theorem State.withHistory_patchValid (s : State) (x y : RealBits) : (s.withHistory x y).patchValid = s.patchValid := rfl
@[simp] theorem State.withHistory_patch (s : State) (x y : RealBits) : (s.withHistory x y).patch = s.patch := rfl
@[simp] theorem State.withHistory_buf (s : State) (x y : RealBits) : (s.withHistory x y).buf = s.buf := rfl
@[simp] theorem State.withHistory_lfo (s : State) (x y : RealBits) : (s.withHistory x y).lfo = s.lfo := rfl
@[simp] theorem State.withHistory_rc (s : State) (x y : RealBits) : (s.withHistory x y).rc = s.rc := rfl
@[simp] theorem State.withHistory_draws (s : State) (x y : RealBits) : (s.withHistory x y).draws = s.draws := rfl
@[simp] theorem State.withHistory_port (s : State) (x y : RealBits) : (s.withHistory x y).port = s.port := rfl
@[simp] theorem State.withHistory_result (s : State) (x y : RealBits) : (s.withHistory x y).result = s.result := rfl
@[simp] theorem State.withHistory_formats (s : State) (x y : RealBits) : (s.withHistory x y).formats = s.formats := rfl

/-! ### withLatch -/

@[simp] theorem State.withLatch_constructed (s : State) (x y : RealBits) : (s.withLatch x y).constructed = s.constructed := rfl
@[simp] theorem State.withLatch_sampleRate (s : State) (x y : RealBits) : (s.withLatch x y).sampleRate = s.sampleRate := rfl
@[simp] theorem State.withLatch_ops (s : State) (x y : RealBits) : (s.withLatch x y).ops = s.ops := rfl
@[simp] theorem State.withLatch_env (s : State) (x y : RealBits) : (s.withLatch x y).env = s.env := rfl
@[simp] theorem State.withLatch_penv (s : State) (x y : RealBits) : (s.withLatch x y).penv = s.penv := rfl
@[simp] theorem State.withLatch_fb0 (s : State) (x y : RealBits) : (s.withLatch x y).fb0 = s.fb0 := rfl
@[simp] theorem State.withLatch_fb1 (s : State) (x y : RealBits) : (s.withLatch x y).fb1 = s.fb1 := rfl
@[simp] theorem State.withLatch_note (s : State) (x y : RealBits) : (s.withLatch x y).note = some x := rfl
@[simp] theorem State.withLatch_nvel (s : State) (x y : RealBits) : (s.withLatch x y).nvel = some y := rfl
@[simp] theorem State.withLatch_ratio (s : State) (x y : RealBits) : (s.withLatch x y).ratio = s.ratio := rfl
@[simp] theorem State.withLatch_headroom (s : State) (x y : RealBits) : (s.withLatch x y).headroom = s.headroom := rfl
@[simp] theorem State.withLatch_levelOut (s : State) (x y : RealBits) : (s.withLatch x y).levelOut = s.levelOut := rfl
@[simp] theorem State.withLatch_gatePrev (s : State) (x y : RealBits) : (s.withLatch x y).gatePrev = s.gatePrev := rfl
@[simp] theorem State.withLatch_dirty (s : State) (x y : RealBits) : (s.withLatch x y).dirty = s.dirty := rfl
@[simp] theorem State.withLatch_patchValid (s : State) (x y : RealBits) : (s.withLatch x y).patchValid = s.patchValid := rfl
@[simp] theorem State.withLatch_patch (s : State) (x y : RealBits) : (s.withLatch x y).patch = s.patch := rfl
@[simp] theorem State.withLatch_buf (s : State) (x y : RealBits) : (s.withLatch x y).buf = s.buf := rfl
@[simp] theorem State.withLatch_lfo (s : State) (x y : RealBits) : (s.withLatch x y).lfo = s.lfo := rfl
@[simp] theorem State.withLatch_rc (s : State) (x y : RealBits) : (s.withLatch x y).rc = s.rc := rfl
@[simp] theorem State.withLatch_draws (s : State) (x y : RealBits) : (s.withLatch x y).draws = s.draws := rfl
@[simp] theorem State.withLatch_port (s : State) (x y : RealBits) : (s.withLatch x y).port = s.port := rfl
@[simp] theorem State.withLatch_result (s : State) (x y : RealBits) : (s.withLatch x y).result = s.result := rfl
@[simp] theorem State.withLatch_formats (s : State) (x y : RealBits) : (s.withLatch x y).formats = s.formats := rfl

/-! ### withCaches -/

@[simp] theorem State.withCaches_constructed (s : State) (x y : Six (Option RealBits)) : (s.withCaches x y).constructed = s.constructed := rfl
@[simp] theorem State.withCaches_sampleRate (s : State) (x y : Six (Option RealBits)) : (s.withCaches x y).sampleRate = s.sampleRate := rfl
@[simp] theorem State.withCaches_ops (s : State) (x y : Six (Option RealBits)) : (s.withCaches x y).ops = s.ops := rfl
@[simp] theorem State.withCaches_env (s : State) (x y : Six (Option RealBits)) : (s.withCaches x y).env = s.env := rfl
@[simp] theorem State.withCaches_penv (s : State) (x y : Six (Option RealBits)) : (s.withCaches x y).penv = s.penv := rfl
@[simp] theorem State.withCaches_fb0 (s : State) (x y : Six (Option RealBits)) : (s.withCaches x y).fb0 = s.fb0 := rfl
@[simp] theorem State.withCaches_fb1 (s : State) (x y : Six (Option RealBits)) : (s.withCaches x y).fb1 = s.fb1 := rfl
@[simp] theorem State.withCaches_note (s : State) (x y : Six (Option RealBits)) : (s.withCaches x y).note = s.note := rfl
@[simp] theorem State.withCaches_nvel (s : State) (x y : Six (Option RealBits)) : (s.withCaches x y).nvel = s.nvel := rfl
@[simp] theorem State.withCaches_ratio (s : State) (x y : Six (Option RealBits)) : (s.withCaches x y).ratio = x := rfl
@[simp] theorem State.withCaches_headroom (s : State) (x y : Six (Option RealBits)) : (s.withCaches x y).headroom = y := rfl
@[simp] theorem State.withCaches_levelOut (s : State) (x y : Six (Option RealBits)) : (s.withCaches x y).levelOut = s.levelOut := rfl
@[simp] theorem State.withCaches_gatePrev (s : State) (x y : Six (Option RealBits)) : (s.withCaches x y).gatePrev = s.gatePrev := rfl
@[simp] theorem State.withCaches_dirty (s : State) (x y : Six (Option RealBits)) : (s.withCaches x y).dirty = s.dirty := rfl
@[simp] theorem State.withCaches_patchValid (s : State) (x y : Six (Option RealBits)) : (s.withCaches x y).patchValid = s.patchValid := rfl
@[simp] theorem State.withCaches_patch (s : State) (x y : Six (Option RealBits)) : (s.withCaches x y).patch = s.patch := rfl
@[simp] theorem State.withCaches_buf (s : State) (x y : Six (Option RealBits)) : (s.withCaches x y).buf = s.buf := rfl
@[simp] theorem State.withCaches_lfo (s : State) (x y : Six (Option RealBits)) : (s.withCaches x y).lfo = s.lfo := rfl
@[simp] theorem State.withCaches_rc (s : State) (x y : Six (Option RealBits)) : (s.withCaches x y).rc = s.rc := rfl
@[simp] theorem State.withCaches_draws (s : State) (x y : Six (Option RealBits)) : (s.withCaches x y).draws = s.draws := rfl
@[simp] theorem State.withCaches_port (s : State) (x y : Six (Option RealBits)) : (s.withCaches x y).port = s.port := rfl
@[simp] theorem State.withCaches_result (s : State) (x y : Six (Option RealBits)) : (s.withCaches x y).result = s.result := rfl
@[simp] theorem State.withCaches_formats (s : State) (x y : Six (Option RealBits)) : (s.withCaches x y).formats = s.formats := rfl

/-! ### withLevelOut -/

@[simp] theorem State.withLevelOut_constructed (s : State) (x : Six (Option RealBits)) : (s.withLevelOut x).constructed = s.constructed := rfl
@[simp] theorem State.withLevelOut_sampleRate (s : State) (x : Six (Option RealBits)) : (s.withLevelOut x).sampleRate = s.sampleRate := rfl
@[simp] theorem State.withLevelOut_ops (s : State) (x : Six (Option RealBits)) : (s.withLevelOut x).ops = s.ops := rfl
@[simp] theorem State.withLevelOut_env (s : State) (x : Six (Option RealBits)) : (s.withLevelOut x).env = s.env := rfl
@[simp] theorem State.withLevelOut_penv (s : State) (x : Six (Option RealBits)) : (s.withLevelOut x).penv = s.penv := rfl
@[simp] theorem State.withLevelOut_fb0 (s : State) (x : Six (Option RealBits)) : (s.withLevelOut x).fb0 = s.fb0 := rfl
@[simp] theorem State.withLevelOut_fb1 (s : State) (x : Six (Option RealBits)) : (s.withLevelOut x).fb1 = s.fb1 := rfl
@[simp] theorem State.withLevelOut_note (s : State) (x : Six (Option RealBits)) : (s.withLevelOut x).note = s.note := rfl
@[simp] theorem State.withLevelOut_nvel (s : State) (x : Six (Option RealBits)) : (s.withLevelOut x).nvel = s.nvel := rfl
@[simp] theorem State.withLevelOut_ratio (s : State) (x : Six (Option RealBits)) : (s.withLevelOut x).ratio = s.ratio := rfl
@[simp] theorem State.withLevelOut_headroom (s : State) (x : Six (Option RealBits)) : (s.withLevelOut x).headroom = s.headroom := rfl
@[simp] theorem State.withLevelOut_levelOut (s : State) (x : Six (Option RealBits)) : (s.withLevelOut x).levelOut = x := rfl
@[simp] theorem State.withLevelOut_gatePrev (s : State) (x : Six (Option RealBits)) : (s.withLevelOut x).gatePrev = s.gatePrev := rfl
@[simp] theorem State.withLevelOut_dirty (s : State) (x : Six (Option RealBits)) : (s.withLevelOut x).dirty = s.dirty := rfl
@[simp] theorem State.withLevelOut_patchValid (s : State) (x : Six (Option RealBits)) : (s.withLevelOut x).patchValid = s.patchValid := rfl
@[simp] theorem State.withLevelOut_patch (s : State) (x : Six (Option RealBits)) : (s.withLevelOut x).patch = s.patch := rfl
@[simp] theorem State.withLevelOut_buf (s : State) (x : Six (Option RealBits)) : (s.withLevelOut x).buf = s.buf := rfl
@[simp] theorem State.withLevelOut_lfo (s : State) (x : Six (Option RealBits)) : (s.withLevelOut x).lfo = s.lfo := rfl
@[simp] theorem State.withLevelOut_rc (s : State) (x : Six (Option RealBits)) : (s.withLevelOut x).rc = s.rc := rfl
@[simp] theorem State.withLevelOut_draws (s : State) (x : Six (Option RealBits)) : (s.withLevelOut x).draws = s.draws := rfl
@[simp] theorem State.withLevelOut_port (s : State) (x : Six (Option RealBits)) : (s.withLevelOut x).port = s.port := rfl
@[simp] theorem State.withLevelOut_result (s : State) (x : Six (Option RealBits)) : (s.withLevelOut x).result = s.result := rfl
@[simp] theorem State.withLevelOut_formats (s : State) (x : Six (Option RealBits)) : (s.withLevelOut x).formats = s.formats := rfl

/-! ### withGatePrev -/

@[simp] theorem State.withGatePrev_constructed (s : State) (g : Bool) : (s.withGatePrev g).constructed = s.constructed := rfl
@[simp] theorem State.withGatePrev_sampleRate (s : State) (g : Bool) : (s.withGatePrev g).sampleRate = s.sampleRate := rfl
@[simp] theorem State.withGatePrev_ops (s : State) (g : Bool) : (s.withGatePrev g).ops = s.ops := rfl
@[simp] theorem State.withGatePrev_env (s : State) (g : Bool) : (s.withGatePrev g).env = s.env := rfl
@[simp] theorem State.withGatePrev_penv (s : State) (g : Bool) : (s.withGatePrev g).penv = s.penv := rfl
@[simp] theorem State.withGatePrev_fb0 (s : State) (g : Bool) : (s.withGatePrev g).fb0 = s.fb0 := rfl
@[simp] theorem State.withGatePrev_fb1 (s : State) (g : Bool) : (s.withGatePrev g).fb1 = s.fb1 := rfl
@[simp] theorem State.withGatePrev_note (s : State) (g : Bool) : (s.withGatePrev g).note = s.note := rfl
@[simp] theorem State.withGatePrev_nvel (s : State) (g : Bool) : (s.withGatePrev g).nvel = s.nvel := rfl
@[simp] theorem State.withGatePrev_ratio (s : State) (g : Bool) : (s.withGatePrev g).ratio = s.ratio := rfl
@[simp] theorem State.withGatePrev_headroom (s : State) (g : Bool) : (s.withGatePrev g).headroom = s.headroom := rfl
@[simp] theorem State.withGatePrev_levelOut (s : State) (g : Bool) : (s.withGatePrev g).levelOut = s.levelOut := rfl
@[simp] theorem State.withGatePrev_gatePrev (s : State) (g : Bool) : (s.withGatePrev g).gatePrev = g := rfl
@[simp] theorem State.withGatePrev_dirty (s : State) (g : Bool) : (s.withGatePrev g).dirty = s.dirty := rfl
@[simp] theorem State.withGatePrev_patchValid (s : State) (g : Bool) : (s.withGatePrev g).patchValid = s.patchValid := rfl
@[simp] theorem State.withGatePrev_patch (s : State) (g : Bool) : (s.withGatePrev g).patch = s.patch := rfl
@[simp] theorem State.withGatePrev_buf (s : State) (g : Bool) : (s.withGatePrev g).buf = s.buf := rfl
@[simp] theorem State.withGatePrev_lfo (s : State) (g : Bool) : (s.withGatePrev g).lfo = s.lfo := rfl
@[simp] theorem State.withGatePrev_rc (s : State) (g : Bool) : (s.withGatePrev g).rc = s.rc := rfl
@[simp] theorem State.withGatePrev_draws (s : State) (g : Bool) : (s.withGatePrev g).draws = s.draws := rfl
@[simp] theorem State.withGatePrev_port (s : State) (g : Bool) : (s.withGatePrev g).port = s.port := rfl
@[simp] theorem State.withGatePrev_result (s : State) (g : Bool) : (s.withGatePrev g).result = s.result := rfl
@[simp] theorem State.withGatePrev_formats (s : State) (g : Bool) : (s.withGatePrev g).formats = s.formats := rfl

/-! ### withDirty -/

@[simp] theorem State.withDirty_constructed (s : State) (d : Bool) : (s.withDirty d).constructed = s.constructed := rfl
@[simp] theorem State.withDirty_sampleRate (s : State) (d : Bool) : (s.withDirty d).sampleRate = s.sampleRate := rfl
@[simp] theorem State.withDirty_ops (s : State) (d : Bool) : (s.withDirty d).ops = s.ops := rfl
@[simp] theorem State.withDirty_env (s : State) (d : Bool) : (s.withDirty d).env = s.env := rfl
@[simp] theorem State.withDirty_penv (s : State) (d : Bool) : (s.withDirty d).penv = s.penv := rfl
@[simp] theorem State.withDirty_fb0 (s : State) (d : Bool) : (s.withDirty d).fb0 = s.fb0 := rfl
@[simp] theorem State.withDirty_fb1 (s : State) (d : Bool) : (s.withDirty d).fb1 = s.fb1 := rfl
@[simp] theorem State.withDirty_note (s : State) (d : Bool) : (s.withDirty d).note = s.note := rfl
@[simp] theorem State.withDirty_nvel (s : State) (d : Bool) : (s.withDirty d).nvel = s.nvel := rfl
@[simp] theorem State.withDirty_ratio (s : State) (d : Bool) : (s.withDirty d).ratio = s.ratio := rfl
@[simp] theorem State.withDirty_headroom (s : State) (d : Bool) : (s.withDirty d).headroom = s.headroom := rfl
@[simp] theorem State.withDirty_levelOut (s : State) (d : Bool) : (s.withDirty d).levelOut = s.levelOut := rfl
@[simp] theorem State.withDirty_gatePrev (s : State) (d : Bool) : (s.withDirty d).gatePrev = s.gatePrev := rfl
@[simp] theorem State.withDirty_dirty (s : State) (d : Bool) : (s.withDirty d).dirty = d := rfl
@[simp] theorem State.withDirty_patchValid (s : State) (d : Bool) : (s.withDirty d).patchValid = s.patchValid := rfl
@[simp] theorem State.withDirty_patch (s : State) (d : Bool) : (s.withDirty d).patch = s.patch := rfl
@[simp] theorem State.withDirty_buf (s : State) (d : Bool) : (s.withDirty d).buf = s.buf := rfl
@[simp] theorem State.withDirty_lfo (s : State) (d : Bool) : (s.withDirty d).lfo = s.lfo := rfl
@[simp] theorem State.withDirty_rc (s : State) (d : Bool) : (s.withDirty d).rc = s.rc := rfl
@[simp] theorem State.withDirty_draws (s : State) (d : Bool) : (s.withDirty d).draws = s.draws := rfl
@[simp] theorem State.withDirty_port (s : State) (d : Bool) : (s.withDirty d).port = s.port := rfl
@[simp] theorem State.withDirty_result (s : State) (d : Bool) : (s.withDirty d).result = s.result := rfl
@[simp] theorem State.withDirty_formats (s : State) (d : Bool) : (s.withDirty d).formats = s.formats := rfl

/-! ### withPatch -/

@[simp] theorem State.withPatch_constructed (s : State) (p : Patch) : (s.withPatch p).constructed = s.constructed := rfl
@[simp] theorem State.withPatch_sampleRate (s : State) (p : Patch) : (s.withPatch p).sampleRate = s.sampleRate := rfl
@[simp] theorem State.withPatch_ops (s : State) (p : Patch) : (s.withPatch p).ops = s.ops := rfl
@[simp] theorem State.withPatch_env (s : State) (p : Patch) : (s.withPatch p).env = s.env := rfl
@[simp] theorem State.withPatch_penv (s : State) (p : Patch) : (s.withPatch p).penv = s.penv := rfl
@[simp] theorem State.withPatch_fb0 (s : State) (p : Patch) : (s.withPatch p).fb0 = s.fb0 := rfl
@[simp] theorem State.withPatch_fb1 (s : State) (p : Patch) : (s.withPatch p).fb1 = s.fb1 := rfl
@[simp] theorem State.withPatch_note (s : State) (p : Patch) : (s.withPatch p).note = s.note := rfl
@[simp] theorem State.withPatch_nvel (s : State) (p : Patch) : (s.withPatch p).nvel = s.nvel := rfl
@[simp] theorem State.withPatch_ratio (s : State) (p : Patch) : (s.withPatch p).ratio = s.ratio := rfl
@[simp] theorem State.withPatch_headroom (s : State) (p : Patch) : (s.withPatch p).headroom = s.headroom := rfl
@[simp] theorem State.withPatch_levelOut (s : State) (p : Patch) : (s.withPatch p).levelOut = s.levelOut := rfl
@[simp] theorem State.withPatch_gatePrev (s : State) (p : Patch) : (s.withPatch p).gatePrev = s.gatePrev := rfl
@[simp] theorem State.withPatch_dirty (s : State) (p : Patch) : (s.withPatch p).dirty = s.dirty := rfl
@[simp] theorem State.withPatch_patchValid (s : State) (p : Patch) : (s.withPatch p).patchValid = true := rfl
@[simp] theorem State.withPatch_patch (s : State) (p : Patch) : (s.withPatch p).patch = some p := rfl
@[simp] theorem State.withPatch_buf (s : State) (p : Patch) : (s.withPatch p).buf = s.buf := rfl
@[simp] theorem State.withPatch_lfo (s : State) (p : Patch) : (s.withPatch p).lfo = s.lfo := rfl
@[simp] theorem State.withPatch_rc (s : State) (p : Patch) : (s.withPatch p).rc = s.rc := rfl
@[simp] theorem State.withPatch_draws (s : State) (p : Patch) : (s.withPatch p).draws = s.draws := rfl
@[simp] theorem State.withPatch_port (s : State) (p : Patch) : (s.withPatch p).port = s.port := rfl
@[simp] theorem State.withPatch_result (s : State) (p : Patch) : (s.withPatch p).result = s.result := rfl
@[simp] theorem State.withPatch_formats (s : State) (p : Patch) : (s.withPatch p).formats = s.formats := rfl

/-! ### withBuf -/

@[simp] theorem State.withBuf_constructed (s : State) (m : Memory) : (s.withBuf m).constructed = s.constructed := rfl
@[simp] theorem State.withBuf_sampleRate (s : State) (m : Memory) : (s.withBuf m).sampleRate = s.sampleRate := rfl
@[simp] theorem State.withBuf_ops (s : State) (m : Memory) : (s.withBuf m).ops = s.ops := rfl
@[simp] theorem State.withBuf_env (s : State) (m : Memory) : (s.withBuf m).env = s.env := rfl
@[simp] theorem State.withBuf_penv (s : State) (m : Memory) : (s.withBuf m).penv = s.penv := rfl
@[simp] theorem State.withBuf_fb0 (s : State) (m : Memory) : (s.withBuf m).fb0 = s.fb0 := rfl
@[simp] theorem State.withBuf_fb1 (s : State) (m : Memory) : (s.withBuf m).fb1 = s.fb1 := rfl
@[simp] theorem State.withBuf_note (s : State) (m : Memory) : (s.withBuf m).note = s.note := rfl
@[simp] theorem State.withBuf_nvel (s : State) (m : Memory) : (s.withBuf m).nvel = s.nvel := rfl
@[simp] theorem State.withBuf_ratio (s : State) (m : Memory) : (s.withBuf m).ratio = s.ratio := rfl
@[simp] theorem State.withBuf_headroom (s : State) (m : Memory) : (s.withBuf m).headroom = s.headroom := rfl
@[simp] theorem State.withBuf_levelOut (s : State) (m : Memory) : (s.withBuf m).levelOut = s.levelOut := rfl
@[simp] theorem State.withBuf_gatePrev (s : State) (m : Memory) : (s.withBuf m).gatePrev = s.gatePrev := rfl
@[simp] theorem State.withBuf_dirty (s : State) (m : Memory) : (s.withBuf m).dirty = s.dirty := rfl
@[simp] theorem State.withBuf_patchValid (s : State) (m : Memory) : (s.withBuf m).patchValid = s.patchValid := rfl
@[simp] theorem State.withBuf_patch (s : State) (m : Memory) : (s.withBuf m).patch = s.patch := rfl
@[simp] theorem State.withBuf_buf (s : State) (m : Memory) : (s.withBuf m).buf = m := rfl
@[simp] theorem State.withBuf_lfo (s : State) (m : Memory) : (s.withBuf m).lfo = s.lfo := rfl
@[simp] theorem State.withBuf_rc (s : State) (m : Memory) : (s.withBuf m).rc = s.rc := rfl
@[simp] theorem State.withBuf_draws (s : State) (m : Memory) : (s.withBuf m).draws = s.draws := rfl
@[simp] theorem State.withBuf_port (s : State) (m : Memory) : (s.withBuf m).port = s.port := rfl
@[simp] theorem State.withBuf_result (s : State) (m : Memory) : (s.withBuf m).result = s.result := rfl
@[simp] theorem State.withBuf_formats (s : State) (m : Memory) : (s.withBuf m).formats = s.formats := rfl

/-! ### withLfo -/

@[simp] theorem State.withLfo_constructed (s : State) (l : Lfo) : (s.withLfo l).constructed = s.constructed := rfl
@[simp] theorem State.withLfo_sampleRate (s : State) (l : Lfo) : (s.withLfo l).sampleRate = s.sampleRate := rfl
@[simp] theorem State.withLfo_ops (s : State) (l : Lfo) : (s.withLfo l).ops = s.ops := rfl
@[simp] theorem State.withLfo_env (s : State) (l : Lfo) : (s.withLfo l).env = s.env := rfl
@[simp] theorem State.withLfo_penv (s : State) (l : Lfo) : (s.withLfo l).penv = s.penv := rfl
@[simp] theorem State.withLfo_fb0 (s : State) (l : Lfo) : (s.withLfo l).fb0 = s.fb0 := rfl
@[simp] theorem State.withLfo_fb1 (s : State) (l : Lfo) : (s.withLfo l).fb1 = s.fb1 := rfl
@[simp] theorem State.withLfo_note (s : State) (l : Lfo) : (s.withLfo l).note = s.note := rfl
@[simp] theorem State.withLfo_nvel (s : State) (l : Lfo) : (s.withLfo l).nvel = s.nvel := rfl
@[simp] theorem State.withLfo_ratio (s : State) (l : Lfo) : (s.withLfo l).ratio = s.ratio := rfl
@[simp] theorem State.withLfo_headroom (s : State) (l : Lfo) : (s.withLfo l).headroom = s.headroom := rfl
@[simp] theorem State.withLfo_levelOut (s : State) (l : Lfo) : (s.withLfo l).levelOut = s.levelOut := rfl
@[simp] theorem State.withLfo_gatePrev (s : State) (l : Lfo) : (s.withLfo l).gatePrev = s.gatePrev := rfl
@[simp] theorem State.withLfo_dirty (s : State) (l : Lfo) : (s.withLfo l).dirty = s.dirty := rfl
@[simp] theorem State.withLfo_patchValid (s : State) (l : Lfo) : (s.withLfo l).patchValid = s.patchValid := rfl
@[simp] theorem State.withLfo_patch (s : State) (l : Lfo) : (s.withLfo l).patch = s.patch := rfl
@[simp] theorem State.withLfo_buf (s : State) (l : Lfo) : (s.withLfo l).buf = s.buf := rfl
@[simp] theorem State.withLfo_lfo (s : State) (l : Lfo) : (s.withLfo l).lfo = l := rfl
@[simp] theorem State.withLfo_rc (s : State) (l : Lfo) : (s.withLfo l).rc = s.rc := rfl
@[simp] theorem State.withLfo_draws (s : State) (l : Lfo) : (s.withLfo l).draws = s.draws := rfl
@[simp] theorem State.withLfo_port (s : State) (l : Lfo) : (s.withLfo l).port = s.port := rfl
@[simp] theorem State.withLfo_result (s : State) (l : Lfo) : (s.withLfo l).result = s.result := rfl
@[simp] theorem State.withLfo_formats (s : State) (l : Lfo) : (s.withLfo l).formats = s.formats := rfl

/-! ### withRc -/

@[simp] theorem State.withRc_constructed (s : State) (c : Option RenderCtx) : (s.withRc c).constructed = s.constructed := rfl
@[simp] theorem State.withRc_sampleRate (s : State) (c : Option RenderCtx) : (s.withRc c).sampleRate = s.sampleRate := rfl
@[simp] theorem State.withRc_ops (s : State) (c : Option RenderCtx) : (s.withRc c).ops = s.ops := rfl
@[simp] theorem State.withRc_env (s : State) (c : Option RenderCtx) : (s.withRc c).env = s.env := rfl
@[simp] theorem State.withRc_penv (s : State) (c : Option RenderCtx) : (s.withRc c).penv = s.penv := rfl
@[simp] theorem State.withRc_fb0 (s : State) (c : Option RenderCtx) : (s.withRc c).fb0 = s.fb0 := rfl
@[simp] theorem State.withRc_fb1 (s : State) (c : Option RenderCtx) : (s.withRc c).fb1 = s.fb1 := rfl
@[simp] theorem State.withRc_note (s : State) (c : Option RenderCtx) : (s.withRc c).note = s.note := rfl
@[simp] theorem State.withRc_nvel (s : State) (c : Option RenderCtx) : (s.withRc c).nvel = s.nvel := rfl
@[simp] theorem State.withRc_ratio (s : State) (c : Option RenderCtx) : (s.withRc c).ratio = s.ratio := rfl
@[simp] theorem State.withRc_headroom (s : State) (c : Option RenderCtx) : (s.withRc c).headroom = s.headroom := rfl
@[simp] theorem State.withRc_levelOut (s : State) (c : Option RenderCtx) : (s.withRc c).levelOut = s.levelOut := rfl
@[simp] theorem State.withRc_gatePrev (s : State) (c : Option RenderCtx) : (s.withRc c).gatePrev = s.gatePrev := rfl
@[simp] theorem State.withRc_dirty (s : State) (c : Option RenderCtx) : (s.withRc c).dirty = s.dirty := rfl
@[simp] theorem State.withRc_patchValid (s : State) (c : Option RenderCtx) : (s.withRc c).patchValid = s.patchValid := rfl
@[simp] theorem State.withRc_patch (s : State) (c : Option RenderCtx) : (s.withRc c).patch = s.patch := rfl
@[simp] theorem State.withRc_buf (s : State) (c : Option RenderCtx) : (s.withRc c).buf = s.buf := rfl
@[simp] theorem State.withRc_lfo (s : State) (c : Option RenderCtx) : (s.withRc c).lfo = s.lfo := rfl
@[simp] theorem State.withRc_rc (s : State) (c : Option RenderCtx) : (s.withRc c).rc = c := rfl
@[simp] theorem State.withRc_draws (s : State) (c : Option RenderCtx) : (s.withRc c).draws = s.draws := rfl
@[simp] theorem State.withRc_port (s : State) (c : Option RenderCtx) : (s.withRc c).port = s.port := rfl
@[simp] theorem State.withRc_result (s : State) (c : Option RenderCtx) : (s.withRc c).result = s.result := rfl
@[simp] theorem State.withRc_formats (s : State) (c : Option RenderCtx) : (s.withRc c).formats = s.formats := rfl

/-! ### withDraws -/

@[simp] theorem State.withDraws_constructed (s : State) (n : Nat) : (s.withDraws n).constructed = s.constructed := rfl
@[simp] theorem State.withDraws_sampleRate (s : State) (n : Nat) : (s.withDraws n).sampleRate = s.sampleRate := rfl
@[simp] theorem State.withDraws_ops (s : State) (n : Nat) : (s.withDraws n).ops = s.ops := rfl
@[simp] theorem State.withDraws_env (s : State) (n : Nat) : (s.withDraws n).env = s.env := rfl
@[simp] theorem State.withDraws_penv (s : State) (n : Nat) : (s.withDraws n).penv = s.penv := rfl
@[simp] theorem State.withDraws_fb0 (s : State) (n : Nat) : (s.withDraws n).fb0 = s.fb0 := rfl
@[simp] theorem State.withDraws_fb1 (s : State) (n : Nat) : (s.withDraws n).fb1 = s.fb1 := rfl
@[simp] theorem State.withDraws_note (s : State) (n : Nat) : (s.withDraws n).note = s.note := rfl
@[simp] theorem State.withDraws_nvel (s : State) (n : Nat) : (s.withDraws n).nvel = s.nvel := rfl
@[simp] theorem State.withDraws_ratio (s : State) (n : Nat) : (s.withDraws n).ratio = s.ratio := rfl
@[simp] theorem State.withDraws_headroom (s : State) (n : Nat) : (s.withDraws n).headroom = s.headroom := rfl
@[simp] theorem State.withDraws_levelOut (s : State) (n : Nat) : (s.withDraws n).levelOut = s.levelOut := rfl
@[simp] theorem State.withDraws_gatePrev (s : State) (n : Nat) : (s.withDraws n).gatePrev = s.gatePrev := rfl
@[simp] theorem State.withDraws_dirty (s : State) (n : Nat) : (s.withDraws n).dirty = s.dirty := rfl
@[simp] theorem State.withDraws_patchValid (s : State) (n : Nat) : (s.withDraws n).patchValid = s.patchValid := rfl
@[simp] theorem State.withDraws_patch (s : State) (n : Nat) : (s.withDraws n).patch = s.patch := rfl
@[simp] theorem State.withDraws_buf (s : State) (n : Nat) : (s.withDraws n).buf = s.buf := rfl
@[simp] theorem State.withDraws_lfo (s : State) (n : Nat) : (s.withDraws n).lfo = s.lfo := rfl
@[simp] theorem State.withDraws_rc (s : State) (n : Nat) : (s.withDraws n).rc = s.rc := rfl
@[simp] theorem State.withDraws_draws (s : State) (n : Nat) : (s.withDraws n).draws = n := rfl
@[simp] theorem State.withDraws_port (s : State) (n : Nat) : (s.withDraws n).port = s.port := rfl
@[simp] theorem State.withDraws_result (s : State) (n : Nat) : (s.withDraws n).result = s.result := rfl
@[simp] theorem State.withDraws_formats (s : State) (n : Nat) : (s.withDraws n).formats = s.formats := rfl

/-! ### withPort -/

@[simp] theorem State.withPort_constructed (s : State) (l : List HostOp) : (s.withPort l).constructed = s.constructed := rfl
@[simp] theorem State.withPort_sampleRate (s : State) (l : List HostOp) : (s.withPort l).sampleRate = s.sampleRate := rfl
@[simp] theorem State.withPort_ops (s : State) (l : List HostOp) : (s.withPort l).ops = s.ops := rfl
@[simp] theorem State.withPort_env (s : State) (l : List HostOp) : (s.withPort l).env = s.env := rfl
@[simp] theorem State.withPort_penv (s : State) (l : List HostOp) : (s.withPort l).penv = s.penv := rfl
@[simp] theorem State.withPort_fb0 (s : State) (l : List HostOp) : (s.withPort l).fb0 = s.fb0 := rfl
@[simp] theorem State.withPort_fb1 (s : State) (l : List HostOp) : (s.withPort l).fb1 = s.fb1 := rfl
@[simp] theorem State.withPort_note (s : State) (l : List HostOp) : (s.withPort l).note = s.note := rfl
@[simp] theorem State.withPort_nvel (s : State) (l : List HostOp) : (s.withPort l).nvel = s.nvel := rfl
@[simp] theorem State.withPort_ratio (s : State) (l : List HostOp) : (s.withPort l).ratio = s.ratio := rfl
@[simp] theorem State.withPort_headroom (s : State) (l : List HostOp) : (s.withPort l).headroom = s.headroom := rfl
@[simp] theorem State.withPort_levelOut (s : State) (l : List HostOp) : (s.withPort l).levelOut = s.levelOut := rfl
@[simp] theorem State.withPort_gatePrev (s : State) (l : List HostOp) : (s.withPort l).gatePrev = s.gatePrev := rfl
@[simp] theorem State.withPort_dirty (s : State) (l : List HostOp) : (s.withPort l).dirty = s.dirty := rfl
@[simp] theorem State.withPort_patchValid (s : State) (l : List HostOp) : (s.withPort l).patchValid = s.patchValid := rfl
@[simp] theorem State.withPort_patch (s : State) (l : List HostOp) : (s.withPort l).patch = s.patch := rfl
@[simp] theorem State.withPort_buf (s : State) (l : List HostOp) : (s.withPort l).buf = s.buf := rfl
@[simp] theorem State.withPort_lfo (s : State) (l : List HostOp) : (s.withPort l).lfo = s.lfo := rfl
@[simp] theorem State.withPort_rc (s : State) (l : List HostOp) : (s.withPort l).rc = s.rc := rfl
@[simp] theorem State.withPort_draws (s : State) (l : List HostOp) : (s.withPort l).draws = s.draws := rfl
@[simp] theorem State.withPort_port (s : State) (l : List HostOp) : (s.withPort l).port = l := rfl
@[simp] theorem State.withPort_result (s : State) (l : List HostOp) : (s.withPort l).result = s.result := rfl
@[simp] theorem State.withPort_formats (s : State) (l : List HostOp) : (s.withPort l).formats = s.formats := rfl

/-! ### The flags and the error result -/

@[simp] theorem State.flagsAfterLoad_eq (s : State) : s.flagsAfterLoad = s.withDirty true := rfl
@[simp] theorem State.flagsAfterSetup_eq (s : State) : s.flagsAfterSetup = s.withDirty false := rfl
@[simp] theorem State.raiseError_eq (s : State) (e : ErrorKind) : s.raiseError e = s.withResult (.error e) := rfl

/-! ### An update that writes what is there changes nothing -/

@[simp] theorem State.withRc_self (s : State) : s.withRc s.rc = s := rfl
@[simp] theorem State.withLfo_self (s : State) : s.withLfo s.lfo = s := rfl
@[simp] theorem State.withBuf_self (s : State) : s.withBuf s.buf = s := rfl
@[simp] theorem State.withOps_self (s : State) : s.withOps s.ops = s := rfl
@[simp] theorem State.withResult_self (s : State) : s.withResult s.result = s := rfl
@[simp] theorem State.withPort_self (s : State) : s.withPort s.port = s := rfl
@[simp] theorem State.withResult_withResult (s : State) (r r' : Result) :
    (s.withResult r).withResult r' = s.withResult r' := rfl

end Sys2Proof.Machine
end

