-- ==== Sys2Proof/Laws/Word.lean ====
section
/-!
SUPPORT. Reading a group of six or of four after it is built or written.
-/
namespace Sys2Proof

/-- An index below six is one of six. -/
theorem lt_six_cases {k : Nat} (h : k < 6) : k = 0 ∨ k = 1 ∨ k = 2 ∨ k = 3 ∨ k = 4 ∨ k = 5 := by omega

theorem Six.get_ofFn {α : Type} (f : Nat → α) (k : Nat) (h : k < 6) : (Six.ofFn f).get k = f k := by
  obtain rfl | rfl | rfl | rfl | rfl | rfl := lt_six_cases h <;> rfl

theorem Six.get_map {α β : Type} (f : α → β) (x : Six α) (k : Nat) : (x.map f).get k = f (x.get k) := by
  by_cases h : k < 6
  · obtain rfl | rfl | rfl | rfl | rfl | rfl := lt_six_cases h <;> rfl
  · obtain ⟨j, rfl⟩ : ∃ j, k = j + 6 := ⟨k - 6, by omega⟩
    rfl

theorem Six.get_set_same {α : Type} (x : Six α) (k : Nat) (v : α) (h : k < 6) : (x.set k v).get k = v := by
  obtain rfl | rfl | rfl | rfl | rfl | rfl := lt_six_cases h <;> rfl

theorem Six.get_set_other {α : Type} (x : Six α) (j k : Nat) (v : α) (hj : j < 6) (h : j ≠ k) :
    (x.set k v).get j = x.get j := by
  by_cases hk : k < 6
  · obtain rfl | rfl | rfl | rfl | rfl | rfl := lt_six_cases hk <;>
      obtain rfl | rfl | rfl | rfl | rfl | rfl := lt_six_cases hj <;> first | rfl | exact absurd rfl h
  · obtain ⟨i, rfl⟩ : ∃ i, k = i + 6 := ⟨k - 6, by omega⟩
    rfl

theorem Six.ext_get {α : Type} (x y : Six α) (h : ∀ k < 6, x.get k = y.get k) : x = y := by
  obtain ⟨x0, x1, x2, x3, x4, x5⟩ := x
  obtain ⟨y0, y1, y2, y3, y4, y5⟩ := y
  have h0 := h 0 (by omega)
  have h1 := h 1 (by omega)
  have h2 := h 2 (by omega)
  have h3 := h 3 (by omega)
  have h4 := h 4 (by omega)
  have h5 := h 5 (by omega)
  simp only [Six.get] at h0 h1 h2 h3 h4 h5
  simp [h0, h1, h2, h3, h4, h5]

theorem Six.all_iff {α : Type} (p : α → Bool) (x : Six α) : x.all p = true ↔ ∀ k < 6, p (x.get k) = true := by
  constructor
  · intro h k hk
    simp only [Six.all, Bool.and_eq_true] at h
    obtain rfl | rfl | rfl | rfl | rfl | rfl := lt_six_cases hk
    · exact h.1.1.1.1.1
    · exact h.1.1.1.1.2
    · exact h.1.1.1.2
    · exact h.1.1.2
    · exact h.1.2
    · exact h.2
  · intro h
    have h0 := h 0 (by omega)
    have h1 := h 1 (by omega)
    have h2 := h 2 (by omega)
    have h3 := h 3 (by omega)
    have h4 := h 4 (by omega)
    have h5 := h 5 (by omega)
    simp only [Six.get] at h0 h1 h2 h3 h4 h5
    simp [Six.all, h0, h1, h2, h3, h4, h5]

theorem Six.toList_drop {α : Type} (x : Six α) (k : Nat) (h : k < 6) :
    x.toList.drop k = x.get k :: x.toList.drop (k + 1) := by
  obtain rfl | rfl | rfl | rfl | rfl | rfl := lt_six_cases h <;> rfl

theorem Four.get_ofFn {α : Type} (f : Fin 4 → α) (i : Fin 4) : (Four.ofFn f).get i = f i := by
  match i with
  | 0 => rfl
  | 1 => rfl
  | 2 => rfl
  | 3 => rfl

theorem Four.get_map {α β : Type} (f : α → β) (x : Four α) (i : Fin 4) : (x.map f).get i = f (x.get i) := by
  match i with
  | 0 => rfl
  | 1 => rfl
  | 2 => rfl
  | 3 => rfl

theorem Four.all_iff {α : Type} (p : α → Bool) (x : Four α) : x.all p = true ↔ ∀ i, p (x.get i) = true := by
  constructor
  · intro h i
    simp only [Four.all, Bool.and_eq_true] at h
    match i with
    | 0 => exact h.1.1.1
    | 1 => exact h.1.1.2
    | 2 => exact h.1.2
    | 3 => exact h.2
  · intro h
    have h0 := h 0
    have h1 := h 1
    have h2 := h 2
    have h3 := h 3
    simp only [Four.get] at h0 h1 h2 h3
    simp [Four.all, h0, h1, h2, h3]

/-- A table of written entries reads back whole. -/
@[simp] theorem Four.sequence_map_some {α : Type} (x : Four α) : (x.map some).sequence = some x := rfl

theorem Four.sequence_eq_some {α : Type} (x : Four (Option α)) (y : Four α) :
    x.sequence = some y ↔ x = y.map some := by
  obtain ⟨a, b, c, d⟩ := x
  obtain ⟨e, f, g, h⟩ := y
  cases a <;> cases b <;> cases c <;> cases d <;> simp [Four.sequence, Four.map]

end Sys2Proof
end

