-- ==== Sys2Proof/Laws/Chain.lean ====
section
/-!
SUPPORT. The chain renderer in closed form: what its sample loop computes when it answers, where it answers, and what a
chain call leaves (42_chain_renderer.md R151 to R156). The meanings of the eight specializations are these with the
length, source and write mode filled in.
-/
namespace Sys2Proof.Machine

variable {fm : Formats}

/-! ### Phases and amplitudes over a block -/

theorem phaseAt_zero (p inc : U32) : phaseAt p inc 0 = p := by simp [phaseAt]

theorem phaseAt_succ (p inc : U32) (i : Nat) : phaseAt p inc (i + 1) = phaseAt p inc i + inc := by
  have h : BitVec.ofNat 32 (i + 1) = BitVec.ofNat 32 i + 1#32 := by simp [BitVec.ofNat_add]
  rw [phaseAt, phaseAt, h, BitVec.add_mul, BitVec.one_mul, BitVec.add_assoc]

/-- One operator's locals after `i` samples. -/
def laneAfter (fm : Formats) (l : Lane) (i : Nat) : Lane :=
  { l with ph := phaseAt l.ph l.inc i, am := ampAt fm l.am l.sl i }

theorem laneAfter_zero (l : Lane) : laneAfter fm l 0 = l := by simp [laneAfter, phaseAt_zero, ampAt]

/-- One operator's output in sample `i`. -/
def laneOut (fm : Formats) (l : Lane) (i : Nat) (pm : RealBits) : RealBits :=
  rMul fm (sinePm fm (phaseAt l.ph l.inc (i + 1)) pm) (ampAt fm l.am l.sl i)

/-- The output of operators in series in sample `i`, each modulating the next. -/
def lanesOut (fm : Formats) : List Lane → Nat → RealBits → RealBits
  | [], _, pm => pm
  | l :: rest, i, pm => lanesOut fm rest i (laneOut fm l i pm)

/-- The locals after one more sample, and the last output: neither depends on the history. -/
theorem runLanes_lanes (fm : Formats) (src : Source) (k : Nat) (ls : List Lane) (i : Nat) (pm h0 h1 : RealBits) :
    (runLanes fm src k (ls.map (laneAfter fm · i)) pm h0 h1).1 = ls.map (laneAfter fm · (i + 1)) ∧
      (runLanes fm src k (ls.map (laneAfter fm · i)) pm h0 h1).2.1 = lanesOut fm ls i pm := by
  induction ls generalizing k pm h0 h1 with
  | nil => exact ⟨rfl, rfl⟩
  | cons l rest ih =>
    have hph : (laneAfter fm l i).ph + (laneAfter fm l i).inc = phaseAt l.ph l.inc (i + 1) := (phaseAt_succ _ _ _).symm
    simp only [List.map_cons, runLanes, hph]
    obtain ⟨h1', h2'⟩ := ih (k + 1) (rMul fm (sinePm fm (phaseAt l.ph l.inc (i + 1)) pm) (laneAfter fm l i).am)
      (if src = .feedback k then (rMul fm (sinePm fm (phaseAt l.ph l.inc (i + 1)) pm) (laneAfter fm l i).am, h0) else
        (h0, h1)).1
      (if src = .feedback k then (rMul fm (sinePm fm (phaseAt l.ph l.inc (i + 1)) pm) (laneAfter fm l i).am, h0) else
        (h0, h1)).2
    refine ⟨?_, ?_⟩
    · rw [h1']; rfl
    · rw [h2']; rfl

/-- Operators before and after the tap do not touch the history. -/
theorem runLanes_history_kept (src : Source) (k : Nat) (ls : List Lane) (pm h0 h1 : RealBits)
    (h : ∀ j, k ≤ j → j < k + ls.length → src ≠ .feedback j) :
    (runLanes fm src k ls pm h0 h1).2.2 = (h0, h1) := by
  induction ls generalizing k pm h0 h1 with
  | nil => rfl
  | cons l rest ih =>
    simp only [runLanes]
    rw [if_neg (h k (Nat.le_refl k) (by simp))]
    exact ih (k + 1) _ _ _ fun j h1 h2 => h j (by omega) (by simp only [List.length_cons]; omega)

/-- A tap at the last operator shifts its output into the history. -/
theorem runLanes_tap (t k : Nat) (ls : List Lane) (pm h0 h1 : RealBits) (hne : ls ≠ []) (ht : t + 1 = k + ls.length) :
    (runLanes fm (.feedback t) k ls pm h0 h1).2.2 = ((runLanes fm (.feedback t) k ls pm h0 h1).2.1, h0) := by
  induction ls generalizing k pm h0 h1 with
  | nil => exact absurd rfl hne
  | cons l rest ih =>
    by_cases hr : rest = []
    · subst hr
      have : t = k := by simp only [List.length_cons, List.length_nil] at ht; omega
      subst this
      simp only [runLanes, if_true]
    · have hk : Source.feedback t ≠ .feedback k := by
        intro h
        injection h with h
        have := List.length_pos_iff.2 hr
        simp only [List.length_cons] at ht
        omega
      simp only [runLanes, if_neg hk]
      exact ih (k + 1) _ h0 h1 hr (by simp only [List.length_cons] at ht; omega)

/-- The same for the locals after `i` samples. -/
theorem runLanes_history_tap (fm : Formats) (t : Nat) (ls : List Lane) (i : Nat) (pm h0 h1 : RealBits) (hne : ls ≠ [])
    (ht : t + 1 = ls.length) :
    (runLanes fm (.feedback t) 0 (ls.map (laneAfter fm · i)) pm h0 h1).2.2 = (lanesOut fm ls i pm, h0) := by
  rw [runLanes_tap t 0 _ _ _ _ (by simpa using hne) (by simpa using ht), (runLanes_lanes fm _ _ _ _ _ _ _).2]

/-! ### The sample loop -/

/-- What a replacing or adding store leaves at its sample. -/
def storedAt (fm : Formats) (add : Bool) (old : SampleBits) (x : RealBits) : SampleBits :=
  if add then toSample fm (rAdd fm (ofSample fm old) x) else toSample fm x

/-- A store completes where it replaces, or where the sample it adds into is written. -/
theorem chainStore_completes (fm : Formats) (add : Bool) (m : Memory) (out : Slot) (i : Nat) (x : RealBits)
    (hi : i < Config.bmax) (old : SampleBits) (h : add = true → memRead m (sampleAddr out.toNat i) = some old) :
    chainStore fm Config.bmax add m out i x = .ok (memWrite m (sampleAddr out.toNat i) (storedAt fm add old x)) := by
  unfold chainStore storedAt
  cases add with
  | false =>
    simp only [if_neg Bool.false_ne_true]
    exact (bufWrite_ok _ _ _ _ _).2 ⟨slot_exists out i hi, rfl⟩
  | true =>
    simp only [if_true]
    exact (bufAdd_ok _ _ _ _ _).2 ⟨slot_exists out i hi, old, h rfl, rfl⟩

/-- The seed of sample `i` from the history and the sample read. -/
def seedOf (fm : Formats) (src : Source) (scale : RealBits) (u : SampleBits) (h : RealBits × RealBits) : RealBits :=
  match src with
  | .none => r0
  | .external => ofSample fm u
  | .feedback _ => rMul fm (rAdd fm h.1 h.2) scale

/-- The seed is there where the source is no buffer, or where the sample read is written. -/
theorem chainSeed_completes (fm : Formats) (src : Source) (scale : RealBits) (inp : Slot) (i : Nat) (c : ChainState)
    (u : SampleBits) (hi : i < Config.bmax) (h : src = .external → memRead c.buf (sampleAddr inp.toNat i) = some u) :
    chainSeed fm Config.bmax src scale inp i c = .ok (seedOf fm src scale u (c.h0, c.h1)) := by
  cases src with
  | none => rfl
  | external =>
    simp only [chainSeed, (bufRead_ok _ _ _ u).2 ⟨slot_exists inp i hi, h rfl⟩, ok_bind, seedOf]
  | feedback k => rfl

/-- The feedback history before sample `i` of operators `ls`: shifted once a sample when the source is feedback, else
as it was. -/
def historyAt (fm : Formats) (src : Source) (ls : List Lane) (scale : RealBits) (h : RealBits × RealBits) : Nat →
    RealBits × RealBits
  | 0 => h
  | i + 1 =>
    if src.isFeedback then
      (lanesOut fm ls i (seedOf fm src scale 0 (historyAt fm src ls scale h i)), (historyAt fm src ls scale h i).1)
    else h

/-- What operators `ls` output in sample `i`, `u` being the sample read. -/
def sampleOut (fm : Formats) (src : Source) (ls : List Lane) (scale : RealBits) (h : RealBits × RealBits)
    (u : SampleBits) (i : Nat) : RealBits :=
  lanesOut fm ls i (seedOf fm src scale u (historyAt fm src ls scale h i))

theorem historyAt_plain (src : Source) (ls : List Lane) (scale : RealBits) (h : RealBits × RealBits) (i : Nat)
    (hs : src.isFeedback = false) : historyAt fm src ls scale h i = h := by
  cases i with
  | zero => rfl
  | succ i => simp [historyAt, hs]

/-- The feedback history of a chain is the one `histAt` says. -/
theorem historyAt_feedback (k : Nat) (ls : List Lane) (scale : RealBits) (h : RealBits × RealBits) (i : Nat) :
    historyAt fm (.feedback k) ls scale h i = histAt fm (lanesOut fm ls) scale h.1 h.2 i := by
  induction i with
  | zero => rfl
  | succ i ih => simp only [historyAt, Source.isFeedback, if_true, histAt, ih, seedOf]

/-- A source the eight specializations use on a chain: no feedback, or a tap at the last operator (R150). -/
def tapLast (src : Source) (n : Nat) : Bool :=
  match src with
  | .feedback k => k + 1 = n
  | _ => true

/-- One sample in closed form. -/
theorem chainSample_ok (fm : Formats) (src : Source) (add : Bool) (scale : RealBits) (inp out : Slot) (i : Nat)
    (ls : List Lane) (h : RealBits × RealBits) (m : Memory) (u old : SampleBits) (hls : ls ≠ [])
    (htap : tapLast src ls.length = true)
    (hi : i < Config.bmax) (hu : src = .external → memRead m (sampleAddr inp.toNat i) = some u)
    (ho : add = true → memRead m (sampleAddr out.toNat i) = some old) :
    chainSample fm Config.bmax src add scale inp out i
        ⟨ls.map (laneAfter fm · i), (historyAt fm src ls scale h i).1, (historyAt fm src ls scale h i).2, m⟩ =
      .ok ⟨ls.map (laneAfter fm · (i + 1)), (historyAt fm src ls scale h (i + 1)).1,
        (historyAt fm src ls scale h (i + 1)).2,
        memWrite m (sampleAddr out.toNat i) (storedAt fm add old (sampleOut fm src ls scale h u i))⟩ := by
  have hseed := chainSeed_completes fm src scale inp i
    ⟨ls.map (laneAfter fm · i), (historyAt fm src ls scale h i).1, (historyAt fm src ls scale h i).2, m⟩ u hi hu
  obtain ⟨h1, h2⟩ := runLanes_lanes fm src 0 ls i (seedOf fm src scale u (historyAt fm src ls scale h i))
    (historyAt fm src ls scale h i).1 (historyAt fm src ls scale h i).2
  have h3 : (runLanes fm src 0 (ls.map (laneAfter fm · i)) (seedOf fm src scale u (historyAt fm src ls scale h i))
      (historyAt fm src ls scale h i).1 (historyAt fm src ls scale h i).2).2.2 =
        historyAt fm src ls scale h (i + 1) := by
    cases src with
    | none =>
      rw [runLanes_history_kept _ _ _ _ _ _ (by intros; simp), historyAt_plain _ _ _ _ (i + 1) rfl,
        historyAt_plain _ _ _ _ i rfl]
    | external =>
      rw [runLanes_history_kept _ _ _ _ _ _ (by intros; simp), historyAt_plain _ _ _ _ (i + 1) rfl,
        historyAt_plain _ _ _ _ i rfl]
    | feedback k =>
      rw [runLanes_history_tap fm k ls i _ _ _ hls (by simpa [tapLast] using htap)]
      rfl
  simp only [chainSample, hseed, ok_bind]
  rw [h1, h2, h3, chainStore_completes fm add m out i _ hi old ho]
  rfl

/-- The sample loop in closed form: it completes where every sample it reads is written, and leaves the locals and the
history of the samples done, `value` in the block's samples of the slot written, and every other address as it
was. -/
theorem chainSamples_ok (fm : Formats) (src : Source) (add : Bool) (scale : RealBits) (inp out : Slot) (ls : List Lane)
    (h : RealBits × RealBits) (hls : ls ≠ []) (htap : tapLast src ls.length = true) (read old : Nat → SampleBits)
    (n i : Nat) (m : Memory) (hn : i + n ≤ Config.bmax)
    (hu : src = .external → ∀ j, i ≤ j → j < i + n → memRead m (sampleAddr inp.toNat j) = some (read j))
    (ho : add = true → ∀ j, i ≤ j → j < i + n → memRead m (sampleAddr out.toNat j) = some (old j)) :
    ∃ m', chainSamples fm Config.bmax src add scale inp out n i
        ⟨ls.map (laneAfter fm · i), (historyAt fm src ls scale h i).1, (historyAt fm src ls scale h i).2, m⟩ =
      .ok ⟨ls.map (laneAfter fm · (i + n)), (historyAt fm src ls scale h (i + n)).1,
        (historyAt fm src ls scale h (i + n)).2, m'⟩ ∧
      (∀ j, i ≤ j → j < i + n →
        memRead m' (sampleAddr out.toNat j) = some (storedAt fm add (old j) (sampleOut fm src ls scale h (read j) j))) ∧
      (∀ a, (∀ j, i ≤ j → j < i + n → a ≠ sampleAddr out.toNat j) → memRead m' a = memRead m a) ∧
      (m.wf = true → Memory.wf m' = true) := by
  induction n generalizing i m with
  | zero => exact ⟨m, rfl, fun j h1 h2 => absurd h2 (by omega), fun _ _ => rfl, id⟩
  | succ n ih =>
    have hstep := chainSample_ok fm src add scale inp out i ls h m (read i) (old i) hls htap (by omega)
      (fun hs => hu hs i (Nat.le_refl i) (by omega)) (fun hs => ho hs i (Nat.le_refl i) (by omega))
    have hother : ∀ (slot : Slot) j, i + 1 ≤ j → j < i + 1 + n →
        memRead (memWrite m (sampleAddr out.toNat i)
          (storedAt fm add (old i) (sampleOut fm src ls scale h (read i) i))) (sampleAddr slot.toNat j) =
        memRead m (sampleAddr slot.toNat j) := by
      intro slot j h1 h2
      apply memRead_memWrite_other
      intro he
      have := (sampleAddr_inj _ _ _ _ (slot_lt _) (slot_lt _) he).2
      omega
    obtain ⟨m', h1, h2, h3, h4⟩ := ih (i + 1)
      (memWrite m (sampleAddr out.toNat i) (storedAt fm add (old i) (sampleOut fm src ls scale h (read i) i)))
        (by omega)
      (fun hs j g1 g2 => by rw [hother inp j g1 g2]; exact hu hs j (by omega) (by omega))
      (fun hs j g1 g2 => by rw [hother out j g1 g2]; exact ho hs j (by omega) (by omega))
    refine ⟨m', ?_, ?_, ?_, ?_⟩
    · simp only [chainSamples, hstep, ok_bind]
      rw [h1, show i + 1 + n = i + (n + 1) by omega]
    · intro j g1 g2
      by_cases hj : j = i
      · subst hj
        rw [h3, memRead_memWrite_same]
        intro j' g3 g4 he
        have := (sampleAddr_inj _ _ _ _ (slot_lt _) (slot_lt _) he).2
        omega
      · exact h2 j (by omega) (by omega)
    · intro a ha
      rw [h3 a (fun j g1 g2 => ha j (by omega) (by omega)),
        memRead_memWrite_other _ _ _ _ (ha i (Nat.le_refl i) (by omega))]
    · intro hw
      exact h4 (memWrite_wf _ _ _ hw (sampleAddr_lt _ _ (slot_exists out i (by omega))))

/-! ### Committing -/

/-- The operators after the commit (R156). -/
theorem commitLanes_get (ops : Six Oper) (k : Nat) (ls : List Lane) (j : Nat) (hj : j < 6) :
    (commitLanes ops k ls).get j =
      if h : k ≤ j ∧ j - k < ls.length then ⟨(ls[j - k]'h.2).ph, (ls[j - k]'h.2).am⟩ else ops.get j := by
  induction ls generalizing ops k with
  | nil => simp [commitLanes]
  | cons l rest ih =>
    simp only [commitLanes]
    rw [ih]
    by_cases hjk : j = k
    · subst hjk
      rw [dif_neg (by omega), dif_pos ⟨Nat.le_refl j, by simp⟩, Six.get_set_same _ _ _ hj]
      simp
    · by_cases hk : k + 1 ≤ j ∧ j - (k + 1) < rest.length
      · have hk' : k ≤ j ∧ j - k < (l :: rest).length := ⟨by omega, by simp only [List.length_cons]; omega⟩
        rw [dif_pos hk, dif_pos hk']
        have e : j - k = (j - (k + 1)) + 1 := by omega
        simp only [e, List.getElem_cons_succ]
      · rw [dif_neg hk, dif_neg (by simp only [List.length_cons]; omega), Six.get_set_other _ _ _ _ hj hjk]

/-! ### A whole call -/

/-- The locals a call starts with are its operators' registers and what the block gives them. -/
theorem chainLanes_length (ops : Six Oper) (c : RenderCtx) (first n : Nat) :
    (chainLanes fm ops c first n).length = n := by simp [chainLanes]

theorem chainLanes_ne_nil (ops : Six Oper) (c : RenderCtx) (first n : Nat) (h : 1 ≤ n) :
    chainLanes fm ops c first n ≠ [] := by
  intro he
  have : (chainLanes fm ops c first n).length = n := chainLanes_length _ _ _ _
  rw [he] at this
  simp only [List.length_nil] at this
  omega

/-- The operands of a call are in the renderer's types exactly when each operator's are. -/
theorem chainOperandsOk_iff (c : RenderCtx) (first n : Nat) :
    chainOperandsOk fm c first n = true ↔
      ∀ k, first ≤ k → k < first + n → callFreqOk fm (c.f.get k) = true ∧ callAmpOk fm (c.a.get k) = true := by
  simp only [chainOperandsOk, List.all_eq_true, List.mem_range, Bool.and_eq_true]
  constructor
  · intro h k h1 h2
    have := h (k - first) (by omega)
    rwa [show first + (k - first) = k by omega] at this
  · intro h k hk
    exact h (first + k) (by omega) (by omega)

/-- The operators after a call. -/
theorem chainCommit_ops (src : Source) (first n : Nat) (c : RenderCtx) (s : State) (h0 h1 : RealBits) (m : Memory)
    (k : Nat) (hk : k < 6) :
    (chainCommit src first n c
        ⟨(chainLanes s.formats s.ops c first n).map (laneAfter s.formats · c.block), h0, h1, m⟩ s).ops.get k =
      if first ≤ k ∧ k < first + n then opAfter s c k else s.ops.get k := by
  have h : (chainCommit src first n c
        ⟨(chainLanes s.formats s.ops c first n).map (laneAfter s.formats · c.block), h0, h1, m⟩ s).ops =
      commitLanes s.ops first ((chainLanes s.formats s.ops c first n).map (laneAfter s.formats · c.block)) := by
    unfold chainCommit; split <;> rfl
  rw [h, commitLanes_get _ _ _ _ hk]
  by_cases hc : first ≤ k ∧ k < first + n
  · rw [if_pos hc, dif_pos ⟨hc.1, by rw [List.length_map, chainLanes_length]; omega⟩]
    simp only [List.getElem_map, chainLanes, List.getElem_range, show first + (k - first) = k by omega]
    rfl
  · rw [if_neg hc, dif_neg (by rw [List.length_map, chainLanes_length]; omega)]

/-- What a call needs of the feedback scale. -/
theorem chainScale_ok (src : Source) (s : State) (x : RealBits) :
    chainScale src s = .ok x ↔
      (src.isFeedback = true ∧ ∃ p, s.patch = some p ∧ x = fbScale s.formats p.fb) ∨
        (src.isFeedback = false ∧ x = r0) := by
  unfold chainScale
  cases hf : src.isFeedback with
  | true =>
    simp only [if_true, bind_ok, written_ok]
    constructor
    · rintro ⟨p, hp, h⟩; cases h; exact .inl ⟨by trivial, p, hp, rfl⟩
    · rintro (⟨-, p, hp, rfl⟩ | ⟨h, -⟩)
      · exact ⟨p, hp, rfl⟩
      · cases h
  | false =>
    simp only [if_neg Bool.false_ne_true]
    constructor
    · intro h; cases h; exact .inr ⟨by trivial, rfl⟩
    · rintro (⟨h, -⟩ | ⟨-, rfl⟩)
      · cases h
      · rfl

/-- The feedback scale as R154 writes it. -/
theorem fbScale_eq (fb : Nat) :
    fbScale fm fb = if fb = 0 then r0 else rDiv fm (rOfInt fm (2 ^ fb)) (rLit fm 512 1) := by
  simp [fbScale, Nat.one_shiftLeft]

/-- A chain call in closed form (R151 to R156): it completes inside a RENDER with its operands in the renderer's types
and the samples it reads written, and leaves what `chainFrame` and the equations say. -/
theorem chainCall_completes (n : Nat) (src : Source) (add : Bool) (first : Nat) (inp out : Slot) (s : State)
    (c : RenderCtx) (scale : RealBits) (hn : 1 ≤ n) (hfit : first + n ≤ 6) (htap : tapLast src n = true)
    (hin : s.inRender c first n) (hscale : chainScale src s = .ok scale)
    (hu : src = .external → s.blockWritten inp c.block) (ho : add = true → s.blockWritten out c.block) :
    ∃ t, chainCall Config.bmax n src add first inp out s = .ok t ∧ chainFrame s t c first n out ∧
      (∀ k, first ≤ k → k < first + n → t.ops.get k = opAfter s c k) ∧
      (t.fb0, t.fb1) = historyAt s.formats src (chainLanes s.formats s.ops c first n) scale (s.fb0, s.fb1) c.block ∧
      (∀ i < c.block, ∀ u v, (src = .external → s.sample inp.toNat i = some u) →
        (add = true → s.sample out.toNat i = some v) →
        t.sample out.toNat i =
          some (storedAt s.formats add v (sampleOut s.formats src (chainLanes s.formats s.ops c first n) scale
            (s.fb0, s.fb1) u i))) ∧
      (Memory.wf s.buf = true → Memory.wf t.buf = true) := by
  obtain ⟨hrc, hb, hop⟩ := hin
  let ls := chainLanes s.formats s.ops c first n
  have hlen : ls.length = n := chainLanes_length _ _ _ _
  let rd : Nat → SampleBits := fun j => (s.sample inp.toNat j).getD 0
  let old : Nat → SampleBits := fun j => (s.sample out.toNat j).getD 0
  have hread : ∀ (slot : Slot), s.blockWritten slot c.block → ∀ j, j < c.block →
      memRead s.buf (sampleAddr slot.toNat j) = some ((s.sample slot.toNat j).getD 0) := by
    intro slot hw j hj
    obtain ⟨v, hv⟩ := hw j hj
    rw [hv, Option.getD_some, ← State.sample_eq s slot j (by omega), hv]
  obtain ⟨m', h1, h2, h3, h4⟩ := chainSamples_ok s.formats src add scale inp out ls (s.fb0, s.fb1)
    (chainLanes_ne_nil _ _ _ _ hn) (by rw [hlen]; exact htap) rd old c.block 0 s.buf (by omega)
    (fun hs j _ hj => hread inp (hu hs) j (by omega)) (fun hs j _ hj => hread out (ho hs) j (by omega))
  rw [Nat.zero_add] at h1
  have hstart : ls.map (laneAfter s.formats · 0) = ls := by
    simp only [laneAfter_zero]; exact List.map_id' ls
  rw [hstart] at h1
  have hhist : historyAt s.formats src ls scale (s.fb0, s.fb1) 0 = (s.fb0, s.fb1) := rfl
  rw [hhist] at h1
  let r : ChainState := ⟨ls.map (laneAfter s.formats · c.block),
    (historyAt s.formats src ls scale (s.fb0, s.fb1) c.block).1,
    (historyAt s.formats src ls scale (s.fb0, s.fb1) c.block).2, m'⟩
  have hcall : chainCall Config.bmax n src add first inp out s = .ok (chainCommit src first n c r s) := by
    simp only [chainCall, hrc, written_some, ok_bind, (chainOperandsOk_iff c first n).2 hop, require_true, hscale,
      hfit, decide_true]
    rw [h1]
    rfl
  have hbuf : (chainCommit src first n c r s).buf = m' := by unfold chainCommit; split <;> rfl
  have hops := fun k hk => chainCommit_ops src first n c s r.h0 r.h1 m' k hk
  have hfb : ((chainCommit src first n c r s).fb0, (chainCommit src first n c r s).fb1) =
      historyAt s.formats src ls scale (s.fb0, s.fb1) c.block := by
    unfold chainCommit
    split
    · rfl
    · rename_i hf
      rw [historyAt_plain _ _ _ _ _ (by simpa using hf)]
      rfl
  have hsample : ∀ slot i, (chainCommit src first n c r s).sample slot i =
      if sampleExists Config.bmax slot i then memRead m' (sampleAddr slot i) else none := by
    intro slot i; simp only [State.sample, hbuf]
  refine ⟨_, hcall, ⟨?_, ?_, ?_⟩, ?_, hfb, ?_, ?_⟩
  · unfold chainCommit; split <;> rfl
  · intro k hk hor
    refine (hops k hk).trans (if_neg (by omega))
  · intro slot i hor
    rw [hsample, State.sample]
    by_cases hex : sampleExists Config.bmax slot i = true
    · rw [if_pos hex, if_pos hex]
      refine h3 _ fun j _ hj he => ?_
      have hs : slot < Config.numSlots := ((sampleExists_iff _ _ _).1 hex).1
      obtain ⟨e1, e2⟩ := sampleAddr_inj _ _ _ _ hs (slot_lt _) he
      omega
    · rw [if_neg hex, if_neg hex]
  · intro k hk1 hk2
    exact (hops k (by omega)).trans (if_pos ⟨hk1, hk2⟩)
  · intro i hi u v hu' hv'
    rw [hsample, if_pos (slot_exists out i (by omega)), h2 i (Nat.zero_le i) (by omega)]
    have e1 : add = true → old i = v := fun h => by simp only [old, hv' h, Option.getD_some]
    have e2 : src = .external → rd i = u := fun h => by simp only [rd, hu' h, Option.getD_some]
    congr 1
    have e3 : sampleOut s.formats src ls scale (s.fb0, s.fb1) (rd i) i =
        sampleOut s.formats src ls scale (s.fb0, s.fb1) u i := by
      cases src with
      | none => rfl
      | external => rw [e2 rfl]
      | feedback k => rfl
    rw [e3]
    cases add with
    | false => rfl
    | true => rw [e1 rfl]
  · intro hw
    rw [hbuf]; exact h4 hw

/-! ### Where a call stops, and what it must have found -/

/-- A sample that exists is read or refused. -/
theorem bufRead_cases (m : Memory) (slot : Slot) (i : Nat) (hi : i < Config.bmax) :
    (∃ v, memRead m (sampleAddr slot.toNat i) = some v ∧ bufRead Config.bmax m slot.toNat i = .ok v) ∨
      (memRead m (sampleAddr slot.toNat i) = none ∧ bufRead Config.bmax m slot.toNat i = refuse .sampleUnwritten) := by
  simp only [bufRead, if_pos (slot_exists slot i hi)]
  cases h : memRead m (sampleAddr slot.toNat i) with
  | none => exact .inr ⟨rfl, rfl⟩
  | some v => exact .inl ⟨v, rfl, rfl⟩

/-- One sample answers, or is refused because a sample it reads is unwritten. -/
theorem chainSample_cases (fm : Formats) (src : Source) (add : Bool) (scale : RealBits) (inp out : Slot) (i : Nat)
    (c : ChainState) (hi : i < Config.bmax) :
    (∃ c', chainSample fm Config.bmax src add scale inp out i c = .ok c') ∨
      chainSample fm Config.bmax src add scale inp out i c = refuse .sampleUnwritten := by
  have hseed : (∃ x, chainSeed fm Config.bmax src scale inp i c = .ok x) ∨
      chainSeed fm Config.bmax src scale inp i c = refuse .sampleUnwritten := by
    cases src with
    | none => exact .inl ⟨_, rfl⟩
    | feedback k => exact .inl ⟨_, rfl⟩
    | external =>
      rcases bufRead_cases c.buf inp i hi with ⟨v, -, h⟩ | ⟨-, h⟩
      · exact .inl ⟨ofSample fm v, by simp only [chainSeed, h, ok_bind]⟩
      · exact .inr (by simp only [chainSeed, h, refuse_bind])
  rcases hseed with ⟨x, hx⟩ | hx
  · simp only [chainSample, hx, ok_bind, chainStore]
    cases add with
    | false =>
      simp only [if_neg Bool.false_ne_true, bufWrite, if_pos (slot_exists out i hi), ok_bind]
      exact .inl ⟨_, rfl⟩
    | true =>
      simp only [if_true, bufAdd]
      rcases bufRead_cases c.buf out i hi with ⟨v, -, h⟩ | ⟨-, h⟩
      · simp only [h, ok_bind, bufWrite, if_pos (slot_exists out i hi)]
        exact .inl ⟨_, rfl⟩
      · simp only [h, refuse_bind]
        exact .inr (by trivial)
  · simp only [chainSample, hx, refuse_bind]
    exact .inr (by trivial)

/-- The sample loop answers, or is refused because a sample it reads is unwritten. -/
theorem chainSamples_cases (fm : Formats) (src : Source) (add : Bool) (scale : RealBits) (inp out : Slot) (n i : Nat)
    (c : ChainState) (hn : i + n ≤ Config.bmax) :
    (∃ c', chainSamples fm Config.bmax src add scale inp out n i c = .ok c') ∨
      chainSamples fm Config.bmax src add scale inp out n i c = refuse .sampleUnwritten := by
  induction n generalizing i c with
  | zero => exact .inl ⟨c, rfl⟩
  | succ n ih =>
    rcases chainSample_cases fm src add scale inp out i c (by omega) with ⟨c', h⟩ | h
    · simp only [chainSamples, h, ok_bind]
      exact ih (i + 1) c' (by omega)
    · simp only [chainSamples, h, refuse_bind]
      exact .inr (by trivial)

/-- What one sample must have found when it answered, and where it wrote. -/
theorem chainSample_found (src : Source) (add : Bool) (scale : RealBits) (inp out : Slot) (i : Nat) (c c' : ChainState)
    (h : chainSample fm Config.bmax src add scale inp out i c = .ok c') :
    i < Config.bmax ∧ (src = .external → ∃ u, memRead c.buf (sampleAddr inp.toNat i) = some u) ∧
      (add = true → ∃ v, memRead c.buf (sampleAddr out.toNat i) = some v) ∧
      ∃ x, c'.buf = memWrite c.buf (sampleAddr out.toNat i) x := by
  simp only [chainSample, bind_ok] at h
  obtain ⟨seed, hseed, m, hm, h⟩ := h
  cases h
  have hu : src = .external → ∃ u, memRead c.buf (sampleAddr inp.toNat i) = some u := by
    rintro rfl
    simp only [chainSeed, bind_ok, bufRead_ok] at hseed
    obtain ⟨v, ⟨-, hv⟩, -⟩ := hseed
    exact ⟨v, hv⟩
  unfold chainStore at hm
  cases add with
  | false =>
    simp only [if_neg Bool.false_ne_true, bufWrite_ok] at hm
    obtain ⟨hex, rfl⟩ := hm
    exact ⟨((sampleExists_iff _ _ _).1 hex).2, hu, fun h => absurd h (by decide), _, rfl⟩
  | true =>
    simp only [if_true, bufAdd_ok] at hm
    obtain ⟨hex, v, hv, rfl⟩ := hm
    exact ⟨((sampleExists_iff _ _ _).1 hex).2, hu, fun _ => ⟨v, hv⟩, _, rfl⟩

/-- What the sample loop must have found when it answered. -/
theorem chainSamples_found (src : Source) (add : Bool) (scale : RealBits) (inp out : Slot) (n i : Nat)
    (c c' : ChainState) (h : chainSamples fm Config.bmax src add scale inp out n i c = .ok c') (hi : i ≤ Config.bmax) :
    i + n ≤ Config.bmax ∧ ∀ j, i ≤ j → j < i + n →
      (src = .external → ∃ u, memRead c.buf (sampleAddr inp.toNat j) = some u) ∧
      (add = true → ∃ v, memRead c.buf (sampleAddr out.toNat j) = some v) := by
  induction n generalizing i c with
  | zero => exact ⟨hi, fun j h1 h2 => absurd h2 (by omega)⟩
  | succ n ih =>
    simp only [chainSamples, bind_ok] at h
    obtain ⟨d, hd, h⟩ := h
    obtain ⟨hlt, hu, ho, x, hx⟩ := chainSample_found _ _ _ _ _ _ _ _ hd
    obtain ⟨hn, hrest⟩ := ih (i + 1) d h (by omega)
    refine ⟨by omega, fun j h1 h2 => ?_⟩
    by_cases hj : j = i
    · subst hj; exact ⟨hu, ho⟩
    · obtain ⟨g1, g2⟩ := hrest j (by omega) (by omega)
      have hother : ∀ (slot : Slot), memRead d.buf (sampleAddr slot.toNat j) =
          memRead c.buf (sampleAddr slot.toNat j) := by
        intro slot
        rw [hx]
        apply memRead_memWrite_other
        intro he
        have := (sampleAddr_inj _ _ _ _ (slot_lt _) (slot_lt _) he).2
        omega
      rw [hother] at g1 g2
      exact ⟨g1, g2⟩

/-- What a chain call must have found when it answered. -/
theorem chainCall_found (n : Nat) (src : Source) (add : Bool) (first : Nat) (inp out : Slot) (s t : State)
    (h : chainCall Config.bmax n src add first inp out s = .ok t) :
    ∃ c scale, s.inRender c first n ∧ first + n ≤ 6 ∧ chainScale src s = .ok scale ∧
      (src = .external → s.blockWritten inp c.block) ∧ (add = true → s.blockWritten out c.block) := by
  simp only [chainCall, bind_ok, written_ok, require_ok, decide_eq_true_eq] at h
  obtain ⟨c, hrc, -, hfit, -, hop, scale, hscale, r, hr, -⟩ := h
  obtain ⟨hb, hfound⟩ := chainSamples_found _ _ _ _ _ _ _ _ _ hr (Nat.zero_le _)
  rw [Nat.zero_add] at hb
  refine ⟨c, scale, ⟨hrc, hb, (chainOperandsOk_iff c first n).1 hop⟩, hfit, hscale, ?_, ?_⟩
  · intro hs i hi
    obtain ⟨u, hu⟩ := (hfound i (Nat.zero_le _) (by omega)).1 hs
    exact ⟨u, by rw [State.sample_eq s inp i (by omega)]; exact hu⟩
  · intro hs i hi
    obtain ⟨u, hu⟩ := (hfound i (Nat.zero_le _) (by omega)).2 hs
    exact ⟨u, by rw [State.sample_eq s out i (by omega)]; exact hu⟩

/-- Inside a RENDER, with its operands in the renderer's types, a chain call that does not find a sample it reads is
refused (R63). -/
theorem chainCall_unwritten (n : Nat) (src : Source) (add : Bool) (first : Nat) (inp out : Slot) (s : State)
    (c : RenderCtx) (scale : RealBits) (hfit : first + n ≤ 6) (hin : s.inRender c first n)
    (hscale : chainScale src s = .ok scale)
    (hun : (src = .external ∧ ¬ s.blockWritten inp c.block) ∨ (add = true ∧ ¬ s.blockWritten out c.block)) :
    chainCall Config.bmax n src add first inp out s = refuse .sampleUnwritten := by
  obtain ⟨hrc, hb, hop⟩ := hin
  rcases chainSamples_cases s.formats src add scale inp out c.block 0
    ⟨chainLanes s.formats s.ops c first n, s.fb0, s.fb1, s.buf⟩ (by omega) with ⟨r, hr⟩ | hr
  · exfalso
    have hok : chainCall Config.bmax n src add first inp out s = .ok (chainCommit src first n c r s) := by
      simp only [chainCall, hrc, written_some, ok_bind, (chainOperandsOk_iff c first n).2 hop, require_true, hscale,
        hfit, decide_true, hr]
    obtain ⟨c', -, ⟨hrc', -, -⟩, -, -, h1, h2⟩ := chainCall_found _ _ _ _ _ _ _ _ hok
    rw [hrc] at hrc'
    cases hrc'
    rcases hun with ⟨h, h'⟩ | ⟨h, h'⟩
    · exact h' (h1 h)
    · exact h' (h2 h)
  · simp only [chainCall, hrc, written_some, ok_bind, (chainOperandsOk_iff c first n).2 hop, require_true, hscale,
      hfit, decide_true, hr, refuse_bind]

end Sys2Proof.Machine
end

