-- ==== Sys2Proof/Laws/Real.lean ====
section
/-!
SUPPORT. Laws of the arithmetic of reals: comparisons and saturating tests; rounding is monotone, sees only the number and
leaves representable numbers alone; sums and products of numbers that are not negative.
-/
namespace Sys2Proof.Machine

/-! ### The formats R7 uses -/

/-- An encoding of R7's `REAL` has 64 bits and one of its `BUF_FMT` 32: a sign bit over the magnitude field. -/
theorem format_widths : fmtMagBits ieee.real + 1 = 64 ∧ fmtMagBits ieee.buf + 1 = 32 := ⟨rfl, rfl⟩

/-- The magnitude field of a real, with binary64's numbers put in. -/
theorem rMag_eq (x : RealBits) : rMag ieee x = if x < 2 ^ 63 then x else min (x - 2 ^ 63) (2 ^ 63 - 1) := rfl

/-- The sign bit of a real. -/
theorem rSign_eq (x : RealBits) : rSign ieee x = decide (2 ^ 63 ≤ x) := rfl

/-- The test for a NaN, with binary64's numbers put in. -/
theorem rIsNaN_eq (x : RealBits) : rIsNaN ieee x = decide (0x7FF0000000000000 < rMag ieee x) := rfl

/-- The test for a finite number, with binary64's numbers put in. -/
theorem rIsFinite_eq (x : RealBits) : rIsFinite ieee x = decide (rMag ieee x < 0x7FF0000000000000) := rfl

/-- The encoding of a sign and a magnitude field has them. -/
theorem rEncode_fields (neg : Bool) (g : Nat) (hg : g < 2 ^ 63) :
    rMag ieee (rEncode ieee neg g) = g ∧ rSign ieee (rEncode ieee neg g) = neg := by
  have e : rEncode ieee neg g = g + (if neg then 2 ^ 63 else 0) := rfl
  rw [e, rMag_eq, rSign_eq]
  cases neg with
  | false => exact ⟨if_pos hg, decide_eq_false (by simpa using hg)⟩
  | true => exact ⟨by rw [if_neg (by simp)]; simp; omega, decide_eq_true (by simp)⟩

/-- Decoding a real, with binary64's numbers put in. -/
theorem rExact_eq (x : RealBits) :
    rExact ieee x =
      if 0x7FF0000000000000 ≤ rMag ieee x then
        (if rMag ieee x = 0x7FF0000000000000 then .inf (rSign ieee x) else .nan)
      else if rMag ieee x / 2 ^ 52 = 0 then .fin (rSign ieee x) (rMag ieee x % 2 ^ 52) (-1074)
      else .fin (rSign ieee x) (2 ^ 52 + rMag ieee x % 2 ^ 52) (((rMag ieee x / 2 ^ 52 : Nat) : Int) - 1075) := rfl

/-- Rounding to a real, with binary64's numbers put in. -/
theorem rPack_eq (neg : Bool) (m : Nat) (e : Int) :
    rPack ieee neg m e =
      rEncode ieee neg (if 0x7FF0000000000000 ≤ roundMag 53 (-1074) m e then 0x7FF0000000000000
        else roundMag 53 (-1074) m e) := rfl

/-- The magnitude field of a sample, with binary32's numbers put in. -/
theorem sMag_eq (x : SampleBits) : fmtMag ieee.buf x = if x < 2 ^ 31 then x else min (x - 2 ^ 31) (2 ^ 31 - 1) := rfl

/-- Decoding a sample, with binary32's numbers put in. -/
theorem sExact_eq (x : SampleBits) :
    sExact ieee x =
      if 0x7F800000 ≤ fmtMag ieee.buf x then
        (if fmtMag ieee.buf x = 0x7F800000 then .inf (2 ^ 31 ≤ x) else .nan)
      else if fmtMag ieee.buf x / 2 ^ 23 = 0 then .fin (2 ^ 31 ≤ x) (fmtMag ieee.buf x % 2 ^ 23) (-149)
      else .fin (2 ^ 31 ≤ x) (2 ^ 23 + fmtMag ieee.buf x % 2 ^ 23)
        (((fmtMag ieee.buf x / 2 ^ 23 : Nat) : Int) - 150) := rfl

/-- Rounding to a sample, with binary32's numbers put in. -/
theorem sPack_eq (neg : Bool) (m : Nat) (e : Int) :
    sPack ieee neg m e =
      (if 0x7F800000 ≤ roundMag 24 (-149) m e then 0x7F800000 else roundMag 24 (-149) m e) +
        (if neg then 2 ^ 31 else 0) := rfl

/-! ### Comparisons -/

/-- A value that does not reach `a` is not above it. -/
theorem rLt_of_not_rLe (fm : Formats) (a x : RealBits) (h : rLe fm a x = false) : rLt fm a x = false := by
  simp only [rLe, rLt, Bool.and_eq_false_iff, Bool.not_eq_eq_eq_not, decide_eq_false_iff_not] at h ⊢
  rcases h with h | h
  · exact .inl h
  · exact .inr (by omega)

/-- Nothing is above itself. -/
theorem rLt_irrefl (fm : Formats) (x : RealBits) : rLt fm x x = false := by simp [rLt]

/-- A saturated value is not above the limit. -/
theorem rLt_saturated (fm : Formats) (a x : RealBits) : rLt fm a (if rLe fm a x = true then a else x) = false := by
  by_cases h : rLe fm a x = true
  · rw [if_pos h]; exact rLt_irrefl fm a
  · rw [if_neg h]; exact rLt_of_not_rLe fm a x (by simpa using h)

/-- A value that is not above one half is not above 1.0. -/
theorem rLt_one_of_half (x : RealBits) (h : rLt ieee (rHalf ieee) x = false) : rLt ieee (r1 ieee) x = false := by
  have e1 : rKey ieee (r1 ieee) = 4607182418800017408 := by decide
  have e2 : rKey ieee (rHalf ieee) = 4602678819172646912 := by decide
  have e3 : rIsNaN ieee (rHalf ieee) = false := by decide
  have e4 : rIsNaN ieee (r1 ieee) = false := by decide
  simp only [rLt, e1, e2, e3, e4, Bool.not_false, Bool.true_and, Bool.and_eq_false_iff, Bool.not_eq_eq_eq_not,
    decide_eq_false_iff_not] at h ⊢
  rcases h with h | h
  · exact .inl h
  · exact .inr (by omega)

/-! ### Rounding -/

/-- The shift-right-and-round of `roundMag`. -/
def roundShift (m sh : Nat) : Nat :=
  if 2 ^ (sh - 1) < m % 2 ^ sh || (m % 2 ^ sh == 2 ^ (sh - 1) && (m >>> sh) % 2 == 1) then m >>> sh + 1 else m >>> sh

theorem roundShift_le (m sh : Nat) : roundShift m sh ≤ m / 2 ^ sh + 1 := by
  unfold roundShift; rw [Nat.shiftRight_eq_div_pow]; split <;> omega

theorem roundShift_ge (m sh : Nat) : m / 2 ^ sh ≤ roundShift m sh := by
  unfold roundShift; rw [Nat.shiftRight_eq_div_pow]; split <;> omega

theorem roundShift_mono (m n sh : Nat) (h : m ≤ n) : roundShift m sh ≤ roundShift n sh := by
  have hq : m / 2 ^ sh ≤ n / 2 ^ sh := Nat.div_le_div_right h
  by_cases hlt : m / 2 ^ sh < n / 2 ^ sh
  · exact (roundShift_le m sh).trans ((Nat.succ_le_of_lt hlt).trans (roundShift_ge n sh))
  · have he : m / 2 ^ sh = n / 2 ^ sh := by omega
    have hr : m % 2 ^ sh ≤ n % 2 ^ sh := by
      have h1 := Nat.div_add_mod m (2 ^ sh)
      have h2 := Nat.div_add_mod n (2 ^ sh)
      rw [he] at h1
      omega
    unfold roundShift
    simp only [Nat.shiftRight_eq_div_pow, he, Bool.or_eq_true, decide_eq_true_eq, Bool.and_eq_true, beq_iff_eq]
    split
    · rename_i h'
      rw [if_pos]
      rcases h' with h' | ⟨h', h''⟩
      · exact .inl (by omega)
      · by_cases hh : n % 2 ^ sh = 2 ^ (sh - 1)
        · exact .inr ⟨hh, h''⟩
        · exact .inl (by omega)
    · split <;> omega

/-- `roundMag` with its shift named. -/
theorem roundMag_eq (p : Nat) (emin : Int) (m : Nat) (e : Int) (hm : m ≠ 0) :
    roundMag p emin m e =
      let top : Int := max (e + (Nat.log2 m : Int) - ((p : Int) - 1)) emin
      (top - emin).toNat * 2 ^ (p - 1) + if top ≤ e then m * 2 ^ (e - top).toNat else roundShift m (top - e).toNat := by
  simp only [roundMag, if_neg hm, Nat.shiftLeft_eq]
  rfl

theorem log2_mono {m n : Nat} (h : m ≤ n) (hm : m ≠ 0) : Nat.log2 m ≤ Nat.log2 n := by
  rw [Nat.le_log2 (by omega)]
  exact (Nat.log2_self_le hm).trans h

/-- Rounding is monotone. -/
theorem roundMag_mono (p : Nat) (emin : Int) (m n : Nat) (e : Int) (hp : 1 ≤ p) (h : m ≤ n) :
    roundMag p emin m e ≤ roundMag p emin n e := by
  by_cases hm : m = 0
  · subst hm; simp [roundMag]
  have hn : n ≠ 0 := by omega
  have hlog := log2_mono h hm
  rw [roundMag_eq p emin m e hm, roundMag_eq p emin n e hn]
  simp only
  generalize htm : max (e + (Nat.log2 m : Int) - ((p : Int) - 1)) emin = tm
  generalize htn : max (e + (Nat.log2 n : Int) - ((p : Int) - 1)) emin = tn
  have htle : tm ≤ tn := by omega
  by_cases heq : tm = tn
  · subst heq
    refine Nat.add_le_add_left ?_ _
    split
    · exact Nat.mul_le_mul_right _ h
    · exact roundShift_mono _ _ _ h
  · have hlt : tm < tn := by omega
    have hmin : tm ≥ emin := by omega
    have htn' : tn = e + (Nat.log2 n : Int) - ((p : Int) - 1) := by omega
    -- the upper one has p bits
    have hup : 2 ^ (p - 1) ≤ if tn ≤ e then n * 2 ^ (e - tn).toNat else roundShift n (tn - e).toNat := by
      have hself := Nat.log2_self_le hn
      split
      · rename_i hle
        have : p - 1 = Nat.log2 n + (e - tn).toNat := by omega
        rw [this, pow_add]
        exact Nat.mul_le_mul_right _ hself
      · refine le_trans ?_ (roundShift_ge _ _)
        rw [Nat.le_div_iff_mul_le (by positivity), ← pow_add]
        have : p - 1 + (tn - e).toNat = Nat.log2 n := by omega
        rwa [this]
    -- the lower one at most 2^p
    have hlow : (if tm ≤ e then m * 2 ^ (e - tm).toNat else roundShift m (tm - e).toNat) ≤ 2 ^ (p - 1) * 2 := by
      have hself : m < 2 ^ (Nat.log2 m + 1) := Nat.lt_log2_self
      split
      · rename_i hle
        have h1 : Nat.log2 m + 1 + (e - tm).toNat ≤ p - 1 + 1 := by omega
        calc m * 2 ^ (e - tm).toNat ≤ 2 ^ (Nat.log2 m + 1) * 2 ^ (e - tm).toNat := Nat.mul_le_mul_right _ hself.le
          _ = 2 ^ (Nat.log2 m + 1 + (e - tm).toNat) := (pow_add _ _ _).symm
          _ ≤ 2 ^ (p - 1 + 1) := Nat.pow_le_pow_right (by omega) h1
          _ = 2 ^ (p - 1) * 2 := pow_succ _ _
      · refine (roundShift_le _ _).trans ?_
        have h1 : Nat.log2 m + 1 ≤ p - 1 + 1 + (tm - e).toNat := by omega
        have h2 : m / 2 ^ (tm - e).toNat < 2 ^ (p - 1 + 1) := by
          rw [Nat.div_lt_iff_lt_mul (by positivity), ← pow_add]
          exact hself.trans_le (Nat.pow_le_pow_right (by omega) h1)
        rw [← pow_succ]
        omega
    have hk : (tm - emin).toNat + 1 ≤ (tn - emin).toNat := by omega
    have := Nat.mul_le_mul_right (2 ^ (p - 1)) hk
    rw [Nat.add_mul] at this
    omega

/-- `roundMag` sees the number, not how it is written. -/
theorem roundMag_shift (p : Nat) (emin : Int) (m k : Nat) (e : Int) :
    roundMag p emin (m * 2 ^ k) (e - k) = roundMag p emin m e := by
  by_cases hm : m = 0
  · subst hm; simp [roundMag]
  have hmk : m * 2 ^ k ≠ 0 := by positivity
  have hlog : Nat.log2 (m * 2 ^ k) = Nat.log2 m + k := by
    rw [Nat.log2_eq_iff hmk]
    have h1 := Nat.log2_self_le hm
    have h2 : m < 2 ^ (Nat.log2 m + 1) := Nat.lt_log2_self
    constructor
    · rw [pow_add]; exact Nat.mul_le_mul_right _ h1
    · rw [show Nat.log2 m + k + 1 = Nat.log2 m + 1 + k by omega, pow_add]
      exact Nat.mul_lt_mul_of_pos_right h2 (by positivity)
  rw [roundMag_eq p emin _ _ hmk, roundMag_eq p emin m e hm]
  simp only [hlog]
  have htop : (e - (k : Int)) + ((Nat.log2 m + k : Nat) : Int) - ((p : Int) - 1) = e + (Nat.log2 m : Int) -
    ((p : Int) - 1) := by
    push_cast; ring
  rw [htop]
  generalize max (e + (Nat.log2 m : Int) - ((p : Int) - 1)) emin = t
  congr 1
  by_cases h1 : t ≤ e - k
  · rw [if_pos h1, if_pos (by omega)]
    rw [Nat.mul_assoc, ← pow_add]
    congr 2; omega
  · rw [if_neg h1]
    by_cases h2 : t ≤ e
    · rw [if_pos h2]
      -- an exact shift
      obtain ⟨j, hj⟩ : ∃ j : Nat, k = (t - (e - k)).toNat + j := ⟨(e - t).toNat, by omega⟩
      have hj' : (e - t).toNat = j := by omega
      generalize hs : (t - (e - ↑k)).toNat = sh at *
      have hdiv : m * 2 ^ k = (m * 2 ^ j) * 2 ^ sh := by rw [hj]; ring
      have hsh : 1 ≤ sh := by omega
      rw [hj']
      unfold roundShift
      rw [hdiv, Nat.shiftRight_eq_div_pow, Nat.mul_div_cancel _ (by positivity), Nat.mul_mod_left]
      rw [if_neg]
      have := Nat.two_pow_pos (sh - 1)
      simp
      omega
    · rw [if_neg h2]
      have hsh : (t - (e - k)).toNat = (t - e).toNat + k := by omega
      have hpos : 1 ≤ (t - e).toNat := by omega
      rw [hsh]
      generalize (t - e).toNat = sh at *
      have e1 : m * 2 ^ k / 2 ^ (sh + k) = m / 2 ^ sh := by
        rw [pow_add, Nat.mul_div_mul_right _ _ (by positivity)]
      have e2 : m * 2 ^ k % 2 ^ (sh + k) = m % 2 ^ sh * 2 ^ k := by
        rw [pow_add, Nat.mul_mod_mul_right]
      have e3 : 2 ^ (sh + k - 1) = 2 ^ (sh - 1) * 2 ^ k := by
        rw [← pow_add]; congr 1; omega
      have hk := Nat.two_pow_pos k
      unfold roundShift
      simp only [Nat.shiftRight_eq_div_pow, e1, e2, e3, Nat.mul_lt_mul_right hk, Bool.or_eq_true, decide_eq_true_eq,
        Bool.and_eq_true, beq_iff_eq, Nat.mul_left_inj (Nat.pos_iff_ne_zero.1 hk)]

/-- The number a finite encoding stands for rounds to its own magnitude. -/
theorem rExact_fin (x : RealBits) (h : rIsFinite ieee x = true) :
    ∃ m e, rExact ieee x = .fin (rSign ieee x) m e ∧ roundMag 53 (-1074) m e = rMag ieee x ∧
      (m = 0 ↔ rMag ieee x = 0) := by
  have h' : rMag ieee x < 0x7FF0000000000000 := by simpa [rIsFinite_eq] using h
  rw [rExact_eq]
  have hd := Nat.div_add_mod (rMag ieee x) (2 ^ 52)
  have hlt := Nat.mod_lt (rMag ieee x) (show 0 < 2 ^ 52 by norm_num)
  generalize rMag ieee x / 2 ^ 52 = be at *
  generalize rMag ieee x % 2 ^ 52 = fr at *
  rw [if_neg (by omega)]
  by_cases hbe : be = 0
  · rw [if_pos hbe]
    refine ⟨_, _, rfl, ?_, by omega⟩
    subst hbe
    by_cases hf : fr = 0
    · subst hf; simp [roundMag]; omega
    · rw [roundMag_eq _ _ _ _ hf]
      have hl : Nat.log2 fr < 52 := (Nat.log2_lt hf).2 hlt
      have ht : max (-1074 + (Nat.log2 fr : Int) - ((53 : Nat) - 1 : Int)) (-1074) = -1074 := by push_cast; omega
      simp only [ht]
      simp
      omega
  · rw [if_neg hbe]
    refine ⟨_, _, rfl, ?_, by omega⟩
    have hne : 2 ^ 52 + fr ≠ 0 := by positivity
    have hl : Nat.log2 (2 ^ 52 + fr) = 52 := by
      rw [Nat.log2_eq_iff hne]; constructor <;> omega
    rw [roundMag_eq _ _ _ _ hne, hl]
    have ht : max (((be : Int) - 1075) + ((52 : Nat) : Int) - ((53 : Nat) - 1 : Int)) (-1074) = (be : Int) - 1075 := by
      push_cast; omega
    simp only [ht]
    simp
    have : ((be : Int) - 1075 + 1074).toNat = be - 1 := by omega
    rw [this]
    omega

/-- A packed number's magnitude: rounded, and infinity from the overflow on. -/
theorem rPack_mag (neg : Bool) (m : Nat) (e : Int) :
    rMag ieee (rPack ieee neg m e) = min (roundMag 53 (-1074) m e) 0x7FF0000000000000 ∧
      rSign ieee (rPack ieee neg m e) = neg := by
  have : (if 0x7FF0000000000000 ≤ roundMag 53 (-1074) m e then 0x7FF0000000000000 else roundMag 53 (-1074) m e) =
      min (roundMag 53 (-1074) m e) 0x7FF0000000000000 := by
    split <;> omega
  rw [rPack_eq]
  simp only [this]
  exact rEncode_fields _ _ (by omega)

/-- A packed number is no NaN. -/
theorem rPack_not_nan (neg : Bool) (m : Nat) (e : Int) : rIsNaN ieee (rPack ieee neg m e) = false := by
  simp only [rIsNaN_eq, (rPack_mag neg m e).1, decide_eq_false_iff_not]
  omega

/-- What `0.0 <= x` says. -/
theorem rLe_zero_iff (x : RealBits) :
    rLe ieee r0 x = true ↔ rIsNaN ieee x = false ∧ (rSign ieee x = false ∨ rMag ieee x = 0) := by
  have e1 : rKey ieee r0 = 0 := by decide
  have e2 : rIsNaN ieee r0 = false := by decide
  have e3 : decide (rKey ieee r0 ≤ rKey ieee x) = true ↔ rSign ieee x = false ∨ rMag ieee x = 0 := by
    rw [e1, decide_eq_true_eq, rKey]
    generalize rMag ieee x = m
    cases rSign ieee x <;> simp [signed]
  rw [← e3]
  unfold rLe
  rw [e2]
  cases rIsNaN ieee x <;> simp

/-- A product of finite numbers that are not negative is no NaN and not negative (it may be infinite). -/
theorem rMul_nonneg (x y : RealBits) (hx : rIsFinite ieee x = true) (hy : rIsFinite ieee y = true)
    (hx0 : rLe ieee r0 x = true) (hy0 : rLe ieee r0 y = true) : rLe ieee r0 (rMul ieee x y) = true := by
  obtain ⟨m, e, hm, -, hm0⟩ := rExact_fin x hx
  obtain ⟨n, f, hn, -, hn0⟩ := rExact_fin y hy
  rw [rLe_zero_iff] at hx0 hy0 ⊢
  simp only [rMul, hm, hn]
  refine ⟨rPack_not_nan _ _ _, ?_⟩
  rw [(rPack_mag _ _ _).2, (rPack_mag _ _ _).1]
  rcases hx0.2 with h | h
  · rcases hy0.2 with h' | h'
    · exact .inl (by rw [h, h']; rfl)
    · rw [hn0.2 h']; right; simp [roundMag]
  · rw [hm0.2 h]; right; simp [roundMag]

/-- Adding a number that is not negative (it may be infinite) never goes below a finite number that is not
negative. -/
theorem rLe_rAdd (x y : RealBits) (hx : rIsFinite ieee x = true) (hx0 : rLe ieee r0 x = true)
    (hy0 : rLe ieee r0 y = true) : rLe ieee x (rAdd ieee x y) = true := by
  obtain ⟨m, e, hm, hmag, hm0⟩ := rExact_fin x hx
  have hxn : rIsNaN ieee x = false := ((rLe_zero_iff x).1 hx0).1
  rw [rLe_zero_iff] at hx0 hy0
  -- a bound on the key is enough
  have goal : ∀ z, rIsNaN ieee z = false → rSign ieee z = false → rMag ieee x ≤ rMag ieee z → rLe ieee x z = true := by
    intro z h1 h2 h3
    simp only [rLe, hxn, h1, Bool.not_false, Bool.true_and, decide_eq_true_eq, rKey, signed, h2]
    cases rSign ieee x <;> simp ; omega
  have goal0 : ∀ z, rIsNaN ieee z = false → rMag ieee x = 0 → rMag ieee z = 0 → rLe ieee x z = true := by
    intro z h1 h2 h3
    simp only [rLe, hxn, h1, Bool.not_false, Bool.true_and, decide_eq_true_eq, rKey, signed, h2, h3]
    cases rSign ieee x <;> cases rSign ieee z <;> simp
  have hxm : rMag ieee x < 0x7FF0000000000000 := by simpa [rIsFinite_eq] using hx
  by_cases hy : rIsFinite ieee y = true
  · obtain ⟨n, f, hn, hnmag, hn0⟩ := rExact_fin y hy
    simp only [rAdd, hm, hn]
    -- both are not negative as integers
    have hs1 : ∀ j, signed (rSign ieee x) (m <<< j) = ((m <<< j : Nat) : Int) := by
      intro j
      rcases hx0.2 with h | h
      · rw [h]; rfl
      · rw [hm0.2 h]; simp [signed]
    have hs2 : ∀ j, signed (rSign ieee y) (n <<< j) = ((n <<< j : Nat) : Int) := by
      intro j
      rcases hy0.2 with h | h
      · rw [h]; rfl
      · rw [hn0.2 h]; simp [signed]
    rw [hs1, hs2]
    generalize hA : m <<< (e - min e f).toNat = A
    generalize n <<< (f - min e f).toNat = B
    split
    · rename_i hsum
      have hm' : m <<< (e - min e f).toNat = 0 := by rw [hA]; omega
      have : m = 0 := by
        rw [Nat.shiftLeft_eq] at hm'
        rcases Nat.mul_eq_zero.1 hm' with h | h
        · exact h
        · exact absurd h (by positivity)
      refine goal0 _ ?_ (hm0.1 this) ?_
      · cases (rSign ieee x && rSign ieee y) <;> decide
      · cases (rSign ieee x && rSign ieee y) <;> decide
    · have hneg : decide ((A : Int) + (B : Int) < 0) = false := by simp; omega
      rw [hneg]
      refine goal _ (rPack_not_nan _ _ _) (rPack_mag _ _ _).2 ?_
      rw [(rPack_mag _ _ _).1, ← hmag]
      rw [hmag]
      refine le_min ?_ (by omega)
      rw [← hmag, ← roundMag_shift 53 (-1074) m (e - min e f).toNat e,
        show e - ((e - min e f).toNat : Int) = min e f by omega, ← Nat.shiftLeft_eq, hA]
      exact roundMag_mono _ _ _ _ _ (by omega) (by omega)
  · -- infinite
    have hyn := hy0.1
    have hinf : rExact ieee y = .inf false := by
      have h1 : ¬ rMag ieee y < 0x7FF0000000000000 := by simpa [rIsFinite_eq] using hy
      have h2 : ¬ 0x7FF0000000000000 < rMag ieee y := by simpa [rIsNaN_eq] using hyn
      have hme : rMag ieee y = 0x7FF0000000000000 := by omega
      have hsg : rSign ieee y = false := by
        rcases hy0.2 with h | h
        · exact h
        · omega
      simp [rExact_eq, hme, hsg]
    simp only [rAdd, hm, hinf]
    exact goal _ (by decide) (by decide) (by rw [show rMag ieee
      (rInf ieee false) = 0x7FF0000000000000 from by decide]; omega)

/-- A magnitude field fits below the sign bit. -/
theorem rMag_lt (x : RealBits) : rMag ieee x < 2 ^ 63 := by
  rw [rMag_eq]; split <;> omega

/-- Negation keeps the magnitude. -/
theorem rMag_rNeg (x : RealBits) : rMag ieee (rNeg ieee x) = rMag ieee x := (rEncode_fields _ _ (rMag_lt x)).1

/-- Negation flips the sign. -/
theorem rSign_rNeg (x : RealBits) : rSign ieee (rNeg ieee x) = !rSign ieee x := (rEncode_fields _ _ (rMag_lt x)).2

/-- The difference of two finite numbers that are not negative is finite. -/
theorem rSub_finite (x y : RealBits) (hx : rIsFinite ieee x = true) (hy : rIsFinite ieee y = true)
    (sx : rSign ieee x = false) (sy : rSign ieee y = false) : rIsFinite ieee (rSub ieee x y) = true := by
  have hy' : rIsFinite ieee (rNeg ieee y) = true := by simpa only [rIsFinite_eq, rMag_rNeg] using hy
  obtain ⟨m, e, hm, hmag, -⟩ := rExact_fin x hx
  obtain ⟨n, f, hn, hnmag, -⟩ := rExact_fin (rNeg ieee y) hy'
  have hxl : rMag ieee x < 0x7FF0000000000000 := by simpa [rIsFinite_eq] using hx
  have hyl : rMag ieee (rNeg ieee y) < 0x7FF0000000000000 := by simpa [rIsFinite_eq] using hy'
  rw [sx] at hm
  rw [rSign_rNeg, sy, Bool.not_false] at hn
  simp only [rSub, rAdd, hm, hn, signed, if_true, if_neg Bool.false_ne_true]
  have h1 : roundMag 53 (-1074) (m <<< (e - min e f).toNat) (min e f) = rMag ieee x := by
    rw [← hmag, ← roundMag_shift 53 (-1074) m (e - min e f).toNat e,
      show e - ((e - min e f).toNat : Int) = min e f by omega, ← Nat.shiftLeft_eq]
  have h2 : roundMag 53 (-1074) (n <<< (f - min e f).toNat) (min e f) = rMag ieee (rNeg ieee y) := by
    rw [← hnmag, ← roundMag_shift 53 (-1074) n (f - min e f).toNat f,
      show f - ((f - min e f).toNat : Int) = min e f by omega, ← Nat.shiftLeft_eq]
  generalize m <<< (e - min e f).toNat = A at *
  generalize n <<< (f - min e f).toNat = B at *
  split
  · simp only [Bool.false_and]; decide
  · simp only [rIsFinite_eq, (rPack_mag _ _ _).1, decide_eq_true_eq]
    have h3 : roundMag 53 (-1074) ((A : Int) + -(B : Int)).natAbs (min e f) ≤ max (rMag ieee x)
      (rMag ieee (rNeg ieee y)) := by
      rw [← h1, ← h2]
      rcases Nat.le_total A B with h | h
      · exact (roundMag_mono 53 (-1074) _ B _ (by omega) (by omega)).trans (le_max_right _ _)
      · exact (roundMag_mono 53 (-1074) _ A _ (by omega) (by omega)).trans (le_max_left _ _)
    omega

end Sys2Proof.Machine
end

