-- ==== Sys2Proof/Laws/Sign.lean ====
section
/-!
SUPPORT. Numbers not below 0.0: `rLt x r0 = false` (a NaN included), kept by sums and products; and numbers with a clear
sign bit (or a NaN), kept by quotients too. What they give the increments and phases of 44_envelope.md and 45_lfo.md.
-/
namespace Sys2Proof.Machine

/-- What an encoding stands for, by its magnitude. -/
theorem rExact_cases (x : RealBits) :
    (rExact ieee x = .nan ∧ rIsNaN ieee x = true) ∨ (rExact ieee x = .inf (rSign ieee x) ∧
      rMag ieee x = 0x7FF0000000000000) ∨
      ∃ m e, rExact ieee x = .fin (rSign ieee x) m e ∧ rIsFinite ieee x = true ∧ roundMag 53 (-1074) m e = rMag ieee x ∧
        (m = 0 ↔ rMag ieee x = 0) := by
  by_cases h : rIsFinite ieee x = true
  · obtain ⟨m, e, h1, h2, h3⟩ := rExact_fin x h
    exact .inr (.inr ⟨m, e, h1, h, h2, h3⟩)
  · have h0 : ¬ rMag ieee x < 0x7FF0000000000000 := by simpa [rIsFinite_eq] using h
    have h1 : 0x7FF0000000000000 ≤ rMag ieee x := by omega
    by_cases hm : rMag ieee x = 0x7FF0000000000000
    · exact .inr (.inl ⟨by rw [rExact_eq, if_pos h1, if_pos hm], hm⟩)
    · refine .inl ⟨by rw [rExact_eq, if_pos h1, if_neg hm], ?_⟩
      simp only [rIsNaN_eq, decide_eq_true_eq]
      omega

/-- What "not below 0.0" says. -/
theorem rLt_zero_iff (x : RealBits) : rLt ieee x r0 = false ↔ rIsNaN ieee x = true ∨ rSign ieee x = false ∨
  rMag ieee x = 0 := by
  have e1 : rKey ieee r0 = 0 := by decide
  have e2 : rIsNaN ieee r0 = false := by decide
  have e3 : decide (rKey ieee x < 0) = false ↔ rSign ieee x = false ∨ rMag ieee x = 0 := by
    rw [decide_eq_false_iff_not, rKey]
    generalize rMag ieee x = m
    cases rSign ieee x <;> simp [signed]
  rw [← e3]
  unfold rLt
  rw [e1, e2]
  cases rIsNaN ieee x <;> simp

/-- A signed magnitude of a number not below 0.0 is its magnitude. -/
theorem signed_of_nonneg (s : Bool) (m : Nat) (h : s = false ∨ m = 0) : signed s m = (m : Int) := by
  rcases h with h | h <;> cases s <;> simp_all [signed]

/-- A number whose sign bit is clear is not below 0.0. -/
theorem rLt_zero_of_sign (x : RealBits) (h : rSign ieee x = false) : rLt ieee x r0 = false := (rLt_zero_iff x).2
  (.inr (.inl h))

/-- A NaN is not below 0.0. -/
theorem rLt_zero_of_nan (x : RealBits) (h : rIsNaN ieee x = true) : rLt ieee x r0 = false := (rLt_zero_iff x).2 (.inl h)

/-- A packed number with a clear sign bit or the magnitude 0 is not below 0.0. -/
theorem rPack_notNeg (s : Bool) (m : Nat) (e : Int) (h : s = false ∨ m = 0) :
    rLt ieee (rPack ieee s m e) r0 = false := by
  rw [rLt_zero_iff, (rPack_mag s m e).1, (rPack_mag s m e).2]
  rcases h with h | h
  · exact .inr (.inl h)
  · subst h
    simp [roundMag]

theorem rZero_notNeg (s : Bool) : rLt ieee (rZero ieee s) r0 = false := by cases s <;> decide

theorem rNaN_notNeg : rLt ieee (rNaN ieee) r0 = false := by decide

theorem rInf_notNeg : rLt ieee (rInf ieee false) r0 = false := by decide

/-- What a number not below 0.0 stands for. -/
theorem notNeg_cases (x : RealBits) (h : rLt ieee x r0 = false) :
    rExact ieee x = .nan ∨ rExact ieee x = .inf false ∨ ∃ s m e, rExact ieee x = .fin s m e ∧ (s = false ∨ m = 0) := by
  rw [rLt_zero_iff] at h
  rcases rExact_cases x with ⟨h1, -⟩ | ⟨h1, h2⟩ | ⟨m, e, h1, h2, -, h3⟩
  · exact .inl h1
  · have hn : rIsNaN ieee x = false := by simp [rIsNaN_eq, h2]
    rw [hn, h2] at h
    have hs : rSign ieee x = false := by simpa using h
    exact .inr (.inl (by rw [h1, hs]))
  · refine .inr (.inr ⟨_, m, e, h1, ?_⟩)
    have hf : rMag ieee x < 0x7FF0000000000000 := by simpa [rIsFinite_eq] using h2
    rcases h with h | h | h
    · have hn : 0x7FF0000000000000 < rMag ieee x := by simpa [rIsNaN_eq] using h
      omega
    · exact .inl h
    · exact .inr (h3.2 h)

/-- The sum of two numbers not below 0.0 is not below it. -/
theorem rAdd_notNeg (x y : RealBits) (hx : rLt ieee x r0 = false) (hy : rLt ieee y r0 = false) :
    rLt ieee (rAdd ieee x y) r0 = false := by
  unfold rAdd
  rcases notNeg_cases x hx with h | h | ⟨s, m, e, h, hs⟩ <;>
    rcases notNeg_cases y hy with g | g | ⟨t, n, f, g, ht⟩ <;> rw [h, g] <;>
    simp only [if_true] <;>
    first
    | with_reducible exact rNaN_notNeg
    | with_reducible exact rInf_notNeg
    | skip
  rw [signed_of_nonneg _ _ (hs.imp id fun h => by simp [h]), signed_of_nonneg _ _ (ht.imp id fun h => by simp [h])]
  generalize m <<< (e - min e f).toNat = A
  generalize n <<< (f - min e f).toNat = B
  split
  · exact rZero_notNeg _
  · exact rPack_notNeg _ _ _ (.inl (decide_eq_false (by omega)))

/-- The product of two numbers not below 0.0 is not below it. -/
theorem rMul_notNeg (x y : RealBits) (hx : rLt ieee x r0 = false) (hy : rLt ieee y r0 = false) :
    rLt ieee (rMul ieee x y) r0 = false := by
  unfold rMul
  rcases notNeg_cases x hx with h | h | ⟨s, m, e, h, hs⟩ <;>
    rcases notNeg_cases y hy with g | g | ⟨t, n, f, g, ht⟩ <;> rw [h, g] <;>
    simp only [Bool.xor_self, Bool.xor_false, Bool.false_xor] <;>
    first
    | with_reducible exact rNaN_notNeg
    | with_reducible exact rInf_notNeg
    | skip
  · split
    · exact rNaN_notNeg
    · rw [ht.resolve_right ‹_›]; exact rInf_notNeg
  · split
    · exact rNaN_notNeg
    · rw [hs.resolve_right ‹_›]; exact rInf_notNeg
  · refine rPack_notNeg _ _ _ ?_
    rcases hs with hs | hs
    · rcases ht with ht | ht
      · exact .inl (by rw [hs, ht]; rfl)
      · exact .inr (by rw [ht, Nat.mul_zero])
    · exact .inr (by rw [hs, Nat.zero_mul])

/-! ### Differences -/

/-- A finite number's magnitude is its number rounded at any exponent it fits. -/
theorem rMag_at (x : RealBits) (s : Bool) (m : Nat) (e g : Int) (h : rExact ieee x = .fin s m e) (hg : g ≤ e) :
    roundMag 53 (-1074) (m <<< (e - g).toNat) g = rMag ieee x := by
  rcases rExact_cases x with ⟨h1, -⟩ | ⟨h1, -⟩ | ⟨m', e', h1, -, h2, -⟩
  · rw [h] at h1; cases h1
  · rw [h] at h1; cases h1
  · rw [h] at h1
    cases h1
    rw [← h2, Nat.shiftLeft_eq, ← roundMag_shift 53 (-1074) m (e - g).toNat e,
      show e - ((e - g).toNat : Int) = g by omega]

/-- Finite numbers of one magnitude are written alike. -/
theorem rExact_inj (x y : RealBits) (s t : Bool) (m n : Nat) (e f : Int) (hx : rExact ieee x = .fin s m e)
    (hy : rExact ieee y = .fin t n f) (h : rMag ieee x = rMag ieee y) : m = n ∧ e = f := by
  rw [rExact_eq] at hx hy
  rw [h] at hx
  generalize rMag ieee y = g at *
  split at hx
  · split at hx <;> cases hx
  · rename_i h1
    rw [if_neg h1] at hy
    split at hx
    · rename_i h2
      rw [if_pos h2] at hy
      cases hx; cases hy; exact ⟨rfl, rfl⟩
    · rename_i h2
      rw [if_neg h2] at hy
      cases hx; cases hy; exact ⟨rfl, rfl⟩

/-- The difference of two numbers of which the second is not above the first is not below 0.0; where it is below the
first, its sign bit is clear. -/
theorem rSub_sign (x y : RealBits) (h : rLe ieee y x = true) :
    rLt ieee (rSub ieee x y) r0 = false ∧ (rLt ieee y x = true → rSign ieee (rSub ieee x y) = false) := by
  have hlt : rLt ieee y x = true → rKey ieee y < rKey ieee x := fun h => by simp [rLt] at h; exact h.2
  have good : ∀ z, rSign ieee z = false → rLt ieee z r0 = false ∧
    (rLt ieee y x = true → rSign ieee z = false) := fun z hz =>
    ⟨rLt_zero_of_sign z hz, fun _ => hz⟩
  simp only [rLe, Bool.and_eq_true, Bool.not_eq_eq_eq_not, Bool.not_true, decide_eq_true_eq] at h
  obtain ⟨⟨ny, nx⟩, hk⟩ := h
  unfold rSub rAdd
  have hs : rSign ieee (rNeg ieee y) = !rSign ieee y := rSign_rNeg y
  have hm : rMag ieee (rNeg ieee y) = rMag ieee y := rMag_rNeg y
  have hn : rIsNaN ieee (rNeg ieee y) = false := by unfold rIsNaN at *; rw [hm]; exact ny
  simp only [rKey, signed] at hk hlt
  rcases rExact_cases x with ⟨-, h⟩ | ⟨h, hi⟩ | ⟨m, e, h, hf, -, hz⟩
  · rw [nx] at h; cases h
  · rcases rExact_cases (rNeg ieee y) with ⟨-, g⟩ | ⟨g, gi⟩ | ⟨n, f, g, gf, -, gz⟩
    · rw [hn] at g; cases g
    · rw [h, g, hs]
      rw [hm] at gi
      rw [hi, gi] at hk
      refine good _ ?_
      revert hk
      cases rSign ieee x <;> cases rSign ieee y <;> simp <;> decide
    · rw [h, g]
      have : rSign ieee x = false := by
        rw [hi] at hk
        have gl : rMag ieee y < 0x7FF0000000000000 := by rw [← hm]; simpa [rIsFinite_eq] using gf
        revert hk
        cases rSign ieee x <;> cases rSign ieee y <;> simp <;> omega
      rw [this]; exact good (rInf ieee false) (by decide)
  · rcases rExact_cases (rNeg ieee y) with ⟨-, g⟩ | ⟨g, gi⟩ | ⟨n, f, g, gf, -, gz⟩
    · rw [hn] at g; cases g
    · rw [h, g, hs]
      have : rSign ieee y = true := by
        rw [hm] at gi
        rw [gi] at hk
        have xl : rMag ieee x < 0x7FF0000000000000 := by simpa [rIsFinite_eq] using hf
        revert hk
        cases rSign ieee x <;> cases rSign ieee y <;> simp <;> omega
      rw [this]; exact good (rInf ieee false) (by decide)
    · rw [h, g]
      simp only
      have ax := rMag_at x _ m e (min e f) h (by omega)
      have ay := rMag_at (rNeg ieee y) _ n f (min e f) g (by omega)
      rw [hm] at ay
      have inj : rMag ieee x = rMag ieee y → m <<< (e - min e f).toNat = n <<< (f - min e f).toNat := by
        intro he
        obtain ⟨rfl, rfl⟩ := rExact_inj x (rNeg ieee y) _ _ _ _ _ _ h g (by rw [hm, he])
        rfl
      have zA : rMag ieee x = 0 → m <<< (e - min e f).toNat = 0 := fun h => by rw [hz.2 h, Nat.zero_shiftLeft]
      have zB : rMag ieee y = 0 → n <<< (f - min e f).toNat = 0 := fun h => by
        rw [gz.2 (by rw [hm, h]), Nat.zero_shiftLeft]
      rw [hs]
      generalize m <<< (e - min e f).toNat = A at *
      generalize n <<< (f - min e f).toNat = B at *
      have lAB : A ≤ B → rMag ieee x ≤ rMag ieee y := fun h => ax ▸ ay ▸ roundMag_mono 53 (-1074) A B _ (by omega) h
      have lBA : B ≤ A → rMag ieee y ≤ rMag ieee x := fun h => ax ▸ ay ▸ roundMag_mono 53 (-1074) B A _ (by omega) h
      split
      · rename_i he
        refine ⟨rZero_notNeg _, fun h => absurd (hlt h) ?_⟩
        have eAB : A = B → rMag ieee x = rMag ieee y := fun h => by subst h; omega
        have eA : A = 0 → rMag ieee x = 0 := fun h => by rw [← ax, h]; rfl
        have eB : B = 0 → rMag ieee y = 0 := fun h => by rw [← ay, h]; rfl
        revert he hk
        cases rSign ieee x <;> cases rSign ieee y <;> simp [signed] <;> omega
      · rename_i hne
        refine good _ ((rPack_mag _ _ _).2.trans (decide_eq_false ?_))
        revert hne hk
        cases rSign ieee x <;> cases rSign ieee y <;> simp [signed] <;> omega

/-! ### Clear sign bits -/

/-- The sign of what an encoding stands for is its sign bit. -/
theorem rExact_sign (x : RealBits) :
    rExact ieee x = .nan ∨ rExact ieee x = .inf (rSign ieee x) ∨ ∃ m e, rExact ieee x = .fin (rSign ieee x) m e := by
  rcases rExact_cases x with ⟨h, -⟩ | ⟨h, -⟩ | ⟨m, e, h, -⟩
  · exact .inl h
  · exact .inr (.inl h)
  · exact .inr (.inr ⟨m, e, h⟩)

/-- A product of numbers with clear sign bits has a clear sign bit (so has the NaN of the operations). -/
theorem rMul_sign (x y : RealBits) (hx : rSign ieee x = false) (hy : rSign ieee y = false) :
    rSign ieee (rMul ieee x y) = false := by
  unfold rMul
  rcases rExact_sign x with h | h | ⟨m, e, h⟩ <;> rcases rExact_sign y with g | g | ⟨n, f, g⟩ <;> rw [h, g] <;>
    simp only [hx, hy] <;> first | decide | (split <;> decide) | exact (rPack_mag _ _ _).2

/-- So has a quotient. -/
theorem rDiv_sign (x y : RealBits) (hx : rSign ieee x = false) (hy : rSign ieee y = false) :
    rSign ieee (rDiv ieee x y) = false := by
  unfold rDiv
  rcases rExact_sign x with h | h | ⟨m, e, h⟩ <;> rcases rExact_sign y with g | g | ⟨n, f, g⟩ <;> rw [h, g] <;>
    simp only [hx, hy] <;> first | decide | skip
  split
  · split <;> decide
  · exact (rPack_mag _ _ _).2

/-- So has a sum. -/
theorem rAdd_sign (x y : RealBits) (hx : rSign ieee x = false) (hy : rSign ieee y = false) :
    rSign ieee (rAdd ieee x y) = false := by
  unfold rAdd
  rcases rExact_sign x with h | h | ⟨m, e, h⟩ <;> rcases rExact_sign y with g | g | ⟨n, f, g⟩ <;> rw [h, g] <;>
    simp only [hx, hy] <;> first | decide | skip
  simp only [signed, if_neg Bool.false_ne_true]
  split
  · decide
  · refine (rPack_mag _ _ _).2.trans (decide_eq_false ?_)
    generalize m <<< (e - min e f).toNat = A
    generalize n <<< (f - min e f).toNat = B
    omega

/-- An integer not below 0 has a clear sign bit. -/
theorem rOfInt_sign (n : Int) (h : 0 ≤ n) : rSign ieee (rOfInt ieee n) = false :=
  (rPack_mag _ _ _).2.trans (decide_eq_false (by omega))

/-- A literal has a clear sign bit. -/
theorem rLit_sign (m n : Nat) : rSign ieee (rLit ieee m n) = false :=
  rDiv_sign _ _ (rOfInt_sign _ (by omega)) (rOfInt_sign _ (by omega))

/-- An absolute value has a clear sign bit. -/
theorem rAbs_sign (x : RealBits) : rSign ieee (rAbs ieee x) = false := (rEncode_fields _ _ (rMag_lt x)).2

/-! ### Floors -/

/-- The floor of a finite number not below 0.0, as a real, is not above the number. -/
theorem rOfInt_rFloor_le (x : RealBits) (hx : rLt ieee x r0 = false) (hf : rIsFinite ieee x = true) :
    rLe ieee (rOfInt ieee (rFloor ieee x)) x = true := by
  have hn : rIsNaN ieee x = false := by
    have : rMag ieee x < 0x7FF0000000000000 := by simpa [rIsFinite_eq] using hf
    simp [rIsNaN_eq]; omega
  obtain ⟨m, e, h, hmag, hz⟩ := rExact_fin x hf
  have hs : rSign ieee x = false ∨ m = 0 := by
    rcases (rLt_zero_iff x).1 hx with h' | h' | h'
    · rw [hn] at h'; cases h'
    · exact .inl h'
    · exact .inr (hz.2 h')
  -- the floor is a natural number that rounds to at most x's magnitude
  obtain ⟨k, hk, hle, hk0⟩ : ∃ k : Nat, rFloor ieee x = (k : Int) ∧ roundMag 53 (-1074) k 0 ≤ rMag ieee x ∧
    (m = 0 → k = 0) := by
    unfold rFloor
    rw [h]
    simp only [signed_of_nonneg _ _ hs]
    split
    · rename_i he
      refine ⟨m <<< e.toNat, signed_of_nonneg _ _ (hs.imp id fun h => by simp [h]), ?_, fun h =>
        by rw [h, Nat.zero_shiftLeft]⟩
      rw [← hmag, Nat.shiftLeft_eq, ← roundMag_shift 53 (-1074) m e.toNat e, show e - (e.toNat : Int) = 0 by omega]
    · rename_i he
      refine ⟨m / 2 ^ (-e).toNat, by push_cast; rfl, ?_, fun h => by rw [h, Nat.zero_div]⟩
      rw [← hmag, ← roundMag_shift 53 (-1074) _ (-e).toNat 0, show (0 : Int) - ((-e).toNat : Int) = e by omega]
      exact roundMag_mono _ _ _ _ _ (by omega) (Nat.div_mul_le_self _ _)
  have hneg : decide ((k : Int) < 0) = false := decide_eq_false (by omega)
  rw [hk]
  have h1 := rPack_mag (decide ((k : Int) < 0)) ((k : Int)).natAbs 0
  have h2 := rPack_not_nan (decide ((k : Int) < 0)) ((k : Int)).natAbs 0
  rw [hneg, Int.natAbs_natCast] at h1 h2
  simp only [rLe, rOfInt, hn, hneg, Int.natAbs_natCast, h2, Bool.not_false, Bool.true_and, decide_eq_true_eq, rKey,
    h1.1, h1.2, signed, if_neg Bool.false_ne_true]
  rcases hs with hs | hs
  · rw [hs]; simp; omega
  · rw [hk0 hs, hz.1 hs]
    simp [roundMag]

/-- The fractional part LSCRUB takes of a number not below 0.0 is not below 0.0 (R222). -/
theorem rSub_rFloor_notNeg (x : RealBits) (hx : rLt ieee x r0 = false) :
    rLt ieee (rSub ieee x (rOfInt ieee (rFloor ieee x))) r0 = false := by
  by_cases hf : rIsFinite ieee x = true
  · exact (rSub_sign _ _ (rOfInt_rFloor_le x hx hf)).1
  · unfold rSub rAdd
    generalize rNeg ieee (rOfInt ieee (rFloor ieee x)) = y
    rcases notNeg_cases x hx with h | h | ⟨s, m, e, h, -⟩
    · rw [h]
      cases rExact ieee y <;> exact rNaN_notNeg
    · rw [h]
      cases rExact ieee y with
      | nan => exact rNaN_notNeg
      | inf s => cases s <;> decide
      | fin => exact rInf_notNeg
    · exact absurd (by
        rcases rExact_cases x with ⟨g, -⟩ | ⟨g, -⟩ | ⟨_, _, -, g, -⟩
        · rw [h] at g; cases g
        · rw [h] at g; cases g
        · exact g) hf

/-- A finite number's integer has at most 53 bits. -/
theorem rExact_lt (x : RealBits) (s : Bool) (m : Nat) (e : Int) (h : rExact ieee x = .fin s m e) : m < 2 ^ 53 := by
  rw [rExact_eq] at h
  have := Nat.mod_lt (rMag ieee x) (show 0 < 2 ^ 52 by norm_num)
  split at h
  · split at h <;> cases h
  · split at h <;> (cases h; omega)

/-- Where a time's product with the onset increment rounds above 0.5, the time at which the product is 0.5 is not above
it (R222's second branch). -/
theorem onset_notNeg (t inc : RealBits) (ht : rIsFinite ieee t = true) (ht0 : rLt ieee t r0 = false)
    (hi0 : rLt ieee inc r0 = false) (h : rLt ieee (rHalf ieee) (rMul ieee t inc) = true) :
    rLt ieee (rSub ieee t (rDiv ieee (rHalf ieee) inc)) r0 = false := by
  have eh : rExact ieee (rHalf ieee) = .fin false (2 ^ 52) (-53) := by decide
  have hnan : rIsNaN ieee t = false := by
    have : rMag ieee t < 0x7FF0000000000000 := by simpa [rIsFinite_eq] using ht
    simp [rIsNaN_eq]; omega
  obtain ⟨p, g, hp, hpm, hpz⟩ := rExact_fin t ht
  refine (rSub_sign _ _ ?_).1
  rcases notNeg_cases inc hi0 with hi | hi | ⟨s, n, f, hi, hs⟩
  · exfalso
    have : rMul ieee t inc = (rNaN ieee) := by unfold rMul; rw [hp, hi]
    rw [this] at h
    exact absurd h (by decide)
  · have : rDiv ieee (rHalf ieee) inc = r0 := by unfold rDiv; rw [eh, hi]; rfl
    rw [this, rLe_zero_iff]
    refine ⟨hnan, ?_⟩
    rcases (rLt_zero_iff t).1 ht0 with h' | h'
    · rw [hnan] at h'; cases h'
    · exact h'
  · have hmul : rMul ieee t inc = rPack ieee (rSign ieee t ^^ s) (p * n) (g + f) := by unfold rMul; rw [hp, hi]
    have hst : rSign ieee t = false ∨ p = 0 := by
      rcases (rLt_zero_iff t).1 ht0 with h' | h' | h'
      · rw [hnan] at h'; cases h'
      · exact .inl h'
      · exact .inr (hpz.2 h')
    -- the product is above one half, so neither factor is 0
    have hkey : rKey ieee (rHalf ieee) < rKey ieee (rMul ieee t inc) := by simp [rLt] at h; exact h.2
    rw [hmul, rKey, rKey, (rPack_mag _ _ _).1, (rPack_mag _ _ _).2, show rSign ieee (rHalf ieee) = false by decide,
      show rMag ieee (rHalf ieee) = roundMag 53 (-1074) 1 (-1) by decide] at hkey
    have hgt : roundMag 53 (-1074) 1 (-1) < roundMag 53 (-1074) (p * n) (g + f) := by
      revert hkey
      cases (rSign ieee t ^^ s) <;> simp [signed] <;> omega
    have hpn : p * n ≠ 0 := by
      intro h0
      rw [h0] at hgt
      exact absurd hgt (by simp [roundMag])
    have hp0 : p ≠ 0 := fun h => hpn (by rw [h, Nat.zero_mul])
    have hn0 : n ≠ 0 := fun h => hpn (by rw [h, Nat.mul_zero])
    have st := hst.resolve_right hp0
    have ss := hs.resolve_right hn0
    subst ss
    -- in exact numbers
    have hscale : ∀ a b : Nat, (a : Int) - b = g + f + 1 → 2 ^ b < p * n * 2 ^ a := by
      intro a b hab
      have hmono := fun x y e (h : x ≤ y) => roundMag_mono 53 (-1074) x y e (by omega) h
      by_contra hle
      have hle : p * n * 2 ^ a ≤ 1 * 2 ^ b := by omega
      have := hmono _ _ (g + f - a) hle
      rw [roundMag_shift, show g + f - (a : Int) = -1 - b by omega, roundMag_shift] at this
      omega
    have hnl : n < 2 ^ (Nat.log2 n + 1) := Nat.lt_log2_self
    have hpl := rExact_lt t _ _ _ hp
    have hdiv : rDiv ieee (rHalf ieee) inc =
        rPack ieee false (2 * (2 ^ 52 <<< (56 + Nat.log2 n) / n) +
          (if 2 ^ 52 <<< (56 + Nat.log2 n) % n = 0 then 0 else 1))
          (-53 - f - ((56 + Nat.log2 n : Nat) : Int) - 1) := by
      unfold rDiv
      rw [eh, hi]
      simp only [if_neg hn0]
      rfl
    rw [hdiv]
    simp only [rLe, rPack_not_nan, hnan, Bool.not_false, Bool.true_and, decide_eq_true_eq, rKey, (rPack_mag _ _ _).1,
      (rPack_mag _ _ _).2, st, signed, if_neg Bool.false_ne_true, Nat.cast_le]
    refine (min_le_left _ _).trans ?_
    rw [← hpm]
    generalize Nat.log2 n = l at *
    -- the exponent of the quotient is below the time's
    have hj : -53 - f - ((56 + l : Nat) : Int) - 1 ≤ g := by
      by_contra hlt
      have h1 := hscale 0 (-(g + f + 1)).toNat (by omega)
      have h2 : 2 ^ (110 + l) ≤ 2 ^ (-(g + f + 1)).toNat := Nat.pow_le_pow_right (by omega) (by omega)
      have h3 : p * n < 2 ^ 53 * 2 ^ (l + 1) := Nat.mul_lt_mul'' hpl hnl
      rw [← pow_add] at h3
      have h4 : 2 ^ (53 + (l + 1)) ≤ 2 ^ (110 + l) := Nat.pow_le_pow_right (by omega) (by omega)
      omega
    obtain ⟨j, hj'⟩ : ∃ j : Nat, (j : Int) = g - (-53 - f - ((56 + l : Nat) : Int) - 1) :=
      ⟨(g - (-53 - f - ((56 + l : Nat) : Int) - 1)).toNat, by omega⟩
    have h1 := hscale j (53 + (56 + l)) (by push_cast at hj' ⊢; omega)
    rw [show -53 - f - ((56 + l : Nat) : Int) - 1 = g - j by omega, ← roundMag_shift 53 (-1074) p j g]
    refine roundMag_mono _ _ _ _ _ (by omega) ?_
    -- q = num / n, and 2 num < N n
    rw [Nat.shiftLeft_eq, ← pow_add]
    have h2 : 2 * 2 ^ (52 + (56 + l)) < p * 2 ^ j * n := by
      have : 2 ^ (53 + (56 + l)) = 2 * 2 ^ (52 + (56 + l)) := by
        rw [show 53 + (56 + l) = 52 + (56 + l) + 1 by omega, pow_succ]; ring
      rw [← this]
      calc _ < _ := h1
        _ = _ := by ring
    generalize 2 ^ (52 + (56 + l)) = num at *
    generalize p * 2 ^ j = N at *
    have h3 : 2 * (num / n) * n ≤ 2 * num := by
      have := Nat.div_mul_le_self num n
      rw [Nat.mul_assoc]
      omega
    have h4 : 2 * (num / n) < N := by
      by_contra hge
      have : N * n ≤ 2 * (num / n) * n := Nat.mul_le_mul_right _ (by omega)
      omega
    split <;> omega

end Sys2Proof.Machine
end

