-- ==== Sys2Proof/Laws/Exp2.lean ====
section
/-!
SUPPORT. What may be said of the open parameters whatever their values: EXP2 of a number whose rounded power is finite is
finite, a table entry is finite.
-/
namespace Sys2Proof.Machine

/-- An encoding that stands for a finite number is finite. -/
theorem rIsFinite_of_rExact (x : RealBits) (s : Bool) (m : Nat) (e : Int) (h : rExact ieee x = .fin s m e) :
    rIsFinite ieee x = true := by
  rw [rExact_eq] at h
  split at h
  · split at h <;> cases h
  · rename_i hbe
    simp only [rIsFinite_eq, decide_eq_true_eq]
    omega

/-- What exp2Within says of the value: it is finite. -/
theorem exp2Within_finite (x y : RealBits) (h : exp2Within ieee x y = true) : rIsFinite ieee y = true := by
  unfold exp2Within at h
  split at h
  · rename_i heq
    exact rIsFinite_of_rExact _ _ _ _ heq
  · cases h

/-- Where the rounded power is finite it is the nearest number. -/
theorem exp2Nearest_of_finite (x : RealBits) (hc : rIsFinite ieee (exp2Rounded ieee x) = true)
  : exp2Nearest ieee x = exp2Rounded ieee x :=
  if_pos hc

/-- What EXP2 can be: an admitted value or the rounded one. -/
theorem exp2_cases (cfg : Config.Params) (x : RealBits) :
    exp2Allowed ieee x (exp2 ieee cfg x) = true ∨ exp2 ieee cfg x = exp2Rounded ieee x := by
  unfold exp2
  split
  · exact .inl ‹_›
  · exact .inr rfl

/-- EXP2 of a number is the rounded power of two, or R122's bound does not exclude it. -/
theorem exp2_number (cfg : Config.Params) (x : RealBits) (hx : rIsNaN ieee x = false) :
    exp2 ieee cfg x = exp2Rounded ieee x ∨
      (rIsNaN ieee (exp2 ieee cfg x) = false ∧ rSign ieee (exp2 ieee cfg x) = false ∧
        (exp2Within ieee x (exp2Nearest ieee x) = true → exp2Within ieee x (exp2 ieee cfg x) = true) ∧
        (exp2Within ieee x (exp2Nearest ieee x) = false → rIsFinite ieee (exp2Rounded ieee x) = true →
          rMag ieee (exp2 ieee cfg x) ≤ 50)) := by
  rcases exp2_cases cfg x with h | h
  · simp only [exp2Allowed, hx, Bool.or_eq_true, decide_eq_true_eq, Bool.and_eq_true, Bool.not_eq_eq_eq_not,
      Bool.not_true, if_neg Bool.false_ne_true] at h
    rcases h with h | ⟨⟨h1, h2⟩, h3⟩
    · exact .inl h
    · refine .inr ⟨h1, h2, fun hw => ?_, fun hw hc => ?_⟩
      · rwa [if_pos hw] at h3
      · rw [if_neg (by simp [hw]), if_pos hc] at h3
        simpa using h3
  · exact .inl h

/-- EXP2 is finite where the rounded power of two is (R122). -/
theorem exp2_finite (cfg : Config.Params) (x : RealBits) (hx : rIsNaN ieee x = false)
    (hc : rIsFinite ieee (exp2Rounded ieee x) = true) : rIsFinite ieee (exp2 ieee cfg x) = true := by
  rcases exp2_number cfg x hx with h | ⟨-, -, h1, h2⟩
  · rw [h]; exact hc
  · by_cases hn : exp2Within ieee x (exp2Nearest ieee x) = true
    · exact exp2Within_finite _ _ (h1 hn)
    · have := h2 (by simpa using hn) hc
      simp only [rIsFinite_eq, decide_eq_true_eq]
      omega

/-- EXP2 is within 1 % of 2^x wherever some binary64 number is (R122), or it is the rounded power (R7). -/
theorem exp2_within (cfg : Config.Params) (x : RealBits) (hx : rIsNaN ieee x = false)
    (hn : exp2Within ieee x (exp2Nearest ieee x) = true) : exp2Within ieee x (exp2 ieee cfg x) = true ∨
      exp2 ieee cfg x = exp2Rounded ieee x :=
  (exp2_number cfg x hx).symm.imp (fun h => h.2.2.1 hn) id

/-- The rounded power of two is a NaN or has a clear sign bit. -/
theorem exp2Rounded_sign (x : RealBits) : rIsNaN ieee (exp2Rounded ieee x) = true ∨
  rSign ieee (exp2Rounded ieee x) = false := by
  unfold exp2Rounded
  split
  · exact .inl (by decide)
  · right; split <;> decide
  · right
    simp only
    split
    · exact (rPack_mag _ _ _).2
    · split <;> decide

/-- EXP2 of a number has a clear sign bit (R122). -/
theorem exp2_sign (cfg : Config.Params) (x : RealBits) (hx : rIsNaN ieee x = false)
    (hc : rSign ieee (exp2Rounded ieee x) = false) : rSign ieee (exp2 ieee cfg x) = false := by
  rcases exp2_number cfg x hx with h | ⟨-, h, -⟩
  · rw [h]; exact hc
  · exact h

/-- EXP2 is never below 0.0, whatever the operand (R122). -/
theorem exp2_nonneg (cfg : Config.Params) (x : RealBits) : rLt ieee (exp2 ieee cfg x) r0 = false := by
  have both : ∀ z, rIsNaN ieee z = true ∨ rSign ieee z = false → rLt ieee z r0 = false := fun z h =>
    h.elim (rLt_zero_of_nan z) (rLt_zero_of_sign z)
  rcases exp2_cases cfg x with h | h
  · unfold exp2Allowed at h
    split at h
    · simp only [Bool.or_eq_true, Bool.not_eq_eq_eq_not, Bool.not_true] at h
      exact both _ h
    · simp only [Bool.or_eq_true, decide_eq_true_eq, Bool.and_eq_true, Bool.not_eq_eq_eq_not, Bool.not_true] at h
      rcases h with h | h
      · rw [h]; exact both _ (exp2Rounded_sign x)
      · exact rLt_zero_of_sign _ h.1.2
  · rw [h]; exact both _ (exp2Rounded_sign x)

/-- A table entry is a real number. -/
theorem tableReal_finite (x : RealBits) : rIsFinite ieee (tableReal ieee x) = true := by
  unfold tableReal
  split
  · assumption
  · decide

/-- An entry of the amplitude-modulation table is a real number (R126). -/
theorem lutAms_finite (cfg : Config.Params) (i : Nat) : rIsFinite ieee (lutAms ieee cfg i) = true := tableReal_finite _

/-- What stands in for an entry that R128 does not admit is the cube root of i/16, rounded. -/
theorem cubeRootNearest_allowed (i : Nat) (h1 : 1 ≤ i) (h2 : i ≤ 15) :
    cubeRootAllowed ieee i (cubeRootNearest ieee i) = true := by
  have h : ∀ k : Fin 16, 1 ≤ k.val → cubeRootAllowed ieee k.val (cubeRootNearest ieee k.val) = true := by decide +kernel
  exact h ⟨i, by omega⟩ h1

/-- A finite number times 0.0 is a zero of its sign. -/
theorem rMul_zero (x : RealBits) (h : rIsFinite ieee x = true) : rMul ieee x r0 = rZero ieee (rSign ieee x) := by
  obtain ⟨m, e, hm, -, -⟩ := rExact_fin x h
  have e0 : rExact ieee r0 = .fin false 0 (-1074) := by decide
  simp only [rMul, hm, e0, Nat.mul_zero, rPack_eq, roundMag, if_true]
  cases rSign ieee x <;> rfl

/-- A zero times a finite number is a zero. -/
theorem rZero_mul (b : Bool) (x : RealBits) (h : rIsFinite ieee x = true) :
    rMul ieee (rZero ieee b) x = rZero ieee (b ^^ rSign ieee x) := by
  obtain ⟨m, e, hm, -, -⟩ := rExact_fin x h
  have e0 : rExact ieee (rZero ieee b) = .fin b 0 (-1074) := by cases b <;> decide
  simp only [rMul, hm, e0, Nat.zero_mul, rPack_eq, roundMag, if_true]
  cases b <;> cases rSign ieee x <;> rfl

end Sys2Proof.Machine
end

