-- ==== Sys2Proof/Laws/Instance.lean ====
section
/-!
SUPPORT. The instance that runs has an admissible ALG_ROM (R178).
-/
namespace Sys2Proof.Machine

/-- An admitted row is well formed. -/
theorem rowWf_admittedRow (row : Six Byte) : rowWf (admittedRow row) = true := by
  unfold admittedRow
  split
  · assumption
  · decide

/-- The rows of an admitted instance. -/
theorem algRow_withAdmissibleRom (cfg : Config.Params) (g : Nat) :
    algRow (withAdmissibleRom cfg) g = admittedRow (algRow cfg g) := by
  by_cases h : g = 31
  · subst h
    exact (by decide : algRow31 = admittedRow algRow31)
  · have e : algRow (withAdmissibleRom cfg) g = Six.ofFn fun k => (admittedRow (algRow cfg g)).get k := if_neg h
    rw [e]
    exact Six.ext_get _ _ fun k hk => Six.get_ofFn _ k hk

/-- A well-formed row is kept. -/
theorem algRow_withAdmissibleRom_of_wf (cfg : Config.Params) (g : Nat) (h : rowWf (algRow cfg g) = true) :
    algRow (withAdmissibleRom cfg) g = algRow cfg g := by
  rw [algRow_withAdmissibleRom, admittedRow, if_pos h]

/-- Every row of the instance that runs is well formed (R178). -/
theorem rowWf_algRow_params (g : Nat) : rowWf (algRow Config.params g) = true := by
  rw [Config.params, algRow_withAdmissibleRom]
  exact rowWf_admittedRow _

/-- The instance that runs has an admissible ROM (R178). -/
theorem romAdmissible_params : romAdmissible Config.params = true := by
  simp only [romAdmissible, Bool.and_eq_true, List.all_eq_true, decide_eq_true_eq]
  exact ⟨fun g _ => rowWf_algRow_params g, rfl⟩

end Sys2Proof.Machine
end

