-- ==== Sys2Proof/Laws/Patch.lean ====
section
/-!
SUPPORT. The patch decoder: a field is a quotient and a remainder, and every decoded register is in its range (R269).
-/
namespace Sys2Proof.Machine

/-- A field of an image byte as arithmetic (R89). -/
theorem byteField_eq (b : Byte) (lo width : Nat) : byteField b lo width = b.toNat / 2 ^ lo % 2 ^ width := by
  simp only [byteField, Nat.one_shiftLeft, Nat.and_two_pow_sub_one_eq_mod, Nat.shiftRight_eq_div_pow]

/-- A whole-byte field (R263). -/
theorem field7_eq (img : List Byte) (k top : Nat) : field7 img k top = min ((byteAt img k).toNat % 128) top := by
  simp [field7, clampField, byteField_eq]

/-- A field is below its width. -/
theorem byteField_lt (b : Byte) (lo width : Nat) : byteField b lo width < 2 ^ width := by
  rw [byteField_eq]; exact Nat.mod_lt _ (Nat.pos_of_ne_zero (by simp))

/-- A field is at most the greatest number of its width. -/
theorem byteField_le (b : Byte) (lo width m : Nat) (h : 2 ^ width = m + 1) : byteField b lo width ≤ m := by
  have := byteField_lt b lo width
  omega

/-- A clamped field is at most its maximum. -/
theorem clampField_le (b : Byte) (lo width top : Nat) : clampField b lo width top ≤ top := Nat.min_le_right _ _

/-- A whole-byte field is at most its maximum. -/
theorem field7_le (img : List Byte) (k top : Nat) : field7 img k top ≤ top := Nat.min_le_right _ _

/-- Every register of a decoded operator block is in its range (R269). -/
theorem decodeOp_inRange (img : List Byte) (k : Nat) : (decodeOp img k).inRange = true := by
  simp only [OpPatch.inRange, Bool.and_eq_true]
  refine ⟨⟨⟨⟨⟨⟨⟨⟨⟨⟨⟨⟨⟨⟨?_, ?_⟩, ?_⟩, ?_⟩, ?_⟩, ?_⟩, ?_⟩, ?_⟩, ?_⟩, ?_⟩, ?_⟩, ?_⟩, ?_⟩, ?_⟩, ?_⟩
  all_goals first
    | exact decide_eq_true (field7_le _ _ _)
    | exact decide_eq_true (clampField_le _ _ _ _)
    | (refine decide_eq_true (byteField_le _ _ _ _ ?_); rfl)
    | (rw [Four.all_iff]; intro i; exact decide_eq_true ((Four.get_ofFn _ i).trans_le (field7_le _ _ _)))

/-- Every register of a decoded voice is in its range, whatever the bytes (R269). -/
theorem decodeVoice_inRange (img : List Byte) : (decodeVoice img).inRange = true := by
  have hn : ∀ b : Byte, decide (b &&& 0x7F#8 ≤ 0x7F#8) = true := by decide +kernel
  have hname : (decodeVoice img).name.all (· ≤ 0x7F#8) = true := by
    simp only [decodeVoice, List.all_map, List.all_eq_true]
    intro x _
    exact hn _
  have hop : (decodeVoice img).op.all OpPatch.inRange = true := by
    rw [Six.all_iff]
    intro k hk
    simp only [decodeVoice, Six.get_ofFn _ k hk]
    exact decodeOp_inRange img k
  have hlfo : (decodeVoice img).lfo.inRange = true := by
    simp only [LfoPatch.inRange, Bool.and_eq_true]
    refine ⟨⟨⟨⟨⟨⟨?_, ?_⟩, ?_⟩, ?_⟩, ?_⟩, ?_⟩, ?_⟩
    all_goals first
      | exact decide_eq_true (field7_le _ _ _)
      | exact decide_eq_true (clampField_le _ _ _ _)
      | (refine decide_eq_true (byteField_le _ _ _ _ ?_); rfl)
  simp only [Patch.inRange, Bool.and_eq_true]
  refine ⟨⟨⟨⟨⟨⟨⟨⟨⟨⟨hop, ?_⟩, ?_⟩, ?_⟩, ?_⟩, ?_⟩, ?_⟩, hlfo⟩, ?_⟩, hname⟩, ?_⟩
  all_goals first
    | rfl
    | exact decide_eq_true (field7_le _ _ _)
    | (refine decide_eq_true (byteField_le _ _ _ _ ?_); rfl)
    | (rw [Four.all_iff]; intro i; exact decide_eq_true ((Four.get_ofFn _ i).trans_le (field7_le _ _ _)))

/-- Everything PLOAD can do when it answers (R262, R285). -/
theorem execPload_next (img : List Byte) (s t : State) :
    execPload img s = .next t ↔
      s.constructed = true ∧
        ((img.length = 128 ∧ t = { s with patch := some (decodeVoice img), patchValid := true, dirty := true,
                                          result := .ok }) ∨
          (img.length ≠ 128 ∧ t = { s with result := .error .badVoiceLength })) := by
  simp only [execPload, finish_next, bind_ok, needConstructed_ok]
  constructor
  · rintro ⟨-, hc, h⟩
    refine ⟨hc, ?_⟩
    split at h
    · cases h; exact .inr ⟨‹_›, rfl⟩
    · cases h; exact .inl ⟨not_not.1 ‹¬img.length ≠ Config.voiceBytes›, rfl⟩
  · rintro ⟨hc, ⟨h, rfl⟩ | ⟨h, rfl⟩⟩
    · exact ⟨(), hc, by rw [if_neg (not_not.2 (show img.length = Config.voiceBytes from h))]; rfl⟩
    · exact ⟨(), hc, by rw [if_pos (show img.length ≠ Config.voiceBytes from h)]; rfl⟩

/-- Everything BUNPACK can do: it always answers, and only the result changes (R266). -/
theorem execBunpack_next (bank : List Byte) (s : State) :
    execBunpack bank s = .next { s with
      result :=
        if bank.length ≠ 4104 then .error .badBankLength
        else if bank.take 6 ≠ bankHeader then .error .badBankHeader
        else .images (bankVoices bank) } := by
  unfold execBunpack
  by_cases h : bank.length ≠ 4104
  · rw [if_pos h, if_pos (show bank.length ≠ Config.bankBytes from h)]; rfl
  · rw [if_neg h, if_neg (show ¬ bank.length ≠ Config.bankBytes from h)]
    split <;> rfl

end Sys2Proof.Machine
end

