-- ==== Sys2Proof/Laws/Voice.lean ====
section
/-!
SUPPORT. What the shared operations of the voice driver can do when they answer: SETUP's effect, one block of an
envelope unit, and RENDER's checks, targets and dispatch. Proofs cite these and do not unfold the operations.
-/
namespace Sys2Proof.Machine

variable {fm : Formats}

/-- The registers SETUP writes, after it ran with DIRTY set. -/
theorem setupRegs (cfg : Config.Params) (p : Patch) (s : State) :
    (setupCaches cfg p (setupEnvs p s)).flagsAfterSetup =
      { s with
        env := Six.ofFn fun k => envSetOp s.formats (p.op.get k) (s.env.get k)
        penv := envSetPitch s.formats p s.penv
        ratio := p.op.map fun q => some (ratioOf s.formats cfg q)
        headroom := p.op.map fun q => some (headroomOf s.formats q)
        dirty := false } := rfl

/-- Everything SETUP's effect can do when it answers. -/
theorem setupWith_ok (cfg : Config.Params) (s t : State) :
    setupWith cfg s = .ok t ↔
      s.patchValid = true ∧ ∃ p, s.patch = some p ∧
        ((s.dirty = true ∧ t = (setupCaches cfg p (setupEnvs p s)).flagsAfterSetup) ∨ (s.dirty = false ∧ t = s)) := by
  simp only [setupWith, bind_ok, needPatch_ok]
  constructor
  · rintro ⟨p, ⟨h, h'⟩, h''⟩
    refine ⟨h, p, h', ?_⟩
    split at h'' <;> simp_all
  · rintro ⟨h, p, h', h''⟩
    refine ⟨p, ⟨h, h'⟩, ?_⟩
    rcases h'' with ⟨hd, rfl⟩ | ⟨hd, rfl⟩ <;> simp [hd]

/-- What SETUP's effect never touches. -/
theorem setupWith_frame (cfg : Config.Params) (s t : State) (h : setupWith cfg s = .ok t) :
    t = { s with env := t.env, penv := t.penv, ratio := t.ratio, headroom := t.headroom, dirty := false } := by
  obtain ⟨-, p, -, ⟨-, rfl⟩ | ⟨hd, rfl⟩⟩ := (setupWith_ok cfg s t).1 h
  · rfl
  · rw [← hd]

@[simp] theorem envSetOp_stage (p : OpPatch) (e : Env) : (envSetOp fm p e).stage = e.stage := rfl
@[simp] theorem envSetOp_phase (p : OpPatch) (e : Env) : (envSetOp fm p e).phase = e.phase := rfl
@[simp] theorem envSetOp_start (p : OpPatch) (e : Env) : (envSetOp fm p e).start = e.start := rfl
@[simp] theorem envSetOp_scale (p : OpPatch) (e : Env) : (envSetOp fm p e).scale = e.scale := rfl
@[simp] theorem envSetPitch_stage (p : Patch) (e : Env) : (envSetPitch fm p e).stage = e.stage := rfl
@[simp] theorem envSetPitch_phase (p : Patch) (e : Env) : (envSetPitch fm p e).phase = e.phase := rfl
@[simp] theorem envSetPitch_start (p : Patch) (e : Env) : (envSetPitch fm p e).start = e.start := rfl
@[simp] theorem envSetPitch_scale (p : Patch) (e : Env) : (envSetPitch fm p e).scale = e.scale := rfl

/-- Configuring a unit twice is configuring it once. -/
@[simp] theorem envSetOp_envSetOp (p : OpPatch) (e : Env) : envSetOp fm p (envSetOp fm p e) = envSetOp fm p e := rfl
@[simp] theorem envSetPitch_envSetPitch (p : Patch) (e : Env) : envSetPitch fm p
  (envSetPitch fm p e) = envSetPitch fm p e := rfl

/-- A configured unit's tables are written. -/
theorem envSetOp_tables (p : OpPatch) (e : Env) :
    ∃ lv inc, (envSetOp fm p e).level.sequence = some lv ∧ (envSetOp fm p e).incr.sequence = some inc :=
  ⟨_, _, rfl, rfl⟩
theorem envSetPitch_tables (p : Patch) (e : Env) :
    ∃ lv inc, (envSetPitch fm p e).level.sequence = some lv ∧ (envSetPitch fm p e).incr.sequence = some inc :=
  ⟨_, _, rfl, rfl⟩

/-! ### Envelope units -/

/-- Everything a gated render of a unit can do when it answers (R201). -/
theorem envRender_ok (u : EnvUnit) (e e' : Env) (g : Bool) (rate ad rel v : RealBits) :
    envRender fm u e g rate ad rel = .ok (e', v) ↔
      ∃ lv inc, e.level.sequence = some lv ∧ e.incr.sequence = some inc ∧
        e' = envAdvance fm inc rate ad rel (envGate fm u lv g e) ∧ v = envValue fm u lv e'.stage e'.phase e'.start := by
  simp only [envRender, bind_ok, written_ok]
  constructor
  · rintro ⟨lv, hl, inc, hi, h⟩
    cases h
    exact ⟨lv, inc, hl, hi, rfl, rfl⟩
  · rintro ⟨lv, inc, hl, hi, rfl, rfl⟩
    exact ⟨lv, hl, inc, hi, rfl⟩

/-- Everything a scrubbed evaluation of a unit can do when it answers (R205). -/
theorem envScrub_ok (u : EnvUnit) (e : Env) (t g v : RealBits) :
    envScrub fm u e t g = .ok v ↔
      ∃ lv inc, e.level.sequence = some lv ∧ e.incr.sequence = some inc ∧ v = scrubValue fm u lv inc t g := by
  simp only [envScrub, bind_ok, written_ok]
  constructor
  · rintro ⟨lv, hl, inc, hi, h⟩
    cases h
    exact ⟨lv, inc, hl, hi, rfl⟩
  · rintro ⟨lv, inc, hl, hi, rfl⟩
    exact ⟨lv, hl, inc, hi, rfl⟩

/-- The gate's effect leaves the tables and SCALE alone. -/
theorem envGate_frame (u : EnvUnit) (lv : Four RealBits) (g : Bool) (e : Env) :
    (envGate fm u lv g e).level = e.level ∧ (envGate fm u lv g e).incr = e.incr ∧
      (envGate fm u lv g e).scale = e.scale := by
  unfold envGate; repeat' split
  all_goals exact ⟨rfl, rfl, rfl⟩

/-- So does the advance. -/
theorem envAdvance_frame (inc : Four RealBits) (rate ad rel : RealBits) (e : Env) :
    (envAdvance fm inc rate ad rel e).level = e.level ∧ (envAdvance fm inc rate ad rel e).incr = e.incr ∧
      (envAdvance fm inc rate ad rel e).scale = e.scale := by
  unfold envAdvance; simp only; repeat' split
  all_goals exact ⟨rfl, rfl, rfl⟩

/-- What one block leaves of a unit: its tables and SCALE; in scrubbing mode, all of it. -/
theorem envBlock_frame (u : EnvUnit) (e e' : Env) (a : RenderArgs) (rate ad rel v : RealBits)
    (h : envBlock fm u e a rate ad rel = .ok (e', v)) :
    e'.level = e.level ∧ e'.incr = e.incr ∧ e'.scale = e.scale ∧ (a.sustain = true → e' = e) := by
  unfold envBlock at h
  split at h
  · simp only [bind_ok] at h
    obtain ⟨l, -, h⟩ := h
    cases h
    exact ⟨rfl, rfl, rfl, fun _ => rfl⟩
  · rename_i hs
    obtain ⟨lv, inc, -, -, rfl, -⟩ := (envRender_ok _ _ _ _ _ _ _ _).1 h
    obtain ⟨h1, h2, h3⟩ := envAdvance_frame inc rate ad rel (envGate fm u lv a.gate e)
    obtain ⟨g1, g2, g3⟩ := envGate_frame u lv a.gate e
    exact ⟨h1.trans g1, h2.trans g2, h3.trans g3, fun h => absurd h hs⟩

/-- One block completes when the unit's tables are written. -/
theorem envBlock_completes (u : EnvUnit) (e : Env) (a : RenderArgs) (rate ad rel : RealBits) (lv inc : Four RealBits)
    (hl : e.level.sequence = some lv) (hi : e.incr.sequence = some inc) :
    ∃ x, envBlock fm u e a rate ad rel = .ok x := by
  unfold envBlock
  split
  · exact ⟨_, by simp only [envScrub, hl, hi, written_some, ok_bind]; rfl⟩
  · exact ⟨_, by simp only [envRender, hl, hi, written_some, ok_bind]; rfl⟩

/-! ### RENDER -/

/-- Everything RENDER's checks can do when they answer (R240). -/
theorem renderChecks_ok (cfg : Config.Params) (a : RenderArgs) (s : State) (p : Patch) :
    renderChecks cfg a s = .ok p ↔
      s.constructed = true ∧ blockOk a.block = true ∧ renderRealsOk s.formats a = true ∧ s.patchValid = true ∧
        s.patch = some p ∧ p.alg < 32 ∧ rowWf (algRow cfg p.alg) = true := by
  simp only [renderChecks, bind_ok, needConstructed_ok, require_ok, needPatch_ok]
  constructor
  · rintro ⟨-, h1, -, h2, -, h3, q, ⟨h4, h5⟩, -, h6, h7⟩
    cases h7
    simp only [Bool.and_eq_true, decide_eq_true_eq] at h6
    exact ⟨h1, h2, h3, h4, h5, h6.1, h6.2⟩
  · rintro ⟨h1, h2, h3, h4, h5, h6, h7⟩
    exact ⟨(), h1, (), h2, (), h3, p, ⟨h4, h5⟩, (), by simp [h6, h7], rfl⟩

/-- Everything step 5 can do for one operator when it answers (R244, R247 to R249). -/
theorem opTarget_ok (cfg : Config.Params) (b : BlockInput) (p : Patch) (s : State) (i : Nat) (x : OpTarget) :
    opTarget cfg b p s i = .ok x ↔
      ∃ r hr l, s.ratio.get i = some r ∧ s.headroom.get i = some hr ∧
        envBlock s.formats .operator (s.env.get i) b.args
          (rMul s.formats (envelopeRate s.formats b.args) (rateScaling s.formats cfg b.note
            (p.op.get i).rs)) b.ad b.rel = .ok (x.env, l) ∧
        x.f = targetFrequency s.formats b.sampleRate b.f0 r ∧
        x.level = adjustedLevel s.formats (p.op.get i) (isModulator b.row i) b.args.brightness b.note b.nvel hr l ∧
        x.a = targetAmplitude s.formats cfg (p.op.get i).ams b.args.ampMod x.level := by
  simp only [opTarget, bind_ok, written_ok]
  constructor
  · rintro ⟨r, h1, hr, h2, ⟨e, l⟩, h3, h4⟩
    cases h4
    exact ⟨r, hr, l, h1, h2, h3, rfl, rfl, rfl⟩
  · rintro ⟨r, hr, l, h1, h2, h3, h4, h5, h6⟩
    obtain ⟨e, f, lv, a⟩ := x
    simp only at h3 h4 h5 h6
    subst h4 h5 h6
    exact ⟨r, h1, hr, h2, (e, l), h3, rfl⟩

/-- Step 5 answers exactly when it does for each operator. -/
theorem opTargets_ok (cfg : Config.Params) (b : BlockInput) (p : Patch) (s : State) (x : Six OpTarget) :
    opTargets cfg b p s = .ok x ↔ ∀ i < 6, opTarget cfg b p s i = .ok (x.get i) := by
  simp only [opTargets, bind_ok]
  constructor
  · rintro ⟨t0, h0, t1, h1, t2, h2, t3, h3, t4, h4, t5, h5, h⟩ i hi
    cases h
    obtain rfl | rfl | rfl | rfl | rfl | rfl := lt_six_cases hi <;> assumption
  · intro h
    exact ⟨x.o0, h 0 (by omega), x.o1, h 1 (by omega), x.o2, h 2 (by omega), x.o3, h 3 (by omega), x.o4,
      h 4 (by omega), x.o5, h 5 (by omega), rfl⟩

/-- The registers step 4 leaves alone. -/
theorem noteStep_frame (cfg : Config.Params) (p : Patch) (a : RenderArgs) (s : State) :
    noteStep cfg p a s =
      { s with
        ops := if noteOn a.gate s.gatePrev && p.resetPhase = 1 then clearPhases s.ops else s.ops
        gatePrev := a.gate
        note := if latchesNote a.gate s.gatePrev a.sustain then some a.note else s.note
        nvel := if latchesNote a.gate s.gatePrev a.sustain then some (normalizeVelocity s.formats cfg a.velocity)
                else s.nvel } := by
  unfold noteStep
  simp only
  repeat' split
  all_goals rfl

/-- Step 4 leaves the formats alone. -/
theorem noteStep_formats (cfg : Config.Params) (p : Patch) (a : RenderArgs) (s : State) :
    (noteStep cfg p a s).formats = s.formats := by rw [noteStep_frame]

/-- Everything steps 1 to 5 can do when they answer (R242 to R249). -/
theorem renderTargets_ok (cfg : Config.Params) (a : RenderArgs) (p : Patch) (s t : State) :
    renderTargets cfg a p s = .ok t ↔
      ∃ penv pe note nvel x,
        envBlock s.formats .pitch s.penv a (envelopeRate s.formats a) (adScale s.formats cfg a.envctl)
          (releaseScale s.formats cfg a.envctl) = .ok (penv, pe) ∧
        (noteStep cfg p a s).note = some note ∧ (noteStep cfg p a s).nvel = some nvel ∧
        opTargets cfg
          ⟨a, algRow cfg p.alg, s.sampleRate,
            baseFrequency s.formats cfg s.sampleRate a.note (rAdd s.formats pe a.pitchMod) p.transpose,
            adScale s.formats cfg a.envctl, releaseScale s.formats cfg a.envctl, note, nvel⟩ p
              (noteStep cfg p a s) = .ok x ∧
        t = (((noteStep cfg p a s).withEnvs (x.map (·.env)) penv).withLevelOut (x.map fun y => some y.level)).withRc
          (some { index := 0, block := a.block.toNat, f := x.map (·.f), a := x.map (·.a),
                  row := algRow cfg p.alg }) := by
  have hsr : (noteStep cfg p a s).sampleRate = s.sampleRate := by rw [noteStep_frame]
  simp only [renderTargets, bind_ok, written_ok, hsr]
  constructor
  · rintro ⟨⟨penv, pe⟩, h1, note, h2, nvel, h3, x, h4, h5⟩
    cases h5
    exact ⟨penv, pe, note, nvel, x, h1, h2, h3, h4, rfl⟩
  · rintro ⟨penv, pe, note, nvel, x, h1, h2, h3, h4, rfl⟩
    exact ⟨(penv, pe), h1, note, h2, nvel, h3, x, h4, rfl⟩

/-- Everything step 6 can do when it answers (R179, R250). -/
theorem renderDispatch_ok (cfg : Config.Params) (p : Patch) (s t : State) :
    renderDispatch cfg p s = .ok t ↔
      ∃ plan s', compile (algRow cfg p.alg) = some plan ∧ runPlan plan s = .ok s' ∧ t = s'.withRc none := by
  simp only [renderDispatch, bind_ok, written_ok]
  constructor
  · rintro ⟨plan, h1, s', h2, h3⟩
    cases h3
    exact ⟨plan, s', h1, h2, rfl⟩
  · rintro ⟨plan, s', h1, h2, rfl⟩
    exact ⟨plan, h1, s', h2, rfl⟩

/-- Everything RENDER can do when it answers (R240). -/
theorem renderWith_ok (cfg : Config.Params) (a : RenderArgs) (s t : State) :
    renderWith cfg a s = .ok t ↔
      ∃ p s1 s2 s3, renderChecks cfg a s = .ok p ∧ setupWith cfg s = .ok s1 ∧ renderTargets cfg a p s1 = .ok s2 ∧
        renderDispatch cfg p s2 = .ok s3 ∧ t = s3.withResult .ok := by
  simp only [renderWith, bind_ok]
  constructor
  · rintro ⟨p, h1, s1, h2, s2, h3, s3, h4, h5⟩
    cases h5
    exact ⟨p, s1, s2, s3, h1, h2, h3, h4, rfl⟩
  · rintro ⟨p, s1, s2, s3, h1, h2, h3, h4, rfl⟩
    exact ⟨p, h1, s1, h2, s2, h3, s3, h4, rfl⟩

/-! ### The LFO unit: the registers each operation leaves alone -/

@[simp] theorem lfoAdvance_wave (sc f d0 d1 x : RealBits) (l : Lfo) :
  (lfoAdvance fm sc f d0 d1 x l).wave = l.wave := rfl
@[simp] theorem lfoAdvance_freq (sc f d0 d1 x : RealBits) (l : Lfo) :
  (lfoAdvance fm sc f d0 d1 x l).freq = l.freq := rfl
@[simp] theorem lfoAdvance_delayInc0 (sc f d0 d1 x : RealBits) (l : Lfo) :
    (lfoAdvance fm sc f d0 d1 x l).delayInc0 = l.delayInc0 := rfl
@[simp] theorem lfoAdvance_delayInc1 (sc f d0 d1 x : RealBits) (l : Lfo) :
    (lfoAdvance fm sc f d0 d1 x l).delayInc1 = l.delayInc1 := rfl
@[simp] theorem lfoScrub_wave (t f d0 d1 x : RealBits) (l : Lfo) : (lfoScrub fm t f d0 d1 x l).wave = l.wave := rfl
@[simp] theorem lfoScrub_freq (t f d0 d1 x : RealBits) (l : Lfo) : (lfoScrub fm t f d0 d1 x l).freq = l.freq := rfl
@[simp] theorem lfoScrub_delayInc0 (t f d0 d1 x : RealBits) (l : Lfo) :
  (lfoScrub fm t f d0 d1 x l).delayInc0 = l.delayInc0 :=
  rfl
@[simp] theorem lfoScrub_delayInc1 (t f d0 d1 x : RealBits) (l : Lfo) :
  (lfoScrub fm t f d0 d1 x l).delayInc1 = l.delayInc1 :=
  rfl

/-- The held sample after an operation is the old one or the draw. -/
theorem lfoAdvance_sh (sc f d0 d1 x : RealBits) (l : Lfo) :
    (lfoAdvance fm sc f d0 d1 x l).sh = l.sh ∨ (lfoAdvance fm sc f d0 d1 x l).sh = x := by
  simp only [lfoAdvance]
  split
  · exact .inr rfl
  · exact .inl rfl

theorem lfoScrub_sh (t f d0 d1 x : RealBits) (l : Lfo) :
    (lfoScrub fm t f d0 d1 x l).sh = l.sh ∨ (lfoScrub fm t f d0 d1 x l).sh = x := by
  simp only [lfoScrub]
  split
  · exact .inr rfl
  · exact .inl rfl

/-- The delay phase never exceeds 1.0 (R218). -/
theorem lfoAdvance_delay (fm : Formats) (sc f d0 d1 x : RealBits) (l : Lfo) :
    rLt fm (r1 fm) (lfoAdvance fm sc f d0 d1 x l).delayPhase = false :=
  rLt_saturated _ _ _

theorem lfoScrub_delay (t f d0 d1 x : RealBits) (l : Lfo) :
    rLt ieee (r1 ieee) (lfoScrub ieee t f d0 d1 x l).delayPhase = false := by
  simp only [lfoScrub]
  by_cases h : rLt ieee (rHalf ieee) (rMul ieee t d0) = true
  · rw [if_pos h]; exact rLt_saturated _ _ _
  · rw [if_neg h]; exact rLt_one_of_half _ (by simpa using h)

/-! ### The commands, each with everything it can do when it answers -/

/-- SETUP (R238). -/
theorem execSetup_next (s t : State) :
    execSetup s = .next t ↔
      s.constructed = true ∧ ∃ s', setupWith Config.params s = .ok s' ∧ t = s'.withResult .ok := by
  simp only [execSetup, finish_next, bind_ok, needConstructed_ok]
  constructor
  · rintro ⟨-, hc, s', h1, h2⟩
    cases h2
    exact ⟨hc, s', h1, rfl⟩
  · rintro ⟨hc, s', h1, rfl⟩
    exact ⟨(), hc, s', h1, rfl⟩

/-- OPRESET (R146). -/
theorem execOpreset_next (k : Int) (s t : State) :
    execOpreset k s = .next t ↔
      s.constructed = true ∧ operatorIndexOk k = true ∧
        t = (s.withOps (s.ops.set k.toNat ⟨0#32, r0⟩)).withResult .ok := by
  simp only [execOpreset, finish_next, bind_ok, needConstructed_ok, require_ok]
  constructor
  · rintro ⟨-, hc, -, hk, h2⟩
    cases h2
    exact ⟨hc, hk, rfl⟩
  · rintro ⟨hc, hk, rfl⟩
    exact ⟨(), hc, (), hk, rfl⟩

/-- VRESET (R236). -/
theorem execVreset_next (sr : RealBits) (s t : State) (h : execVreset sr s = .next t) :
    sampleRateOk s.formats sr = true ∧ t =
      { State.reset with
        sampleRate := sr
        env := Six.ofFn fun _ => Env.reset s.formats (rDiv s.formats (rLit s.formats 44100 1) sr)
        penv := Env.reset s.formats (rDiv s.formats (rLit s.formats 44100 1) sr)
        draws := s.draws
        port := s.port
        formats := s.formats } := by
  simp only [execVreset, finish_next, bind_ok, require_ok] at h
  obtain ⟨-, h1, h2⟩ := h
  cases h2
  exact ⟨h1, rfl⟩

/-- LCFG (R217). -/
theorem execLcfg_next (s t : State) :
    execLcfg s = .next t ↔
      s.constructed = true ∧ s.patchValid = true ∧ ∃ p, s.patch = some p ∧
        t = (s.withLfo (lfoConfigure s.formats Config.params p.lfo s.sampleRate s.lfo)).withResult .ok := by
  simp only [execLcfg, finish_next, bind_ok, needConstructed_ok, needPatch_ok]
  constructor
  · rintro ⟨-, hc, p, ⟨hv, hp⟩, h2⟩
    cases h2
    exact ⟨hc, hv, p, hp, rfl⟩
  · rintro ⟨hc, hv, p, hp, rfl⟩
    exact ⟨(), hc, p, ⟨hv, hp⟩, rfl⟩

/-- LRESET (R219). -/
theorem execLreset_next (s t : State) :
    execLreset s = .next t ↔ s.constructed = true ∧ t = (s.withLfo (lfoRestart s.lfo)).withResult .ok := by
  simp only [execLreset, finish_next, bind_ok, needConstructed_ok]
  constructor
  · rintro ⟨-, hc, h2⟩
    cases h2
    exact ⟨hc, rfl⟩
  · rintro ⟨hc, rfl⟩
    exact ⟨(), hc, rfl⟩

/-- LSTEP (R220). -/
theorem execLstep_next (scale : RealBits) (s t : State) :
    execLstep scale s = .next t ↔
      s.constructed = true ∧ nonNegOperand s.formats scale = true ∧ ∃ f d0 d1, s.lfo.freq = some f ∧
        s.lfo.delayInc0 = some d0 ∧
        s.lfo.delayInc1 = some d1 ∧
        t = ((s.withLfo (lfoAdvance s.formats scale f d0 d1 (shDraw s.formats Config.params s.draws) s.lfo)).withDraws
          (if lfoStepDraws s.formats scale f s.lfo then s.draws + 1 else s.draws)).withResult .ok := by
  simp only [execLstep, lstepWith, finish_next, bind_ok, needConstructed_ok, written_ok, require_ok]
  constructor
  · rintro ⟨-, hc, f, hf, d0, h0, d1, h1, -, hs, h2⟩
    cases h2
    exact ⟨hc, hs, f, d0, d1, hf, h0, h1, rfl⟩
  · rintro ⟨hc, hs, f, d0, d1, hf, h0, h1, rfl⟩
    exact ⟨(), hc, f, hf, d0, h0, d1, h1, (), hs, rfl⟩

/-- LSCRUB (R222). -/
theorem execLscrub_next (sample : RealBits) (s t : State) :
    execLscrub sample s = .next t ↔
      s.constructed = true ∧ nonNegOperand s.formats sample = true ∧ ∃ f d0 d1, s.lfo.freq = some f ∧
        s.lfo.delayInc0 = some d0 ∧ s.lfo.delayInc1 = some d1 ∧
        t = ((s.withLfo (lfoScrub s.formats sample f d0 d1 (shDraw s.formats Config.params s.draws) s.lfo)).withDraws
          (if lfoScrubDraws s.formats sample f s.lfo then s.draws + 1 else s.draws)).withResult .ok := by
  simp only [execLscrub, lscrubWith, finish_next, bind_ok, needConstructed_ok, written_ok, require_ok]
  constructor
  · rintro ⟨-, hc, f, hf, d0, h0, d1, h1, -, hs, h2⟩
    cases h2
    exact ⟨hc, hs, f, d0, d1, hf, h0, h1, rfl⟩
  · rintro ⟨hc, hs, f, d0, d1, hf, h0, h1, rfl⟩
    exact ⟨(), hc, f, hf, d0, h0, d1, h1, (), hs, rfl⟩

/-- RENDER, taken apart into its steps (R240, R179). -/
theorem execRender_next (a : RenderArgs) (s t : State) :
    execRender a s = .next t ↔
      ∃ p s1 s2 plan s3, renderChecks Config.params a s = .ok p ∧ setupWith Config.params s = .ok s1 ∧
        renderTargets Config.params a p s1 = .ok s2 ∧ compile (algRow Config.params p.alg) = some plan ∧
        runPlan plan s2 = .ok s3 ∧ t = (s3.withRc none).withResult .ok := by
  simp only [execRender, finish_next, renderWith_ok, renderDispatch_ok]
  constructor
  · rintro ⟨p, s1, s2, s3, h1, h2, h3, ⟨plan, s4, h4, h5, rfl⟩, rfl⟩
    exact ⟨p, s1, s2, plan, s4, h1, h2, h3, h4, h5, rfl⟩
  · rintro ⟨p, s1, s2, plan, s4, h1, h2, h3, h4, h5, rfl⟩
    exact ⟨p, s1, s2, _, h1, h2, h3, ⟨plan, s4, h4, h5, rfl⟩, rfl⟩

/-- A draw is in [0,1) (R229). -/
theorem shDraw_range (cfg : Config.Params) (n : Nat) :
    rLe ieee r0 (shDraw ieee cfg n) = true ∧ rLt ieee (shDraw ieee cfg n) (r1 ieee) = true := by
  unfold shDraw
  split
  · rename_i h
    simpa using h
  · exact ⟨by decide, by decide⟩

end Sys2Proof.Machine
end

