-- ==== Sys2Proof/Laws/Ranges.lean ====
section
/-!
SUPPORT. The ranges of the registers that move by themselves: what SETUP, one block of an envelope, LCFG, LSTEP and LSCRUB
do to the sign of increments, scales, frequencies and phases (R192, R194, R201, R217, R220, R222).
-/
namespace Sys2Proof.Machine

theorem notNegative_iff (x : RealBits) : notNegative ieee x = true ↔ rLt ieee x r0 = false := by simp [notNegative]

theorem notNegative_of_sign (x : RealBits) (h : rSign ieee x = false) : notNegative ieee x = true :=
  (notNegative_iff x).2 (rLt_zero_of_sign x h)

/-- A sum and a product of numbers not below 0.0. -/
theorem notNegative_rAdd (x y : RealBits) (hx : notNegative ieee x = true) (hy : notNegative ieee y = true) :
    notNegative ieee (rAdd ieee x y) = true :=
  (notNegative_iff _).2 (rAdd_notNeg x y ((notNegative_iff x).1 hx) ((notNegative_iff y).1 hy))

theorem notNegative_rMul (x y : RealBits) (hx : notNegative ieee x = true) (hy : notNegative ieee y = true) :
    notNegative ieee (rMul ieee x y) = true :=
  (notNegative_iff _).2 (rMul_notNeg x y ((notNegative_iff x).1 hx) ((notNegative_iff y).1 hy))

/-- A number above another less that one has a clear sign bit. -/
theorem rSub_sign_of_rLt (x y : RealBits) (h : rLt ieee y x = true) : rSign ieee (rSub ieee x y) = false := by
  refine (rSub_sign x y ?_).2 h
  simp only [rLt, rLe, Bool.and_eq_true, Bool.not_eq_eq_eq_not, Bool.not_true, decide_eq_true_eq] at h ⊢
  exact ⟨h.1, by omega⟩

/-- The NaN of the operations has a clear sign bit, so a difference with a NaN has one too. -/
theorem rSub_sign_of_nan (x y : RealBits) (h : rIsNaN ieee x = true ∨ rIsNaN ieee y = true) :
    rSign ieee (rSub ieee x y) = false := by
  have hn : rIsNaN ieee (rNeg ieee y) = rIsNaN ieee y := by simp [rIsNaN_eq, rMag_rNeg]
  have nan : ∀ z, rIsNaN ieee z = true → rExact ieee z = .nan := by
    intro z hz
    rcases rExact_cases z with ⟨g, -⟩ | ⟨-, g⟩ | ⟨_, _, -, g, -⟩
    · exact g
    · simp [rIsNaN_eq, g] at hz
    · simp only [rIsFinite_eq, rIsNaN_eq, decide_eq_true_eq] at g hz; omega
  unfold rSub rAdd
  rcases h with h | h
  · rw [nan x h]
    have : rSign ieee (rNaN ieee) = false := by decide
    cases rExact ieee (rNeg ieee y) <;> exact this
  · rw [nan (rNeg ieee y) (by rw [hn, h])]
    have : rSign ieee (rNaN ieee) = false := by decide
    cases rExact ieee x <;> exact this

/-- A number that is neither equal to another nor below it is above it, or one of the two is a NaN. -/
theorem rSub_sign_of_not (x y : RealBits) (h1 : rEq ieee x y = false) (h2 : rLt ieee x y = false) :
    rSign ieee (rSub ieee x y) = false := by
  by_cases hn : rIsNaN ieee x = true ∨ rIsNaN ieee y = true
  · exact rSub_sign_of_nan x y hn
  · refine rSub_sign_of_rLt x y ?_
    simp only [not_or, Bool.not_eq_true] at hn
    simp only [rEq, rLt, hn.1, hn.2, Bool.not_false, Bool.true_and, decide_eq_false_iff_not, decide_eq_true_eq] at *
    omega

/-- The greater of two numbers, by its key. -/
theorem rMax_key (x y : RealBits) (hx : rIsNaN ieee x = false) (hy : rIsNaN ieee y = false) :
    rIsNaN ieee (rMax ieee x y) = false ∧ rKey ieee (rMax ieee x y) = max (rKey ieee x) (rKey ieee y) := by
  unfold rMax
  rw [hx, hy]
  simp only [Bool.or_self, Bool.false_eq_true, if_false]
  split
  · exact ⟨hy, by omega⟩
  · split
    · exact ⟨hx, by omega⟩
    · split
      · exact ⟨hy, by omega⟩
      · exact ⟨hx, by omega⟩

/-- An integer that is a natural number has a clear sign bit. -/
theorem rOfNat_sign (n : Nat) : rSign ieee (rOfInt ieee (n : Int)) = false := rOfInt_sign _ (Int.natCast_nonneg n)

/-! ### Envelopes -/

/-- SETUP's increments of an operator envelope are not below 0.0 (R192). -/
theorem operatorStageIncr_notNegative (p : OpPatch) (levels : Four RealBits) (scale : RealBits) (i : Fin 4)
    (h : notNegative ieee scale = true) : notNegative ieee (operatorStageIncr ieee p levels scale i) = true := by
  have h0 : ∀ r, rSign ieee (operatorEnvelopeIncrement ieee r) = false := fun r =>
    rDiv_sign _ _ (rOfNat_sign _) (rLit_sign _ _)
  unfold operatorStageIncr
  refine notNegative_rMul _ _ (notNegative_of_sign _ ?_) h
  simp only
  split
  · split
    · exact rMul_sign _ _ (rMul_sign _ _ (h0 _) (rLit_sign _ _)) (rLit_sign _ _)
    · exact rMul_sign _ _ (h0 _) (rLit_sign _ _)
  · rename_i he
    split
    · rename_i hl
      split
      · decide
      · rename_i hne
        refine rDiv_sign _ _ (rMul_sign _ _ (h0 _) (rLit_sign _ _)) (rSub_sign_of_rLt _ _ ?_)
        simp only [rLt, Bool.and_eq_true, Bool.not_eq_eq_eq_not, Bool.not_true, decide_eq_true_eq] at hl
        obtain ⟨⟨n1, n2⟩, hk⟩ := hl
        obtain ⟨a1, a2⟩ := rMax_key (r67 ieee) _ (by decide +kernel) n1
        obtain ⟨b1, b2⟩ := rMax_key (r67 ieee) _ (by decide +kernel) n2
        simp only [rEq, rLt, a1, a2, b1, b2, Bool.not_false, Bool.true_and, decide_eq_true_eq] at hne ⊢
        omega
    · rename_i hl
      exact rDiv_sign _ _ (h0 _) (rSub_sign_of_not _ _ (by simpa using he) (by simpa using hl))

/-- SETUP's increments of the pitch envelope are not below 0.0 (R194). -/
theorem pitchStageIncr_notNegative (p : Patch) (scale : RealBits) (i : Fin 4) (h : notNegative ieee scale = true) :
    notNegative ieee (pitchStageIncr ieee p scale i) = true := by
  have h0 : ∀ r, rSign ieee (pitchEnvelopeIncrement ieee r) = false := by
    intro r
    have hr : rSign ieee (rDiv ieee (rOfInt ieee r) (rLit ieee 100 1)) = false := rDiv_sign _ _
      (rOfInt_sign _ (by omega)) (rLit_sign _ _)
    unfold pitchEnvelopeIncrement
    refine rDiv_sign _ _ (rAdd_sign _ _ (by decide) (rMul_sign _ _ (rMul_sign _ _ (rLit_sign _ _) hr) ?_)) ?_
    · exact rAdd_sign _ _ (rMul_sign _ _ (rMul_sign _ _ (rMul_sign _ _ hr hr) hr) hr)
        (rDiv_sign _ _ (by decide) (rLit_sign _ _))
    · exact rMul_sign _ _ (rLit_sign _ _) (rLit_sign _ _)
  unfold pitchStageIncr
  refine notNegative_rMul _ _ (notNegative_of_sign _ ?_) h
  split
  · exact rDiv_sign _ _ (h0 _) (rAbs_sign _)
  · split
    · exact rLit_sign _ _
    · exact h0 _

/-- A unit SETUP configures keeps its ranges (R190). -/
theorem envSetOp_ratesOk (p : OpPatch) (e : Env) (h : notNegative ieee e.scale = true) :
    (envSetOp ieee p e).ratesOk ieee = true := by
  have hi := fun i => operatorStageIncr_notNegative p (operatorStageLevels ieee p) e.scale i h
  simp only [Env.ratesOk, envSetOp, Four.map, Four.ofFn, noneOrNotNegative, h, hi, Bool.and_self]

theorem envSetPitch_ratesOk (p : Patch) (e : Env) (h : notNegative ieee e.scale = true) :
    (envSetPitch ieee p e).ratesOk ieee = true := by
  have hi := fun i => pitchStageIncr_notNegative p e.scale i h
  simp only [Env.ratesOk, envSetPitch, Four.map, Four.ofFn, noneOrNotNegative, h, hi, Bool.and_self]

/-- What `ratesOk` says of a written increment. -/
theorem Env.ratesOk_incr (e : Env) (h : e.ratesOk ieee = true) (incr : Four RealBits) (hi : e.incr.sequence = some incr)
    (i : Fin 4) : notNegative ieee (incr.get i) = true := by
  unfold Four.sequence at hi
  simp only [Env.ratesOk, Bool.and_eq_true] at h
  split at hi
  · rename_i h0 h1 h2 h3
    rw [h0, h1, h2, h3] at h
    cases hi
    match i with
    | 0 => exact h.1.1.1.2
    | 1 => exact h.1.1.2
    | 2 => exact h.1.2
    | 3 => exact h.2
  · cases hi

/-- One block keeps a unit's phase in its range when no rate is below 0.0 (R201). -/
theorem envBlock_phaseOk (u : EnvUnit) (e e' : Env) (a : RenderArgs) (rate ad rel v : RealBits)
    (h : envBlock ieee u e a rate ad rel = .ok (e', v)) (hp : e.phaseOk ieee = true) (hr : e.ratesOk ieee = true)
    (h1 : notNegative ieee rate = true) (h2 : notNegative ieee ad = true) (h3 : notNegative ieee rel = true) :
    e'.phaseOk ieee = true := by
  unfold envBlock at h
  split at h
  · simp only [bind_ok] at h
    obtain ⟨_, -, h⟩ := h
    cases h
    exact hp
  · obtain ⟨lv, inc, -, hi, rfl, -⟩ := (envRender_ok _ _ _ _ _ _ _ _).1 h
    have hg : notNegative ieee (envGate ieee u lv a.gate e).phase = true := by
      simp only [Env.phaseOk, Bool.and_eq_true] at hp
      unfold envGate
      split <;> split <;> first | exact hp.1 | exact (by decide : notNegative ieee r0 = true)
    generalize envGate ieee u lv a.gate e = g at hg
    have hm : notNegative ieee (rAdd ieee g.phase (rMul ieee (rMul ieee (inc.get g.stage) rate)
      (if g.stage = 3 then rel else ad)))
        = true := by
      refine notNegative_rAdd _ _ hg (notNegative_rMul _ _ (notNegative_rMul _ _ (e.ratesOk_incr hr _ hi _) h1) ?_)
      split
      · exact h3
      · exact h2
    unfold envAdvance
    simp only
    generalize rAdd ieee g.phase _ = y at hm
    split
    · split
      · exact (by decide : (notNegative ieee (r1 ieee) && !rLt ieee (r1 ieee) (r1 ieee)) = true)
      · exact (by decide : (notNegative ieee r0 && !rLt ieee (r1 ieee) r0) = true)
    · rename_i hl
      simp only [Env.phaseOk, hm, Bool.true_and]
      rw [rLt_of_not_rLe _ _ _ (by simpa using hl)]
      rfl

/-- RENDER's rates are not below 0.0 (R242, R247). -/
theorem adScale_notNegative (cfg : Config.Params) (x : RealBits) : notNegative ieee (adScale ieee cfg x) = true :=
  (notNegative_iff _).2 (exp2_nonneg _ _)

theorem releaseScale_notNegative (cfg : Config.Params) (x : RealBits) :
    notNegative ieee (releaseScale ieee cfg x) = true :=
  (notNegative_iff _).2 (exp2_nonneg _ _)

theorem envelopeRate_notNegative (a : RenderArgs) (h : 0 ≤ a.block) : notNegative ieee (envelopeRate ieee a) = true :=
  notNegative_of_sign _ (rOfInt_sign _ h)

theorem rateScaling_notNegative (cfg : Config.Params) (note : RealBits) (rs : Nat) :
    notNegative ieee (rateScaling ieee cfg note rs) = true :=
  (notNegative_iff _).2 (exp2_nonneg _ _)

/-! ### The LFO -/

/-- LCFG's rates are not below 0.0 (R217). -/
theorem lfoConfigure_ratesOk (cfg : Config.Params) (p : LfoPatch) (sr : RealBits) (l : Lfo)
    (h : rSign ieee sr = false) : (lfoConfigure ieee cfg p sr l).ratesOk ieee = true := by
  have h1 : rSign ieee (lfoFrequency ieee p.rate) = false := rMul_sign _ _ (rOfNat_sign _) (rLit_sign _ _)
  have h2 : rSign ieee (lfoDelay ieee p.delay).1 = false ∧ rSign ieee (lfoDelay ieee p.delay).2 = false := by
    unfold lfoDelay
    simp only
    split
    all_goals dsimp only
    · exact ⟨rLit_sign _ _, rLit_sign _ _⟩
    · exact ⟨rMul_sign _ _ (rOfNat_sign _) (rLit_sign _ _), rMul_sign _ _ (rOfNat_sign _) (rLit_sign _ _)⟩
  simp only [Lfo.ratesOk, lfoConfigure, noneOrNotNegative, Bool.and_eq_true]
  exact ⟨⟨notNegative_of_sign _ (rDiv_sign _ _ h1 h), notNegative_of_sign _ (rDiv_sign _ _ h2.1 h)⟩,
    notNegative_of_sign _ (rDiv_sign _ _ h2.2 h)⟩

/-- LSTEP keeps both phases in their ranges (R218, R220). -/
theorem lfoAdvance_phasesOk (sc f d0 d1 x : RealBits) (l : Lfo) (h : l.phasesOk ieee = true)
    (hs : notNegative ieee sc = true) (hf : notNegative ieee f = true) (h0 : notNegative ieee d0 = true)
    (h1 : notNegative ieee d1 = true) : (lfoAdvance ieee sc f d0 d1 x l).phasesOk ieee = true := by
  simp only [Lfo.phasesOk, Bool.and_eq_true, Bool.not_eq_eq_eq_not, Bool.not_true] at h ⊢
  refine ⟨⟨?_, ?_⟩, lfoAdvance_delay _ _ _ _ _ _ _⟩
  · have hm := notNegative_rAdd _ _ h.1.1 (notNegative_rMul _ _ hs hf)
    simp only [lfoAdvance]
    split
    · rename_i hw
      exact (notNegative_iff _).2 (rSub_sign _ _ hw).1
    · exact hm
  · have hd : notNegative ieee (rAdd ieee l.delayPhase (rMul ieee sc
    (if rLt ieee l.delayPhase (rHalf ieee) = true then d0 else d1))) = true := by
      refine notNegative_rAdd _ _ h.1.2 (notNegative_rMul _ _ hs ?_)
      split
      · exact h0
      · exact h1
    simp only [lfoAdvance]
    generalize rAdd ieee l.delayPhase _ = y at hd
    split
    · exact (by decide : notNegative ieee (r1 ieee) = true)
    · exact hd

/-- LSCRUB leaves both phases in their ranges (R218, R222). -/
theorem lfoScrub_phasesOk (t f d0 d1 x : RealBits) (l : Lfo) (ht : nonNegOperand ieee t = true)
    (hf : notNegative ieee f = true) (h0 : notNegative ieee d0 = true) (h1 : notNegative ieee d1 = true) :
    (lfoScrub ieee t f d0 d1 x l).phasesOk ieee = true := by
  simp only [nonNegOperand, Bool.and_eq_true, Bool.not_eq_eq_eq_not, Bool.not_true] at ht
  have hs : notNegative ieee t = true := (notNegative_iff t).2 ht.2
  simp only [Lfo.phasesOk, Bool.and_eq_true, Bool.not_eq_eq_eq_not, Bool.not_true]
  refine ⟨⟨?_, ?_⟩, lfoScrub_delay _ _ _ _ _ _⟩
  · exact (notNegative_iff _).2 (rSub_rFloor_notNeg _ ((notNegative_iff _).1 (notNegative_rMul _ _ hs hf)))
  · simp only [lfoScrub]
    split
    · rename_i hd
      split
      · exact (by decide : notNegative ieee (r1 ieee) = true)
      · refine notNegative_rAdd _ _ (by decide) (notNegative_rMul _ _ ?_ h1)
        exact (notNegative_iff _).2 (onset_notNeg t d0 ht.1 ht.2 ((notNegative_iff _).1 h0) hd)
    · exact notNegative_rMul _ _ hs h0

end Sys2Proof.Machine
end

