-- ==== Sys2Proof/Laws/Router.lean ====
section
/-!
SUPPORT. The router: what `compile`'s loops can give, a plan's calls as chain calls and as instructions, and what running
a plan leaves (43_algorithm_router.md R176 to R180).
-/
namespace Sys2Proof.Machine

/-! ### A specialization's chain call (R150) -/

/-- The chain length of a specialization. -/
def ChainSpec.len (x : ChainSpec) : Nat :=
  match x with
  | .ch2Fb1A => 2
  | .ch3Fb2A => 3
  | _ => 1

/-- Its modulation source. -/
def ChainSpec.src (x : ChainSpec) : Source :=
  match x with
  | .ch1NoneW => .none
  | .ch1NoneA => .none
  | .ch1ExtW => .external
  | .ch1ExtA => .external
  | .ch1Fb0W => .feedback 0
  | .ch1Fb0A => .feedback 0
  | .ch2Fb1A => .feedback 1
  | .ch3Fb2A => .feedback 2

/-- Whether it adds. -/
def ChainSpec.adds (x : ChainSpec) : Bool :=
  match x with
  | .ch1NoneW => false
  | .ch1ExtW => false
  | .ch1Fb0W => false
  | _ => true

/-- The table of the eight specializations, read backwards. -/
theorem specOf_eq_some (n : Nat) (src : Source) (add : Bool) (x : ChainSpec) :
    specOf n src add = some x ↔ n = x.len ∧ src = x.src ∧ add = x.adds := by
  constructor
  · intro h
    unfold specOf at h
    split at h <;> first | (cases h; exact ⟨rfl, rfl, rfl⟩) | cases h
  · rintro ⟨rfl, rfl, rfl⟩
    cases x <;> rfl

/-- Every specialization's tap is at its last operator. -/
theorem ChainSpec.tapLast (x : ChainSpec) : Machine.tapLast x.src x.len = true := by cases x <;> rfl

theorem ChainSpec.one_le_len (x : ChainSpec) : 1 ≤ x.len := by cases x <;> decide

/-- Issuing a call is the chain call of its specialization. -/
theorem runCall_eq (c : Call) (s : State) (h : c.first < 6) :
    runCall c s = chainCall Config.bmax c.spec.len c.spec.src c.spec.adds c.first c.inp c.out s := by
  obtain ⟨x, first, n, add, inp, out⟩ := c
  simp only at h
  simp only [runCall, dif_pos h]
  cases x <;> exact resume_finish _

/-- Issuing a call is executing its instruction (R179). -/
theorem runCall_instr (c : Call) (i : Instr) (s : State) (h : c.instr = some i) : finish (runCall c s) = exec i s := by
  obtain ⟨x, first, n, add, inp, out⟩ := c
  unfold Call.instr at h
  split at h
  · rename_i hf
    simp only at hf
    rw [runCall_eq _ _ hf]
    cases x <;> (simp only [Option.some.injEq] at h; subst h; rfl)
  · cases h

/-- A call of an operator that exists has an instruction. -/
theorem Call.instr_isSome (c : Call) (h : c.first < 6) : ∃ i, c.instr = some i := by
  obtain ⟨x, first, n, add, inp, out⟩ := c
  simp only at h
  simp only [Call.instr, dif_pos h]
  cases x <;> exact ⟨_, rfl⟩

/-- Running a plan is executing its instructions one after the other. -/
theorem runPlan_execAll (plan : List Call) (is : List Instr) (s : State) (h : plan.mapM Call.instr = some is) :
    finish (runPlan plan s) = execAll is s := by
  induction plan generalizing is s with
  | nil =>
    simp only [List.mapM_nil, Option.pure_def, Option.some.injEq] at h
    subst h
    rfl
  | cons c rest ih =>
    simp only [List.mapM_cons, Option.pure_def, Option.bind_eq_bind, Option.bind_eq_some_iff, Option.some.injEq] at h
    obtain ⟨i, hi, js, hjs, rfl⟩ := h
    have hc := runCall_instr c i s hi
    simp only [runPlan, execAll]
    rw [← hc]
    cases hr : runCall c s with
    | ok s' => simp only [ok_bind, finish_ok]; exact ih js s' hjs
    | error e => cases e <;> rfl

/-! ### What compile gives (R176, R180) -/

/-- A chain is at least one opcode and no longer than the row. -/
theorem extendChain_bounds (first prev : Byte) (rest : List Byte) (n : Nat) (hn : 1 ≤ n) :
    1 ≤ extendChain first prev rest n ∧ extendChain first prev rest n ≤ n + rest.length := by
  induction rest generalizing prev n with
  | nil => simp [extendChain, hn]
  | cons next rest ih =>
    simp only [extendChain, List.length_cons]
    split
    · split <;> omega
    · have := ih next (n + 1) (by omega)
      omega

/-- A chain of more than one opcode: each but the last overwrites the slot the next one reads. -/
theorem extendChain_links (first prev : Byte) (rest : List Byte) (n : Nat) (j : Nat) (hn : 1 ≤ n)
    (hj : n + j < extendChain first prev rest n) :
    ∃ x y, (prev :: rest)[j]? = some x ∧ rest[j]? = some y ∧ opcodeAdd x = false ∧ opcodeDst x = opcodeSrc y := by
  induction rest generalizing prev n j with
  | nil => simp only [extendChain] at hj; omega
  | cons next rest ih =>
    simp only [extendChain] at hj
    split at hj
    · split at hj <;> omega
    · rename_i hc
      simp only [Bool.or_eq_true, bne_iff_ne, ne_eq, not_or, Bool.not_eq_true, not_not] at hc
      cases j with
      | zero => exact ⟨prev, next, rfl, rfl, hc.1, hc.2⟩
      | succ j =>
        obtain ⟨x, y, h1, h2, h3, h4⟩ := ih next (n + 1) j (by omega) (by omega)
        exact ⟨x, y, by simpa using h1, by simpa using h2, h3, h4⟩

/-- The last tap of a list of opcodes is a position of it whose tap bit is set. -/
theorem lastTap_spec (l : List Byte) (j : Nat) (found : Option Nat) (k : Nat) (h : lastTap l j found = some k) :
    found = some k ∨ ∃ i o, k = j + i ∧ l[i]? = some o ∧ opcodeTap o = true := by
  induction l generalizing j found with
  | nil => exact .inl h
  | cons o rest ih =>
    simp only [lastTap] at h
    rcases ih (j + 1) _ h with h' | ⟨i, x, rfl, h2, h3⟩
    · split at h'
      · rename_i ht
        cases h'
        exact .inr ⟨0, o, rfl, rfl, ht⟩
      · exact .inl h'
    · exact .inr ⟨i + 1, x, by omega, by simpa using h2, h3⟩

/-- Everything `callOf` can give. -/
theorem callOf_eq_some (i : Nat) (chain : List Byte) (c : Call) (h : callOf i chain = some c) :
    ∃ first rest src, chain = first :: rest ∧ chainSource chain = some src ∧ c.first = i ∧ c.n = chain.length ∧
      specOf c.n src c.add = some c.spec ∧ c.add = opcodeAdd (chain.getLastD first) ∧ c.inp = opcodeSrc first ∧
      c.out = opcodeDst (chain.getLastD first) := by
  unfold callOf at h
  split at h
  · cases h
  · rename_i first rest
    simp only at h
    split at h
    · cases h
    · rename_i src hsrc
      split at h
      · cases h
      · rename_i spec hspec
        cases h
        exact ⟨first, rest, src, rfl, hsrc, rfl, rfl, hspec, rfl, rfl, rfl⟩

/-- Everything one turn of the outer loop can give: a call of the first `n` opcodes, `n` at least one and not more than
there are. -/
theorem callAt_eq_some (i : Nat) (ops : List Byte) (c : Call) (h : callAt i ops = some c) :
    1 ≤ c.n ∧ c.n ≤ ops.length ∧ callOf i (ops.take c.n) = some c ∧
      ∀ j, j + 1 < c.n → ∃ x y, ops[j]? = some x ∧ ops[j + 1]? = some y ∧ opcodeAdd x = false ∧
        opcodeDst x = opcodeSrc y := by
  unfold callAt at h
  split at h
  · cases h
  · rename_i first rest
    obtain ⟨b1, b2⟩ := extendChain_bounds first first rest 1 (Nat.le_refl 1)
    simp only at h
    split at h
    · rename_i d hd
      cases h
      obtain ⟨-, -, -, -, -, -, hn, -⟩ := callOf_eq_some _ _ _ hd
      rw [List.length_take, List.length_cons] at hn
      have hn' : c.n = extendChain first first rest 1 := by omega
      refine ⟨by omega, by rw [List.length_cons]; omega, by rw [hn']; exact hd, fun j hj => ?_⟩
      obtain ⟨x, y, h1, h2, h3, h4⟩ := extendChain_links first first rest 1 j (Nat.le_refl 1) (by omega)
      exact ⟨x, y, h1, by simpa using h2, h3, h4⟩
    · split at h
      · obtain ⟨-, -, -, -, -, -, hn, -⟩ := callOf_eq_some _ _ _ h
        have hn' : c.n = 1 := by simpa using hn
        refine ⟨by omega, by rw [List.length_cons]; omega, by rw [hn']; exact h, fun j hj => ?_⟩
        omega
      · cases h

/-- One call of a plan was given by one turn of the loop, at an index of the row. -/
theorem compileFrom_mem (fuel i : Nat) (ops : List Byte) (plan : List Call) (h : compileFrom fuel i ops = some plan)
    (c : Call) (hc : c ∈ plan) :
    ∃ j, c.first = i + j ∧ j < ops.length ∧ callAt c.first (ops.drop j) = some c := by
  induction fuel generalizing i ops plan with
  | zero =>
    cases ops with
    | nil => simp only [compileFrom, Option.some.injEq] at h; subst h; cases hc
    | cons o rest => cases h
  | succ fuel ih =>
    cases ops with
    | nil => simp only [compileFrom, Option.some.injEq] at h; subst h; cases hc
    | cons o rest =>
      simp only [compileFrom] at h
      split at h
      · cases h
      · rename_i d hd
        split at h
        · cases h
        · rename_i plan' hp
          cases h
          have hfirst : d.first = i := by
            obtain ⟨-, -, h3, -⟩ := callAt_eq_some _ _ _ hd
            obtain ⟨-, -, -, -, -, hf, -⟩ := callOf_eq_some _ _ _ h3
            exact hf
          obtain ⟨b1, b2, -, -⟩ := callAt_eq_some _ _ _ hd
          rcases List.mem_cons.1 hc with rfl | hc'
          · exact ⟨0, by omega, by simp, by rw [hfirst]; exact hd⟩
          · obtain ⟨j, h1, h2, h3⟩ := ih _ _ _ hp hc'
            rw [List.length_drop] at h2
            refine ⟨d.n + j, by omega, by omega, ?_⟩
            rw [← h3, List.drop_drop]

/-- The calls of a plan name operators that exist, with their specialization's length. -/
theorem compile_mem (row : Six Byte) (plan : List Call) (h : compile row = some plan) (c : Call) (hc : c ∈ plan) :
    c.first < 6 ∧ 1 ≤ c.n ∧ c.first + c.n ≤ 6 ∧ c.n = c.spec.len ∧
      callAt c.first (row.toList.drop c.first) = some c := by
  obtain ⟨j, h1, h2, h3⟩ := compileFrom_mem _ _ _ _ h c hc
  have hl : row.toList.length = 6 := rfl
  rw [hl] at h2
  obtain ⟨b1, b2, h4, -⟩ := callAt_eq_some _ _ _ h3
  rw [List.length_drop, hl] at b2
  obtain ⟨-, -, src, -, -, -, -, hspec, -⟩ := callOf_eq_some _ _ _ h4
  rw [show c.first = j by omega] at *
  exact ⟨h2, b1, by omega, ((specOf_eq_some _ _ _ _).1 hspec).1, h3⟩

/-- Every plan's calls are instructions. -/
theorem compile_instrs (row : Six Byte) (plan : List Call) (h : compile row = some plan) :
    ∃ is, plan.mapM Call.instr = some is := by
  have hall := compile_mem row plan h
  clear h
  induction plan with
  | nil => exact ⟨[], rfl⟩
  | cons c rest ih =>
    obtain ⟨i, hi⟩ := Call.instr_isSome c (hall c (List.mem_cons_self ..)).1
    obtain ⟨js, hjs⟩ := ih fun d hd => hall d (List.mem_cons_of_mem _ hd)
    exact ⟨i :: js, by simp [List.mapM_cons, hi, hjs]⟩

/-! ### Running a plan -/

/-- What running a plan leaves as it was: everything but the operators, the feedback history, the buffer and the router
index; every sample at or beyond the block, and every slot no call writes; and the buffer keeps its form. -/
theorem runPlan_frame (plan : List Call) (s t : State) (h : runPlan plan s = .ok t) (c : RenderCtx)
    (hrc : s.rc = some c) (hc : ∀ x ∈ plan, x.first < 6) :
    t = { s with ops := t.ops, buf := t.buf, fb0 := t.fb0, fb1 := t.fb1, rc := t.rc } ∧
      (∃ c', t.rc = some c' ∧ c'.block = c.block ∧ c'.f = c.f ∧ c'.a = c.a ∧ c'.row = c.row ∧
        (c.index ≤ 6 → c'.index ≤ 6)) ∧
      (∀ slot i, c.block ≤ i → t.sample slot i = s.sample slot i) ∧
      (∀ slot i, (∀ x ∈ plan, x.out.toNat ≠ slot) → t.sample slot i = s.sample slot i) ∧
      (Memory.wf s.buf = true → Memory.wf t.buf = true) := by
  induction plan generalizing s c with
  | nil =>
    cases h
    exact ⟨rfl, ⟨c, hrc, rfl, rfl, rfl, rfl, id⟩, fun _ _ _ => rfl, fun _ _ _ => rfl, id⟩
  | cons x rest ih =>
    simp only [runPlan, bind_ok] at h
    obtain ⟨u, hu, h⟩ := h
    rw [runCall_eq _ _ (hc x (List.mem_cons_self ..))] at hu
    obtain ⟨d, scale, hin, hfit, hscale, hr, ho⟩ := chainCall_found _ _ _ _ _ _ _ _ hu
    obtain ⟨u', hu', ⟨f1, f2, f3⟩, -, -, -, hwf⟩ :=
      chainCall_completes _ _ _ _ _ _ _ d scale x.spec.one_le_len hfit x.spec.tapLast hin hscale hr ho
    rw [hu] at hu'
    cases hu'
    have hd : d = c := by have := hin.1; rw [hrc] at this; cases this; rfl
    subst hd
    have hurc : u.rc = some { d with index := x.first + x.spec.len } := by rw [f1]
    obtain ⟨g1, ⟨c', g2, g3, g4, g5, g6, g7⟩, g8, g9, g10⟩ := ih u h _ hurc fun y hy => hc y (List.mem_cons_of_mem _ hy)
    refine ⟨?_, ⟨c', g2, g3, g4, g5, g6, fun _ => g7 hfit⟩, ?_, ?_, fun hw => g10 (hwf hw)⟩
    · rw [g1, f1]
    · intro slot i hi
      rw [g8 slot i hi, f3 slot i (.inr hi)]
    · intro slot i hi
      rw [g9 slot i fun y hy => hi y (List.mem_cons_of_mem _ hy),
        f3 slot i (.inl fun he => hi x (List.mem_cons_self ..) he.symm)]

/-- A written sample stays written through a call. -/
theorem blockWritten_mono (s t : State) (c : RenderCtx) (first n : Nat) (out : Slot) (slot : Slot)
    (hf : chainFrame s t c first n out)
    (hw : ∀ i < c.block, ∃ v, t.sample out.toNat i = some v) (h : s.blockWritten slot c.block) :
    t.blockWritten slot c.block := by
  intro i hi
  by_cases hs : slot = out
  · subst hs; exact hw i hi
  · rw [hf.2.2 slot.toNat i (.inl fun he => hs (BitVec.eq_of_toNat_eq he))]
    exact h i hi

/-- The slots a call needs are those its specialization reads as EXTERNAL or adds into. -/
theorem Call.needs_spec (c : Call) (slot : Slot) :
    slot ∈ c.needs ↔ (c.spec.src = .external ∧ slot = c.inp) ∨ (c.spec.adds = true ∧ slot = c.out) := by
  obtain ⟨x, first, n, add, inp, out⟩ := c
  cases x <;> simp [Call.needs, ChainSpec.src, ChainSpec.adds]

/-- A plan runs to its end inside a RENDER with a patch loaded, all targets in the renderer's types, and the slots it
reads before it writes them written over the block; `done` are slots already written. -/
theorem runPlan_completes (plan : List Call) (s : State) (c : RenderCtx) (p : Patch) (hrc : s.rc = some c)
    (hb : c.block ≤ Config.bmax) (hp : s.patch = some p)
    (hops : ∀ k < 6, callFreqOk s.formats (c.f.get k) = true ∧ callAmpOk s.formats (c.a.get k) = true)
    (hc : ∀ x ∈ plan, x.first < 6 ∧ x.first + x.spec.len ≤ 6) (done : List Slot)
    (hd : ∀ slot ∈ done, s.blockWritten slot c.block)
    (hw : ∀ slot ∈ readsFirst done plan, s.blockWritten slot c.block) :
    ∃ t, runPlan plan s = .ok t := by
  induction plan generalizing s c done with
  | nil => exact ⟨s, rfl⟩
  | cons x rest ih =>
    obtain ⟨hx, hfit⟩ := hc x (List.mem_cons_self ..)
    have hscale : ∃ y, chainScale x.spec.src s = .ok y := by
      cases hf : x.spec.src.isFeedback with
      | true => exact ⟨_, (chainScale_ok _ _ _).2 (.inl ⟨hf, p, hp, rfl⟩)⟩
      | false => exact ⟨_, (chainScale_ok _ _ _).2 (.inr ⟨hf, rfl⟩)⟩
    obtain ⟨y, hy⟩ := hscale
    have hneed : ∀ slot ∈ x.needs, s.blockWritten slot c.block := by
      intro slot hs
      by_cases hm : slot ∈ done
      · exact hd slot hm
      · refine hw slot (List.mem_append_left _ (List.mem_filter.2 ⟨hs, ?_⟩))
        simpa using hm
    have hin : x.spec.src = .external → s.blockWritten x.inp c.block := fun h =>
      hneed _ ((x.needs_spec _).2 (.inl ⟨h, rfl⟩))
    have hold : x.spec.adds = true → s.blockWritten x.out c.block := fun h =>
      hneed _ ((x.needs_spec _).2 (.inr ⟨h, rfl⟩))
    obtain ⟨u, hu, hframe, -, -, hout, -⟩ := chainCall_completes x.spec.len x.spec.src x.spec.adds x.first x.inp x.out
      s c y x.spec.one_le_len hfit x.spec.tapLast ⟨hrc, hb, fun k h1 h2 => hops k (by omega)⟩ hy hin hold
    have hwritten : u.blockWritten x.out c.block := by
      intro i hi
      have hval : ∀ slot : Slot, ∃ v, ∀ w, s.sample slot.toNat i = some w →
        s.sample slot.toNat i = some v := fun slot => by
        cases h : s.sample slot.toNat i with
        | none => exact ⟨0, fun w hw => by cases hw⟩
        | some v => exact ⟨v, fun _ _ => rfl⟩
      obtain ⟨a, ha⟩ := hval x.inp
      obtain ⟨b, hb'⟩ := hval x.out
      exact ⟨_, hout i hi a b (fun h => (hin h i hi).elim ha) (fun h => (hold h i hi).elim hb')⟩
    have hurc : u.rc = some { c with index := x.first + x.spec.len } := by rw [hframe.1]
    obtain ⟨t, ht⟩ := ih u { c with index := x.first + x.spec.len } hurc hb (by rw [hframe.1]; exact hp)
      (by rw [hframe.1]; exact hops)
      (fun z hz => hc z (List.mem_cons_of_mem _ hz)) (x.out :: done)
      (fun slot hs => by
        rcases List.mem_cons.1 hs with rfl | hs
        · exact hwritten
        · exact blockWritten_mono s u c _ _ _ slot hframe hwritten (hd slot hs))
      (fun slot hs => blockWritten_mono s u c _ _ _ slot hframe hwritten (hw slot (List.mem_append_right _ hs)))
    refine ⟨t, ?_⟩
    simp only [runPlan, runCall_eq _ _ hx, hu, ok_bind, ht]

/-! ### The instructions of formats R and K as chain calls -/

/-- A routing opcode inside a RENDER before its end is the call its turn of the loop gives, or is refused. -/
theorem routeOpcode_cases (o : Byte) (s : State) :
    (∃ r, routeOpcode o s = refuse r) ∨
      ∃ c call, s.rc = some c ∧ c.index < 6 ∧
        callAt c.index (o :: c.row.toList.drop (c.index + 1)) = some call ∧ routeOpcode o s = runCall call s := by
  unfold routeOpcode
  cases hrc : s.rc with
  | none => exact .inl ⟨_, rfl⟩
  | some c =>
    simp only [written_some, ok_bind]
    by_cases hi : c.index < 6
    · simp only [hi, decide_true, require_true, ok_bind]
      cases hc : callAt c.index (o :: c.row.toList.drop (c.index + 1)) with
      | none => exact .inl ⟨_, rfl⟩
      | some call => exact .inr ⟨c, call, rfl, hi, hc, by simp only [written_some, ok_bind]⟩
    · simp only [hi, decide_false, require_false, refuse_bind]
      exact .inl ⟨_, rfl⟩

/-- Every instruction of formats R and K is refused, or is one chain call of one of the eight specializations. -/
theorem exec_inner (i : Instr) (s : State) (h : (encode i).format ≠ .command) :
    (∃ r, exec i s = .refused r) ∨
      ∃ (x : ChainSpec) (first : Nat) (inp out : Slot),
        exec i s = finish (chainCall Config.bmax x.len x.src x.adds first inp out s) := by
  have hroute : ∀ o, (∃ r, finish (routeOpcode o s) = .refused r) ∨
      ∃ (x : ChainSpec) (first : Nat) (inp out : Slot),
        finish (routeOpcode o s) = finish (chainCall Config.bmax x.len x.src x.adds first inp out s) := by
    intro o
    rcases routeOpcode_cases o s with ⟨r, hr⟩ | ⟨c, call, -, hi, hc, hr⟩
    · exact .inl ⟨r, by rw [hr]; rfl⟩
    · obtain ⟨-, -, h3, -⟩ := callAt_eq_some _ _ _ hc
      obtain ⟨-, -, -, -, -, hf, -⟩ := callOf_eq_some _ _ _ h3
      exact .inr ⟨call.spec, call.first, call.inp, call.out, by rw [hr, runCall_eq _ _ (by omega)]⟩
  cases i with
  | opn dst add tap => exact hroute _
  | opx1 dst add tap => exact hroute _
  | opx2 dst add tap => exact hroute _
  | opf dst add tap => exact hroute _
  | ch1NoneW first inp out => exact .inr ⟨.ch1NoneW, first.val, inp, out, rfl⟩
  | ch1NoneA first inp out => exact .inr ⟨.ch1NoneA, first.val, inp, out, rfl⟩
  | ch1ExtW first inp out => exact .inr ⟨.ch1ExtW, first.val, inp, out, rfl⟩
  | ch1ExtA first inp out => exact .inr ⟨.ch1ExtA, first.val, inp, out, rfl⟩
  | ch1Fb0W first inp out => exact .inr ⟨.ch1Fb0W, first.val, inp, out, rfl⟩
  | ch1Fb0A first inp out => exact .inr ⟨.ch1Fb0A, first.val, inp, out, rfl⟩
  | ch2Fb1A first inp out => exact .inr ⟨.ch2Fb1A, first.val, inp, out, rfl⟩
  | ch3Fb2A first inp out => exact .inr ⟨.ch3Fb2A, first.val, inp, out, rfl⟩
  | vreset sr => exact absurd rfl h
  | pload img => exact absurd rfl h
  | setup => exact absurd rfl h
  | render a => exact absurd rfl h
  | opreset k => exact absurd rfl h
  | lcfg => exact absurd rfl h
  | lreset => exact absurd rfl h
  | lstep scale => exact absurd rfl h
  | lscrub sample => exact absurd rfl h
  | bunpack bank => exact absurd rfl h

/-- Everything an instruction of format R or K can do when it answers: inside a RENDER, one chain call's effect. -/
theorem exec_inner_next (i : Instr) (s t : State) (h : (encode i).format ≠ .command) (hx : exec i s = .next t) :
    ∃ (x : ChainSpec) (first : Nat) (out : Slot) (c : RenderCtx),
      s.rc = some c ∧ c.block ≤ Config.bmax ∧ first + x.len ≤ 6 ∧ chainFrame s t c first x.len out ∧
        (Memory.wf s.buf = true → Memory.wf t.buf = true) := by
  rcases exec_inner i s h with ⟨r, hr⟩ | ⟨x, first, inp, out, hr⟩
  · rw [hr] at hx; cases hx
  · rw [hr, finish_next] at hx
    obtain ⟨c, scale, hin, hfit, hscale, hu, ho⟩ := chainCall_found _ _ _ _ _ _ _ _ hx
    obtain ⟨t', ht', hframe, -, -, -, hwf⟩ :=
      chainCall_completes _ _ _ _ _ _ _ c scale x.one_le_len hfit x.tapLast hin hscale hu ho
    rw [hx] at ht'
    cases ht'
    exact ⟨x, first, out, c, hin.1, hin.2.1, hfit, hframe, hwf⟩

/-- A chain call inside a RENDER of at most BMAX samples never faults. -/
theorem chainCall_no_fault (n : Nat) (src : Source) (add : Bool) (first : Nat) (inp out : Slot) (s : State)
    (hrc : ∀ c, s.rc = some c → c.block ≤ Config.bmax) (r : Fault) :
    chainCall Config.bmax n src add first inp out s ≠ faultWith r := by
  unfold chainCall
  cases h : s.rc with
  | none => exact fun h => by cases h
  | some c =>
    simp only [written_some, ok_bind]
    by_cases h1 : first + n ≤ 6
    · simp only [h1, decide_true, require_true, ok_bind]
      cases h2 : chainOperandsOk s.formats c first n with
      | false => exact fun h => by cases h
      | true =>
        simp only [require_true, ok_bind]
        have hs : (∃ y, chainScale src s = .ok y) ∨ chainScale src s = refuse .noPatchLoaded := by
          unfold chainScale
          cases src.isFeedback with
          | false => exact .inl ⟨_, rfl⟩
          | true =>
            cases s.patch with
            | none => exact .inr rfl
            | some p => exact .inl ⟨_, rfl⟩
        rcases hs with ⟨y, hy⟩ | hy
        · simp only [hy, ok_bind]
          rcases chainSamples_cases s.formats src add y inp out c.block 0
            ⟨chainLanes s.formats s.ops c first n, s.fb0, s.fb1, s.buf⟩ (by have := hrc c h; omega) with ⟨z, hz⟩ | hz
          · simp only [hz, ok_bind]
            exact fun h => by cases h
          · simp only [hz, refuse_bind]
            exact fun h => by cases h
        · simp only [hy, refuse_bind]
          exact fun h => by cases h
    · simp only [h1, decide_false, require_false, refuse_bind]
      exact fun h => by cases h

end Sys2Proof.Machine
end

