-- ==== Sys2Proof/Tests/Slice0.lean ====
section
/-!
SUPPORT. The model's own tests: the well-formedness smoke tests, one word of every instruction written out from the
tables of 30_encoding.md, one or two steps of every instruction against values printed in spec/ (the rule or the
section of 95_test_vectors.md stands beside each), and a witness for every obligation that has hypotheses.
-/
namespace Sys2Proof.Tests
/- The kernel evaluations one after another: side by side, their stacks need more memory than the checks allow. -/
set_option Elab.async false
open Sys2Proof Sys2Proof.Machine

/-! ### Well-formedness: each check refuses an ill-formed term (R85, R82) -/

theorem test_wf_refuses_ch2_past_operator_5 : Instr.wellFormed (.ch2Fb1A 5 3#2 0#2) = false := by decide
theorem test_wf_refuses_ch3_past_operator_5 : Instr.wellFormed (.ch3Fb2A 4 3#2 0#2) = false := by decide
theorem test_wf_refuses_extW_reading_output : Instr.wellFormed (.ch1ExtW 0 0#2 1#2) = false := by decide
theorem test_wf_refuses_extA_reading_slot_3 : Instr.wellFormed (.ch1ExtA 0 3#2 0#2) = false := by decide
theorem test_wf_takes_the_last_chains :
    Instr.wellFormed (.ch2Fb1A 4 3#2 0#2) = true ∧ Instr.wellFormed (.ch3Fb2A 3 3#2 0#2) = true ∧
      Instr.wellFormed (.ch1ExtW 5 2#2 3#2) = true := by decide

/-! ### Decoding: words written out bit by bit from R81 to R86 -/

/-- 0x47, 0x14, 0x22, 0x74 of 95_test_vectors.md §2.4. -/
theorem test_decode_routing :
    decode ⟨.routing, 0b01000111#8, []⟩ = .ok (.opn 3#2 true true) ∧
    decode ⟨.routing, 0b00010100#8, []⟩ = .ok (.opx1 0#2 true false) ∧
    decode ⟨.routing, 0b00100010#8, []⟩ = .ok (.opx2 2#2 false false) ∧
    decode ⟨.routing, 0b01110100#8, []⟩ = .ok (.opf 0#2 true true) := by decide

/-- The selectors of R85: n − 1, S + 2 and A. -/
theorem test_decode_chain :
    decode ⟨.chain, 0b00000010#8, [.int 4, .int 0, .int 1]⟩ = .ok (.ch1NoneW 4 0#2 1#2) ∧
    decode ⟨.chain, 0b00000011#8, [.int 1, .int 0, .int 0]⟩ = .ok (.ch1NoneA 1 0#2 0#2) ∧
    decode ⟨.chain, 0b00000000#8, [.int 2, .int 1, .int 1]⟩ = .ok (.ch1ExtW 2 1#2 1#2) ∧
    decode ⟨.chain, 0b00000001#8, [.int 5, .int 2, .int 0]⟩ = .ok (.ch1ExtA 5 2#2 0#2) ∧
    decode ⟨.chain, 0b00000100#8, [.int 0, .int 3, .int 1]⟩ = .ok (.ch1Fb0W 0 3#2 1#2) ∧
    decode ⟨.chain, 0b00000101#8, [.int 3, .int 3, .int 0]⟩ = .ok (.ch1Fb0A 3 3#2 0#2) ∧
    decode ⟨.chain, 0b00010111#8, [.int 0, .int 3, .int 0]⟩ = .ok (.ch2Fb1A 0 3#2 0#2) ∧
    decode ⟨.chain, 0b00101001#8, [.int 0, .int 3, .int 0]⟩ = .ok (.ch3Fb2A 0 3#2 0#2) := by decide

/-- The codes of R86, with their operands. -/
theorem test_decode_command :
    decode ⟨.command, 0x01#8, [.real 0x40E5888000000000]⟩ = .ok (.vreset 0x40E5888000000000) ∧
    decode ⟨.command, 0x02#8, [.bytes [0x63#8]]⟩ = .ok (.pload [0x63#8]) ∧
    decode ⟨.command, 0x03#8, []⟩ = .ok .setup ∧
    decode ⟨.command, 0x05#8, [.int 2]⟩ = .ok (.opreset 2) ∧
    decode ⟨.command, 0x08#8, []⟩ = .ok .lcfg ∧
    decode ⟨.command, 0x09#8, []⟩ = .ok .lreset ∧
    decode ⟨.command, 0x0A#8, [.real 0x4038000000000000]⟩ = .ok (.lstep 0x4038000000000000) ∧
    decode ⟨.command, 0x0B#8, [.real 0x408F400000000000]⟩ = .ok (.lscrub 0x408F400000000000) ∧
    decode ⟨.command, 0x10#8, [.bytes []]⟩ = .ok (.bunpack []) := by decide

/-- RENDER's eleven operands in the order of R86. -/
theorem test_decode_render :
    decode ⟨.command, 0x04#8, [.flag true, .flag false, .real 0x404E000000000000, .real 0x3FF0000000000000, .real 0x3FE0000000000000, .real 0x3FD0000000000000,
      .real 0x3FC0000000000000, .real 0x4000000000000000, .int 24, .real 0x4008000000000000, .real 0x4010000000000000]⟩ =
      .ok (.render ⟨true, false, 0x404E000000000000, 0x3FF0000000000000, 0x3FE0000000000000, 0x3FD0000000000000, 0x3FC0000000000000, 0x4000000000000000, 24, 0x4008000000000000, 0x4010000000000000⟩) := by decide

/-- The table's bare words in its three overlapping code spaces (log 13). -/
theorem test_decode_table_words :
    decodeTableWord 6 0x02 = some (.ch1NoneW 0 0#2 0#2) ∧ decodeTableWord 8 0x02 = some (.pload []) ∧
    decodeTableWord 8 0x29 = some (.ch3Fb2A 0 0#2 0#2) ∧ decodeTableWord 8 0x30 = some (.opf 0#2 false false) ∧
    decodeTableWord 8 0x10 = some (.bunpack []) ∧ decodeTableWord 8 0x88 = none := by decide

/-- The assembler text of R95 (95_test_vectors.md §2.4). -/
theorem test_assembler :
    asmOpcode 0x74#8 = "fb > out+ !" ∧ asmOpcode 0x25#8 = "b2 > b1+" ∧ asmOpcode 0x00#8 = "none > out" := by decide

/-! ### Helpers -/

/-- The next state of an outcome. -/
def after (o : Host.Outcome State Fault Refusal) : Option State :=
  match o with
  | .next s => some s
  | _ => none

/-- The refusal of an outcome. -/
def stopOf (o : Host.Outcome State Fault Refusal) : Option Refusal :=
  match o with
  | .refused r => some r
  | _ => none

/-- The patch of 128 zero bytes. -/
def zeroPatch : Patch := decodeVoice (List.replicate 128 0#8)

/-- The state after reset with that patch loaded. -/
def loaded : State := { State.reset with patch := some zeroPatch, patchValid := true }

/-- Samples written one after the other from index `i` of a slot. -/
def fill (slot : Nat) : Nat → List SampleBits → Memory → Memory
  | _, [], m => m
  | i, v :: rest, m => fill slot (i + 1) rest (memWrite m (sampleAddr slot i) v)

/-- A state inside a RENDER of block size `b` whose operator k has phase, amplitude, f and a as listed. -/
def inChain (b : Nat) (fb : Nat) (ops : List (U32 × RealBits × RealBits × RealBits)) (h0 h1 : RealBits) (m : Memory)
    (row : List Byte) :
    State :=
  let op := fun k => ops.getD k (0#32, r0, r0, r0)
  { State.reset with
    patch := some { zeroPatch with fb := fb }
    patchValid := true
    ops := Six.ofFn fun k => ⟨(op k).1, (op k).2.1⟩
    fb0 := h0
    fb1 := h1
    buf := m
    rc := some
      { index := 0, block := b, f := Six.ofFn fun k => (op k).2.2.1, a := Six.ofFn fun k => (op k).2.2.2,
        row := Six.ofFn fun k => row.getD k 0#8 } }

/-- An operator's registers and the first three samples of a slot. -/
def seen (o : Host.Outcome State Fault Refusal) (k slot : Nat) : Option (Oper × List (Option SampleBits)) :=
  (after o).map fun t => (t.ops.get k, [0, 1, 2].map fun i => memRead t.buf (sampleAddr slot i))

/-! ### Commands -/

/-- 95_test_vectors.md §2.7: `VRESET sr=48000` gives SCALE 0.91875. -/
theorem test_vreset_scale :
    (after (exec (.vreset 0x40E7700000000000) State.powerUp)).map (·.penv.scale) =
      some 0x3FED666666666666 := by decide +kernel

/-- The same where the instance's `REAL` is binary32 (R7, D2): 0.91875 rounded to 24 bits; the formats stay. -/
theorem test_vreset_binary32 :
    (after (exec (.vreset 0x473B8000) { State.powerUp with formats := ⟨binary32, binary32⟩ })).map
      (fun t => (t.penv.scale, t.formats.real)) = some (0x3F6B3333, binary32) := by decide +kernel

/-- 95_test_vectors.md §2.7: `sr=−1` is refused. -/
theorem test_vreset_negative :
    stopOf (exec (.vreset 0xBFF0000000000000) State.reset) = some .sampleRateOutOfDomain := by
  decide +kernel

/-- 95_test_vectors.md §2.9, 128 bytes of 0xFF: masks and clamps. -/
theorem test_pload_all_ones :
    (after (exec (.pload (List.replicate 128 0xFF#8)) State.reset)).bind (·.patch) =
      some
        { op := Six.ofFn fun _ =>
            { rate := ⟨99, 99, 99, 99⟩, level := ⟨99, 99, 99, 99⟩, ks := ⟨99, 99, 99, 3, 3⟩, rs := 7, ams := 3,
              vs := 7, olevel := 99, mode := 1, coarse := 31, fine := 99, detune := 14 }
          prate := ⟨99, 99, 99, 99⟩, plevel := ⟨99, 99, 99, 99⟩, alg := 31, fb := 7, resetPhase := 1
          transpose := 48
          lfo := { rate := 99, delay := 99, pmd := 99, amd := 99, sync := 1, wave := 5, pms := 7 }
          name := List.replicate 10 0x7F#8
          active := 0x3F#6 } := by decide +kernel

/-- 95_test_vectors.md §2.9: 127 bytes return BadVoiceLength. -/
theorem test_pload_short :
    (after (exec (.pload (List.replicate 127 0#8)) State.reset)).map (·.result) = some (.error .badVoiceLength) := by
  decide +kernel

/-- R193, output levels 99, rates 50, levels 0: the plateau factors, the × 20 of stage 0 among them; and HEADROOM
127 − 127 (R238). -/
theorem test_setup_envelope_and_headroom :
    let q : OpPatch := { (decodeOp [] 0) with rate := ⟨50, 50, 50, 50⟩, olevel := 99 }
    let s : State := { loaded with patch := some { zeroPatch with op := Six.ofFn fun _ => q } }
    (after (exec .setup s)).map (fun t => (t.env.o3.incr, t.headroom.o3, t.dirty)) =
      some (⟨some 0x3F68000000000000, some 0x3F23333333333333, some 0x3F23333333333333, some 0x3F23333333333333⟩,
        some 0x0000000000000000, false) := by decide +kernel

/-- 95_test_vectors.md §2.8: SETUP before PLOAD is refused. -/
theorem test_setup_no_patch : stopOf (exec .setup State.reset) = some .noPatchLoaded := by decide +kernel

/-- 95_test_vectors.md §2.8: `RENDER ... B=0` is refused. -/
theorem test_render_block_0 :
    stopOf (exec (.render ⟨true, false, 0x404E000000000000, 0x3FF0000000000000, 0x3FE0000000000000, 0x3FE0000000000000, r0, r0, 0, r0, r0⟩) loaded) =
      some .blockSizeOutOfDomain := by decide +kernel

/-- 95_test_vectors.md §2.8: `RENDER ... velocity=−0.1` is refused. -/
theorem test_render_negative_velocity :
    stopOf (exec (.render ⟨true, false, 0x404E000000000000, 0xBFB999999999999A, 0x3FE0000000000000, 0x3FE0000000000000, r0, r0, 1, r0, r0⟩) loaded) =
      some .renderOperandOutOfDomain := by decide +kernel

/-- R146: `OPRESET 2`. -/
theorem test_opreset_2 :
    (after (exec (.opreset 2) (inChain 1 0 [(1#32, r1 ieee, r0, r0), (2#32, r1 ieee, r0, r0),
      (3#32, r1 ieee, r0, r0)] r0 r0 [] []))).map
      (fun t => (t.ops.o1, t.ops.o2)) = some (⟨2#32, r1 ieee⟩, ⟨0#32, r0⟩) := by decide +kernel

/-- 95_test_vectors.md §2.8: `OPRESET k=6` is refused. -/
theorem test_opreset_6 : stopOf (exec (.opreset 6) State.reset) = some .operatorIndexOutOfDomain := by decide +kernel

/-- The LFO patch of R217's first example. -/
def lfoPatch : LfoPatch := { rate := 35, delay := 33, pmd := 50, amd := 40, sync := 1, wave := 0, pms := 3 }

/-- R217's first example. -/
theorem test_lcfg :
    (after (exec .lcfg { loaded with patch := some { zeroPatch with lfo := lfoPatch } })).map
      (fun t => (t.lfo.freq, t.lfo.delayInc0, t.lfo.delayInc1, t.lfo.amd, t.lfo.wave, t.lfo.resetPhase)) =
      some (some 0x3F2141E2D64F6126, some 0x3F1414D019F5F807, some 0x3F11D99C88DAA394, 0x3FD999999999999A, 0,
        true) := by decide +kernel

/-- An LFO configured as there, with the given waveform. -/
def lfoOn (wave : Nat) : State :=
  { loaded with
    lfo := { Lfo.reset with
      freq := some 0x3F2141E2D64F6126, delayInc0 := some 0x3F1414D019F5F807
      delayInc1 := some 0x3F11D99C88DAA394, amd := 0x3FD999999999999A, wave := wave, resetPhase := true } }

/-- R221's first row. -/
theorem test_lstep_first :
    (after (exec (.lstep 0x4038000000000000) (lfoOn 0))).map
      (fun t => (t.lfo.phase, t.lfo.value, t.lfo.delayPhase, t.draws)) =
      some (0x3F69E2D4417711B9, 0x3FEFCC3A577D11DD, 0x3F5E1F3826F0F40A, 0) := by decide +kernel

/-- 95_test_vectors.md §2.8: `LSTEP scale=−1` is refused. -/
theorem test_lstep_negative :
    stopOf (exec (.lstep 0xBFF0000000000000) (lfoOn 0)) = some .scaleOutOfDomain := by decide +kernel

/-- R223's second row (waveform 4, sine). -/
theorem test_lscrub_1000 :
    (after (exec (.lscrub 0x408F400000000000) (lfoOn 4))).map
      (fun t => (t.lfo.phase, t.lfo.phaseInt, t.lfo.value, t.lfo.delayPhase, t.draws)) =
      some (0x3FC0DA57854984DF, 0, 0x3FC0E43E0E800D2C, 0x3FB39C53395A3437, 0) := by decide +kernel

/-- A later cycle takes a draw (R222, R223's fifth row). -/
theorem test_lscrub_draws :
    (after (exec (.lscrub 0x40C3880000000000) (lfoOn 4))).map (fun t => (t.lfo.phase, t.lfo.phaseInt, t.draws)) =
      some (0x3FD443B59A6F985C, 1, 1) := by decide +kernel

/-- R219: with SYNC the waveform restarts, and the delay always does. -/
theorem test_lreset :
    (after (exec .lreset { lfoOn 0 with lfo := { (lfoOn 0).lfo with
        phase := rHalf ieee, delayPhase := r1 ieee, value := r1 ieee } })).map
      (fun t => (t.lfo.phase, t.lfo.delayPhase, t.lfo.value)) = some (r0, r0, r1 ieee) := by decide +kernel

/-- R219: without it the waveform keeps its phase (95_test_vectors.md §2.6). -/
theorem test_lreset_keeps_phase :
    (after (exec .lreset { loaded with lfo := { Lfo.reset with phase := rHalf ieee } })).map (·.lfo.phase) =
      some (rHalf ieee) := by
  decide +kernel

/-- R288: the length is tested before the header. -/
theorem test_bunpack_short :
    (after (exec (.bunpack [0xFF#8]) State.powerUp)).map (·.result) = some (.error .badBankLength) := by
  decide +kernel

/-- R267: byte 0 mutated. -/
theorem test_bunpack_header :
    (after (exec (.bunpack (List.replicate 4104 0#8)) State.reset)).map (·.result) = some (.error .badBankHeader) := by
  decide +kernel

/-! ### Chain calls: the worked examples of R158 to R165 (95_test_vectors.md §2.3)

The examples have blocks of three samples: they are run in an instance with BMAX = 24, as the vectors are. -/

/-- A chain call in an instance of the given BMAX. -/
def callIn (bmax : Nat) (i : Instr) (s : State) : Host.Outcome State Fault Refusal :=
  match i with
  | .ch1NoneW first inp out => finish (chainCall bmax 1 .none false first.val inp out s)
  | .ch1NoneA first inp out => finish (chainCall bmax 1 .none true first.val inp out s)
  | .ch1ExtW first inp out => finish (chainCall bmax 1 .external false first.val inp out s)
  | .ch1ExtA first inp out => finish (chainCall bmax 1 .external true first.val inp out s)
  | .ch1Fb0W first inp out => finish (chainCall bmax 1 (.feedback 0) false first.val inp out s)
  | .ch1Fb0A first inp out => finish (chainCall bmax 1 (.feedback 0) true first.val inp out s)
  | .ch2Fb1A first inp out => finish (chainCall bmax 2 (.feedback 1) true first.val inp out s)
  | .ch3Fb2A first inp out => finish (chainCall bmax 3 (.feedback 2) true first.val inp out s)
  | _ => .next s

/-- The meaning of every chain call is that call at the BMAX of the instance that runs. -/
theorem test_chain_meanings (first : Fin 6) (inp out : Slot) (s : State) :
    ∀ i ∈ [Instr.ch1NoneW first inp out, .ch1NoneA first inp out, .ch1ExtW first inp out, .ch1ExtA first inp out,
        .ch1Fb0W first inp out, .ch1Fb0A first inp out, .ch2Fb1A first inp out, .ch3Fb2A first inp out],
      exec i s = callIn Config.bmax i s := by
  intro i hi
  simp only [List.mem_cons, List.not_mem_nil, or_false] at hi
  rcases hi with rfl | rfl | rfl | rfl | rfl | rfl | rfl | rfl <;> rfl

/-- R158. -/
theorem test_ch1NoneW :
    seen (callIn 24 (.ch1NoneW 0 0#2 1#2)
        (inChain 3 0 [(0x10000000#32, 0x3FE0000000000000, 0x3FC0000000000000, 0x3FF0000000000000)] 0x3FD0000000000000 0xBFC0000000000000 [] [])) 0 1 =
      some (⟨0x70000000#32, 0x3FEFFFFFFFFFFFFF⟩,
        [some 0x3EEC835E, some 0x3F1DACEA, some 0x3EA3473C]) := by decide +kernel

/-- R152: both clamps (95_test_vectors.md §2.3). -/
theorem test_ch1NoneW_clamps :
    seen (callIn 24 (.ch1NoneW 0 0#2 1#2) (inChain 2 0 [(0xFFFFFFFF#32, 0x0000000000000000, 0x3FE8000000000000, 0x4022000000000000)] r0 r0 [] [])) 0 1 =
      some (⟨0xFFFFFFFF#32, 0x4010000000000000⟩, [some 0x00000000, some 0xB1490E90, none]) := by decide +kernel

/-- R159. -/
theorem test_ch1NoneA :
    seen (callIn 24 (.ch1NoneA 0 0#2 0#2)
        (inChain 3 0 [(0x10000000#32, 0x3FE0000000000000, 0x3FC0000000000000, 0x3FF0000000000000)] r0 r0
          (fill 0 0 [0x3F800000, 0xBF800000, 0x3F000000] []) [])) 0 0 =
      some (⟨0x70000000#32, 0x3FEFFFFFFFFFFFFF⟩,
        [some 0x3FBB20D8, some 0xBEC4A62D, some 0x3F51A39E]) := by decide +kernel

/-- R160, the slot read being the slot written. -/
theorem test_ch1ExtW :
    seen (callIn 24 (.ch1ExtW 0 1#2 1#2)
        (inChain 3 0 [(0#32, 0x3FF0000000000000, 0x3FC0000000000000, 0x3FE0000000000000)] r0 r0
          (fill 1 0 [0x3E000000, 0x3E800000, 0xBE000000] []) [])) 0 1 =
      some (⟨0x60000000#32, 0x3FE0000000000001⟩, [some 0x3F800000, some 0x00000000, some 0x3F2AAAAB]) := by
  decide +kernel

/-- R161. -/
theorem test_ch1ExtA :
    seen (callIn 24 (.ch1ExtA 0 1#2 0#2)
        (inChain 3 0 [(0xF0000000#32, 0x4000000000000000, 0x3FB0000000000000, 0x3FE0000000000000)] 0x3FD0000000000000 0xBFC0000000000000
          (fill 0 0 [0x3F000000, 0x3F000000, 0x3F000000]
            (fill 1 0 [0x3DCCCCCD, 0xBDCCCCCD, 0x3D4CCCCD] [])) [])) 0 0 =
      some (⟨0x20000000#32, 0x3FE0000000000000⟩,
        [some 0x3FD678A0, some 0x3E196EA5, some 0x3FB20BF9]) := by decide +kernel

/-- R162, feedback 7. -/
theorem test_ch1Fb0W :
    seen (callIn 24 (.ch1Fb0W 0 3#2 1#2) (inChain 3 7 [(0#32, 0x3FF0000000000000, 0x3FC0000000000000, 0x3FF0000000000000)] 0x3FE0000000000000 0x3FD0000000000000 [] [])) 0 1 =
      some (⟨0x60000000#32, 0x3FF0000000000000⟩,
        [some 0x3F6C835E, some 0xBF1E21B6, some 0x3E997B7E]) := by decide +kernel

/-- R162, feedback 0: the history is still shifted. -/
theorem test_ch1Fb0W_history :
    (after (callIn 24 (.ch1Fb0W 0 3#2 1#2) (inChain 3 0 [(0#32, 0x3FF0000000000000, 0x3FC0000000000000, 0x3FF0000000000000)] 0x3FE0000000000000 0x3FD0000000000000 [] []))).map
      (fun t => (t.fb0, t.fb1)) = some (0x3FE6A09E667F3BCD, 0x3FF0000000000000) := by decide +kernel

/-- R163. -/
theorem test_ch1Fb0A :
    seen (callIn 24 (.ch1Fb0A 0 3#2 0#2)
        (inChain 3 6 [(0x20000000#32, 0x3FF8000000000000, 0x3FB0000000000000, 0x4004000000000000)] 0xBFE0000000000000 0x3FE8000000000000
          (fill 0 0 [0x00000000, 0x3E800000, 0xBE800000] []) [])) 0 0 =
      some (⟨0x50000000#32, 0x4004000000000000⟩,
        [some 0x3FBC4F8F, some 0x3FC9A568, some 0xC0060900]) := by decide +kernel

/-- R164. -/
theorem test_ch2Fb1A :
    seen (callIn 24 (.ch2Fb1A 0 3#2 0#2)
        (inChain 3 5 [(0#32, 0x3FF0000000000000, 0x3FC0000000000000, 0x3FF0000000000000),
          (0x40000000#32, 0x3FE0000000000000, 0x3FB0000000000000, 0x3FE0000000000000)] 0x3FE0000000000000 0xBFD0000000000000
          (fill 0 0 [0, 0, 0] []) [])) 1 0 =
      some (⟨0x70000000#32, 0x3FE0000000000000⟩,
        [some 0x3E8304DB, some 0x3EDF59F1, some 0xBE5D7329]) := by decide +kernel

/-- R165: the samples and the history. -/
theorem test_ch3Fb2A :
    let o := callIn 24 (.ch3Fb2A 0 3#2 0#2)
      (inChain 3 7 [(0#32, 0x3FF0000000000000, 0x3FD0000000000000, 0x3FF0000000000000),
        (0#32, 0x3FF0000000000000, 0x3FC0000000000000, 0x3FF0000000000000),
          (0#32, 0x3FE0000000000000, 0x3FB0000000000000, 0x3FE0000000000000)]
        0x3FC0000000000000 0x3FC0000000000000 (fill 0 0 [0, 0, 0] []) [])
    seen o 2 0 = some (⟨0x30000000#32, 0x3FE0000000000000⟩,
        [some 0x3EC0397E, some 0xBEC3837E, some 0xBE9DC0D4]) ∧
      (after o).map (fun t => (t.fb0, t.fb1)) = some (0xBFD3B81A8E87764D, 0xBFD8706FBC1E3489) := by
  decide +kernel

/-! ### Routing opcodes: each issues its call and the router index moves past the operators (R173 to R177)

The examples' first sample, as a block of one. -/

/-- OPN `none > b1` on R158's example. -/
theorem test_opn :
    let o := exec (.opn 1#2 false false)
      (inChain 1 0 [(0x10000000#32, 0x3FE0000000000000, 0x3FC0000000000000, 0x3FF0000000000000)] r0 r0 [] [0x01#8])
    seen o 0 1 = some (⟨0x30000000#32, 0x3FF0000000000000⟩, [some 0x3EEC835E, none, none]) ∧
      ((after o).bind (·.rc)).map (·.index) = some 1 := by decide +kernel

/-- OPX1 `b1 > b1` on R160's example. -/
theorem test_opx1 :
    seen (exec (.opx1 1#2 false false)
        (inChain 1 0 [(0#32, 0x3FF0000000000000, 0x3FC0000000000000, 0x3FE0000000000000)] r0 r0
          (fill 1 0 [0x3E000000] []) [0x11#8])) 0 1 =
      some (⟨0x20000000#32, 0x3FE0000000000000⟩, [some 0x3F800000, none, none]) := by
  decide +kernel

/-- OPX2 `b2 > b2`, the same example through slot 2. -/
theorem test_opx2 :
    seen (exec (.opx2 2#2 false false)
        (inChain 1 0 [(0#32, 0x3FF0000000000000, 0x3FC0000000000000, 0x3FE0000000000000)] r0 r0
          (fill 2 0 [0x3E000000] []) [0x22#8])) 0 2 =
      some (⟨0x20000000#32, 0x3FE0000000000000⟩, [some 0x3F800000, none, none]) := by
  decide +kernel

/-- OPF `fb > b1` before `b1 > out+ !`: the fused call of R164's example (row 5's first two opcodes). -/
theorem test_opf_fused :
    let o := exec (.opf 1#2 false false)
      (inChain 1 5 [(0#32, 0x3FF0000000000000, 0x3FC0000000000000, 0x3FF0000000000000),
        (0x40000000#32, 0x3FE0000000000000, 0x3FB0000000000000, 0x3FE0000000000000)] 0x3FE0000000000000 0xBFD0000000000000
        (fill 0 0 [0] []) [0x31#8, 0x54#8, 0x01#8, 0x14#8, 0x01#8, 0x14#8])
    seen o 1 0 = some (⟨0x50000000#32, 0x3FE0000000000000⟩, [some 0x3E8304DB, none, none]) ∧
      ((after o).bind (·.rc)).map (·.index) = some 2 := by decide +kernel

/-- OPF with no tap in its chain has no specialization (95_test_vectors.md §2.4, `31 14 04 ...`). -/
theorem test_opf_no_tap :
    stopOf (exec (.opf 1#2 false false) (inChain 1 0 [] r0 r0 [] [0x31#8, 0x14#8, 0x04#8, 0x04#8, 0x04#8, 0x04#8])) =
      some .rowIllFormed := by decide +kernel

/-! ### The step and the interface -/

/-- From State.reset a program comes to run through the port (log 10). -/
theorem test_step_runs_a_packet :
    (after (step (State.reset.withFetchWord 8 0x05))).map (fun t => (t.result, t.port)) = some (.ok, []) := by
  decide +kernel

/-- The reset state's memory is in canonical form. -/
theorem test_reset_memory : Memory.wf Sys2Proof.core.reset.buf = true := by decide

/-! ### Witnesses: for every obligation with hypotheses, a state and operands that meet them all

Where an obligation has several clauses, one for each, at a boundary of its range. -/

theorem witness_DecodeInvertsEncode : decode ⟨.routing, 0x74#8, []⟩ = .ok (.opf 0#2 true true) := rfl

theorem witness_StepRunsTheDecodedInstruction :
    (State.reset.withPort [.packet ⟨.command, 0x03#8, []⟩]).port = .packet ⟨.command, 0x03#8, []⟩ :: [] ∧
      decode ⟨.command, 0x03#8, []⟩ = .ok .setup := ⟨rfl, rfl⟩

theorem witness_UnassignedCodesAreRefused :
    0x06#8 ∉ [0x01#8, 0x02#8, 0x03#8, 0x04#8, 0x05#8, 0x08#8, 0x09#8, 0x0A#8, 0x0B#8, 0x10#8] ∧
      0x11#8 ∉ [0x01#8, 0x02#8, 0x03#8, 0x04#8, 0x05#8, 0x08#8, 0x09#8, 0x0A#8, 0x0B#8, 0x10#8] ∧
      (0x80#8).getLsbD 7 = true ∧ (0x08#8).getLsbD 3 = true ∧
      0x06#8 ∉ [0x00#8, 0x01#8, 0x02#8, 0x03#8, 0x04#8, 0x05#8, 0x17#8, 0x29#8] ∧
      (State.reset.withPort [.packet ⟨.command, 0x06#8, []⟩]).port = .packet ⟨.command, 0x06#8, []⟩ :: [] := by
  decide

theorem witness_HostPortWrites :
    State.reset.port = [] ∧ State.reset.constructed = true ∧
      (State.reset.withPort [.writeSample 3 Config.bmaxLess1 0]).port = .writeSample 3 Config.bmaxLess1 0 :: [] ∧
        3 < 4 ∧ Config.bmaxLess1 < Config.bmax ∧
      (4 ≤ 4 ∨ Config.bmax ≤ 0) ∧ (4 ≤ 0 ∨ Config.bmax ≤ Config.bmax) :=
  ⟨rfl, rfl, rfl, by decide, Nat.lt_succ_self _, .inl (Nat.le_refl _), .inr (Nat.le_refl _)⟩

theorem witness_VresetResult :
    (rIsFinite ieee 0x0000000000000001 = true ∧ rLt ieee r0 0x0000000000000001 = true) ∧
      (rIsFinite ieee 0x7FEFFFFFFFFFFFFF = true ∧ rLt ieee r0 0x7FEFFFFFFFFFFFFF = true) ∧
        rIsFinite ieee (rInf ieee false) = false ∧
      rIsFinite ieee (rNaN ieee) = false ∧ rLt ieee r0 r0 = false ∧ rLt ieee r0 (rZero ieee true) = false := by decide

theorem witness_BeforeTheFirstVreset :
    (State.powerUp.constructed = false ∧ (encode .setup).format = .command ∧ (∀ sr, Instr.setup ≠ .vreset sr) ∧
      ∀ bank, Instr.setup ≠ .bunpack bank) ∧
      (rIsFinite ieee 0x0000000000000001 = true ∧ rLt ieee r0 0x0000000000000001 = true) ∧
      ((encode (.ch1NoneW 0 0#2 1#2)).format ≠ .command ∧ State.powerUp.rc = none) ∧
      (State.powerUp.withPort [.writeSample 0 0 0]).constructed = false ∧
      (State.powerUp.withPort [.writeSample 0 0 0]).port = [.writeSample 0 0 0] :=
  ⟨by simp [State.powerUp, encode], by decide, by decide, rfl, rfl⟩

theorem witness_PloadWritesTheFieldTable :
    State.reset.constructed = true ∧ (List.replicate 128 0xFF#8).length = 128 := ⟨rfl, rfl⟩

theorem witness_PloadOfAWrongLength :
    State.reset.constructed = true ∧ (List.replicate 127 0#8).length ≠ 128 ∧ (List.replicate 129 0#8).length ≠ 128 := by
  decide +kernel

theorem witness_PloadedPatchIsInRange :
    exec (.pload (List.replicate 128 0xFF#8)) State.reset =
      .next { State.reset with
        patch := some (decodeVoice (List.replicate 128 0xFF#8)), patchValid := true, dirty := true } :=
  (execPload_next _ _ _).2 ⟨rfl, .inl ⟨rfl, rfl⟩⟩

theorem witness_PackAndUnpack : zeroPatch.inRange = true ∧ (List.replicate 128 0xFF#8).length = 128 := by
  decide +kernel

theorem witness_BunpackResult :
    (List.replicate 4103 0#8).length ≠ 4104 ∧ (List.replicate 4105 0#8).length ≠ 4104 ∧
      ((List.replicate 4104 0#8).length = 4104 ∧ (List.replicate 4104 0#8).take 6 ≠ bankHeader) ∧
      ((bankHeader ++ List.replicate 4098 0#8).length = 4104 ∧
        (bankHeader ++ List.replicate 4098 0#8).take 6 = bankHeader) := by decide +kernel

/-- Two banks that differ only in the trailer. -/
theorem witness_BunpackIgnoresTheTrailer :
    (List.replicate 4102 0#8 ++ [0#8, 0#8]).length = 4104 ∧ (List.replicate 4102 0#8 ++ [0x55#8, 0xAA#8]).length = 4104 ∧
      ∀ j < 4102, (List.replicate 4102 0#8 ++ [0#8, 0#8])[j]? = (List.replicate 4102 0#8 ++ [0x55#8, 0xAA#8])[j]? := by
  have h : (List.replicate 4102 0#8).length = 4102 := List.length_replicate
  generalize List.replicate 4102 0#8 = l at h
  refine ⟨by rw [List.length_append, h]; rfl, by rw [List.length_append, h]; rfl, fun j hj => ?_⟩
  rw [List.getElem?_append_left (by omega), List.getElem?_append_left (by omega)]

theorem witness_ErrorsChangeNothing :
    (encode (.pload [])).format = .command ∧
      exec (.pload []) State.reset = .next { State.reset with result := .error .badVoiceLength } :=
  ⟨rfl, (execPload_next _ _ _).2 ⟨rfl, .inr ⟨by decide, rfl⟩⟩⟩

/-- Each of the three errors is raised. -/
theorem witness_WhichCommandRaisesWhichError :
    (after (exec (.bunpack []) State.reset)).map (·.result) = some (.error .badBankLength) ∧
      (after (exec (.bunpack (List.replicate 4104 0#8)) State.reset)).map (·.result) = some (.error .badBankHeader) ∧
      (after (exec (.pload []) State.reset)).map (·.result) = some (.error .badVoiceLength) := by decide +kernel

theorem witness_SetupResult :
    (State.reset.constructed = true ∧ State.reset.patchValid = false) ∧
      (loaded.constructed = true ∧ loaded.patchValid = true ∧ loaded.patch = some zeroPatch ∧ loaded.dirty = true) ∧
      { loaded with dirty := false }.dirty = false := by decide +kernel

/-- What SETUP leaves of `loaded`. -/
def setupDone : State :=
  ((setupCaches Config.params zeroPatch (setupEnvs zeroPatch loaded)).flagsAfterSetup).withResult .ok

/-- SETUP answers on `loaded`. -/
theorem setup_loaded : exec .setup loaded = .next setupDone :=
  (execSetup_next _ _).2
    ⟨rfl, _, (setupWith_ok _ _ _).2 ⟨rfl, zeroPatch, rfl, .inl ⟨rfl, rfl⟩⟩, rfl⟩

theorem witness_SetupIsIdempotent : exec .setup loaded = .next setupDone ∧ loaded.dirty = true := ⟨setup_loaded, rfl⟩

/-- Four patches and units in the four configurations. -/
theorem witness_WorkedEnvelopeConfigurations :
    let p := fun rate level ol => ({ decodeOp [] 0 with rate := rate, level := level, olevel := ol } : OpPatch)
    (p ⟨80, 50, 30, 60⟩ ⟨99, 80, 70, 0⟩ 99).olevel = 99 ∧ (p ⟨0, 0, 0, 0⟩ ⟨99, 99, 99, 99⟩ 99).level = ⟨99, 99, 99, 99⟩ ∧
      (p ⟨50, 50, 50, 50⟩ ⟨0, 0, 0, 0⟩ 99).rate = ⟨50, 50, 50, 50⟩ ∧
      (p ⟨50, 50, 50, 50⟩ ⟨30, 20, 10, 0⟩ 60).olevel = 60 ∧ (Env.reset ieee (r1 ieee)).scale = r1 ieee ∧
      (Env.reset ieee 0x3FED666666666666).scale = 0x3FED666666666666 ∧
      { zeroPatch with plevel := ⟨50, 50, 50, 50⟩, prate := ⟨99, 99, 99, 99⟩ }.plevel = ⟨50, 50, 50, 50⟩ ∧
      { zeroPatch with plevel := ⟨60, 40, 50, 50⟩, prate := ⟨50, 60, 70, 80⟩ }.prate = ⟨50, 60, 70, 80⟩ := by decide

theorem witness_OpresetResult :
    State.reset.constructed = true ∧ ((0 : Int) ≤ 0 ∧ (0 : Int) ≤ 5) ∧ ((0 : Int) ≤ 5 ∧ (5 : Int) ≤ 5) ∧
      ((-1 : Int) < 0 ∨ (5 : Int) < -1) ∧ ((6 : Int) < 0 ∨ (5 : Int) < 6) := by decide

theorem witness_LcfgResult :
    (State.reset.constructed = true ∧ State.reset.patchValid = false) ∧ loaded.constructed = true ∧
      loaded.patchValid = true ∧ loaded.patch = some zeroPatch := by decide +kernel

theorem witness_LresetResult : State.reset.constructed = true := rfl

theorem witness_LstepResult :
    (lfoOn 0).formats = ieee ∧ State.reset.constructed = true ∧ State.reset.lfo.freq = none ∧
      ((lfoOn 0).lfo.freq = some 0x3F2141E2D64F6126 ∧ (lfoOn 0).lfo.delayInc0 = some 0x3F1414D019F5F807 ∧
        (lfoOn 0).lfo.delayInc1 = some 0x3F11D99C88DAA394 ∧ (lfoOn 0).constructed = true) ∧
      (rIsFinite ieee (rNaN ieee) = false ∧ rIsFinite ieee (rInf ieee false) = false ∧
        rLt ieee 0x8000000000000001 r0 = true) ∧
      (rIsFinite ieee r0 = true ∧ rLt ieee r0 r0 = false) ∧ (rIsFinite ieee (rZero ieee true) = true ∧
        rLt ieee (rZero ieee true) r0 = false) ∧
      (rIsFinite ieee 0x7FEFFFFFFFFFFFFF = true ∧ rLt ieee 0x7FEFFFFFFFFFFFFF r0 = false) := by decide +kernel

theorem witness_LscrubResult :
    (lfoOn 4).formats = ieee ∧ State.reset.lfo.freq = none ∧ (lfoOn 4).lfo.freq = some 0x3F2141E2D64F6126 ∧
      (lfoOn 4).lfo.delayInc0 = some 0x3F1414D019F5F807 ∧
      (lfoOn 4).lfo.delayInc1 = some 0x3F11D99C88DAA394 ∧ (lfoOn 4).constructed = true ∧
      rLt ieee 0x8000000000000001 r0 = true ∧ (rIsFinite ieee r0 = true ∧ rLt ieee r0 r0 = false) := by decide +kernel

/-- LRESET answers; an instruction that is neither LSTEP nor LSCRUB; and the delay phase just below 0.5. -/
theorem witness_LresetSilencesTheOutputs :
    exec .lreset (lfoOn 0) = .next (((lfoOn 0).withLfo (lfoRestart (lfoOn 0).lfo)).withResult .ok) ∧
      ((∀ x, Instr.lreset ≠ .lstep x) ∧ ∀ x, Instr.lreset ≠ .lscrub x) ∧
      rLt ieee (lfoOn 0).lfo.delayPhase (rHalf ieee) = true ∧ rLt ieee 0x3FDFFFFFFFFFFFFF (rHalf ieee) = true ∧
      rIsFinite ieee (lfoOn 0).lfo.value = true ∧ rIsFinite ieee (lfoOn 0).lfo.pmd = true ∧
      rIsFinite ieee (lfoOn 0).lfo.amd = true :=
  ⟨(execLreset_next _ _).2 ⟨rfl, rfl⟩, by simp, by decide +kernel⟩

/-- Operators of the worked frequency ratios, and both ends of the range in which no chunk is taken. -/
theorem witness_ConversionCorners :
    let op := fun mode coarse fine => ({ decodeOp [] 0 with mode := mode, coarse := coarse, fine := fine, detune := 7 }
      : OpPatch)
    ((op 0 1 50).mode = 0 ∧ (op 0 1 50).coarse = 1 ∧ (op 0 1 50).detune = 7 ∧ (op 0 1 50).fine = 50) ∧
      ((op 0 1 0).mode = 0 ∧ (op 0 1 0).fine = 0) ∧
      ((op 1 5 0).mode = 1 ∧ (op 1 5 0).fine = 0 ∧ (op 1 5 0).detune = 7 ∧ (op 1 5 0).coarse = 5) ∧
      (op 1 0 0).coarse = 0 ∧ (rLe ieee 0xC05E000000000000 0x405E000000000000 = true ∧
        rLe ieee 0x405E000000000000 0x405E000000000000 = true ∧
        rLe ieee 0xC05E000000000000 0xC05E000000000000 = true) := by
  decide

/-- At both ends of the delay phase's range. -/
theorem witness_DelayPhaseNeverDecreases :
    (lfoOn 0).formats = ieee ∧ (∃ t, exec (.lstep 0x4038000000000000) (lfoOn 0) = .next t) ∧
      (∃ t, exec (.lstep 0x4038000000000000)
        { lfoOn 0 with lfo := { (lfoOn 0).lfo with delayPhase := r1 ieee } } = .next t) ∧
      nonNegOperand ieee 0x3F1414D019F5F807 = true ∧ nonNegOperand ieee 0x3F11D99C88DAA394 = true ∧
      (rLe ieee r0 (lfoOn 0).lfo.delayPhase = true ∧ rLe ieee (lfoOn 0).lfo.delayPhase (r1 ieee) = true) ∧
        rLe ieee r0 (r1 ieee) = true ∧
      rLe ieee (r1 ieee) (r1 ieee) = true :=
  ⟨rfl, ⟨_, (execLstep_next _ _ _).2 ⟨rfl, by decide, _, _, _, rfl, rfl, rfl, rfl⟩⟩,
    ⟨_, (execLstep_next _ _ _).2 ⟨rfl, by decide, _, _, _, rfl, rfl, rfl, rfl⟩⟩, by decide +kernel⟩

/-! #### Inside a RENDER -/

/-- A state inside a RENDER of one sample, every f 0.0 and a 1.0, all four slots written. -/
def wide (row : List Byte) : State :=
  inChain 1 7 (List.replicate 6 (0#32, r0, r0, r1 ieee)) r0 r0 ((List.range 4).map fun a => (a, 0)) row

/-- Its context. -/
def wideCtx (row : List Byte) : RenderCtx :=
  { index := 0, block := 1, f := Six.ofFn fun _ => r0, a := Six.ofFn fun _ => r1 ieee,
    row := Six.ofFn fun k => row.getD k 0#8 }

theorem wide_rc (row : List Byte) : (wide row).rc = some (wideCtx row) := rfl

theorem wideCtx_ok (row : List Byte) (k : Nat) :
    callFreqOk ieee ((wideCtx row).f.get k) = true ∧ callAmpOk ieee ((wideCtx row).a.get k) = true := by
  have h : ∀ j < 6, callFreqOk ieee ((wideCtx row).f.get j) = true ∧ callAmpOk ieee ((wideCtx row).a.get j) = true := by
    intro j hj
    rw [wideCtx, Six.get_ofFn _ _ hj, Six.get_ofFn _ _ hj]
    decide
  by_cases hk : k < 6
  · exact h k hk
  · obtain ⟨j, rfl⟩ : ∃ j, k = j + 6 := ⟨k - 6, by omega⟩
    exact h 5 (by omega)

theorem wide_inRender (row : List Byte) (first n : Nat) : (wide row).inRender (wideCtx row) first n :=
  ⟨wide_rc row, Nat.le_add_left 1 _, fun k _ _ => wideCtx_ok row k⟩

theorem wide_written (row : List Byte) (slot : Slot) : (wide row).blockWritten slot (wideCtx row).block := by
  have h : ∀ (slot : Slot) (i : Fin 1), (wide []).sample slot.toNat i.val = some 0 := by decide +kernel
  intro i hi
  exact ⟨0, h slot ⟨i, hi⟩⟩

theorem witness_Ch1NoneResult :
    (wide []).inRender (wideCtx []) (5 : Fin 6) 1 ∧ (wide []).blockWritten 0#2 (wideCtx []).block :=
  ⟨wide_inRender _ _ _, wide_written _ _⟩

theorem witness_Ch1ExtResult :
    (wide []).inRender (wideCtx []) (0 : Fin 6) 1 ∧ (wide []).blockWritten 1#2 (wideCtx []).block ∧
      (wide []).blockWritten 0#2 (wideCtx []).block :=
  ⟨wide_inRender _ _ _, wide_written _ _, wide_written _ _⟩

theorem witness_Ch1FbResult :
    (wide []).inRender (wideCtx []) (0 : Fin 6) 1 ∧ (wide []).patch = some { zeroPatch with fb := 7 } ∧
      (wide []).blockWritten 0#2 (wideCtx []).block :=
  ⟨wide_inRender _ _ _, rfl, wide_written _ _⟩

theorem witness_Ch2FbResult :
    (4 : Fin 6).val + 2 ≤ 6 ∧ (wide []).inRender (wideCtx []) (4 : Fin 6) 2 ∧
      (wide []).patch = some { zeroPatch with fb := 7 } ∧ (wide []).blockWritten 0#2 (wideCtx []).block :=
  ⟨by decide, wide_inRender _ _ _, rfl, wide_written _ _⟩

theorem witness_Ch3FbResult :
    (3 : Fin 6).val + 3 ≤ 6 ∧ (wide []).inRender (wideCtx []) (3 : Fin 6) 3 ∧
      (wide []).patch = some { zeroPatch with fb := 7 } ∧ (wide []).blockWritten 0#2 (wideCtx []).block :=
  ⟨by decide, wide_inRender _ _ _, rfl, wide_written _ _⟩

/-- A block whose sample of slot 1 is unwritten; a context whose last operator has a bad frequency; no patch. -/
theorem witness_ChainCallRefusals :
    ((encode (.ch1NoneW 0 0#2 1#2)).format ≠ .command ∧ State.reset.rc = none) ∧
      (callFreqOk ieee (rNaN ieee) = false ∧ callFreqOk ieee 0xBFF0000000000000 = false ∧
        callAmpOk ieee (rInf ieee false) = false) ∧
      6 < (5 : Fin 6).val + 2 ∧ 6 < (4 : Fin 6).val + 3 ∧
      (let s := (wide []).withBuf ((List.range 1).map fun a => (a, 0))
       s.inRender (wideCtx []) (0 : Fin 6) 1 ∧ s.inRender (wideCtx []) (4 : Fin 6) 2 ∧
       s.inRender (wideCtx []) (3 : Fin 6) 3 ∧ (4 : Fin 6).val + 2 ≤ 6 ∧ (3 : Fin 6).val + 3 ≤ 6 ∧
       s.patch.isSome = true ∧ ¬ s.blockWritten 1#2 (wideCtx []).block) ∧
      (let c := { wideCtx [] with f := Six.ofFn fun k => if k = 5 then rNaN ieee else r0 }
       ((wide []).withRc (some c)).rc = some c ∧ callFreqOk ieee (c.f.get 5) = false ∧ (4 : Fin 6).val ≤ 5 ∧
         5 < (4 : Fin 6).val + 2 ∧ (3 : Fin 6).val ≤ 5 ∧ 5 < (3 : Fin 6).val + 3) ∧
      (({ wide [] with patch := none } : State).patch = none ∧
        ({ wide [] with patch := none } : State).inRender (wideCtx []) (0 : Fin 6) 3) := by
  refine ⟨by decide, by decide, by decide, by decide,
    ⟨wide_inRender [] 0 1, wide_inRender [] 4 2, wide_inRender [] 3 3, by decide, by decide, rfl, ?_⟩,
    ⟨rfl, by decide, by decide, by decide, by decide, by decide⟩, rfl, wide_inRender [] 0 3⟩
  intro h
  obtain ⟨v, hv⟩ := h 0 (by decide)
  have : ((wide []).withBuf ((List.range 1).map fun a => (a, 0))).sample (1#2).toNat 0 = none := by decide +kernel
  rw [this] at hv
  cases hv

theorem witness_IncrementIsAtMostHalfACycle :
    callFreqOk ieee r0 = true ∧ callFreqOk ieee (rZero ieee true) = true ∧ callFreqOk ieee (rHalf ieee) = true ∧
      callFreqOk ieee (rInf ieee false) = true := by
  decide

/-! #### The router -/

theorem witness_UnfusedRoutingOpcodes :
    (wideCtx []).index < 6 ∧ (wide []).rc = some (wideCtx []) ∧ (wide []).inRender (wideCtx []) (wideCtx []).index 1 ∧
      (wide []).blockWritten 0#2 (wideCtx []).block ∧ (wide []).blockWritten 1#2 (wideCtx []).block ∧
      (wide []).blockWritten 2#2 (wideCtx []).block :=
  ⟨by decide, rfl, wide_inRender _ _ _, wide_written _ _, wide_written _ _, wide_written _ _⟩

/-- Every case of the statement: the opcodes that follow `fb > b1` do not continue the chain, continue it without a
specialization (no operator adds), and fuse two and three operators (rows 5 and 3). -/
theorem witness_FeedbackRoutingOpcode :
    (wideCtx []).index < 6 ∧ (wide []).rc = some (wideCtx []) ∧ (wide []).patch = some { zeroPatch with fb := 7 } ∧
      opcodeSrc ((wideCtx [0x71#8, 0x00#8]).row.get 1) ≠ 1#2 ∧
      (opcodeSrc ((wideCtx [0x71#8, 0x11#8, 0x00#8]).row.get 1) = 1#2 ∧
        opcodeAdd ((wideCtx [0x71#8, 0x11#8, 0x00#8]).row.get 1) = false ∧
        opcodeSrc ((wideCtx [0x71#8, 0x11#8, 0x00#8]).row.get 2) ≠ 1#2) ∧
      (opcodeSrc ((wideCtx [0x31#8, 0x54#8, 0x01#8]).row.get 1) = 1#2 ∧
        opcodeAdd ((wideCtx [0x31#8, 0x54#8, 0x01#8]).row.get 1) = true ∧
        opcodeTap ((wideCtx [0x31#8, 0x54#8, 0x01#8]).row.get 1) = true ∧
        opcodeSrc ((wideCtx [0x31#8, 0x54#8, 0x01#8]).row.get 2) ≠ 1#2) ∧
      (opcodeSrc ((wideCtx [0x31#8, 0x11#8, 0x54#8, 0x01#8]).row.get 1) = 1#2 ∧
        opcodeAdd ((wideCtx [0x31#8, 0x11#8, 0x54#8, 0x01#8]).row.get 1) = false ∧
        opcodeSrc ((wideCtx [0x31#8, 0x11#8, 0x54#8, 0x01#8]).row.get 2) = 1#2 ∧
        opcodeAdd ((wideCtx [0x31#8, 0x11#8, 0x54#8, 0x01#8]).row.get 2) = true ∧
        opcodeTap ((wideCtx [0x31#8, 0x11#8, 0x54#8, 0x01#8]).row.get 2) = true ∧
        opcodeSrc ((wideCtx [0x31#8, 0x11#8, 0x54#8, 0x01#8]).row.get 3) ≠ 1#2) ∧
      (wide []).inRender (wideCtx []) (wideCtx []).index 3 ∧ (wide []).blockWritten 0#2 (wideCtx []).block :=
  ⟨by decide, rfl, rfl, by decide, by decide, by decide, by decide, wide_inRender _ _ _, wide_written _ _⟩

/-- Row 5's plan, whose first call covers two operators. -/
theorem witness_PlanCoversEachOperatorOnce :
    compile ⟨0x31, 0x54, 0x01, 0x14, 0x01, 0x14⟩ = some
      [⟨.ch2Fb1A, 0, 2, true, 3, 0⟩, ⟨.ch1NoneW, 2, 1, false, 0, 1⟩, ⟨.ch1ExtA, 3, 1, true, 1, 0⟩,
       ⟨.ch1NoneW, 4, 1, false, 0, 1⟩, ⟨.ch1ExtA, 5, 1, true, 1, 0⟩] := by decide

theorem witness_CallsOfAPlan :
    ∃ plan, compile ⟨0x31, 0x54, 0x01, 0x14, 0x01, 0x14⟩ = some plan ∧ ⟨.ch2Fb1A, 0, 2, true, 3, 0⟩ ∈ plan :=
  ⟨_, witness_PlanCoversEachOperatorOnce, by decide⟩

theorem witness_WalkingTheRowIsItsPlan :
    let row := [0x31#8, 0x54#8, 0x01#8, 0x14#8, 0x01#8, 0x14#8]
    (wide row).rc = some (wideCtx row) ∧ (wideCtx row).index = 0 ∧ (wideCtx row).row.all opcodeReservedClear = true ∧
      (compile (wideCtx row).row).isSome = true := ⟨rfl, rfl, by decide, by decide⟩

/-! #### RENDER

A scrubbed block of one sample of a silent patch on row 31: fixed-mode ratios, flat envelopes at level 0.0. Its targets
do not depend on the instance's tables, and its amplitude is EXP2(−14.0), finite in every instance. -/

/-- A unit whose four levels are 0.0 and increments 1.0. -/
def flatUnit : Env :=
  { Env.reset ieee (r1 ieee) with
    level := ⟨some r0, some r0, some r0, some r0⟩
    incr := ⟨some (r1 ieee), some (r1 ieee), some (r1 ieee), some (r1 ieee)⟩ }

/-- The silent patch on row 31. -/
def silentPatch : Patch := { zeroPatch with alg := 31 }

/-- The state: SETUP's registers written, DIRTY clear, the first sample of slot 0 written and nothing else. -/
def silent : State :=
  { State.reset with
    patch := some silentPatch
    patchValid := true
    dirty := false
    env := Six.ofFn fun _ => flatUnit
    penv := flatUnit
    ratio := Six.ofFn fun _ => some 0xC059000000000000
    headroom := Six.ofFn fun _ => some r0
    buf := [(0, 0)] }

/-- The operands. -/
def silentArgs : RenderArgs := ⟨false, true, 0x404E000000000000, r1 ieee, rHalf ieee, rHalf ieee, r0, r0, 1, r0, r0⟩

theorem silent_row : algRow Config.params silentPatch.alg = algRow31 := rfl

theorem silent_row_wf : rowWf algRow31 = true := by decide

theorem silent_checks : renderChecks Config.params silentArgs silent = .ok silentPatch :=
  (renderChecks_ok _ _ _ _).2 ⟨rfl, by decide, by decide +kernel, rfl, rfl, by decide,
    by rw [silent_row]; exact silent_row_wf⟩

theorem silent_setup : setupWith Config.params silent = .ok silent :=
  (setupWith_ok _ _ _).2 ⟨rfl, silentPatch, rfl, .inr ⟨rfl, rfl⟩⟩

/-- NVEL of a full velocity, the same in every instance (R128). -/
theorem full_velocity (cfg : Config.Params) : normalizeVelocity ieee cfg (r1 ieee) = 0x3FF4FDF3B645A1C8 := by
  have h : rLe ieee (rLit ieee 16 1) (rMul ieee (r1 ieee) (rLit ieee 16 1)) = true := by decide +kernel
  simp only [normalizeVelocity, h, if_true]
  have e : lutCubeRoot ieee cfg 16 = (r1 ieee) := rfl
  rw [e]
  decide +kernel

/-- The amplitude of level 0.0 is finite in every instance. -/
theorem silent_amplitude (cfg : Config.Params) (i : Nat) :
    callAmpOk ieee (targetAmplitude ieee cfg i r0 r0) = true := by
  have h1 : rIsFinite ieee
      (exp2 ieee cfg (rMul ieee (rLit ieee 64 10) (rSub ieee (rMul ieee (lutAms ieee cfg i) r0)
        (r1 ieee)))) = true := by
    rw [rMul_zero _ (lutAms_finite cfg i)]
    cases rSign ieee (lutAms ieee cfg i) <;> exact exp2_finite cfg _ (by decide +kernel) (by decide +kernel)
  have h2 : rIsFinite ieee (rSub ieee (r1 ieee) (exp2 ieee cfg
      (rMul ieee (rLit ieee 64 10) (rSub ieee (rMul ieee (lutAms ieee cfg i) r0) (r1 ieee))))) = true := by
    refine rSub_finite _ _ (by decide) h1 (by decide) ?_
    rw [rMul_zero _ (lutAms_finite cfg i)]
    cases rSign ieee (lutAms ieee cfg i) <;> exact exp2_sign cfg _ (by decide +kernel) (by decide +kernel)
  have h4 := rZero_mul false _ h2
  have e0 : rZero ieee false = r0 := rfl
  rw [e0] at h4
  simp only [targetAmplitude, h4, callAmpOk]
  generalize (false ^^ _ : Bool) = b
  cases b <;> exact exp2_finite cfg _ (by decide +kernel) (by decide +kernel)

/-- One block of a flat unit, scrubbed at time 0. -/
theorem silent_block (u : EnvUnit) (rate ad rel : RealBits) :
    envBlock ieee u flatUnit silentArgs rate ad rel = .ok (flatUnit, r0) := by
  have h : envScrub ieee u flatUnit r0 r0 = .ok r0 := by cases u <;> decide +kernel
  simp only [envBlock, show silentArgs.sustain = true from rfl, if_true]
  rw [show silentArgs.scrubT = r0 from rfl, show silentArgs.scrubG = r0 from rfl, h]
  rfl

/-- The fixed frequency of every operator of `silent`. -/
def silentFreq : RealBits := rMul ieee (rSub ieee r0 0xC059000000000000) (rDiv ieee (r1 ieee) 0x40E5888000000000)

/-- What step 5 gives for every operator of `silent`. -/
def silentTarget (cfg : Config.Params) : OpTarget := ⟨flatUnit, silentFreq, r0, targetAmplitude ieee cfg 0 r0 r0⟩

theorem silentTarget_f (cfg : Config.Params) : (silentTarget cfg).f = silentFreq := by simp only [silentTarget]
theorem silentTarget_a (cfg : Config.Params) : (silentTarget cfg).a = targetAmplitude ieee cfg 0 r0 r0 := by
  simp only [silentTarget]

theorem silent_opTarget (cfg : Config.Params) (hr : algRow cfg 31 = algRow31) (f0 ad rel : RealBits) (i : Nat)
    (hi : i < 6) :
    opTarget cfg ⟨silentArgs, algRow cfg 31, 0x40E5888000000000, f0, ad, rel, 0x404E000000000000, normalizeVelocity ieee cfg (r1 ieee)⟩
      silentPatch (noteStep cfg silentPatch silentArgs silent) i = .ok (silentTarget cfg) := by
  have he : (noteStep cfg silentPatch silentArgs silent).env.get i = flatUnit := by
    rw [noteStep_frame]; exact Six.get_ofFn _ _ hi
  have h1 : (noteStep cfg silentPatch silentArgs silent).ratio.get i = some 0xC059000000000000 := by
    rw [noteStep_frame]; exact Six.get_ofFn _ _ hi
  have h2 : (noteStep cfg silentPatch silentArgs silent).headroom.get i = some r0 := by
    rw [noteStep_frame]; exact Six.get_ofFn _ _ hi
  have hf : (noteStep cfg silentPatch silentArgs silent).formats = ieee := noteStep_formats _ _ _ _
  have hm : ∀ j < 6, isModulator algRow31 j = false ∧ (silentPatch.op.get j).ams = 0 ∧
      adjustedLevel ieee (silentPatch.op.get j) false (rHalf ieee) 0x404E000000000000 0x3FF4FDF3B645A1C8 r0 r0 = r0 := by
    decide +kernel
  obtain ⟨m1, m2, m3⟩ := hm i hi
  refine (opTarget_ok _ _ _ _ _ _).2 ⟨_, _, r0, h1, h2, ?_, ?_, ?_, ?_⟩ <;> rw [hf]
  · rw [he]; exact silent_block _ _ _ _
  · have h : rLt ieee 0xC059000000000000 r0 = true := by decide
    rw [silentTarget_f, targetFrequency, h, if_pos rfl, silentFreq]
  · show r0 = adjustedLevel ieee (silentPatch.op.get i) (isModulator (algRow cfg 31) i) (rHalf ieee) 0x404E000000000000
      (normalizeVelocity ieee cfg (r1 ieee)) r0 r0
    rw [hr, m1, full_velocity, m3]
  · simp only [silentTarget, silentArgs, m2]

/-- The context RENDER makes of `silent`. -/
def silentCtx (cfg : Config.Params) : RenderCtx :=
  { index := 0, block := 1, f := Six.ofFn fun _ => (silentTarget cfg).f, a := Six.ofFn fun _ => (silentTarget cfg).a
    row := algRow31 }

/-- What steps 1 to 5 leave of `silent`. -/
theorem silent_renderTargets (cfg : Config.Params) (hr : algRow cfg 31 = algRow31) :
    ∃ t, renderTargets cfg silentArgs silentPatch silent = .ok t ∧ t.rc = some (silentCtx cfg) ∧
      t.patch = some silentPatch ∧ t.buf = silent.buf ∧ t.formats = ieee := by
  refine ⟨_, (renderTargets_ok _ _ _ _ _).2 ⟨flatUnit, r0, 0x404E000000000000, normalizeVelocity ieee cfg (r1 ieee),
    Six.ofFn fun _ => silentTarget cfg, silent_block _ _ _ _, ?_, ?_, ?_, rfl⟩, ?_, ?_, ?_, ?_⟩
  · rw [noteStep_frame]; rfl
  · rw [noteStep_frame]; rfl
  · refine (opTargets_ok _ _ _ _ _).2 fun i hi => ?_
    rw [Six.get_ofFn _ _ hi]
    exact silent_opTarget cfg hr _ _ _ i hi
  · simp only [silentCtx, ← hr]; rfl
  · rw [noteStep_frame]; rfl
  · rw [noteStep_frame]; rfl
  · exact noteStep_formats _ _ _ _

theorem silentCtx_ok (cfg : Config.Params) :
    ∀ k < 6, callFreqOk ieee ((silentCtx cfg).f.get k) = true ∧ callAmpOk ieee ((silentCtx cfg).a.get k) = true := by
  intro k hk
  simp only [silentCtx, Six.get_ofFn _ _ hk]
  rw [silentTarget_f, silentTarget_a]
  exact ⟨by decide +kernel, silent_amplitude cfg 0⟩

/-- Row 31 needs slot 0 alone, and it is written. -/
theorem silent_written (plan : List Call) (h : compile algRow31 = some plan) (slot : Slot)
    (hs : slot ∈ readsFirst [] plan) : silent.blockWritten slot 1 := by
  have hr : (compile algRow31).map (readsFirst []) = some [0#2] := by decide
  rw [h, Option.map_some, Option.some.injEq] at hr
  rw [hr] at hs
  rw [show slot = 0#2 by simpa using hs]
  intro i hi
  rw [show i = 0 by omega]
  exact ⟨0, rfl⟩

/-- A block of one sample is within BMAX in every instance. -/
theorem one_le_bmax : (1 : Int) ≤ (Config.bmax : Int) := by
  change (1 : Int) ≤ ((Config.bmaxLess1 + 1 : Nat) : Int)
  omega

/-- Every hypothesis of RenderCompletes. -/
theorem witness_RenderCompletes :
    silent.constructed = true ∧ 1 ≤ silentArgs.block ∧ silentArgs.block ≤ (Config.bmax : Int) ∧
      renderRealsOk ieee silentArgs = true ∧
      silent.patchValid = true ∧ silent.patch = some silentPatch ∧ silentPatch.alg < 32 ∧
      (silent.dirty = true ∨ silent.setupWritten = true) ∧
      ((silentArgs.gate = true ∧ silent.gatePrev = false) ∨ silentArgs.sustain = true ∨
        (silent.note.isSome = true ∧ silent.nvel.isSome = true)) ∧
      (∀ s1 t1 c, setupWith Config.params silent = .ok s1 →
        renderTargets Config.params silentArgs silentPatch s1 = .ok t1 → t1.rc = some c →
        ∀ k < 6, callFreqOk ieee (c.f.get k) = true ∧ callAmpOk ieee (c.a.get k) = true) ∧
      ∀ plan, compile (algRow Config.params silentPatch.alg) = some plan →
        ∀ slot ∈ readsFirst [] plan, silent.blockWritten slot silentArgs.block.toNat := by
  refine ⟨rfl, by decide, one_le_bmax, by decide +kernel, rfl, rfl, by decide,
    .inr (by decide), .inr (.inl rfl), ?_, silent_written⟩
  intro s1 t1 c hs ht hc
  rw [silent_setup] at hs
  cases hs
  obtain ⟨t, h1, h2, -⟩ := silent_renderTargets Config.params silent_row
  rw [ht] at h1
  cases h1
  rw [h2] at hc
  cases hc
  exact silentCtx_ok _

/-- RENDER answers on `silent`. -/
theorem silent_render : ∃ t, exec (.render silentArgs) silent = .next t := by
  obtain ⟨t, h1, h2, h3, h4, h5⟩ := silent_renderTargets Config.params silent_row
  have hp : ∃ plan, compile algRow31 = some plan ∧ ∀ x ∈ plan, x.first < 6 ∧ x.first + x.spec.len ≤ 6 :=
    ⟨_, rfl, by decide⟩
  obtain ⟨plan, hplan, hfit⟩ := hp
  obtain ⟨u, hu⟩ := runPlan_completes plan t _ _ h2 (Nat.le_add_left 1 _ : 1 ≤ Config.bmax) h3
    (by rw [h5]; exact silentCtx_ok _) hfit
    [] (fun _ h => by cases h) (fun slot hs i hi => by
      obtain ⟨v, hv⟩ := silent_written plan hplan slot hs i hi
      exact ⟨v, by rw [State.sample, h4]; exact hv⟩)
  exact ⟨_, (execRender_next _ _ _).2
    ⟨_, _, _, plan, u, silent_checks, silent_setup, h1, by rw [silent_row]; exact hplan, hu, rfl⟩⟩

theorem witness_RenderMeaning : ∃ t, exec (.render silentArgs) silent = .next t := silent_render

/-- DIRTY is clear, the mode is scrubbing. -/
theorem witness_RenderFrame :
    ∃ t, exec (.render silentArgs) silent = .next t ∧ silent.dirty = false ∧ silentArgs.sustain = true ∧
      silent.patch = some silentPatch ∧ ∃ plan, compile (algRow Config.params silentPatch.alg) = some plan :=
  silent_render.imp fun _ h => ⟨h, rfl, rfl, rfl, _, by rw [silent_row]; rfl⟩

theorem witness_RenderBeginsWithSetup : exec .setup loaded = .next setupDone := setup_loaded

/-- Among them: an instance whose row 0 is ill formed, gate off with no note latched, and a sample missing. -/
theorem witness_RenderRefusals :
    loaded.constructed = true ∧ ((0 : Int) < 1 ∧ (Config.bmax : Int) < Config.bmax + 1) ∧
      ((1 : Int) ≤ 1 ∧ (1 : Int) ≤ Config.bmax) ∧ ((1 : Int) ≤ Config.bmax ∧ (Config.bmax : Int) ≤ Config.bmax) ∧
      rIsFinite ieee (rNaN ieee) = false ∧ rLt ieee 0x8000000000000001 r0 = true ∧
        renderRealsOk ieee silentArgs = true ∧
      State.reset.patchValid = false ∧ silent.patchValid = true ∧ silent.patch = some silentPatch ∧
      rowWf (algRow { Config.params with algRom := fun _ _ => 0x80#8 } 0) = false ∧ silentPatch.alg < 32 ∧
      ({ silentArgs with sustain := false }.sustain = false ∧ silentArgs.gate = false ∧ silent.note = none ∧
        renderRealsOk ieee { silentArgs with sustain := false } = true ∧ silent.setupWritten = true) ∧
      silentArgs.sustain = true ∧ silentPatch.alg = 31 ∧
      (({ silent with note := some (r1 ieee), nvel := some (r1 ieee) } : State).note.isSome = true ∧
        ({ silent with note := some (r1 ieee), nvel := some (r1 ieee) } : State).nvel.isSome = true) ∧
      ¬ ({ silent with buf := [] } : State).blockWritten 0#2 silentArgs.block.toNat := by
  refine ⟨rfl, ⟨by decide, by omega⟩, ⟨by decide, one_le_bmax⟩, ⟨one_le_bmax, Int.le_refl _⟩, by decide,
    by decide, by decide +kernel, rfl, rfl, rfl, (by decide : rowWf (Six.ofFn fun _ => 0x80#8) = false),
    by decide, ⟨rfl, rfl, rfl, by decide +kernel, by decide⟩, rfl, rfl, ⟨rfl, rfl⟩, ?_⟩
  intro h
  obtain ⟨v, hv⟩ := h 0 (by decide)
  cases hv

theorem witness_RenderIgnores :
    { silentArgs with sustain := false }.sustain = false ∧ (∀ p, silent.patch = some p → p.alg = 31) ∧
      rIsFinite ieee silentArgs.brightness = true ∧ silentArgs.sustain = true ∧
        rIsFinite ieee silentArgs.envctl = true ∧
      rIsFinite ieee r0 = true := by
  refine ⟨rfl, ?_, by decide, rfl, by decide, by decide⟩
  intro p hp
  cases hp
  rfl

/-! #### Envelopes and the whole machine -/

/-- The unit of R203 and R206, fresh from reset. -/
def workedUnit : Env :=
  { Env.reset ieee (r1 ieee) with
    level := ⟨some 0x402E000000000000, some 0x4029800000000000, some 0x4027000000000000, some 0x3FB0000000000000⟩
    incr := ⟨some 0x3F784A062B2E43DA, some 0x3F1C71C71C71C71C, some 0x3EF6666666666666,
      some 0x3F10C9714FBCDA3B⟩ }

/-- R203's first call: the snapshot, the jump to stage 0, the phase, and the reshaped value. -/
theorem test_envelope_note_on :
    envRender ieee .operator workedUnit true 0x4038000000000000 (r1 ieee) (r1 ieee) =
      .ok ({ workedUnit with stage := 0, phase := 0x3FC23784A062B2E4, start := .level 0x3FB0000000000000 },
        0x40211D04516D2F80) := by decide +kernel

/-- R203's first call with gate = 0 from the saturated sustain stage. -/
theorem test_envelope_note_off :
    envRender ieee .operator { workedUnit with stage := 2 } false 0x4038000000000000 (r1 ieee) (r1 ieee) =
      .ok ({ workedUnit with stage := 3, phase := 0x3F592E29F79B4758, start := .level 0x4027000000000000 },
        0x4026F70000000000) := by decide +kernel

/-- A flat unit in the sustain stage, saturated. -/
def sustainUnit : Env := { flatUnit with stage := 2, phase := r1 ieee }

theorem witness_EnvelopeStageGraph :
    (envRun ieee .operator (r1 ieee) (r1 ieee) (r1 ieee) (List.replicate 2 true) sustainUnit).isSome = true ∧
      sustainUnit.stage = 2 ∧
      sustainUnit.phase = r1 ieee ∧ (∀ inc, sustainUnit.incr.get 2 = some inc →
        rLe ieee r0 (rMul ieee (rMul ieee inc (r1 ieee)) (r1 ieee)) = true) ∧
      (envRun ieee .operator (r1 ieee) (r1 ieee) (r1 ieee) (List.replicate 1 false) sustainUnit).isSome = true ∧
      (sustainUnit.level.sequence = some ⟨r0, r0, r0, r0⟩ ∧
        sustainUnit.incr.sequence = some ⟨r1 ieee, r1 ieee, r1 ieee, r1 ieee⟩) ∧
      ((Env.reset ieee (r1 ieee)).level.sequence = none ∧ (Env.reset ieee (r1 ieee)).incr.sequence = none) ∧
      { silentArgs with sustain := false }.sustain = false := by
  refine ⟨by decide +kernel, rfl, rfl, ?_, by decide +kernel, ⟨rfl, rfl⟩, ⟨rfl, rfl⟩, rfl⟩
  intro inc h
  cases h
  decide +kernel

theorem witness_ScrubAtGateEndIsSustain :
    (silentArgs.sustain = true ∧ silentArgs.scrubT = r0 ∧ silentArgs.scrubG = r0) ∧
      workedUnit.level = ⟨some 0x402E000000000000, some 0x4029800000000000, some 0x4027000000000000, some 0x3FB0000000000000⟩ ∧
      workedUnit.incr = ⟨some 0x3F784A062B2E43DA, some 0x3F1C71C71C71C71C, some 0x3EF6666666666666,
        some 0x3F10C9714FBCDA3B⟩ ∧
      sustainUnit.level.sequence = some ⟨r0, r0, r0, r0⟩ ∧
        sustainUnit.incr.sequence = some ⟨r1 ieee, r1 ieee, r1 ieee, r1 ieee⟩ ∧
      rLt ieee 0x4008000000000000 (rDiv ieee (r1 ieee) (r1 ieee)) = false ∧
        rLt ieee (rSub ieee 0x4008000000000000 (rDiv ieee (r1 ieee) (r1 ieee)))
          (rDiv ieee (r1 ieee) (r1 ieee)) = false ∧
      rLt ieee (rSub ieee (rSub ieee 0x4008000000000000 (rDiv ieee (r1 ieee) (r1 ieee)))
        (rDiv ieee (r1 ieee) (r1 ieee)))
        (rDiv ieee (r1 ieee) (r1 ieee)) = false ∧ sustainUnit.stage = 2 ∧
      sustainUnit.phase = r1 ieee ∧ sustainUnit.start = .previousLevel ∧
        rLe ieee r0 (rMul ieee (rMul ieee (r1 ieee) (r1 ieee)) (r1 ieee)) = true := by
  decide +kernel

/-- A state other than reset's that meets the invariant. -/
theorem loaded_inv : loaded.Inv where
  formats := rfl
  buf := by decide
  rate := fun _ => by decide +kernel
  valid := rfl
  patch := fun p h => by cases h; decide +kernel
  setup := .inr (by decide)
  dirty := fun _ => rfl
  latch := rfl
  gate := fun h => by cases h
  levelOut := .inr (by decide)
  phases := by decide
  rates := by decide +kernel
  wave := by decide
  lfoFreq := by decide
  hold := by decide
  lfoPhases := by decide
  lfoRates := by decide
  rc := fun c h => by cases h

/-- `loaded` with a SETUP waiting, and what a step makes of it. -/
theorem loaded_step : step (loaded.withPort [.packet ⟨.command, 0x03#8, []⟩]) = .next setupDone := by
  have h : step (loaded.withPort [.packet ⟨.command, 0x03#8, []⟩]) = exec .setup loaded := rfl
  rw [h]
  exact setup_loaded

theorem witness_EveryStepKeepsTheInvariant :
    (loaded.withPort [.packet ⟨.command, 0x03#8, []⟩]).Inv ∧
      step (loaded.withPort [.packet ⟨.command, 0x03#8, []⟩]) = .next setupDone := by
  refine ⟨?_, loaded_step⟩
  obtain ⟨h1, h2, h3, h4, h5, h6, h7, h8, h9, h10, h11, h12, h13, h14, h15, h16, h17, h18⟩ := loaded_inv
  exact ⟨h1, h2, h3, h4, h5, h6, h7, h8, h9, h10, h11, h12, h13, h14, h15, h16, h17, h18⟩

theorem witness_EveryStepKeepsCoherence :
    (loaded.withPort [.packet ⟨.command, 0x03#8, []⟩]).Coherent ∧
      step (loaded.withPort [.packet ⟨.command, 0x03#8, []⟩]) = .next setupDone :=
  ⟨fun h => (by cases h), loaded_step⟩

theorem witness_NoInstructionFaults : loaded.Inv := loaded_inv

theorem witness_OnlyTheNamedWriters :
    exec .setup loaded = .next setupDone ∧ (∀ sr, Instr.setup ≠ .vreset sr) ∧ (∀ img, Instr.setup ≠ .pload img) ∧
      Instr.setup ≠ .lcfg ∧ Instr.setup ≠ .lreset ∧ (∀ x, Instr.setup ≠ .lstep x) ∧ (∀ x, Instr.setup ≠ .lscrub x) ∧
      (∀ a, Instr.setup ≠ .render a) ∧ (∀ d add tap, Instr.setup ≠ .opf d add tap) ∧
      (∀ f p q, Instr.setup ≠ .ch1Fb0W f p q ∧ Instr.setup ≠ .ch1Fb0A f p q ∧ Instr.setup ≠ .ch2Fb1A f p q ∧
        Instr.setup ≠ .ch3Fb2A f p q) ∧ (encode .setup).format = .command ∧ (∀ k, Instr.setup ≠ .opreset k) := by
  refine ⟨setup_loaded, ?_⟩
  simp [encode]

/-- SETUP answers, and is refused, in states whose LFO registers are any. -/
theorem witness_VoiceDoesNotSeeTheLfo :
    exec .setup loaded = .next setupDone ∧ exec .setup State.reset = .refused .noPatchLoaded ∧
      (∀ sr, Instr.setup ≠ .vreset sr) ∧ Instr.setup ≠ .lcfg ∧ Instr.setup ≠ .lreset ∧
      (∀ x, Instr.setup ≠ .lstep x) ∧ (∀ x, Instr.setup ≠ .lscrub x) := by
  refine ⟨setup_loaded, rfl, ?_⟩
  simp

/-! #### The LFO's outputs, the ROM, EXP2 -/

theorem witness_LfoWaveformsAndOutputs :
    (∃ l : Lfo, l.delayPhase = 0x3FD0000000000000) ∧ (∃ l : Lfo, l.delayPhase = rHalf ieee) ∧
      (∃ l : Lfo, l.delayPhase = 0x3FE8000000000000) ∧
      ∃ l : Lfo, l.delayPhase = (r1 ieee) :=
  ⟨⟨{ Lfo.reset with delayPhase := 0x3FD0000000000000 }, rfl⟩, ⟨{ Lfo.reset with delayPhase := rHalf ieee }, rfl⟩,
    ⟨{ Lfo.reset with delayPhase := 0x3FE8000000000000 }, rfl⟩, ⟨{ Lfo.reset with delayPhase := r1 ieee }, rfl⟩⟩

/-- R128, G4: the cube roots of 1/16 and 9/16; of the numbers next to the first, one is a rounding too and one is not;
of 2/16 nothing but 0.5 is. An instance whose entries are all 0.0 reads as the cube roots. -/
theorem test_cube_root :
    lutCubeRoot ieee { Config.openParams with cubeRoot := fun _ => r0 } 1 = 0x3FD965FEA53D6E3D ∧
      lutCubeRoot ieee { Config.openParams with cubeRoot := fun _ => r0 } 9 = 0x3FEA6A58D55E307C ∧
      cubeRootAllowed ieee 1 (0x3FD965FEA53D6E3D - 1) = true ∧
        cubeRootAllowed ieee 1 (0x3FD965FEA53D6E3D + 1) = false ∧
      cubeRootNearest ieee 2 = rHalf ieee ∧ cubeRootAllowed ieee 2 (rHalf ieee - 1) = false ∧
        cubeRootAllowed ieee 2 (rHalf ieee + 1) = false := by
  decide +kernel

/-- Row 31 of any instance is well formed. -/
theorem witness_RomIsAdmissible : (31 : Nat) < 32 ∧ rowWf (algRow Config.openParams 31) = true :=
  ⟨by decide, silent_row_wf⟩

/-- Both ends of the integers, and operands that are no NaN, the infinities among them. -/
theorem witness_Exp2IsWithinOnePercent :
    ((-1022 : Int) ≤ -1022 ∧ (-1022 : Int) ≤ 1023) ∧ ((-1022 : Int) ≤ 1023 ∧ (1023 : Int) ≤ 1023) ∧
      rIsNaN ieee (rInf ieee false) = false ∧ rIsNaN ieee (rInf ieee true) = false ∧
        rIsNaN ieee 0x4090000000000000 = false ∧
        rIsNaN ieee 0xC090180000000000 = false := by
  decide

/-- R122 at its ends: 2^-1030 is a subnormal number with numbers within 1 % of it, and 0.0 is none of them; at 1024 a
finite number is within 1 %, and at 1025 none is. -/
theorem test_exp2_bound :
    exp2Allowed ieee 0xC090180000000000 r0 = false ∧ exp2Allowed ieee 0xC090180000000000
      (exp2Rounded ieee 0xC090180000000000) = true ∧
      exp2Allowed ieee 0xC090C40000000000 0x0000000000000003 = false ∧
        exp2Allowed ieee 0x4090000000000000 0x7FEFFFFFFFFFFFFF = true ∧
      exp2Allowed ieee 0x4090000000000000 (rInf ieee false) = true ∧
        exp2Allowed ieee 0x4090000000000000 0x7FDC7B1F3CAC7433 = false ∧
        exp2Allowed ieee 0x4090040000000000 r0 = false ∧
      exp2Allowed ieee 0x4090040000000000 (rInf ieee false) = true := by decide +kernel

end Sys2Proof.Tests
end

section
/-!
PROOFS. The scope of the model (00_scope.md): a step runs the packet it decodes (R13, R70), VRESET from power-up gives
the reset state (R302), EXP2 keeps R122's bound whatever the open parameters are (R7, R122).
-/
namespace Sys2Proof.Machine

/-! ### The step -/

/-- The next operation, where the oldest host operation is a packet that decodes. -/
theorem nextOp_packet (s : State) (p : Packet) (rest : List HostOp) (i : Instr)
    (hport : s.port = .packet p :: rest) (hdec : decode p = .ok i) : nextOp s = .instr i rest := by
  unfold nextOp
  rw [hport]
  simp only [hdec]

/-- The next operation, where none is waiting. -/
theorem nextOp_idle (s : State) (hport : s.port = []) : nextOp s = .idle := by
  unfold nextOp
  rw [hport]

/-- A step with an instruction next runs it, with its packet taken off the port. -/
theorem step_instr (s : State) (i : Instr) (rest : List HostOp) (h : nextOp s = .instr i rest) :
    step s = exec i (s.withPort rest) := by
  simp only [step, h]

/-- A step with nothing waiting holds the state (R299). -/
theorem step_idle (s : State) (h : nextOp s = .idle) : step s = .next s := by
  simp only [step, h]

/-- Settles O4: the oldest packet is the instruction it decodes to, and the step runs that. -/
theorem stepRunsTheDecodedInstruction : Obligations.StepRunsTheDecodedInstruction := by
  intro s p rest i hport hdec
  exact step_instr s i rest (nextOp_packet s p rest i hport hdec)

/-! ### VRESET -/

/-- The whole effect of VRESET with a sample rate in its domain (R236): the reset state but for the rate, the scale of
the envelope units and the three fields of the model's own that VRESET keeps (log 1, log 6, log 10). -/
theorem execVreset_of_sampleRateOk (sr : RealBits) (s : State) (h : sampleRateOk s.formats sr = true) :
    execVreset sr s = .next
      { State.reset with
        sampleRate := sr
        env := Six.ofFn fun _ => Env.reset s.formats (rDiv s.formats (rLit s.formats 44100 1) sr)
        penv := Env.reset s.formats (rDiv s.formats (rLit s.formats 44100 1) sr)
        draws := s.draws
        port := s.port
        formats := s.formats } := by
  simp only [execVreset, h, require_true, ok_bind, finish_ok]
  rfl

/-- What the instruction VRESET runs. -/
theorem exec_vreset (sr : RealBits) (s : State) : exec (.vreset sr) s = execVreset sr s := rfl

/-- The encoding of 44100.0. -/
theorem rLit_44100 : rLit ieee 44100 1 = 0x40E5888000000000 := by decide +kernel

/-- 44100.0 is a sample rate VRESET takes. -/
theorem sampleRateOk_44100 : sampleRateOk ieee 0x40E5888000000000 = true := by decide +kernel

/-- The envelope scale at 44100.0 is 1.0. -/
theorem envScale_44100 : rDiv ieee 0x40E5888000000000 0x40E5888000000000 = r1 ieee := by decide +kernel

/-- Settles O7: at 44100.0 the rate and the scale VRESET writes are those of the reset state. -/
theorem resetIsVresetFromPowerUp : Obligations.ResetIsVresetFromPowerUp := by
  constructor
  · have hfm : State.powerUp.formats = ieee := rfl
    have hok : sampleRateOk State.powerUp.formats 0x40E5888000000000 = true := hfm ▸ sampleRateOk_44100
    rw [exec_vreset, execVreset_of_sampleRateOk _ _ hok, hfm, rLit_44100, envScale_44100, ← rLit_44100]
    rfl
  · exact step_idle _ (nextOp_idle _ rfl)

/-! ### Numbers that need no rounding -/

/-- A finite number's exponent is at least that of the least positive number. -/
theorem rExact_exponent_ge (x : RealBits) (s : Bool) (m : Nat) (e : Int) (h : rExact ieee x = .fin s m e) :
    -1074 ≤ e := by
  rw [rExact_eq] at h
  split at h
  · split at h <;> cases h
  · split at h <;> (cases h; omega)

/-- A number shifted up until its leading bit is bit 52 has 53 bits. -/
theorem normalized_bounds (m : Nat) (hm : m ≠ 0) (hlog : Nat.log2 m ≤ 52) :
    2 ^ 52 ≤ m * 2 ^ (52 - Nat.log2 m) ∧ m * 2 ^ (52 - Nat.log2 m) < 2 ^ 53 := by
  have hlow : 2 ^ 52 = 2 ^ Nat.log2 m * 2 ^ (52 - Nat.log2 m) := by rw [← pow_add]; congr 1; omega
  have hhigh : 2 ^ 53 = 2 ^ (Nat.log2 m + 1) * 2 ^ (52 - Nat.log2 m) := by rw [← pow_add]; congr 1; omega
  rw [hlow, hhigh]
  exact ⟨Nat.mul_le_mul_right _ (Nat.log2_self_le hm),
    Nat.mul_lt_mul_of_pos_right Nat.lt_log2_self (Nat.two_pow_pos _)⟩

/-- The magnitude field of a number with at most 53 bits in the range of the normal exponents: nothing is rounded. -/
theorem roundMag_of_fits (m : Nat) (e : Int) (hm : m ≠ 0) (hlog : Nat.log2 m ≤ 52) (hlo : -1022 ≤ e + Nat.log2 m) :
    roundMag 53 (-1074) m e = (e + Nat.log2 m + 1022).toNat * 2 ^ 52 + m * 2 ^ (52 - Nat.log2 m) := by
  have htop : max (e + (Nat.log2 m : Int) - (((53 : Nat) : Int) - 1)) (-1074) = e + Nat.log2 m - 52 := by omega
  rw [roundMag_eq _ _ _ _ hm]
  simp only [htop]
  rw [if_pos (by omega)]
  congr 3 <;> omega

/-- Such a number is packed exactly. -/
theorem rExact_rPack_of_fits (neg : Bool) (m : Nat) (e : Int) (hm : m ≠ 0) (hlog : Nat.log2 m ≤ 52)
    (hlo : -1022 ≤ e + Nat.log2 m) (hhi : e + Nat.log2 m ≤ 1023) :
    rExact ieee (rPack ieee neg m e) = .fin neg (m * 2 ^ (52 - Nat.log2 m)) (e + Nat.log2 m - 52) := by
  obtain ⟨hq, hq'⟩ := normalized_bounds m hm hlog
  obtain ⟨hmag, hsign⟩ := rPack_mag neg m e
  rw [roundMag_of_fits m e hm hlog hlo] at hmag
  rw [rExact_eq, hmag, hsign]
  generalize m * 2 ^ (52 - Nat.log2 m) = q at *
  obtain ⟨j, hj⟩ : ∃ j : Nat, e + Nat.log2 m = (j : Int) - 1022 := ⟨(e + Nat.log2 m + 1022).toNat, by omega⟩
  rw [hj, show ((j : Int) - 1022 + 1022).toNat = j by omega]
  have hmin : min (j * 2 ^ 52 + q) 0x7FF0000000000000 = (j + 1) * 2 ^ 52 + (q - 2 ^ 52) := by omega
  have hdiv : ((j + 1) * 2 ^ 52 + (q - 2 ^ 52)) / 2 ^ 52 = j + 1 := by omega
  have hmod : ((j + 1) * 2 ^ 52 + (q - 2 ^ 52)) % 2 ^ 52 = q - 2 ^ 52 := by omega
  rw [hmin, hdiv, hmod, if_neg (by omega), if_neg (by omega), show 2 ^ 52 + (q - 2 ^ 52) = q by omega,
    show ((j + 1 : Nat) : Int) - 1075 = (j : Int) - 1022 - 52 by omega]

/-- An integer of at most 53 bits is a real, written with some number of fraction bits. -/
theorem rExact_rOfInt (n : Int) (h : n.natAbs < 2 ^ 53) :
    ∃ k : Nat, rExact ieee (rOfInt ieee n) = .fin (decide (n < 0)) (n.natAbs * 2 ^ k) (-(k : Int)) := by
  by_cases hn : n = 0
  · subst hn
    exact ⟨1074, by rw [Int.natAbs_zero, Nat.zero_mul]; decide⟩
  · have hne : n.natAbs ≠ 0 := by omega
    have hlog : Nat.log2 n.natAbs < 53 := (Nat.log2_lt hne).2 h
    refine ⟨52 - Nat.log2 n.natAbs, ?_⟩
    rw [rOfInt, rExact_rPack_of_fits _ _ _ hne (by omega) (by omega) (by omega)]
    congr 1
    omega

/-- The signed integer of such a number. -/
theorem signed_natAbs_mul (n : Int) (k : Nat) : signed (decide (n < 0)) (n.natAbs * 2 ^ k) = n * 2 ^ k := by
  have hsign : signed (decide (n < 0)) (n.natAbs * 2 ^ k) = signed (decide (n < 0)) n.natAbs * 2 ^ k := by
    unfold signed; split <;> push_cast <;> ring
  have habs : signed (decide (n < 0)) n.natAbs = n := by
    simp only [signed, decide_eq_true_eq]; split <;> omega
  rw [hsign, habs]

/-- An integer of at most 53 bits, as a real, has itself as floor. -/
theorem rFloor_rOfInt (n : Int) (h : n.natAbs < 2 ^ 53) : rFloor ieee (rOfInt ieee n) = n := by
  obtain ⟨k, hk⟩ := rExact_rOfInt n h
  simp only [rFloor, hk]
  split
  · obtain rfl : k = 0 := by omega
    simpa using signed_natAbs_mul n 0
  · rw [signed_natAbs_mul, show (-(-(k : Int))).toNat = k by omega]
    push_cast
    exact Int.mul_ediv_cancel n (by positivity)

/-! ### EXP2 of an integer -/

/-- The power of two of an integer needs no series. -/
theorem exp2Fixed_int (n : Int) (k : Nat) :
    exp2Fixed (decide (n < 0)) (n.natAbs * 2 ^ k) (-(k : Int)) n = (1, n) := by
  unfold exp2Fixed
  split
  · rfl
  · rw [show (-(-(k : Int))).toNat = k by omega, signed_natAbs_mul]
    simp

/-- The exponents of the normal numbers are in the range in which powers of two are worked out. -/
theorem exp2InRange_normal (n : Int) (hlo : -1022 ≤ n) (hhi : n ≤ 1023) : exp2InRange ieee n = true := by
  have hleast : fmtLeast ieee.real = -1074 := by decide
  have hbits : (2 : Int) ^ (ieee.real.exponentBits - 1) = 1024 := by decide
  simp only [exp2InRange, hleast, hbits, Bool.and_eq_true, decide_eq_true_eq]
  omega

/-- R7's value of EXP2 at an integer is the power of two itself. -/
theorem exp2Rounded_rOfInt (n : Int) (hlo : -1022 ≤ n) (hhi : n ≤ 1023) :
    exp2Rounded ieee (rOfInt ieee n) = rPack ieee false 1 n := by
  have hsmall : n.natAbs < 2 ^ 53 := by omega
  obtain ⟨k, hk⟩ := rExact_rOfInt n hsmall
  simp only [exp2Rounded, hk, rFloor_rOfInt n hsmall, exp2Fixed_int, if_pos (exp2InRange_normal n hlo hhi)]

/-- What R122's bound says at an integer, in units of the smaller of the two exponents. -/
theorem exp2Within_rOfInt (n : Int) (hlo : -1022 ≤ n) (hhi : n ≤ 1023) (y : RealBits) (t : Bool) (k : Nat) (f : Int)
    (hy : rExact ieee y = .fin t k f) :
    exp2Within ieee (rOfInt ieee n) y = true ↔
      99 * 2 ^ (n - min n f).toNat ≤ 100 * (k * 2 ^ (f - min n f).toNat) ∧
        100 * (k * 2 ^ (f - min n f).toNat) ≤ 101 * 2 ^ (n - min n f).toNat := by
  have hsmall : n.natAbs < 2 ^ 53 := by omega
  obtain ⟨j, hj⟩ := rExact_rOfInt n hsmall
  simp only [exp2Within, hj, hy, rFloor_rOfInt n hsmall, exp2Fixed_int, exp2InRange_normal n hlo hhi,
    Nat.shiftLeft_eq, one_mul, Bool.true_and, Bool.and_eq_true, decide_eq_true_eq]

/-- R7's value at an integer keeps R122's bound: it is exact. -/
theorem exp2Within_exp2Rounded_rOfInt (n : Int) (hlo : -1022 ≤ n) (hhi : n ≤ 1023) :
    exp2Within ieee (rOfInt ieee n) (exp2Rounded ieee (rOfInt ieee n)) = true := by
  have hlog : Nat.log2 1 = 0 := by decide
  have hpow : rExact ieee (rPack ieee false 1 n) = .fin false (2 ^ 52) (n - 52) := by
    rw [rExact_rPack_of_fits false 1 n (by omega) (by omega) (by omega) (by omega), hlog]
    simp
  rw [exp2Rounded_rOfInt n hlo hhi, exp2Within_rOfInt n hlo hhi _ _ _ _ hpow,
    show min n (n - 52) = n - 52 by omega, show n - (n - 52) = 52 by omega, sub_self]
  decide

/-- A power of two in units of 2^-1074, through a unit between. -/
theorem two_pow_units (a g : Int) (hg : -1074 ≤ g) (ha : g ≤ a) :
    2 ^ (a + 1074).toNat = 2 ^ (a - g).toNat * 2 ^ (g + 1074).toNat := by
  rw [← pow_add]
  congr 1
  omega

/-- What R122's bound says at an integer, in units of 2^-1074. -/
theorem exp2Within_rOfInt_units (n : Int) (hlo : -1022 ≤ n) (hhi : n ≤ 1023) (y : RealBits) (t : Bool) (k : Nat)
    (f : Int) (hy : rExact ieee y = .fin t k f) :
    exp2Within ieee (rOfInt ieee n) y = true ↔
      99 * 2 ^ (n + 1074).toNat ≤ 100 * (k * 2 ^ (f + 1074).toNat) ∧
        100 * (k * 2 ^ (f + 1074).toNat) ≤ 101 * 2 ^ (n + 1074).toNat := by
  have hf := rExact_exponent_ge y t k f hy
  rw [exp2Within_rOfInt n hlo hhi y t k f hy, two_pow_units n (min n f) (by omega) (by omega),
    two_pow_units f (min n f) (by omega) (by omega)]
  have hunit := Nat.two_pow_pos (min n f + 1074).toNat
  simp only [← Nat.mul_assoc, Nat.mul_le_mul_right_iff hunit]

/-! ### EXP2 of any number -/

/-- A packed number is finite, or the infinity of its sign. -/
theorem rPack_finite_or_inf (neg : Bool) (m : Nat) (e : Int) :
    rIsFinite ieee (rPack ieee neg m e) = true ∨ rPack ieee neg m e = rInf ieee neg := by
  by_cases h : 0x7FF0000000000000 ≤ roundMag 53 (-1074) m e
  · rw [rPack_eq, if_pos h]
    exact .inr rfl
  · left
    rw [rIsFinite_eq, (rPack_mag neg m e).1, decide_eq_true_eq]
    omega

/-- R7's value of EXP2 at a number is finite or +infinity. -/
theorem exp2Rounded_finite_or_inf (x : RealBits) (hx : rIsNaN ieee x = false) :
    rIsFinite ieee (exp2Rounded ieee x) = true ∨ exp2Rounded ieee x = rInf ieee false := by
  rcases rExact_cases x with ⟨-, hnan⟩ | ⟨hinf, -⟩ | ⟨m, e, hfin, -⟩
  · rw [hx] at hnan; cases hnan
  · simp only [exp2Rounded, hinf]
    cases rSign ieee x with
    | false => exact .inr rfl
    | true => exact .inl (by decide)
  · simp only [exp2Rounded, hfin]
    split
    · exact rPack_finite_or_inf _ _ _
    · split
      · exact .inl (by decide)
      · exact .inr rfl

/-- A finite number is no NaN. -/
theorem rIsNaN_of_finite (x : RealBits) (h : rIsFinite ieee x = true) : rIsNaN ieee x = false := by
  simp only [rIsFinite_eq, rIsNaN_eq, decide_eq_true_eq, decide_eq_false_iff_not] at h ⊢
  omega

/-- EXP2 of a number is no NaN (R122). -/
theorem exp2_not_nan (cfg : Config.Params) (x : RealBits) (hx : rIsNaN ieee x = false) :
    rIsNaN ieee (exp2 ieee cfg x) = false := by
  rcases exp2_number cfg x hx with heq | ⟨hnan, -⟩
  · rw [heq]
    rcases exp2Rounded_finite_or_inf x hx with hfin | hinf
    · exact rIsNaN_of_finite _ hfin
    · rw [hinf]; decide
  · exact hnan

/-- EXP2 keeps R122's bound where the finite number nearest to the power keeps it, or it is +infinity (log 3). -/
theorem exp2_within_or_inf (cfg : Config.Params) (x : RealBits) (hx : rIsNaN ieee x = false)
    (hn : exp2Within ieee x (exp2Nearest ieee x) = true) :
    exp2Within ieee x (exp2 ieee cfg x) = true ∨ exp2 ieee cfg x = rInf ieee false := by
  rcases exp2_within cfg x hx hn with hw | heq
  · exact .inl hw
  · rw [heq]
    exact (exp2Rounded_finite_or_inf x hx).imp_left fun hfin => exp2Nearest_of_finite x hfin ▸ hn

/-- EXP2 keeps R122's bound wherever R7's value keeps it. -/
theorem exp2_within_of_rounded (cfg : Config.Params) (x : RealBits) (hx : rIsNaN ieee x = false)
    (hr : exp2Within ieee x (exp2Rounded ieee x) = true) : exp2Within ieee x (exp2 ieee cfg x) = true := by
  have hn : exp2Within ieee x (exp2Nearest ieee x) = true := by
    rwa [exp2Nearest_of_finite x (exp2Within_finite _ _ hr)]
  rcases exp2_within cfg x hx hn with hw | heq
  · exact hw
  · rwa [heq]

/-- EXP2 at an integer is a number with a clear sign bit, within 1 % of the power of two (R122). -/
theorem exp2_rOfInt (cfg : Config.Params) (n : Int) (hlo : -1022 ≤ n) (hhi : n ≤ 1023) :
    ∃ k f, rExact ieee (exp2 ieee cfg (rOfInt ieee n)) = .fin false k f ∧
      exp2Within ieee (rOfInt ieee n) (exp2 ieee cfg (rOfInt ieee n)) = true := by
  have hx : rIsNaN ieee (rOfInt ieee n) = false := rPack_not_nan _ _ _
  have hsign : rSign ieee (exp2Rounded ieee (rOfInt ieee n)) = false := by
    rw [exp2Rounded_rOfInt n hlo hhi]; exact (rPack_mag _ _ _).2
  have hw := exp2_within_of_rounded cfg _ hx (exp2Within_exp2Rounded_rOfInt n hlo hhi)
  obtain ⟨k, f, hk, -⟩ := rExact_fin _ (exp2Within_finite _ _ hw)
  rw [exp2_sign cfg _ hx hsign] at hk
  exact ⟨k, f, hk, hw⟩

/-- Settles O60: at an integer R7's value is exact and so keeps the bound; at any number an open value
of EXP2 is read only where the bound admits it. -/
theorem exp2IsWithinOnePercent : Obligations.Exp2IsWithinOnePercent := by
  intro cfg
  constructor
  · intro n hlo hhi
    obtain ⟨k, f, hk, hw⟩ := exp2_rOfInt cfg n hlo hhi
    exact ⟨k, f, hk, rExact_exponent_ge _ _ _ _ hk, (exp2Within_rOfInt_units n hlo hhi _ _ k f hk).1 hw⟩
  · intro x hx
    exact ⟨exp2_not_nan cfg x hx, exp2_nonneg cfg x, exp2_within_of_rounded cfg x hx, exp2_within_or_inf cfg x hx⟩

end Sys2Proof.Machine
end

section
/-!
PROOFS. The invariant under every step (10_state.md): what each named update keeps of it, then one lemma per command
and one for the instructions of formats R and K.
-/
namespace Sys2Proof.Machine

/-! ### The commands -/

/-- An instruction of format C is one of the ten host commands (R86). -/
theorem command_cases (i : Instr) (h : (encode i).format = .command) :
    (∃ sr, i = .vreset sr) ∨ (∃ img, i = .pload img) ∨ i = .setup ∨ (∃ a, i = .render a) ∨ (∃ k, i = .opreset k) ∨
      i = .lcfg ∨ i = .lreset ∨ (∃ x, i = .lstep x) ∨ (∃ x, i = .lscrub x) ∨ ∃ bank, i = .bunpack bank := by
  cases i with
  | vreset sr => exact .inl ⟨sr, rfl⟩
  | pload img => exact .inr (.inl ⟨img, rfl⟩)
  | setup => exact .inr (.inr (.inl rfl))
  | render a => exact .inr (.inr (.inr (.inl ⟨a, rfl⟩)))
  | opreset k => exact .inr (.inr (.inr (.inr (.inl ⟨k, rfl⟩))))
  | lcfg => exact .inr (.inr (.inr (.inr (.inr (.inl rfl)))))
  | lreset => exact .inr (.inr (.inr (.inr (.inr (.inr (.inl rfl))))))
  | lstep x => exact .inr (.inr (.inr (.inr (.inr (.inr (.inr (.inl ⟨x, rfl⟩)))))))
  | lscrub x => exact .inr (.inr (.inr (.inr (.inr (.inr (.inr (.inr (.inl ⟨x, rfl⟩))))))))
  | bunpack bank => exact .inr (.inr (.inr (.inr (.inr (.inr (.inr (.inr (.inr ⟨bank, rfl⟩))))))))
  | _ => cases h

/-! ### The invariant under the named updates -/

variable {s : State}

theorem State.Inv.withResult (h : s.Inv) (r : Result) : (s.withResult r).Inv := { h with }

theorem State.Inv.withPort (h : s.Inv) (l : List HostOp) : (s.withPort l).Inv := { h with }

theorem State.Inv.withOps (h : s.Inv) (x : Six Oper) : (s.withOps x).Inv := { h with }

theorem State.Inv.withDraws (h : s.Inv) (n : Nat) : (s.withDraws n).Inv := { h with }

theorem State.Inv.withHistory (h : s.Inv) (h0 h1 : RealBits) : (s.withHistory h0 h1).Inv := { h with }

theorem State.Inv.withBuf (h : s.Inv) (m : Memory) (hm : m.wf = true) : (s.withBuf m).Inv := { h with buf := hm }

theorem State.Inv.withPatch (h : s.Inv) (p : Patch) (hp : p.inRange = true) : (s.withPatch p).Inv :=
  { h with
    valid := rfl
    patch := fun q hq => by obtain rfl := Option.some.inj hq; exact hp }

theorem State.Inv.withDirty_true (h : s.Inv) : (s.withDirty true).Inv := { h with dirty := fun _ => rfl }

/-- Between commands there is no context (R37). -/
theorem State.Inv.withRc_none (h : s.Inv) : (s.withRc none).Inv := { h with rc := fun _ hc => by cases hc }

theorem State.Inv.withRc_some (h : s.Inv) (c : RenderCtx) (hc : c.ok = true) : (s.withRc (some c)).Inv :=
  { h with rc := fun d hd => by obtain rfl := Option.some.inj hd; exact hc }

theorem State.Inv.withLevelOut (h : s.Inv) (x : Six (Option RealBits)) (hx : x.all Option.isSome = true) :
    (s.withLevelOut x).Inv := { h with levelOut := .inl hx }

/-- The ranges of the LFO registers (R35): what the invariant says of them. -/
structure Lfo.Ok (l : Lfo) : Prop where
  wave : l.wave ≤ 5
  lfoFreq : l.freq.isSome = l.delayInc0.isSome ∧ l.freq.isSome = l.delayInc1.isSome
  hold : (rLe ieee r0 l.sh && rLt ieee l.sh (r1 ieee)) = true
  lfoPhases : l.phasesOk ieee = true
  lfoRates : l.ratesOk ieee = true

/-- The invariant's ranges of the LFO registers. -/
theorem State.Inv.lfoOk (h : s.Inv) : s.lfo.Ok :=
  have hfm := h.formats
  { wave := h.wave
    lfoFreq := h.lfoFreq
    hold := hfm ▸ h.hold
    lfoPhases := hfm ▸ h.lfoPhases
    lfoRates := hfm ▸ h.lfoRates }

theorem State.Inv.withLfo (h : s.Inv) (l : Lfo) (hl : l.Ok) : (s.withLfo l).Inv :=
  have hfm : (s.withLfo l).formats = ieee := h.formats
  { h with
    wave := hl.wave
    lfoFreq := hl.lfoFreq
    hold := by rw [hfm]; exact hl.hold
    lfoPhases := by rw [hfm]; exact hl.lfoPhases
    lfoRates := by rw [hfm]; exact hl.lfoRates }

/-- What one block of RENDER does to an envelope unit: the tables and SCALE stay, the phase stays in its range. -/
structure Env.MovedTo (e e' : Env) : Prop where
  level : e'.level = e.level
  incr : e'.incr = e.incr
  scale : e'.scale = e.scale
  phase : e'.phaseOk ieee = true

/-- What holds of the one entries holds of the other. -/
theorem Six.all_congr {α β : Type} (p : α → Bool) (q : β → Bool) (x : Six α) (y : Six β)
    (h : ∀ k < 6, p (x.get k) = q (y.get k)) : x.all p = y.all q := by
  rw [Bool.eq_iff_iff, Six.all_iff, Six.all_iff]
  exact forall₂_congr fun k hk => by rw [h k hk]

theorem Env.MovedTo.tablesWritten {e e' : Env} (h : e.MovedTo e') : e'.tablesWritten = e.tablesWritten := by
  rw [Env.tablesWritten, Env.tablesWritten, h.level, h.incr]

theorem Env.MovedTo.tablesUnwritten {e e' : Env} (h : e.MovedTo e') : e'.tablesUnwritten = e.tablesUnwritten := by
  rw [Env.tablesUnwritten, Env.tablesUnwritten, h.level, h.incr]

theorem Env.MovedTo.ratesOk {e e' : Env} (h : e.MovedTo e') (fm : Formats) : e'.ratesOk fm = e.ratesOk fm := by
  rw [Env.ratesOk, Env.ratesOk, h.incr, h.scale]

/-- Envelope units moved by one block keep the invariant (R201). -/
theorem State.Inv.withEnvs (h : s.Inv) (env : Six Env) (penv : Env)
    (henv : ∀ k < 6, (s.env.get k).MovedTo (env.get k)) (hpenv : s.penv.MovedTo penv) :
    (s.withEnvs env penv).Inv := by
  have hfm : (s.withEnvs env penv).formats = ieee := h.formats
  have hwritten : (s.withEnvs env penv).setupWritten = s.setupWritten := by
    simp only [State.setupWritten, State.withEnvs_env, State.withEnvs_penv, State.withEnvs_ratio,
      State.withEnvs_headroom, hpenv.tablesWritten, Six.all_congr _ _ _ _ fun k hk => (henv k hk).tablesWritten]
  have hunwritten : (s.withEnvs env penv).setupUnwritten = s.setupUnwritten := by
    simp only [State.setupUnwritten, State.withEnvs_env, State.withEnvs_penv, State.withEnvs_ratio,
      State.withEnvs_headroom, hpenv.tablesUnwritten, Six.all_congr _ _ _ _ fun k hk => (henv k hk).tablesUnwritten]
  exact
    { h with
      setup := by rw [hwritten, hunwritten]; exact h.setup
      dirty := by rw [hunwritten]; exact h.dirty
      phases := by
        rw [hfm]
        exact ⟨(Six.all_iff _ _).2 fun k hk => (henv k hk).phase, hpenv.phase⟩
      rates := by
        obtain ⟨hr, hpr⟩ := h.rates
        refine ⟨?_, (hpenv.ratesOk _).trans hpr⟩
        exact (Six.all_congr _ _ _ _ fun k hk => (henv k hk).ratesOk _).trans hr }

/-! ### The invariant under each instruction -/

/-- A routing opcode or a chain call writes operators, history, samples of the block and the router index (R156). -/
theorem exec_inner_keeps_inv (i : Instr) (s t : State) (hi : (encode i).format ≠ .command) (h : s.Inv)
    (hx : exec i s = .next t) : t.Inv := by
  obtain ⟨x, first, out, c, hrc, -, hfit, ⟨heq, -, -⟩, hwf⟩ := exec_inner_next i s t hi hx
  have hc : ({ c with index := first + x.len } : RenderCtx).ok = true := by
    have hok := h.rc c hrc
    simp only [RenderCtx.ok, Bool.and_eq_true, decide_eq_true_eq] at hok ⊢
    exact ⟨⟨hfit, hok.1.2⟩, hok.2⟩
  rw [heq]
  exact ((((h.withOps t.ops).withBuf t.buf (hwf h.buf)).withHistory t.fb0 t.fb1).withRc_some _ hc)

/-- A sample rate VRESET takes has a clear sign bit (R236). -/
theorem rSign_of_sampleRateOk (sr : RealBits) (h : sampleRateOk ieee sr = true) : rSign ieee sr = false := by
  have hkey : rKey ieee r0 = 0 := by decide
  simp only [sampleRateOk, rLt, Bool.and_eq_true, decide_eq_true_eq, hkey] at h
  obtain ⟨-, -, hpos⟩ := h
  by_contra hneg
  rw [Bool.not_eq_false] at hneg
  simp only [rKey, hneg, signed, if_true] at hpos
  omega

/-- An envelope unit after reset, with a SCALE not below 0.0, is in its ranges (R24). -/
theorem Env.reset_ok (scale : RealBits) (h : notNegative ieee scale = true) :
    (Env.reset ieee scale).phaseOk ieee = true ∧ (Env.reset ieee scale).ratesOk ieee = true := by
  have hone : (notNegative ieee (r1 ieee) && !rLt ieee (r1 ieee) (r1 ieee)) = true := by decide
  refine ⟨hone, ?_⟩
  simp only [Env.ratesOk, Env.reset, h, noneOrNotNegative, Bool.and_self]

/-- The LFO registers after reset are in their ranges (R35). -/
theorem Lfo.reset_ok : Lfo.reset.Ok where
  wave := Nat.zero_le _
  lfoFreq := ⟨rfl, rfl⟩
  hold := by decide
  lfoPhases := by decide
  lfoRates := by decide

theorem execVreset_keeps_inv (sr : RealBits) (s t : State) (h : s.Inv) (hx : execVreset sr s = .next t) : t.Inv := by
  obtain ⟨hsr, heq⟩ := execVreset_next sr s t hx
  have hfm := h.formats
  rw [hfm] at hsr heq
  obtain ⟨hphase, hrates⟩ := Env.reset_ok (rDiv ieee (rLit ieee 44100 1) sr)
    (notNegative_of_sign _ (rDiv_sign _ _ (rLit_sign _ _) (rSign_of_sampleRateOk sr hsr)))
  rw [heq]
  exact
    { formats := rfl
      buf := rfl
      rate := fun _ => hsr
      valid := rfl
      patch := fun _ hp => by cases hp
      setup := .inr rfl
      dirty := fun _ => rfl
      latch := rfl
      gate := fun hg => by cases hg
      levelOut := .inr rfl
      phases := ⟨(Six.all_iff _ _).2 fun k hk => by rw [Six.get_ofFn _ k hk]; exact hphase, hphase⟩
      rates := ⟨(Six.all_iff _ _).2 fun k hk => by rw [Six.get_ofFn _ k hk]; exact hrates, hrates⟩
      wave := Lfo.reset_ok.wave
      lfoFreq := Lfo.reset_ok.lfoFreq
      hold := Lfo.reset_ok.hold
      lfoPhases := Lfo.reset_ok.lfoPhases
      lfoRates := Lfo.reset_ok.lfoRates
      rc := fun _ hc => by cases hc }

/-- PLOAD writes registers in range, or only its result (R262, R269, R285). -/
theorem execPload_keeps_inv (img : List Byte) (s t : State) (h : s.Inv) (hx : execPload img s = .next t) : t.Inv := by
  obtain ⟨-, ⟨-, rfl⟩ | ⟨-, rfl⟩⟩ := (execPload_next img s t).1 hx
  · exact ((h.withPatch _ (decodeVoice_inRange img)).withDirty_true).withResult .ok
  · exact h.withResult _

/-- What `ratesOk` says of SCALE. -/
theorem Env.ratesOk_scale (e : Env) (h : e.ratesOk ieee = true) : notNegative ieee e.scale = true := by
  simp only [Env.ratesOk, Bool.and_eq_true] at h
  exact h.1.1.1.1

/-- The units SETUP configures keep their ranges: the phases stay, the increments are new (R190). -/
theorem setupEnvs_ranges (p : Patch) (s : State) (h : s.Inv) :
    ((setupEnvs p s).env.all (Env.phaseOk s.formats) = true ∧ (setupEnvs p s).penv.phaseOk s.formats = true) ∧
      (setupEnvs p s).env.all (Env.ratesOk s.formats) = true ∧ (setupEnvs p s).penv.ratesOk s.formats = true := by
  obtain ⟨hphases, hpphase⟩ := h.phases
  obtain ⟨hrates, hprates⟩ := h.rates
  simp only [setupEnvs, State.withEnvs_env, State.withEnvs_penv]
  rw [h.formats, Six.all_iff] at hphases hrates
  rw [h.formats] at hpphase hprates
  rw [h.formats]
  refine ⟨⟨(Six.all_iff _ _).2 fun k hk => ?_, hpphase⟩, (Six.all_iff _ _).2 fun k hk => ?_, ?_⟩
  · rw [Six.get_ofFn _ k hk]
    exact hphases k hk
  · rw [Six.get_ofFn _ k hk]
    exact envSetOp_ratesOk _ _ (Env.ratesOk_scale _ (hrates k hk))
  · exact envSetPitch_ratesOk _ _ (Env.ratesOk_scale _ hprates)

/-- SETUP's effect keeps the invariant: it writes every table and both caches (R238). -/
theorem setupWith_keeps_inv (cfg : Config.Params) (s t : State) (h : s.Inv) (hx : setupWith cfg s = .ok t) :
    t.Inv := by
  obtain ⟨-, p, -, ⟨-, rfl⟩ | ⟨-, rfl⟩⟩ := (setupWith_ok cfg s t).1 hx
  · obtain ⟨hphases, hrates⟩ := setupEnvs_ranges p s h
    exact { h with setup := .inl rfl, dirty := fun hu => (by cases hu), phases := hphases, rates := hrates }
  · exact h

theorem execSetup_keeps_inv (s t : State) (h : s.Inv) (hx : execSetup s = .next t) : t.Inv := by
  obtain ⟨-, s', hs', rfl⟩ := (execSetup_next s t).1 hx
  exact (setupWith_keeps_inv _ s s' h hs').withResult .ok

/-! ### The invariant under RENDER -/

/-- Step 4 latches both or neither, and GATE_PREV is set only with a latch or after one (R245, R246). -/
theorem noteStep_keeps_inv (cfg : Config.Params) (p : Patch) (a : RenderArgs) (s : State) (h : s.Inv) :
    (noteStep cfg p a s).Inv := by
  rw [noteStep_frame]
  by_cases hl : latchesNote a.gate s.gatePrev a.sustain = true
  · simp only [hl, if_true]
    exact { h with latch := rfl, gate := fun _ => rfl }
  · simp only [hl]
    refine { h with gate := fun hg => h.gate ?_ }
    simp only [latchesNote, noteOn, Bool.not_eq_true, Bool.or_eq_false_iff, Bool.and_eq_false_iff] at hl hg
    rcases hl.1 with hgate | hprev
    · rw [hgate] at hg; cases hg
    · simpa using hprev

/-- One block of a unit whose ranges hold, at rates not below 0.0 (R201, R205). -/
theorem envBlock_movedTo (u : EnvUnit) (e e' : Env) (a : RenderArgs) (rate ad rel v : RealBits)
    (h : envBlock ieee u e a rate ad rel = .ok (e', v)) (hp : e.phaseOk ieee = true) (hr : e.ratesOk ieee = true)
    (hrate : notNegative ieee rate = true) (had : notNegative ieee ad = true) (hrel : notNegative ieee rel = true) :
    e.MovedTo e' := by
  obtain ⟨hlevel, hincr, hscale, -⟩ := envBlock_frame u e e' a rate ad rel v h
  exact ⟨hlevel, hincr, hscale, envBlock_phaseOk u e e' a rate ad rel v h hp hr hrate had hrel⟩

/-- A block size RENDER takes (R240). -/
theorem blockOk_iff (b : Int) : blockOk b = true ↔ 1 ≤ b ∧ b.toNat ≤ Config.bmax := by
  simp [blockOk]

/-- Steps 1 to 5 move each unit by one block, at rates not below 0.0 (R242, R247), and bind a context RENDER makes. -/
theorem renderTargets_keeps_inv (cfg : Config.Params) (a : RenderArgs) (p : Patch) (s t : State) (h : s.Inv)
    (ha : blockOk a.block = true) (hx : renderTargets cfg a p s = .ok t) : t.Inv := by
  obtain ⟨penv, pe, note, nvel, x, hpenv, -, -, htargets, rfl⟩ := (renderTargets_ok cfg a p s t).1 hx
  obtain ⟨hlo, hhi⟩ := (blockOk_iff _).1 ha
  have hn := noteStep_keeps_inv cfg p a s h
  have hfm := hn.formats
  have hunits : (noteStep cfg p a s).env = s.env ∧ (noteStep cfg p a s).penv = s.penv := by
    rw [noteStep_frame]; exact ⟨rfl, rfl⟩
  obtain ⟨hphases, hpphase⟩ := hn.phases
  obtain ⟨hrates, hprates⟩ := hn.rates
  rw [hfm, Six.all_iff] at hphases hrates
  rw [hfm] at hpphase hprates
  rw [h.formats] at hpenv htargets
  have hrate := envelopeRate_notNegative a (by omega)
  have hmovedP : (noteStep cfg p a s).penv.MovedTo penv :=
    envBlock_movedTo _ _ _ _ _ _ _ _ (hunits.2 ▸ hpenv) hpphase hprates hrate (adScale_notNegative _ _)
      (releaseScale_notNegative _ _)
  have hmoved : ∀ k < 6, ((noteStep cfg p a s).env.get k).MovedTo ((x.map (·.env)).get k) := by
    intro k hk
    obtain ⟨_, _, _, -, -, hblock, -⟩ := (opTarget_ok _ _ _ _ _ _).1 ((opTargets_ok _ _ _ _ _).1 htargets k hk)
    rw [hfm] at hblock
    rw [Six.get_map]
    dsimp only at hblock
    exact envBlock_movedTo _ _ _ _ _ _ _ _ hblock (hphases k hk) (hrates k hk)
      (notNegative_rMul _ _ hrate (rateScaling_notNegative _ _ _)) (adScale_notNegative _ _)
      (releaseScale_notNegative _ _)
  refine ((hn.withEnvs _ penv hmoved hmovedP).withLevelOut _ rfl).withRc_some _ ?_
  simp only [RenderCtx.ok, Bool.and_eq_true, decide_eq_true_eq]
  omega

/-- Running a plan writes only what its chain calls write. -/
theorem runPlan_keeps_inv (row : Six Byte) (plan : List Call) (s t : State) (c : RenderCtx) (h : s.Inv)
    (hplan : compile row = some plan) (hrc : s.rc = some c) (hx : runPlan plan s = .ok t) : t.Inv := by
  obtain ⟨heq, ⟨c', hrc', hblock, -, -, -, hindex⟩, -, -, hwf⟩ :=
    runPlan_frame plan s t hx c hrc fun y hy => (compile_mem row plan hplan y hy).1
  have hc : c'.ok = true := by
    have hok := h.rc c hrc
    simp only [RenderCtx.ok, Bool.and_eq_true, decide_eq_true_eq] at hok ⊢
    rw [hblock]
    exact ⟨⟨hindex hok.1.1, hok.1.2⟩, hok.2⟩
  rw [heq, hrc']
  exact (((h.withOps t.ops).withBuf t.buf (hwf h.buf)).withHistory t.fb0 t.fb1).withRc_some c' hc

/-- RENDER keeps the invariant step by step, and its context ends with it (R37, R240). -/
theorem execRender_keeps_inv (a : RenderArgs) (s t : State) (h : s.Inv) (hx : execRender a s = .next t) : t.Inv := by
  obtain ⟨p, s1, s2, plan, s3, hchecks, hsetup, htargets, hplan, hrun, rfl⟩ := (execRender_next a s t).1 hx
  obtain ⟨-, hblock, -⟩ := (renderChecks_ok _ _ _ _).1 hchecks
  have h1 := setupWith_keeps_inv _ s s1 h hsetup
  have h2 := renderTargets_keeps_inv _ a p s1 s2 h1 hblock htargets
  obtain ⟨_, _, _, _, _, -, -, -, -, hs2⟩ := (renderTargets_ok _ _ _ _ _).1 htargets
  have h3 := runPlan_keeps_inv _ plan s2 s3 _ h2 hplan (by rw [hs2]; rfl) hrun
  exact h3.withRc_none.withResult .ok

/-! ### The invariant under the other commands -/

theorem execOpreset_keeps_inv (k : Int) (s t : State) (h : s.Inv) (hx : execOpreset k s = .next t) : t.Inv := by
  obtain ⟨-, -, rfl⟩ := (execOpreset_next k s t).1 hx
  exact (h.withOps _).withResult .ok

/-- The LFO's waveform is in its range in every patch in range (R30). -/
theorem Patch.inRange_wave (p : Patch) (h : p.inRange = true) : p.lfo.wave ≤ 5 := by
  simp only [Patch.inRange, LfoPatch.inRange, Bool.and_eq_true, decide_eq_true_eq] at h
  omega

/-- LCFG writes the rates and the waveform from a patch in range (R217). -/
theorem Lfo.Ok.configured {l : Lfo} (h : l.Ok) (cfg : Config.Params) (p : Patch) (sr : RealBits)
    (hp : p.inRange = true) (hsr : rSign ieee sr = false) : (lfoConfigure ieee cfg p.lfo sr l).Ok where
  wave := p.inRange_wave hp
  lfoFreq := by simp only [lfoConfigure, Option.isSome_some, and_self]
  hold := h.hold
  lfoPhases := h.lfoPhases
  lfoRates := lfoConfigure_ratesOk cfg p.lfo sr l hsr

theorem execLcfg_keeps_inv (s t : State) (h : s.Inv) (hx : execLcfg s = .next t) : t.Inv := by
  obtain ⟨hc, -, p, hp, rfl⟩ := (execLcfg_next s t).1 hx
  have hsr := h.rate hc
  rw [h.formats] at hsr ⊢
  exact (h.withLfo _ (h.lfoOk.configured _ p _ (h.patch p hp) (rSign_of_sampleRateOk _ hsr))).withResult .ok

/-- LRESET sets a phase to 0.0 or leaves it (R219). -/
theorem lfoRestart_phasesOk (l : Lfo) (h : l.phasesOk ieee = true) : (lfoRestart l).phasesOk ieee = true := by
  have hzero : notNegative ieee r0 = true ∧ rLt ieee (r1 ieee) r0 = false := by decide
  simp only [Lfo.phasesOk, Bool.and_eq_true] at h
  obtain ⟨⟨hphase, -⟩, -⟩ := h
  simp only [Lfo.phasesOk, lfoRestart, hzero.1, hzero.2]
  split
  · rw [hzero.1]; rfl
  · rw [hphase]; rfl

/-- LRESET restarts the phases and nothing else (R219). -/
theorem Lfo.Ok.restarted {l : Lfo} (h : l.Ok) : (lfoRestart l).Ok where
  wave := h.wave
  lfoFreq := h.lfoFreq
  hold := h.hold
  lfoPhases := lfoRestart_phasesOk l h.lfoPhases
  lfoRates := h.lfoRates

theorem execLreset_keeps_inv (s t : State) (h : s.Inv) (hx : execLreset s = .next t) : t.Inv := by
  obtain ⟨-, rfl⟩ := (execLreset_next s t).1 hx
  exact (h.withLfo _ h.lfoOk.restarted).withResult .ok

/-- A moved LFO is in its ranges where its held value is the old one or a draw and its phases are in theirs
(R220, R222, R229). -/
theorem Lfo.Ok.moved {l : Lfo} (h : l.Ok) (l' : Lfo) (cfg : Config.Params) (n : Nat) (hwave : l'.wave = l.wave)
    (hfreq : l'.freq = l.freq) (h0 : l'.delayInc0 = l.delayInc0) (h1 : l'.delayInc1 = l.delayInc1)
    (hsh : l'.sh = l.sh ∨ l'.sh = shDraw ieee cfg n) (hphases : l'.phasesOk ieee = true) : l'.Ok where
  wave := hwave ▸ h.wave
  lfoFreq := by rw [hfreq, h0, h1]; exact h.lfoFreq
  hold := by
    rcases hsh with hsh | hsh <;> rw [hsh]
    · exact h.hold
    · rw [(shDraw_range cfg n).1, (shDraw_range cfg n).2]; rfl
  lfoPhases := hphases
  lfoRates := by
    have hrates := h.lfoRates
    unfold Lfo.ratesOk at hrates ⊢
    rwa [hfreq, h0, h1]

/-- The written rates of an LFO in its ranges are not below 0.0 (R217). -/
theorem Lfo.Ok.rates {l : Lfo} (h : l.Ok) (f d0 d1 : RealBits) (hf : l.freq = some f) (h0 : l.delayInc0 = some d0)
    (h1 : l.delayInc1 = some d1) :
    notNegative ieee f = true ∧ notNegative ieee d0 = true ∧ notNegative ieee d1 = true := by
  have hr := h.lfoRates
  simp only [Lfo.ratesOk, hf, h0, h1, noneOrNotNegative, Bool.and_eq_true] at hr
  exact ⟨hr.1.1, hr.1.2, hr.2⟩

/-- An operand that is finite and not below 0.0. -/
theorem notNegative_of_nonNegOperand (x : RealBits) (h : nonNegOperand ieee x = true) : notNegative ieee x = true := by
  simp only [nonNegOperand, Bool.and_eq_true] at h
  exact h.2

/-- LSTEP keeps the LFO in its ranges (R220). -/
theorem Lfo.Ok.advanced {l : Lfo} (h : l.Ok) (cfg : Config.Params) (n : Nat) (scale f d0 d1 : RealBits)
    (hs : nonNegOperand ieee scale = true) (hf : l.freq = some f) (h0 : l.delayInc0 = some d0)
    (h1 : l.delayInc1 = some d1) : (lfoAdvance ieee scale f d0 d1 (shDraw ieee cfg n) l).Ok := by
  obtain ⟨nf, n0, n1⟩ := h.rates f d0 d1 hf h0 h1
  exact h.moved _ cfg n rfl rfl rfl rfl (lfoAdvance_sh ..)
    (lfoAdvance_phasesOk _ _ _ _ _ _ h.lfoPhases (notNegative_of_nonNegOperand _ hs) nf n0 n1)

/-- LSCRUB keeps the LFO in its ranges (R222). -/
theorem Lfo.Ok.scrubbed {l : Lfo} (h : l.Ok) (cfg : Config.Params) (n : Nat) (sample f d0 d1 : RealBits)
    (hs : nonNegOperand ieee sample = true) (hf : l.freq = some f) (h0 : l.delayInc0 = some d0)
    (h1 : l.delayInc1 = some d1) : (lfoScrub ieee sample f d0 d1 (shDraw ieee cfg n) l).Ok := by
  obtain ⟨nf, n0, n1⟩ := h.rates f d0 d1 hf h0 h1
  exact h.moved _ cfg n rfl rfl rfl rfl (lfoScrub_sh ..) (lfoScrub_phasesOk _ _ _ _ _ _ hs nf n0 n1)

theorem execLstep_keeps_inv (scale : RealBits) (s t : State) (h : s.Inv) (hx : execLstep scale s = .next t) :
    t.Inv := by
  obtain ⟨-, hs, f, d0, d1, hf, h0, h1, rfl⟩ := (execLstep_next scale s t).1 hx
  rw [h.formats] at hs ⊢
  exact ((h.withLfo _ (h.lfoOk.advanced _ _ scale f d0 d1 hs hf h0 h1)).withDraws _).withResult .ok

theorem execLscrub_keeps_inv (sample : RealBits) (s t : State) (h : s.Inv) (hx : execLscrub sample s = .next t) :
    t.Inv := by
  obtain ⟨-, hs, f, d0, d1, hf, h0, h1, rfl⟩ := (execLscrub_next sample s t).1 hx
  rw [h.formats] at hs ⊢
  exact ((h.withLfo _ (h.lfoOk.scrubbed _ _ sample f d0 d1 hs hf h0 h1)).withDraws _).withResult .ok

theorem execBunpack_keeps_inv (bank : List Byte) (s t : State) (h : s.Inv) (hx : execBunpack bank s = .next t) :
    t.Inv := by
  rw [execBunpack_next] at hx
  cases hx
  exact h.withResult _

/-! ### The invariant under every step -/

/-- Every instruction keeps the invariant. -/
theorem exec_keeps_inv (i : Instr) (s t : State) (h : s.Inv) (hx : exec i s = .next t) : t.Inv := by
  by_cases hi : (encode i).format = .command
  · rcases command_cases i hi with ⟨sr, rfl⟩ | ⟨img, rfl⟩ | rfl | ⟨a, rfl⟩ | ⟨k, rfl⟩ | rfl | rfl | ⟨x, rfl⟩ |
      ⟨x, rfl⟩ | ⟨bank, rfl⟩
    · exact execVreset_keeps_inv sr s t h hx
    · exact execPload_keeps_inv img s t h hx
    · exact execSetup_keeps_inv s t h hx
    · exact execRender_keeps_inv a s t h hx
    · exact execOpreset_keeps_inv k s t h hx
    · exact execLcfg_keeps_inv s t h hx
    · exact execLreset_keeps_inv s t h hx
    · exact execLstep_keeps_inv x s t h hx
    · exact execLscrub_keeps_inv x s t h hx
    · exact execBunpack_keeps_inv bank s t h hx
  · exact exec_inner_keeps_inv i s t hi h hx

/-- A host write goes to a sample that exists (R64). -/
theorem portWrite_keeps_inv (slot index : Nat) (v : SampleBits) (s t : State) (h : s.Inv)
    (hx : portWrite slot index v s = .next t) : t.Inv := by
  obtain ⟨-, hex, rfl⟩ := (portWrite_next slot index v s t).1 hx
  exact h.withBuf _ (memWrite_wf _ _ _ h.buf (sampleAddr_lt _ _ hex))

/-- Settles O53: a step holds the state, writes one sample, or executes one instruction, and each keeps the
invariant. -/
theorem everyStepKeepsTheInvariant : Obligations.EveryStepKeepsTheInvariant := by
  intro s t h hx
  unfold step at hx
  cases hop : nextOp s with
  | idle =>
    rw [hop] at hx
    cases hx
    exact h
  | write slot index v rest =>
    rw [hop] at hx
    exact portWrite_keeps_inv slot index v _ t (h.withPort rest) hx
  | instr i rest =>
    rw [hop] at hx
    exact exec_keeps_inv i _ t (h.withPort rest) hx
  | reject r =>
    rw [hop] at hx
    cases hx

end Sys2Proof.Machine
end

section
/-!
PROOFS. Where a chain call or a routing opcode stops (42_chain_renderer.md R151, R154; 20_memory.md R63), and the router
walking its row opcode by opcode (43_algorithm_router.md R176, R179).
-/
namespace Sys2Proof.Machine

/-! ### Refusals of a chain call, in the order in which they are checked (log 26) -/

section
variable (n : Nat) (src : Source) (add : Bool) (first : Nat) (inp out : Slot) (s : State)

theorem chainCall_outsideRender (hrc : s.rc = none) :
    chainCall Config.bmax n src add first inp out s = refuse .outsideRender := by
  simp only [chainCall, hrc, written_none, refuse_bind]

theorem chainCall_outOfRange (c : RenderCtx) (hrc : s.rc = some c) (hfit : 6 < first + n) :
    chainCall Config.bmax n src add first inp out s = refuse .callOutOfRange := by
  simp only [chainCall, hrc, written_some, ok_bind, decide_eq_false (Nat.not_le.2 hfit), require_false, refuse_bind]

theorem chainCall_badOperand (c : RenderCtx) (hrc : s.rc = some c) (hfit : first + n ≤ 6)
    (hbad : ∃ k, first ≤ k ∧ k < first + n ∧
      (callFreqOk s.formats (c.f.get k) = false ∨ callAmpOk s.formats (c.a.get k) = false)) :
    chainCall Config.bmax n src add first inp out s = refuse .callOperandOutOfDomain := by
  have hops : chainOperandsOk s.formats c first n = false := by
    rw [Bool.eq_false_iff]
    intro hok
    obtain ⟨k, hlo, hhi, hk⟩ := hbad
    obtain ⟨hf, ha⟩ := (chainOperandsOk_iff c first n).1 hok k hlo hhi
    rcases hk with hk | hk
    · rw [hf] at hk; cases hk
    · rw [ha] at hk; cases hk
  simp only [chainCall, hrc, written_some, ok_bind, hfit, decide_true, require_true, hops, require_false, refuse_bind]

theorem chainCall_noPatch (c : RenderCtx) (hin : s.inRender c first n) (hfit : first + n ≤ 6)
    (hsrc : src.isFeedback = true) (hp : s.patch = none) :
    chainCall Config.bmax n src add first inp out s = refuse .noPatchLoaded := by
  obtain ⟨hrc, -, hops⟩ := hin
  have hscale : chainScale src s = refuse .noPatchLoaded := by
    simp only [chainScale, hsrc, if_true, hp, written_none, refuse_bind]
  simp only [chainCall, hrc, written_some, ok_bind, hfit, decide_true, require_true,
    (chainOperandsOk_iff c first n).2 hops, hscale, refuse_bind]

end

/-- The feedback scale is there where the source is no feedback or a patch is loaded (R28, R154). -/
theorem chainScale_completes (src : Source) (s : State) (h : src.isFeedback = true → s.patch.isSome = true) :
    ∃ scale, chainScale src s = .ok scale := by
  cases hf : src.isFeedback with
  | false => exact ⟨r0, (chainScale_ok _ _ _).2 (.inr ⟨hf, rfl⟩)⟩
  | true =>
    obtain ⟨p, hp⟩ := Option.isSome_iff_exists.1 (h hf)
    exact ⟨_, (chainScale_ok _ _ _).2 (.inl ⟨hf, p, hp, rfl⟩)⟩

/-- A sample the call reads or adds into is unwritten (R63). -/
theorem chainCall_sampleUnwritten (n : Nat) (src : Source) (add : Bool) (first : Nat) (inp out : Slot) (s : State)
    (c : RenderCtx) (hin : s.inRender c first n) (hfit : first + n ≤ 6)
    (hp : src.isFeedback = true → s.patch.isSome = true)
    (hun : (src = .external ∧ ¬ s.blockWritten inp c.block) ∨ (add = true ∧ ¬ s.blockWritten out c.block)) :
    chainCall Config.bmax n src add first inp out s = refuse .sampleUnwritten := by
  obtain ⟨scale, hscale⟩ := chainScale_completes src s hp
  exact chainCall_unwritten n src add first inp out s c scale hfit hin hscale hun

/-- An instruction of format R is one turn of the router's loop, one of format K a chain call of its specialization
(R150, R179). -/
theorem exec_inner_forms (i : Instr) (h : (encode i).format ≠ .command) :
    (∃ o, ∀ s, exec i s = finish (routeOpcode o s)) ∨
      ∃ (x : ChainSpec) (first : Nat) (inp out : Slot), ∀ s,
        exec i s = finish (chainCall Config.bmax x.len x.src x.adds first inp out s) := by
  cases i with
  | opn => exact .inl ⟨_, fun _ => rfl⟩
  | opx1 => exact .inl ⟨_, fun _ => rfl⟩
  | opx2 => exact .inl ⟨_, fun _ => rfl⟩
  | opf => exact .inl ⟨_, fun _ => rfl⟩
  | ch1NoneW first inp out => exact .inr ⟨.ch1NoneW, first, inp, out, fun _ => rfl⟩
  | ch1NoneA first inp out => exact .inr ⟨.ch1NoneA, first, inp, out, fun _ => rfl⟩
  | ch1ExtW first inp out => exact .inr ⟨.ch1ExtW, first, inp, out, fun _ => rfl⟩
  | ch1ExtA first inp out => exact .inr ⟨.ch1ExtA, first, inp, out, fun _ => rfl⟩
  | ch1Fb0W first inp out => exact .inr ⟨.ch1Fb0W, first, inp, out, fun _ => rfl⟩
  | ch1Fb0A first inp out => exact .inr ⟨.ch1Fb0A, first, inp, out, fun _ => rfl⟩
  | ch2Fb1A first inp out => exact .inr ⟨.ch2Fb1A, first, inp, out, fun _ => rfl⟩
  | ch3Fb2A first inp out => exact .inr ⟨.ch3Fb2A, first, inp, out, fun _ => rfl⟩
  | _ => exact absurd rfl h

theorem exec_inner_outsideRender (i : Instr) (s : State) (h : (encode i).format ≠ .command) (hrc : s.rc = none) :
    exec i s = .refused .outsideRender := by
  rcases exec_inner_forms i h with ⟨o, ho⟩ | ⟨x, first, inp, out, hx⟩
  · rw [ho, finish_refused]
    simp only [routeOpcode, hrc, written_none, refuse_bind]
  · rw [hx, finish_refused]
    exact chainCall_outsideRender _ _ _ _ _ _ s hrc

/-- Settles O36: each clause is one of the checks a chain call makes, at the lengths, sources and write modes of the
eight specializations. -/
theorem chainCallRefusals : Obligations.ChainCallRefusals := by
  intro s
  refine ⟨fun i hi hrc => exec_inner_outsideRender i s hi hrc, fun first inp out c hrc => ?_⟩
  have hone : first.val + 1 ≤ 6 := by omega
  refine ⟨fun hbad => ?_, fun hfit => ?_, fun hfit => ?_, fun hfit hbad => ?_, fun hfit hbad => ?_,
    fun hin hfit => ⟨fun hp => ?_, fun hp hout => ?_⟩, fun hin hfit => ⟨fun hp => ?_, fun hp hout => ?_⟩,
    fun hin => ⟨fun hp => ?_, fun hinp => ?_, fun hout => ?_⟩⟩
  · have hrefused : ∀ src add, finish (chainCall Config.bmax 1 src add first inp out s) =
        .refused .callOperandOutOfDomain := fun src add =>
      (finish_refused _ _).2 (chainCall_badOperand _ _ _ _ _ _ _ c hrc hone ⟨first, le_refl _, by omega, hbad⟩)
    exact ⟨hrefused _ _, hrefused _ _, hrefused _ _, hrefused _ _, hrefused _ _, hrefused _ _⟩
  · exact (finish_refused _ _).2 (chainCall_outOfRange _ _ _ _ _ _ _ c hrc hfit)
  · exact (finish_refused _ _).2 (chainCall_outOfRange _ _ _ _ _ _ _ c hrc hfit)
  · exact (finish_refused _ _).2 (chainCall_badOperand _ _ _ _ _ _ _ c hrc hfit hbad)
  · exact (finish_refused _ _).2 (chainCall_badOperand _ _ _ _ _ _ _ c hrc hfit hbad)
  · exact (finish_refused _ _).2 (chainCall_noPatch _ _ _ _ _ _ _ c hin hfit rfl hp)
  · exact (finish_refused _ _).2 (chainCall_sampleUnwritten _ _ _ _ _ _ _ c hin hfit (fun _ => hp) (.inr ⟨rfl, hout⟩))
  · exact (finish_refused _ _).2 (chainCall_noPatch _ _ _ _ _ _ _ c hin hfit rfl hp)
  · exact (finish_refused _ _).2 (chainCall_sampleUnwritten _ _ _ _ _ _ _ c hin hfit (fun _ => hp) (.inr ⟨rfl, hout⟩))
  · have hrefused : ∀ add, finish (chainCall Config.bmax 1 (.feedback 0) add first inp out s) =
        .refused .noPatchLoaded := fun add =>
      (finish_refused _ _).2 (chainCall_noPatch _ _ _ _ _ _ _ c hin hone rfl hp)
    exact ⟨hrefused _, hrefused _⟩
  · have hrefused : ∀ add, finish (chainCall Config.bmax 1 .external add first inp out s) =
        .refused .sampleUnwritten := fun add =>
      (finish_refused _ _).2
        (chainCall_sampleUnwritten _ _ _ _ _ _ _ c hin hone (fun h => by cases h) (.inl ⟨rfl, hinp⟩))
    exact ⟨hrefused _, hrefused _⟩
  · have hrefused : ∀ src : Source, (src.isFeedback = true → s.patch.isSome = true) →
        finish (chainCall Config.bmax 1 src true first inp out s) = .refused .sampleUnwritten := fun src hp =>
      (finish_refused _ _).2 (chainCall_sampleUnwritten _ _ _ _ _ _ _ c hin hone hp (.inr ⟨rfl, hout⟩))
    exact ⟨hrefused _ (fun h => by cases h), hrefused _ (fun h => by cases h), fun hp => hrefused _ fun _ => hp⟩

/-! ### The router walking its row -/

/-- A byte with clear reserved bits is its four fields (R81). -/
theorem routingByte_fields (o : Byte) (h : opcodeReservedClear o = true) :
    routingByte (opcodeSrc o) (opcodeDst o) (opcodeAdd o) (opcodeTap o) = o := by
  revert o; decide

/-- The decoder reads each of the four mnemonics back from its fields (R82, R83). -/
theorem decodeRouting_routingByte (dst : Slot) (add tap : Bool) :
    decodeRouting (routingByte 0#2 dst add tap) = .ok (.opn dst add tap) ∧
      decodeRouting (routingByte 1#2 dst add tap) = .ok (.opx1 dst add tap) ∧
      decodeRouting (routingByte 2#2 dst add tap) = .ok (.opx2 dst add tap) ∧
      decodeRouting (routingByte 3#2 dst add tap) = .ok (.opf dst add tap) := by
  revert dst add tap; decide

/-- The four sources of a routing opcode (R82). -/
theorem source_cases (src : Slot) : src = 0#2 ∨ src = 1#2 ∨ src = 2#2 ∨ src = 3#2 := by
  revert src; decide

/-- A byte with clear reserved bits decodes to an instruction of format R, which is one turn of the router's loop at
that byte (R81, R173 to R176). -/
theorem decodeRouting_of_reservedClear (o : Byte) (h : opcodeReservedClear o = true) :
    ∃ i, decodeRouting o = .ok i ∧ ∀ s, exec i s = finish (routeOpcode o s) := by
  obtain ⟨src, dst, add, tap, rfl⟩ : ∃ src dst add tap, o = routingByte src dst add tap :=
    ⟨_, _, _, _, (routingByte_fields o h).symm⟩
  obtain ⟨hopn, hopx1, hopx2, hopf⟩ := decodeRouting_routingByte dst add tap
  rcases source_cases src with rfl | rfl | rfl | rfl
  · exact ⟨_, hopn, fun _ => rfl⟩
  · exact ⟨_, hopx1, fun _ => rfl⟩
  · exact ⟨_, hopx2, fun _ => rfl⟩
  · exact ⟨_, hopf, fun _ => rfl⟩

/-- A chain call that answers keeps the context but for the router index, which moves past its operators (R37). -/
theorem chainCall_rc (n : Nat) (src : Source) (add : Bool) (first : Nat) (inp out : Slot) (s t : State) (c : RenderCtx)
    (hrc : s.rc = some c) (h : chainCall Config.bmax n src add first inp out s = .ok t) :
    t.rc = some { c with index := first + n } := by
  simp only [chainCall, hrc, written_some, bind_ok] at h
  obtain ⟨c', hc, -, -, -, -, scale, -, r, -, h⟩ := h
  cases hc
  cases h
  unfold chainCommit
  split <;> rfl

/-- One turn of compile's loop, and the rest (R176). -/
theorem compileFrom_cons (fuel i : Nat) (o : Byte) (rest : List Byte) (plan : List Call) :
    compileFrom (fuel + 1) i (o :: rest) = some plan ↔
      ∃ call plan', callAt i (o :: rest) = some call ∧
        compileFrom fuel (i + call.n) ((o :: rest).drop call.n) = some plan' ∧ plan = call :: plan' := by
  simp only [compileFrom]
  constructor
  · intro h
    split at h
    · cases h
    · rename_i call hcall
      split at h
      · cases h
      · rename_i plan' hplan'
        cases h
        exact ⟨call, plan', hcall, hplan', rfl⟩
  · rintro ⟨call, plan', hcall, hplan', rfl⟩
    simp only [hcall, hplan']

/-- The call of one turn of the loop starts at the router index and has its specialization's length. -/
theorem callAt_first_len (i : Nat) (ops : List Byte) (c : Call) (h : callAt i ops = some c) :
    c.first = i ∧ c.n = c.spec.len := by
  obtain ⟨-, -, hcall, -⟩ := callAt_eq_some _ _ _ h
  obtain ⟨-, -, src, -, -, hfirst, -, hspec, -⟩ := callOf_eq_some _ _ _ hcall
  exact ⟨hfirst, ((specOf_eq_some _ _ _ _).1 hspec).1⟩

/-- A routing opcode in its place in the row issues the call of compile's turn there (R176). -/
theorem routeOpcode_at (s : State) (c : RenderCtx) (call : Call) (hrc : s.rc = some c) (hi : c.index < 6)
    (hcall : callAt c.index (c.row.toList.drop c.index) = some call) :
    routeOpcode (c.row.get c.index) s = runCall call s := by
  rw [Six.toList_drop _ _ hi] at hcall
  simp only [routeOpcode, hrc, written_some, ok_bind, hi, decide_true, require_true, hcall]

/-- At the end of the row the router stops. -/
theorem runRow_end (fuel : Nat) (s : State) (c : RenderCtx) (hrc : s.rc = some c) (hi : 6 ≤ c.index) :
    runRow fuel s = .next s := by
  cases fuel with
  | zero => rfl
  | succ fuel => simp only [runRow, hrc, if_neg (Nat.not_lt.2 hi)]

/-- Before its end the router goes on from what the call of compile's turn leaves, or stops where that call stops. -/
theorem runRow_turn (fuel : Nat) (s : State) (c : RenderCtx) (call : Call) (hrc : s.rc = some c) (hi : c.index < 6)
    (hclear : opcodeReservedClear (c.row.get c.index) = true)
    (hcall : callAt c.index (c.row.toList.drop c.index) = some call) :
    (∀ t, runCall call s = .ok t → runRow (fuel + 1) s = runRow fuel t) ∧
      ∀ e, runCall call s = .error e → runRow (fuel + 1) s = finish (.error e) := by
  obtain ⟨i, hdec, hexec⟩ := decodeRouting_of_reservedClear _ hclear
  constructor
  · intro t ht
    simp only [runRow, hrc, if_pos hi, hdec, hexec, routeOpcode_at s c call hrc hi hcall, ht, finish_ok]
  · intro e he
    simp only [runRow, hrc, if_pos hi, hdec, hexec, routeOpcode_at s c call hrc hi hcall, he]
    cases e <;> rfl

/-- Walking the row from the router index on is running the calls compile gives from there on (R37, R179). -/
theorem runRow_eq_runPlan (fuel : Nat) (s : State) (c : RenderCtx) (plan : List Call) (hrc : s.rc = some c)
    (hclear : c.row.all opcodeReservedClear = true)
    (hplan : compileFrom fuel c.index (c.row.toList.drop c.index) = some plan) :
    runRow fuel s = finish (runPlan plan s) := by
  induction fuel generalizing s c plan with
  | zero =>
    cases hdrop : c.row.toList.drop c.index with
    | nil =>
      rw [hdrop] at hplan
      cases hplan
      rfl
    | cons o rest => rw [hdrop] at hplan; cases hplan
  | succ fuel ih =>
    by_cases hi : c.index < 6
    · have hdrop := Six.toList_drop c.row c.index hi
      rw [hdrop] at hplan
      obtain ⟨call, plan', hcall, hplan', rfl⟩ := (compileFrom_cons _ _ _ _ _).1 hplan
      rw [← hdrop] at hcall hplan'
      obtain ⟨hfirst, hlen⟩ := callAt_first_len _ _ _ hcall
      obtain ⟨hok, herror⟩ := runRow_turn fuel s c call hrc hi ((Six.all_iff _ _).1 hclear _ hi) hcall
      cases hrun : runCall call s with
      | error e =>
        rw [herror e hrun]
        simp only [runPlan, hrun]
        rfl
      | ok t =>
        rw [hok t hrun]
        simp only [runPlan, hrun, ok_bind]
        rw [runCall_eq call s (by omega)] at hrun
        have ht := chainCall_rc _ _ _ _ _ _ s t c hrc hrun
        refine ih t _ plan' ht hclear ?_
        simpa only [List.drop_drop, hfirst, ← hlen] using hplan'
    · have hdrop : c.row.toList.drop c.index = [] := List.drop_eq_nil_of_le (by simpa [Six.toList] using hi)
      rw [hdrop] at hplan
      cases hplan
      exact runRow_end _ s c hrc (Nat.not_lt.1 hi)

/-- Settles O43: the walk is the plan's calls (`runRow_eq_runPlan`), and those are the plan's instructions
(`runPlan_execAll`). -/
theorem walkingTheRowIsItsPlan : Obligations.WalkingTheRowIsItsPlan := by
  intro s c plan hrc hindex hclear hplan
  obtain ⟨is, his⟩ := compile_instrs c.row plan hplan
  refine ⟨is, his, ?_⟩
  rw [runRow_eq_runPlan 6 s c plan hrc hclear (by rw [hindex]; exact hplan), runPlan_execAll plan is s his]

end Sys2Proof.Machine
end

section
/-!
PROOFS. Who writes what (10_state.md R21 to R35, 70_reset_and_hazards.md R318): what RENDER, SETUP and the instructions of
formats R and K never write, and the feedback history, which only a chain call with a feedback source moves.
-/
namespace Sys2Proof.Machine

/-! ### The registers neither SETUP nor RENDER writes -/

/-- The registers that only VRESET, PLOAD and the LFO commands write: the configuration, the control registers, the LFO
and the draws, and every envelope's SCALE (R23, R28, R32, R35). -/
structure Settings where
  constructed : Bool
  sampleRate : RealBits
  formats : Formats
  port : List HostOp
  patch : Option Patch
  patchValid : Bool
  lfo : Lfo
  draws : Nat
  envScale : Six RealBits
  penvScale : RealBits

def State.settings (s : State) : Settings :=
  { constructed := s.constructed
    sampleRate := s.sampleRate
    formats := s.formats
    port := s.port
    patch := s.patch
    patchValid := s.patchValid
    lfo := s.lfo
    draws := s.draws
    envScale := s.env.map (·.scale)
    penvScale := s.penv.scale }

/-- SETUP moves no envelope: STAGE, PHASE, START and SCALE stay (R190, R194). -/
theorem setupWith_units (cfg : Config.Params) (s t : State) (h : setupWith cfg s = .ok t) :
    (t.penv.stage = s.penv.stage ∧ t.penv.phase = s.penv.phase ∧ t.penv.start = s.penv.start) ∧
      (∀ k < 6, (t.env.get k).stage = (s.env.get k).stage ∧ (t.env.get k).phase = (s.env.get k).phase ∧
        (t.env.get k).start = (s.env.get k).start) ∧
      t.penv.scale = s.penv.scale ∧ t.env.map (·.scale) = s.env.map (·.scale) := by
  obtain ⟨-, p, -, ⟨-, rfl⟩ | ⟨-, rfl⟩⟩ := (setupWith_ok cfg s t).1 h
  · refine ⟨⟨rfl, rfl, rfl⟩, fun k hk => ?_, rfl, rfl⟩
    simp only [setupRegs, Six.get_ofFn _ k hk, envSetOp_stage, envSetOp_phase, envSetOp_start, and_self]
  · exact ⟨⟨rfl, rfl, rfl⟩, fun _ _ => ⟨rfl, rfl, rfl⟩, rfl, rfl⟩

theorem setupWith_settings (cfg : Config.Params) (s t : State) (h : setupWith cfg s = .ok t) :
    t.settings = s.settings := by
  obtain ⟨-, -, hpenv, henv⟩ := setupWith_units cfg s t h
  have heq : t.settings = { s.settings with envScale := t.env.map (·.scale), penvScale := t.penv.scale } := by
    rw [setupWith_frame cfg s t h]; rfl
  rw [heq, hpenv, henv]
  rfl

/-- Steps 1 to 5 keep every SCALE: a block of an envelope unit does (R201, R205). -/
theorem renderTargets_settings (cfg : Config.Params) (a : RenderArgs) (p : Patch) (s t : State)
    (h : renderTargets cfg a p s = .ok t) : t.settings = s.settings := by
  obtain ⟨penv, pe, note, nvel, x, hpenv, -, -, htargets, rfl⟩ := (renderTargets_ok cfg a p s t).1 h
  obtain ⟨-, -, hpscale, -⟩ := envBlock_frame _ _ _ _ _ _ _ _ hpenv
  have hscale : (x.map (·.env)).map (·.scale) = s.env.map (·.scale) := by
    refine Six.ext_get _ _ fun k hk => ?_
    obtain ⟨_, _, _, -, -, hblock, -⟩ := (opTarget_ok _ _ _ _ _ _).1 ((opTargets_ok _ _ _ _ _).1 htargets k hk)
    obtain ⟨-, -, hk', -⟩ := envBlock_frame _ _ _ _ _ _ _ _ hblock
    rw [Six.get_map, Six.get_map, Six.get_map, hk', noteStep_frame]
  have hnote : (noteStep cfg p a s).settings = s.settings := by rw [noteStep_frame]; rfl
  calc _ = { (noteStep cfg p a s).settings with
          envScale := (x.map (·.env)).map (·.scale), penvScale := penv.scale } := rfl
    _ = { s.settings with envScale := s.env.map (·.scale), penvScale := s.penv.scale } := by
      rw [hnote, hpscale, hscale]
    _ = s.settings := rfl

theorem runPlan_settings (row : Six Byte) (plan : List Call) (s t : State) (c : RenderCtx)
    (hplan : compile row = some plan) (hrc : s.rc = some c) (h : runPlan plan s = .ok t) :
    t.settings = s.settings := by
  obtain ⟨heq, -⟩ := runPlan_frame plan s t h c hrc fun y hy => (compile_mem row plan hplan y hy).1
  rw [heq]
  rfl

/-- RENDER, step by step. -/
theorem execRender_settings (a : RenderArgs) (s t : State) (h : execRender a s = .next t) :
    t.settings = s.settings := by
  obtain ⟨p, s1, s2, plan, s3, -, hsetup, htargets, hplan, hrun, rfl⟩ := (execRender_next a s t).1 h
  obtain ⟨_, _, _, _, _, -, -, -, -, hs2⟩ := (renderTargets_ok _ _ _ _ _).1 htargets
  calc ((s3.withRc none).withResult .ok).settings = s3.settings := rfl
    _ = s2.settings := runPlan_settings _ plan s2 s3 _ hplan (by rw [hs2]; rfl) hrun
    _ = s1.settings := renderTargets_settings _ a p s1 s2 htargets
    _ = s.settings := setupWith_settings _ s s1 hsetup

/-- The settings, register by register. -/
theorem State.settings_registers {s t : State} (h : t.settings = s.settings) :
    (t.constructed = s.constructed ∧ t.sampleRate = s.sampleRate ∧ t.formats = s.formats ∧ t.port = s.port) ∧
      (t.patch = s.patch ∧ t.patchValid = s.patchValid) ∧ (t.lfo = s.lfo ∧ t.draws = s.draws) ∧
      t.penv.scale = s.penv.scale ∧ ∀ k < 6, (t.env.get k).scale = (s.env.get k).scale := by
  have henv : t.env.map (·.scale) = s.env.map (·.scale) := congrArg Settings.envScale h
  refine ⟨⟨congrArg Settings.constructed h, congrArg Settings.sampleRate h, congrArg Settings.formats h,
    congrArg Settings.port h⟩, ⟨congrArg Settings.patch h, congrArg Settings.patchValid h⟩,
    ⟨congrArg Settings.lfo h, congrArg Settings.draws h⟩, congrArg Settings.penvScale h, fun k _ => ?_⟩
  calc (t.env.get k).scale = (t.env.map (·.scale)).get k := (Six.get_map _ _ _).symm
    _ = (s.env.get k).scale := by rw [henv, Six.get_map]

/-! ### The feedback history -/

/-- A chain call whose source is no feedback leaves the history (R156). -/
theorem chainCall_history (n : Nat) (src : Source) (add : Bool) (first : Nat) (inp out : Slot) (s t : State)
    (hsrc : src.isFeedback = false) (h : chainCall Config.bmax n src add first inp out s = .ok t) :
    t.fb0 = s.fb0 ∧ t.fb1 = s.fb1 := by
  simp only [chainCall, bind_ok] at h
  obtain ⟨c, -, -, -, -, -, scale, -, r, -, h⟩ := h
  cases h
  simp only [chainCommit, hsrc]
  exact ⟨rfl, rfl⟩

/-- The call a routing opcode other than OPF gives has no feedback source (R173, R174). -/
theorem callAt_source (i : Nat) (o : Byte) (rest : List Byte) (c : Call) (h : callAt i (o :: rest) = some c)
    (ho : opcodeSrc o ≠ 3#2) : c.spec.src.isFeedback = false := by
  obtain ⟨hn, -, hcall, -⟩ := callAt_eq_some _ _ _ h
  obtain ⟨first, more, src, hchain, hsrc, -, -, hspec, -⟩ := callOf_eq_some _ _ _ hcall
  obtain ⟨k, hk⟩ : ∃ k, c.n = k + 1 := ⟨c.n - 1, by omega⟩
  rw [hk, List.take_succ_cons] at hsrc
  rw [← ((specOf_eq_some _ _ _ _).1 hspec).2.1]
  simp only [chainSource] at hsrc
  split at hsrc
  · cases hsrc; rfl
  · cases hsrc; rfl

theorem routeOpcode_history (o : Byte) (s t : State) (ho : opcodeSrc o ≠ 3#2) (h : routeOpcode o s = .ok t) :
    t.fb0 = s.fb0 ∧ t.fb1 = s.fb1 := by
  rcases routeOpcode_cases o s with ⟨r, hr⟩ | ⟨c, call, -, hi, hcall, hr⟩
  · rw [hr] at h; cases h
  · obtain ⟨hfirst, -⟩ := callAt_first_len _ _ _ hcall
    rw [hr, runCall_eq _ _ (by omega)] at h
    exact chainCall_history _ _ _ _ _ _ s t (callAt_source _ _ _ _ hcall ho) h

/-- The source field of a routing opcode (R81). -/
theorem opcodeSrc_routingByte (src dst : Slot) (add tap : Bool) : opcodeSrc (routingByte src dst add tap) = src := by
  revert src dst add tap; decide

/-- An instruction of format R or K moves the history only if it is OPF or a chain call with S = FEEDBACK (R156). -/
theorem exec_inner_history (i : Instr) (s t : State) (hi : (encode i).format ≠ .command) (hx : exec i s = .next t)
    (hopf : ∀ d add tap, i ≠ .opf d add tap)
    (hfb : ∀ f p q, i ≠ .ch1Fb0W f p q ∧ i ≠ .ch1Fb0A f p q ∧ i ≠ .ch2Fb1A f p q ∧ i ≠ .ch3Fb2A f p q) :
    t.fb0 = s.fb0 ∧ t.fb1 = s.fb1 := by
  have hroute : ∀ src dst add tap, src ≠ 3#2 →
      finish (routeOpcode (routingByte src dst add tap) s) = .next t → t.fb0 = s.fb0 ∧ t.fb1 = s.fb1 := by
    intro src dst add tap hsrc h
    exact routeOpcode_history _ s t (by rwa [opcodeSrc_routingByte]) ((finish_next _ _).1 h)
  cases i with
  | opn dst add tap => exact hroute _ _ _ _ (by decide) hx
  | opx1 dst add tap => exact hroute _ _ _ _ (by decide) hx
  | opx2 dst add tap => exact hroute _ _ _ _ (by decide) hx
  | opf dst add tap => exact absurd rfl (hopf dst add tap)
  | ch1NoneW first inp out => exact chainCall_history _ _ _ _ _ _ s t rfl ((finish_next _ _).1 hx)
  | ch1NoneA first inp out => exact chainCall_history _ _ _ _ _ _ s t rfl ((finish_next _ _).1 hx)
  | ch1ExtW first inp out => exact chainCall_history _ _ _ _ _ _ s t rfl ((finish_next _ _).1 hx)
  | ch1ExtA first inp out => exact chainCall_history _ _ _ _ _ _ s t rfl ((finish_next _ _).1 hx)
  | ch1Fb0W first inp out => exact absurd rfl (hfb first inp out).1
  | ch1Fb0A first inp out => exact absurd rfl (hfb first inp out).2.1
  | ch2Fb1A first inp out => exact absurd rfl (hfb first inp out).2.2.1
  | ch3Fb2A first inp out => exact absurd rfl (hfb first inp out).2.2.2
  | _ => exact absurd rfl hi

/-! ### The LFO registers each LFO command leaves alone -/

section
variable {fm : Formats}

@[simp] theorem lfoAdvance_amd (sc f d0 d1 x : RealBits) (l : Lfo) : (lfoAdvance fm sc f d0 d1 x l).amd = l.amd := rfl
@[simp] theorem lfoAdvance_pmd (sc f d0 d1 x : RealBits) (l : Lfo) : (lfoAdvance fm sc f d0 d1 x l).pmd = l.pmd := rfl
@[simp] theorem lfoAdvance_resetPhase (sc f d0 d1 x : RealBits) (l : Lfo) :
    (lfoAdvance fm sc f d0 d1 x l).resetPhase = l.resetPhase := rfl
@[simp] theorem lfoAdvance_phaseInt (sc f d0 d1 x : RealBits) (l : Lfo) :
    (lfoAdvance fm sc f d0 d1 x l).phaseInt = l.phaseInt := rfl
@[simp] theorem lfoScrub_amd (t f d0 d1 x : RealBits) (l : Lfo) : (lfoScrub fm t f d0 d1 x l).amd = l.amd := rfl
@[simp] theorem lfoScrub_pmd (t f d0 d1 x : RealBits) (l : Lfo) : (lfoScrub fm t f d0 d1 x l).pmd = l.pmd := rfl
@[simp] theorem lfoScrub_resetPhase (t f d0 d1 x : RealBits) (l : Lfo) :
    (lfoScrub fm t f d0 d1 x l).resetPhase = l.resetPhase := rfl

end

/-! ### The writers -/

/-- Settles O56: each instruction's next state, written out by its law, has the registers of every clause as they
were, or the instruction is one the clause names. -/
theorem onlyTheNamedWriters : Obligations.OnlyTheNamedWriters := by
  intro i s t hx hv
  by_cases hi : (encode i).format = .command
  · rcases command_cases i hi with ⟨sr, rfl⟩ | ⟨img, rfl⟩ | rfl | ⟨a, rfl⟩ | ⟨k, rfl⟩ | rfl | rfl | ⟨x, rfl⟩ |
      ⟨x, rfl⟩ | ⟨bank, rfl⟩
    · exact absurd rfl (hv sr)
    · obtain ⟨-, ⟨-, rfl⟩ | ⟨-, rfl⟩⟩ := (execPload_next img s t).1 hx
      · simp
      · simp
    · obtain ⟨-, u, hu, rfl⟩ := (execSetup_next s t).1 hx
      obtain ⟨hpenv, henv, -⟩ := setupWith_units _ s u hu
      obtain ⟨-, -, -, hpscale, hscale⟩ := State.settings_registers (setupWith_settings _ s u hu)
      obtain ⟨env, penv, ratio, headroom, rfl⟩ : ∃ env penv ratio headroom, u =
          { s with env := env, penv := penv, ratio := ratio, headroom := headroom, dirty := false } :=
        ⟨_, _, _, _, setupWith_frame _ s u hu⟩
      simpa using And.intro (And.intro hpscale hscale) (And.intro hpenv henv)
    · obtain ⟨⟨hc, hsr, hfm, hport⟩, ⟨hp, hpv⟩, ⟨hlfo, hdraws⟩, hpscale, hscale⟩ :=
        State.settings_registers (execRender_settings a s t hx)
      simpa [hc, hsr, hfm, hport, hp, hpv, hlfo, hdraws, hpscale] using hscale
    · obtain ⟨-, -, rfl⟩ := (execOpreset_next k s t).1 hx
      simp
    · obtain ⟨-, -, p, -, rfl⟩ := (execLcfg_next s t).1 hx
      simp [lfoConfigure]
    · obtain ⟨-, rfl⟩ := (execLreset_next s t).1 hx
      simp [lfoRestart]
    · obtain ⟨-, -, f, d0, d1, -, -, -, rfl⟩ := (execLstep_next x s t).1 hx
      simp
    · obtain ⟨-, -, f, d0, d1, -, -, -, rfl⟩ := (execLscrub_next x s t).1 hx
      simp
    · obtain rfl : _ = t := Host.Outcome.next.inj ((execBunpack_next bank s).symm.trans hx)
      simp
  · have hhist := exec_inner_history i s t hi hx
    obtain ⟨_, _, _, _, -, -, -, ⟨heq, -⟩, -⟩ := exec_inner_next i s t hi hx
    obtain ⟨ops, buf, fb0, fb1, rc, rfl⟩ : ∃ ops buf fb0 fb1 rc, t =
        { s with ops := ops, buf := buf, fb0 := fb0, fb1 := fb1, rc := rc } := ⟨_, _, _, _, _, heq⟩
    simp only [hi, false_implies, implies_true, and_self, true_and, and_true]
    exact fun _ => hhist

end Sys2Proof.Machine
end

section
/-!
PROOFS. The memory and what a step keeps (20_memory.md): the host's buffer port (R60, R64, R299), the coherence of the
registers SETUP derives (R73(b), R238, R241), and the chain calls modulated by a buffer (R65, R160, R161).
-/
namespace Sys2Proof.Machine

/-! ### What a step can do -/

/-- The next operation, where the oldest one is a write of a sample. -/
theorem nextOp_writeSample (s : State) (slot i : Nat) (v : SampleBits) (rest : List HostOp)
    (hport : s.port = .writeSample slot i v :: rest) : nextOp s = .write slot i v rest := by
  unfold nextOp
  rw [hport]

/-- A step with a write of a sample next does it, with the operation taken off the port. -/
theorem step_writeSample (s : State) (slot i : Nat) (v : SampleBits) (rest : List HostOp)
    (hport : s.port = .writeSample slot i v :: rest) : step s = portWrite slot i v (s.withPort rest) := by
  simp only [step, nextOp_writeSample s slot i v rest hport]

/-- A step that answers held the state, wrote one sample, or executed one instruction. -/
theorem step_next_cases (s t : State) (h : step s = .next t) :
    t = s ∨ (∃ slot i v rest, portWrite slot i v (s.withPort rest) = .next t) ∨
      ∃ i rest, exec i (s.withPort rest) = .next t := by
  cases hop : nextOp s with
  | idle =>
    rw [step_idle s hop] at h
    exact .inl (Host.Outcome.next.inj h).symm
  | write slot i v rest =>
    simp only [step, hop] at h
    exact .inr (.inl ⟨slot, i, v, rest, h⟩)
  | instr i rest =>
    rw [step_instr s i rest hop] at h
    exact .inr (.inr ⟨i, rest, h⟩)
  | reject r =>
    simp only [step, hop] at h
    cases h

/-! ### The registers SETUP derives -/

/-- Two states of a unit with the same tables and SCALE, which is what SETUP derives and derives it from. -/
structure Env.SameTables (e e' : Env) : Prop where
  level : e'.level = e.level
  incr : e'.incr = e.incr
  scale : e'.scale = e.scale

theorem Env.SameTables.of_eq {e e' : Env} (h : e' = e) : e.SameTables e' := h ▸ ⟨rfl, rfl, rfl⟩

/-- A block of a unit keeps its tables and SCALE (R201, R205). -/
theorem envBlock_sameTables (fm : Formats) (u : EnvUnit) (e e' : Env) (a : RenderArgs) (rate ad rel v : RealBits)
    (h : envBlock fm u e a rate ad rel = .ok (e', v)) : e.SameTables e' := by
  obtain ⟨hlevel, hincr, hscale, -⟩ := envBlock_frame u e e' a rate ad rel v h
  exact ⟨hlevel, hincr, hscale⟩

/-- A unit is as SETUP would leave it exactly when its tables are. -/
theorem envSetOp_eq_self (fm : Formats) (p : OpPatch) (e : Env) :
    envSetOp fm p e = e ↔
      (envSetOp fm p e).level = e.level ∧ (envSetOp fm p e).incr = e.incr := by
  constructor
  · exact fun h => ⟨congrArg Env.level h, congrArg Env.incr h⟩
  · rintro ⟨hlevel, hincr⟩
    calc envSetOp fm p e = { e with level := (envSetOp fm p e).level, incr := (envSetOp fm p e).incr } := rfl
      _ = e := by rw [hlevel, hincr]

/-- So is the pitch unit. -/
theorem envSetPitch_eq_self (fm : Formats) (p : Patch) (e : Env) :
    envSetPitch fm p e = e ↔
      (envSetPitch fm p e).level = e.level ∧ (envSetPitch fm p e).incr = e.incr := by
  constructor
  · exact fun h => ⟨congrArg Env.level h, congrArg Env.incr h⟩
  · rintro ⟨hlevel, hincr⟩
    calc envSetPitch fm p e =
          { e with level := (envSetPitch fm p e).level, incr := (envSetPitch fm p e).incr } := rfl
      _ = e := by rw [hlevel, hincr]

/-- The tables SETUP derives depend on a unit's SCALE alone (R191, R192, R194). -/
theorem Env.SameTables.envSetOp_self {e e' : Env} (h : e.SameTables e') (fm : Formats) (p : OpPatch)
    (he : envSetOp fm p e = e) : envSetOp fm p e' = e' := by
  obtain ⟨hlevel, hincr⟩ := (envSetOp_eq_self fm p e).1 he
  refine (envSetOp_eq_self fm p e').2 ⟨?_, ?_⟩
  · rw [h.level, ← hlevel]; rfl
  · rw [h.incr, ← hincr]; simp only [envSetOp, h.scale]

theorem Env.SameTables.envSetPitch_self {e e' : Env} (h : e.SameTables e') (fm : Formats) (p : Patch)
    (he : envSetPitch fm p e = e) : envSetPitch fm p e' = e' := by
  obtain ⟨hlevel, hincr⟩ := (envSetPitch_eq_self fm p e).1 he
  refine (envSetPitch_eq_self fm p e').2 ⟨?_, ?_⟩
  · rw [h.level, ← hlevel]; rfl
  · rw [h.incr, ← hincr]; simp only [envSetPitch, h.scale]

/-- What an operation leaves alone that never makes derived registers stale: DIRTY, the patch, the formats, both caches,
and every unit's tables and SCALE. -/
structure State.SameDerived (s t : State) : Prop where
  dirty : t.dirty = s.dirty
  patch : t.patch = s.patch
  formats : t.formats = s.formats
  ratio : t.ratio = s.ratio
  headroom : t.headroom = s.headroom
  env : ∀ k < 6, (s.env.get k).SameTables (t.env.get k)
  penv : s.penv.SameTables t.penv

/-- Such an operation keeps coherence. -/
theorem State.SameDerived.coherent {s t : State} (h : s.SameDerived t) (hs : s.Coherent) : t.Coherent := by
  intro hdirty p hp
  obtain ⟨henv, hpenv, hratio, hheadroom⟩ := hs (h.dirty ▸ hdirty) p (h.patch ▸ hp)
  rw [State.DerivedFrom, h.formats, h.ratio, h.headroom]
  exact ⟨fun k hk => (h.env k hk).envSetOp_self _ _ (henv k hk), h.penv.envSetPitch_self _ _ hpenv, hratio, hheadroom⟩

/-- A dirty state is coherent: nothing is claimed of it (R27). -/
theorem State.coherent_of_dirty {s : State} (h : s.dirty = true) : s.Coherent := fun hd => by
  rw [h] at hd; cases hd

/-! ### Coherence under each instruction -/

/-- SETUP's effect, from a dirty state, derives every register from the patch (R238). -/
theorem setupRegs_derivedFrom (p : Patch) (s : State) :
    (setupCaches Config.params p (setupEnvs p s)).flagsAfterSetup.DerivedFrom p := by
  rw [setupRegs]
  refine ⟨fun k hk => ?_, rfl, fun k _ => Six.get_map _ _ _, fun k _ => Six.get_map _ _ _⟩
  rw [Six.get_ofFn _ k hk, envSetOp_envSetOp]

/-- SETUP's effect keeps coherence: it derives everything, or finds DIRTY clear and does nothing (R238, R241). -/
theorem setupWith_keeps_coherence (s t : State) (h : s.Coherent) (hx : setupWith Config.params s = .ok t) :
    t.Coherent := by
  obtain ⟨-, p, hp, ⟨-, rfl⟩ | ⟨-, rfl⟩⟩ := (setupWith_ok _ s t).1 hx
  · intro _ q hq
    obtain rfl : p = q := Option.some.inj (hp.symm.trans hq)
    exact setupRegs_derivedFrom p s
  · exact h

theorem execSetup_keeps_coherence (s t : State) (h : s.Coherent) (hx : execSetup s = .next t) : t.Coherent := by
  obtain ⟨-, u, hu, rfl⟩ := (execSetup_next s t).1 hx
  exact setupWith_keeps_coherence s u h hu

/-- PLOAD sets DIRTY, or writes its result alone (R262, R285). -/
theorem execPload_keeps_coherence (img : List Byte) (s t : State) (h : s.Coherent) (hx : execPload img s = .next t) :
    t.Coherent := by
  obtain ⟨-, ⟨-, rfl⟩ | ⟨-, rfl⟩⟩ := (execPload_next img s t).1 hx
  · exact State.coherent_of_dirty rfl
  · exact h

/-- VRESET sets DIRTY (R236, R302). -/
theorem execVreset_keeps_coherence (sr : RealBits) (s t : State) (hx : execVreset sr s = .next t) : t.Coherent := by
  obtain ⟨-, rfl⟩ := execVreset_next sr s t hx
  exact State.coherent_of_dirty rfl

/-- Steps 1 to 5 of RENDER move the units by one block and derive nothing (R242 to R249). -/
theorem renderTargets_sameDerived (cfg : Config.Params) (a : RenderArgs) (p : Patch) (s t : State)
    (hx : renderTargets cfg a p s = .ok t) : s.SameDerived t := by
  obtain ⟨penv, pe, note, nvel, x, hpenv, -, -, htargets, rfl⟩ := (renderTargets_ok cfg a p s t).1 hx
  rw [noteStep_frame] at htargets ⊢
  refine ⟨rfl, rfl, rfl, rfl, rfl, fun k hk => ?_, envBlock_sameTables _ _ _ _ _ _ _ _ _ hpenv⟩
  obtain ⟨_, _, _, -, -, hblock, -⟩ := (opTarget_ok _ _ _ _ _ _).1 ((opTargets_ok _ _ _ _ _).1 htargets k hk)
  have hmoved : (s.env.get k).SameTables ((x.map (·.env)).get k) := by
    rw [Six.get_map]
    exact envBlock_sameTables _ _ _ _ _ _ _ _ _ hblock
  exact hmoved

/-- Running a plan derives nothing: its chain calls write operators, history, buffer and router index (R156). -/
theorem runPlan_sameDerived (row : Six Byte) (plan : List Call) (s t : State) (c : RenderCtx)
    (hplan : compile row = some plan) (hrc : s.rc = some c) (hx : runPlan plan s = .ok t) : s.SameDerived t := by
  obtain ⟨heq, -⟩ := runPlan_frame plan s t hx c hrc fun y hy => (compile_mem row plan hplan y hy).1
  rw [heq]
  exact ⟨rfl, rfl, rfl, rfl, rfl, fun _ _ => .of_eq rfl, .of_eq rfl⟩

/-- RENDER: its preamble is SETUP's effect, and the steps after it derive nothing (R241). -/
theorem execRender_keeps_coherence (a : RenderArgs) (s t : State) (h : s.Coherent) (hx : execRender a s = .next t) :
    t.Coherent := by
  obtain ⟨p, s1, s2, plan, s3, -, hsetup, htargets, hplan, hrun, rfl⟩ := (execRender_next a s t).1 hx
  obtain ⟨_, _, _, _, _, -, -, -, -, hs2⟩ := (renderTargets_ok _ _ _ _ _).1 htargets
  have h1 := setupWith_keeps_coherence s s1 h hsetup
  have h2 := (renderTargets_sameDerived _ a p s1 s2 htargets).coherent h1
  exact (runPlan_sameDerived _ plan s2 s3 _ hplan (by rw [hs2]; rfl) hrun).coherent h2

/-- No other instruction is a writer of a derived register, of SCALE, of the patch or of DIRTY (R23, R27, R28). -/
theorem exec_sameDerived (i : Instr) (s t : State) (hx : exec i s = .next t) (hvreset : ∀ sr, i ≠ .vreset sr)
    (hpload : ∀ img, i ≠ .pload img) (hsetup : i ≠ .setup) (hrender : ∀ a, i ≠ .render a) : s.SameDerived t := by
  obtain ⟨-, -, hformats, -, -, hpatch, -, -, -, -, hvoice⟩ := onlyTheNamedWriters i s t hx hvreset
  obtain ⟨-, -, -, -, -, -, hunits, -⟩ := hvoice hrender
  obtain ⟨henv, hpenv, hratio, hheadroom, hdirty⟩ := hunits hsetup
  exact ⟨hdirty hpload, (hpatch hpload).1, hformats, hratio, hheadroom, fun k _ => .of_eq (by rw [henv]), .of_eq hpenv⟩

/-- Every instruction keeps coherence. -/
theorem exec_keeps_coherence (i : Instr) (s t : State) (h : s.Coherent) (hx : exec i s = .next t) : t.Coherent := by
  cases i with
  | vreset sr => exact execVreset_keeps_coherence sr s t hx
  | pload img => exact execPload_keeps_coherence img s t h hx
  | setup => exact execSetup_keeps_coherence s t h hx
  | render a => exact execRender_keeps_coherence a s t h hx
  | _ => exact (exec_sameDerived _ s t hx nofun nofun nofun nofun).coherent h

/-- Settles O54: a step holds the state, writes one sample of the buffer, or executes one instruction, and each keeps
coherence. -/
theorem everyStepKeepsCoherence : Obligations.EveryStepKeepsCoherence := by
  intro s t h hx
  have hport : ∀ rest, (s.withPort rest).Coherent := fun _ => h
  rcases step_next_cases s t hx with rfl | ⟨slot, i, v, rest, hwrite⟩ | ⟨i, rest, hexec⟩
  · exact h
  · obtain ⟨-, -, rfl⟩ := (portWrite_next slot i v _ t).1 hwrite
    exact hport rest
  · exact exec_keeps_coherence i _ t (hport rest) hexec

/-! ### The host's buffer port -/

/-- What the host reads after a write of one sample: the sample written, and every other as before (R62, R64). -/
theorem State.sample_memWrite (s : State) (slot i : Nat) (v : SampleBits)
    (hex : sampleExists Config.bmax slot i = true) :
    (s.withBuf (memWrite s.buf (sampleAddr slot i) v)).sample slot i = some v ∧
      ∀ slot' i', (slot' ≠ slot ∨ i' ≠ i) →
        (s.withBuf (memWrite s.buf (sampleAddr slot i) v)).sample slot' i' = s.sample slot' i' := by
  simp only [State.sample, State.withBuf_buf]
  refine ⟨by rw [if_pos hex, memRead_memWrite_same], fun slot' i' hne => ?_⟩
  by_cases hex' : sampleExists Config.bmax slot' i' = true
  · have haddr : sampleAddr slot' i' ≠ sampleAddr slot i := fun he => by
      obtain ⟨hslot, hi⟩ := sampleAddr_inj _ _ _ _ ((sampleExists_iff _ _ _).1 hex').1
        ((sampleExists_iff _ _ _).1 hex).1 he
      exact hne.elim (absurd hslot) (absurd hi)
    rw [memRead_memWrite_other _ _ _ _ haddr]
  · rw [if_neg hex', if_neg hex']

/-- A host write at an address that does not exist faults (log 22). -/
theorem portWrite_noSuchSample (s : State) (slot i : Nat) (v : SampleBits) (hc : s.constructed = true)
    (hex : sampleExists Config.bmax slot i = false) : portWrite slot i v s = .fault .noSuchSample := by
  simp only [portWrite, State.needConstructed, hc, require_true, ok_bind, bufWrite, hex, Bool.false_eq_true, if_false,
    faultWith_bind, finish_faultWith]

/-- Settles O6: an idle step holds the state; a write goes to the one address of its sample, where there is one. -/
theorem hostPortWrites : Obligations.HostPortWrites := by
  intro s slot i v rest
  refine ⟨fun hport => step_idle s (nextOp_idle s hport), fun hport hc hslot hi => ?_, fun hport hc hout => ?_⟩
  · have hex : sampleExists Config.bmax slot i = true := (sampleExists_iff _ _ _).2 ⟨hslot, hi⟩
    obtain ⟨hsame, hother⟩ := (s.withPort rest).sample_memWrite slot i v hex
    refine ⟨_, ?_, rfl, hsame, hother⟩
    rw [step_writeSample s slot i v rest hport]
    exact (portWrite_next _ _ _ _ _).2 ⟨hc, hex, rfl⟩
  · have hex : sampleExists Config.bmax slot i = false := by
      rw [Bool.eq_false_iff, ne_eq, sampleExists_iff, Config.numSlots]
      omega
    rw [step_writeSample s slot i v rest hport]
    exact portWrite_noSuchSample _ _ _ _ hc hex

/-! ### A chain of one operator -/

/-- What a chain of one operator gives in a sample: that operator's output under the seed (R155). -/
theorem sampleOut_one (s : State) (c : RenderCtx) (first : Nat) (src : Source) (scale : RealBits)
    (h : RealBits × RealBits) (u : SampleBits) (i : Nat) :
    sampleOut s.formats src (chainLanes s.formats s.ops c first 1) scale h u i =
      opOut s c first i (seedOf s.formats src scale u (historyAt s.formats src (chainLanes s.formats s.ops c first 1)
        scale h i)) := rfl

/-- A call of one operator modulated by a buffer, replacing or adding: its modulation is what the slot read held before
the call (R65, R160, R161). -/
theorem chainCall_external (add : Bool) (first : Fin 6) (inp out : Slot) (s : State) (c : RenderCtx)
    (hin : s.inRender c first 1) (hinp : s.blockWritten inp c.block) (hout : add = true → s.blockWritten out c.block) :
    ∃ t, finish (chainCall Config.bmax 1 .external add first inp out s) = .next t ∧ chainFrame s t c first 1 out ∧
      t.ops.get first = opAfter s c first ∧ t.fb0 = s.fb0 ∧ t.fb1 = s.fb1 ∧
      ∀ i < c.block, ∀ u v, s.sample inp.toNat i = some u → (add = true → s.sample out.toNat i = some v) →
        t.sample out.toNat i = some (storedAt s.formats add v (opOut s c first i (ofSample s.formats u))) := by
  have hscale : chainScale .external s = .ok r0 := (chainScale_ok _ _ _).2 (.inr ⟨rfl, rfl⟩)
  obtain ⟨t, hcall, hframe, hops, -, hsample, -⟩ := chainCall_completes 1 .external add first inp out s c r0 (le_refl 1)
    (by omega) rfl hin hscale (fun _ => hinp) hout
  obtain ⟨hfb0, hfb1⟩ := chainCall_history _ _ _ _ _ _ s t rfl hcall
  refine ⟨t, (finish_next _ _).2 hcall, hframe, hops first (le_refl _) (by omega), hfb0, hfb1, ?_⟩
  intro i hi u v hu hv
  rw [hsample i hi u v (fun _ => hu) hv, sampleOut_one]
  rfl

/-- Settles O32: both specializations are one call, replacing or adding. -/
theorem ch1ExtResult : Obligations.Ch1ExtResult := by
  intro first inp out s c fm hin hinp
  constructor
  · obtain ⟨t, hexec, hframe, hop, hfb0, hfb1, hsample⟩ := chainCall_external false first inp out s c hin hinp nofun
    exact ⟨t, hexec, hframe, hop, hfb0, hfb1, fun i hi u hu => hsample i hi u 0 hu nofun⟩
  · intro hout
    obtain ⟨t, hexec, hframe, hop, hfb0, hfb1, hsample⟩ :=
      chainCall_external true first inp out s c hin hinp fun _ => hout
    exact ⟨t, hexec, hframe, hop, hfb0, hfb1, fun i hi u v hu hv => hsample i hi u v hu fun _ => hv⟩

end Sys2Proof.Machine
end

section
/-!
PROOFS. The three code spaces (30_encoding.md R80 to R95): the decoder and the encoder format by format, what is no
instruction, a routing opcode with no feedback as its own chain call (R173, R174), and the trailer of a bank (R91).
-/
namespace Sys2Proof.Machine

/-! ### Format R, the routing opcodes -/

/-- The byte under mask 0xB8 is the source field and the two reserved bits (R81, R83). -/
theorem mask_eq_iff (o : Byte) (src : Slot) :
    o &&& 0xB8#8 = routingByte src 0#2 false false ↔ opcodeReservedClear o = true ∧ opcodeSrc o = src := by
  rcases source_cases src with rfl | rfl | rfl | rfl <;> (revert o; decide)

/-- A byte that matches a mnemonic's row is that source with its own other fields (R82, R83). -/
theorem routingByte_of_mask (o : Byte) (src : Slot) (h : o &&& 0xB8#8 = routingByte src 0#2 false false) :
    routingByte src (opcodeDst o) (opcodeAdd o) (opcodeTap o) = o := by
  obtain ⟨hclear, rfl⟩ := (mask_eq_iff o src).1 h
  exact routingByte_fields o hclear

theorem encode_of_decodeRouting (o : Byte) (i : Instr) (h : decodeRouting o = .ok i) : encode i = routingPacket o := by
  unfold decodeRouting at h
  split_ifs at h with hopn hopx1 hopx2 hopf <;> cases h
  · exact congrArg routingPacket (routingByte_of_mask o 0#2 hopn)
  · exact congrArg routingPacket (routingByte_of_mask o 1#2 hopx1)
  · exact congrArg routingPacket (routingByte_of_mask o 2#2 hopx2)
  · exact congrArg routingPacket (routingByte_of_mask o 3#2 hopf)

/-- A byte with a reserved bit set matches no row (R83, R92). -/
theorem decodeRouting_reserved (o : Byte) (h : opcodeReservedClear o = false) :
    decodeRouting o = .error .reservedOpcode := by
  have hmask : ∀ src, o &&& 0xB8#8 ≠ routingByte src 0#2 false false := fun src hm => by
    rw [((mask_eq_iff o src).1 hm).1] at h
    cases h
  unfold decodeRouting
  split_ifs with hopn hopx1 hopx2 hopf
  · exact absurd hopn (hmask 0#2)
  · exact absurd hopx1 (hmask 1#2)
  · exact absurd hopx2 (hmask 2#2)
  · exact absurd hopf (hmask 3#2)
  · rfl

/-! ### Format K, the chain calls -/

/-- The three operand words of a chain call are an operator and two slots, and only those (R85). -/
theorem chainOperands_eq_some_iff (ops : List Operand) (first : Fin 6) (inp out : Slot) :
    chainOperands ops = some (first, inp, out) ↔ ops = [.int first.val, .int inp.toNat, .int out.toNat] := by
  constructor
  · intro h
    unfold chainOperands at h
    split at h
    · split_ifs at h with hfirst hslots
      obtain ⟨hinp, hout⟩ := hslots
      cases h
      simp only [BitVec.toNat_ofNat, Nat.mod_eq_of_lt hinp, Nat.mod_eq_of_lt hout, Int.ofNat_eq_natCast]
    · cases h
  · rintro rfl
    change (if h : first.val < 6 then if inp.toNat < 4 ∧ out.toNat < 4 then
      some ((⟨first.val, h⟩ : Fin 6), BitVec.ofNat 2 inp.toNat, BitVec.ofNat 2 out.toNat) else none else none) = _
    rw [dif_pos first.isLt, if_pos ⟨inp.isLt, out.isLt⟩, BitVec.ofNat_toNat, BitVec.ofNat_toNat]
    simp only [BitVec.setWidth_eq]

/-- A selector keys the constructor whose calls are encoded with it (R85). -/
theorem encode_of_selectorCtor (sel : Byte) (ctor : Fin 6 → Slot → Slot → Instr) (h : selectorCtor sel = some ctor)
    (first : Fin 6) (inp out : Slot) : encode (ctor first inp out) = chainPacket sel first inp out := by
  unfold selectorCtor at h
  split_ifs at h <;> (subst sel; cases h; rfl)

theorem decodeChain_of_selectorCtor (sel : Byte) (ctor : Fin 6 → Slot → Slot → Instr)
    (h : selectorCtor sel = some ctor) (first : Fin 6) (inp out : Slot) :
    decode (chainPacket sel first inp out) = .ok (ctor first inp out) := by
  simp only [decode, chainPacket, decodeChain, h, (chainOperands_eq_some_iff _ first inp out).2 rfl]

theorem encode_of_decodeChain (sel : Byte) (ops : List Operand) (i : Instr) (h : decodeChain sel ops = .ok i) :
    encode i = ⟨.chain, sel, ops⟩ := by
  unfold decodeChain at h
  split at h
  · cases h
  · rename_i ctor hctor
    split at h
    · cases h
    · rename_i first inp out hops
      cases h
      rw [encode_of_selectorCtor sel ctor hctor, (chainOperands_eq_some_iff _ _ _ _).1 hops]
      rfl

/-- A selector of none of the eight specializations is no chain call, whatever its operands (R150). -/
theorem decodeChain_unassigned (sel : Byte) (ops : List Operand)
    (h : sel ∉ [0x00#8, 0x01#8, 0x02#8, 0x03#8, 0x04#8, 0x05#8, 0x17#8, 0x29#8]) :
    decodeChain sel ops = .error .unassignedSelector := by
  have hsel : selectorCtor sel = none := by
    simp only [List.mem_cons, List.not_mem_nil, or_false, not_or] at h
    simp only [selectorCtor, h, if_false]
  simp only [decodeChain, hsel]

/-! ### Format C, the host commands -/

/-- Each row of R86's table takes its own operands only. -/
theorem encode_of_commandOf (code : Byte) (ops : List Operand) (i : Instr) (h : commandOf code ops = some i) :
    encode i = ⟨.command, code, ops⟩ := by
  unfold commandOf at h
  split_ifs at h <;> (subst code; split at h <;> cases h; rfl)

theorem encode_of_decodeCommand (code : Byte) (ops : List Operand) (i : Instr) (h : decodeCommand code ops = .ok i) :
    encode i = ⟨.command, code, ops⟩ := by
  unfold decodeCommand at h
  split at h
  · split at h
    · rename_i j hj
      cases h
      exact encode_of_commandOf code ops i hj
    · cases h
  · cases h

/-- A code not in R86's table is no command, whatever its operands (R92, R93). -/
theorem decodeCommand_unassigned (code : Byte) (ops : List Operand)
    (h : code ∉ [0x01#8, 0x02#8, 0x03#8, 0x04#8, 0x05#8, 0x08#8, 0x09#8, 0x0A#8, 0x0B#8, 0x10#8]) :
    decodeCommand code ops = .error .unassignedCommand := by
  have hcode : isCommandCode code = false := by rwa [isCommandCode, Bool.eq_false_iff, ne_eq, List.contains_iff_mem]
  simp only [decodeCommand, hcode, Bool.false_eq_true, if_false]

/-! ### The decoder and the encoder -/

/-- The decoder reads every instruction back from its packet (R80). -/
theorem decode_encode (i : Instr) : decode (encode i) = .ok i := by
  cases i with
  | opn dst add tap =>
    obtain ⟨hopn, -⟩ := decodeRouting_routingByte dst add tap
    exact hopn
  | opx1 dst add tap =>
    obtain ⟨-, hopx1, -⟩ := decodeRouting_routingByte dst add tap
    exact hopx1
  | opx2 dst add tap =>
    obtain ⟨-, -, hopx2, -⟩ := decodeRouting_routingByte dst add tap
    exact hopx2
  | opf dst add tap =>
    obtain ⟨-, -, -, hopf⟩ := decodeRouting_routingByte dst add tap
    exact hopf
  | ch1NoneW first inp out => exact decodeChain_of_selectorCtor _ .ch1NoneW rfl first inp out
  | ch1NoneA first inp out => exact decodeChain_of_selectorCtor _ .ch1NoneA rfl first inp out
  | ch1ExtW first inp out => exact decodeChain_of_selectorCtor _ .ch1ExtW rfl first inp out
  | ch1ExtA first inp out => exact decodeChain_of_selectorCtor _ .ch1ExtA rfl first inp out
  | ch1Fb0W first inp out => exact decodeChain_of_selectorCtor _ .ch1Fb0W rfl first inp out
  | ch1Fb0A first inp out => exact decodeChain_of_selectorCtor _ .ch1Fb0A rfl first inp out
  | ch2Fb1A first inp out => exact decodeChain_of_selectorCtor _ .ch2Fb1A rfl first inp out
  | ch3Fb2A first inp out => exact decodeChain_of_selectorCtor _ .ch3Fb2A rfl first inp out
  | _ => rfl

/-- A packet that decodes is its instruction's packet: no two packets mean the same (R80). -/
theorem encode_of_decode (p : Packet) (i : Instr) (h : decode p = .ok i) : encode i = p := by
  obtain ⟨format, code, ops⟩ := p
  cases format with
  | routing =>
    simp only [decode] at h
    split at h
    · subst ops
      exact encode_of_decodeRouting code i h
    · cases h
  | chain => exact encode_of_decodeChain code ops i h
  | command => exact encode_of_decodeCommand code ops i h

/-- Settles O1: both directions, each by the three formats. -/
theorem decodeInvertsEncode : Obligations.DecodeInvertsEncode := ⟨decode_encode, encode_of_decode⟩

/-- Settles O2: the decoder evaluated on the eight words. -/
theorem decodeOfWrittenWords : Obligations.DecodeOfWrittenWords := by
  unfold Obligations.DecodeOfWrittenWords
  decide

/-- Settles O3: a bare byte is decoded by R83's table of matches, with the fields of R81. -/
theorem routingOpcodesDecode : Obligations.RoutingOpcodesDecode := fun o => by
  simp only [decode, if_true, decodeRouting, opcodeDst, opcodeAdd, opcodeTap]

/-! ### Packets that are no instruction -/

/-- A step whose oldest host operation is a packet that does not decode is refused under the decoder's reason (R92,
R93). -/
theorem step_undecodable (s : State) (p : Packet) (rest : List HostOp) (e : DecodeError)
    (hport : s.port = .packet p :: rest) (hdec : decode p = .error e) : step s = .refused (rejection e) := by
  have hop : nextOp s = .reject (rejection e) := by
    unfold nextOp
    rw [hport]
    simp only [hdec]
  simp only [step, hop]

/-- Settles O5: in each of the three code spaces the decoder gives the reason, which the step refuses under. -/
theorem unassignedCodesAreRefused : Obligations.UnassignedCodesAreRefused := by
  intro s code ops rest
  refine ⟨fun hcode hport => ?_, fun hbit hport => ?_, fun hsel hport => ?_⟩
  · exact step_undecodable s _ rest _ hport (decodeCommand_unassigned code ops hcode)
  · have hreserved : opcodeReservedClear code = false := by
      rcases hbit with hbit | hbit <;> simp [opcodeReservedClear, hbit]
    exact step_undecodable s _ rest _ hport (decodeRouting_reserved code hreserved)
  · exact step_undecodable s _ rest _ hport (decodeChain_unassigned code ops hsel)

/-! ### Routing opcodes with no feedback -/

/-- The destination and the write mode of a routing opcode (R81). -/
theorem opcodeFields_routingByte (src dst : Slot) (add tap : Bool) :
    opcodeDst (routingByte src dst add tap) = dst ∧ opcodeAdd (routingByte src dst add tap) = add := by
  revert src dst add tap; decide

/-- S of an opcode whose source field is not the feedback history (R173, R174). -/
def plainSource (src : Slot) : Source := if src = 0#2 then .none else .external

theorem plainSource_eq_external_iff (src : Slot) : plainSource src = .external ↔ src ≠ 0#2 := by
  unfold plainSource
  split <;> simp [*]

theorem isFeedback_plainSource (src : Slot) : (plainSource src).isFeedback = false := by
  unfold plainSource
  split <;> rfl

/-- The source of a chain that does not start at the feedback history is its first opcode's alone (R173, R174). -/
theorem chainSource_of_plain (o : Byte) (rest : List Byte) (hsrc : opcodeSrc o ≠ 3#2) :
    chainSource (o :: rest) = some (plainSource (opcodeSrc o)) := by
  simp only [chainSource, plainSource, if_pos hsrc]
  split <;> rfl

/-- One operator with no feedback has a specialization in both write modes (R150). -/
theorem specOf_plainSource (src : Slot) (add : Bool) : ∃ x, specOf 1 (plainSource src) add = some x := by
  unfold plainSource
  split <;> cases add <;> exact ⟨_, rfl⟩

theorem ChainSpec.len_of_plain (x : ChainSpec) (h : x.src.isFeedback = false) : x.len = 1 := by
  cases x with
  | ch2Fb1A => cases h
  | ch3Fb2A => cases h
  | _ => rfl

/-- The call of an opcode with no feedback, taken alone. -/
theorem callOf_plain (i : Nat) (o : Byte) (x : ChainSpec) (hsrc : opcodeSrc o ≠ 3#2)
    (hx : specOf 1 (plainSource (opcodeSrc o)) (opcodeAdd o) = some x) :
    callOf i [o] = some ⟨x, i, 1, opcodeAdd o, opcodeSrc o, opcodeDst o⟩ := by
  simp only [callOf, chainSource_of_plain o [] hsrc, List.length_singleton, List.getLastD_cons, List.getLastD_nil, hx]

/-- An opcode with a call of its own never fails its turn: the fall-back is that call (R176). -/
theorem callAt_isSome_of_callOf (i : Nat) (o : Byte) (rest : List Byte) (d : Call) (h : callOf i [o] = some d) :
    ∃ c, callAt i (o :: rest) = some c := by
  obtain ⟨hone, -⟩ := extendChain_bounds o o rest 1 (Nat.le_refl 1)
  simp only [callAt]
  split
  · exact ⟨_, rfl⟩
  · rename_i hnone
    have hlong : 1 < extendChain o o rest 1 := by
      refine lt_of_le_of_ne hone fun heq => ?_
      rw [← heq, List.take_succ_cons, List.take_zero, h] at hnone
      cases hnone
    exact ⟨d, by rw [if_pos hlong, h]⟩

/-- Whatever opcodes follow, an opcode with no feedback gives the call of itself alone: no longer chain of its source
has a specialization (R150, R173, R174). -/
theorem callAt_plain (i : Nat) (o : Byte) (rest : List Byte) (d : Call) (hsrc : opcodeSrc o ≠ 3#2)
    (hd : callOf i [o] = some d) : callAt i (o :: rest) = some d := by
  obtain ⟨c, hc⟩ := callAt_isSome_of_callOf i o rest d hd
  have hlen : c.n = 1 := by
    rw [(callAt_first_len i _ c hc).2, c.spec.len_of_plain (callAt_source i o rest c hc hsrc)]
  obtain ⟨-, -, hcall, -⟩ := callAt_eq_some i _ c hc
  rw [hlen, List.take_succ_cons, List.take_zero, hd] at hcall
  rw [hc, hcall]

/-- At the router index an opcode with no feedback is one chain call of its own operator (R173, R174). -/
theorem routeOpcode_plain (src dst : Slot) (add tap : Bool) (s : State) (c : RenderCtx) (hrc : s.rc = some c)
    (hi : c.index < 6) (hsrc : src ≠ 3#2) :
    routeOpcode (routingByte src dst add tap) s =
      chainCall Config.bmax 1 (plainSource src) add c.index src dst s := by
  obtain ⟨hdst, hadd⟩ := opcodeFields_routingByte src dst add tap
  obtain ⟨x, hx⟩ := specOf_plainSource src add
  obtain ⟨hlen, hsource, hadds⟩ := (specOf_eq_some _ _ _ _).1 hx
  have hcall := callOf_plain c.index (routingByte src dst add tap) x
  rw [opcodeSrc_routingByte, hadd, hdst] at hcall
  have hat := callAt_plain c.index (routingByte src dst add tap) (c.row.toList.drop (c.index + 1)) _
    (by rwa [opcodeSrc_routingByte]) (hcall hsrc hx)
  simp only [routeOpcode, hrc, written_some, ok_bind, hi, decide_true, require_true, hat]
  rw [runCall_eq _ s hi, hlen, hsource, hadds]

/-- A routing opcode and a chain call of the same operator, source, write mode and slots are the same step, which
completes where its samples are written (R93, R173, R174). -/
theorem exec_plain_routing (src dst : Slot) (add tap : Bool) (s : State) (c : RenderCtx) (i j : Instr)
    (hrc : s.rc = some c) (hindex : c.index < 6) (hsrc : src ≠ 3#2)
    (hi : exec i s = finish (routeOpcode (routingByte src dst add tap) s))
    (hj : exec j s = finish (chainCall Config.bmax 1 (plainSource src) add c.index src dst s)) :
    exec i s = exec j s ∧
      (s.inRender c c.index 1 → (add = true → s.blockWritten dst c.block) →
        (src ≠ 0#2 → s.blockWritten src c.block) → ∃ t, exec i s = .next t ∧ exec j s = .next t) := by
  rw [routeOpcode_plain src dst add tap s c hrc hindex hsrc] at hi
  refine ⟨hi.trans hj.symm, fun hin hdst hread => ?_⟩
  have hscale : chainScale (plainSource src) s = .ok r0 :=
    (chainScale_ok _ _ _).2 (.inr ⟨isFeedback_plainSource src, rfl⟩)
  have htap : tapLast (plainSource src) 1 = true := by
    unfold plainSource
    split <;> rfl
  obtain ⟨t, ht, -⟩ := chainCall_completes 1 (plainSource src) add c.index src dst s c r0 (Nat.le_refl 1) hindex htap
    hin hscale (fun hext => hread ((plainSource_eq_external_iff src).1 hext)) hdst
  exact ⟨t, hi.trans ((finish_next _ _).2 ht), hj.trans ((finish_next _ _).2 ht)⟩

/-- Settles O38: each of the three is `exec_plain_routing` at its source. -/
theorem unfusedRoutingOpcodes : Obligations.UnfusedRoutingOpcodes := by
  intro dst add tap s c h hrc k own none'
  have hown : ∀ src, src ≠ 0#2 →
      exec (own src) s = finish (chainCall Config.bmax 1 (plainSource src) add c.index src dst s) := fun src hsrc => by
    rw [(plainSource_eq_external_iff src).2 hsrc]
    cases add <;> rfl
  have hnone : exec none' s = finish (chainCall Config.bmax 1 (plainSource 0#2) add c.index 0#2 dst s) := by
    cases add <;> rfl
  obtain ⟨hopn, hopn_next⟩ :=
    exec_plain_routing 0#2 dst add tap s c (.opn dst add tap) none' hrc h (by decide) rfl hnone
  obtain ⟨hopx1, hopx1_next⟩ :=
    exec_plain_routing 1#2 dst add tap s c (.opx1 dst add tap) _ hrc h (by decide) rfl (hown 1#2 (by decide))
  obtain ⟨hopx2, hopx2_next⟩ :=
    exec_plain_routing 2#2 dst add tap s c (.opx2 dst add tap) _ hrc h (by decide) rfl (hown 2#2 (by decide))
  refine ⟨hopn, hopx1, hopx2, fun hin hdst => ⟨?_, fun hread => ?_, fun hread => ?_⟩⟩
  · exact hopn_next hin hdst fun h0 => absurd rfl h0
  · exact hopx1_next hin hdst fun _ => hread
  · exact hopx2_next hin hdst fun _ => hread

/-! ### The trailer of a bank -/

/-- The voices of a bank lie before its trailer: the last ends at byte 6 + 32 * 128 (R91, R266). -/
theorem bankVoices_take (bank : List Byte) : bankVoices (bank.take 4102) = bankVoices bank := by
  unfold bankVoices
  refine List.map_congr_left fun n hn => ?_
  have hlt : n < 32 := List.mem_range.1 hn
  have hend : Config.voiceBytes ≤ 4102 - (6 + Config.voiceBytes * n) := by
    rw [show Config.voiceBytes = 128 from rfl]
    omega
  rw [List.drop_take, List.take_take, Nat.min_eq_left hend]

/-- Settles O15: the header and the voices of a bank are those of its first 4102 bytes. -/
theorem bunpackIgnoresTheTrailer : Obligations.BunpackIgnoresTheTrailer := by
  intro bank bank' s hlen hlen' hsame
  have htake : bank.take 4102 = bank'.take 4102 := List.ext_getElem? fun j => by
    rw [List.getElem?_take, List.getElem?_take]
    split
    · exact hsame j ‹_›
    · rfl
  have hheader : bank.take 6 = bank'.take 6 := by
    have h6 : ∀ l : List Byte, l.take 6 = (l.take 4102).take 6 := fun l => by rw [List.take_take]; rfl
    rw [h6 bank, h6 bank', htake]
  have hvoices : bankVoices bank = bankVoices bank' := by
    rw [← bankVoices_take bank, htake, bankVoices_take bank']
  calc exec (.bunpack bank) s = _ := execBunpack_next bank s
    _ = _ := by rw [hlen, hlen', hheader, hvoices]
    _ = exec (.bunpack bank') s := (execBunpack_next bank' s).symm

end Sys2Proof.Machine
end

section
/-!
PROOFS. The unit conversions (40_unit_conversions.md R111 to R120, R123): what each does with the open parameters left
symbolic, and the corner and worked values.
-/
namespace Sys2Proof.Machine

/-! ### Comparisons and zeros -/

/-- A number at most `y` is not above it. -/
theorem rLt_eq_false_of_rLe (fm : Formats) (x y : RealBits) (h : rLe fm x y = true) :
    rLt fm y x = false := by
  simp only [rLe, Bool.and_eq_true, decide_eq_true_eq] at h
  simp only [rLt, decide_eq_false (not_lt.2 h.2), Bool.and_false]

/-- A finite number that is not negative, less a zero, times a zero, added to a zero: 0.0. -/
theorem interpolate_zero (y : RealBits) (hfin : rIsFinite ieee y = true) (hsign : rSign ieee y = false) :
    rAdd ieee r0 (rMul ieee (rSub ieee y r0) r0) = r0 := by
  rw [rMul_zero _ (rSub_finite y r0 hfin (by decide) hsign (by decide))]
  cases rSign ieee (rSub ieee y r0) <;> decide

/-! ### Levels and increments (R111 to R116) -/

theorem operatorLevel_corners :
    operatorLevel 0 = 0 ∧ operatorLevel 14 = 38 ∧ operatorLevel 15 = 42 ∧ operatorLevel 19 = 46 ∧
      operatorLevel 20 = 48 ∧ operatorLevel 50 = 78 ∧ operatorLevel 99 = 127 := by decide

theorem operatorEnvelopeIncrement_corners :
    operatorEnvelopeIncrement ieee 0 = operatorEnvelopeIncrement ieee 1 ∧
      operatorEnvelopeIncrement ieee 50 = 0x3F30000000000000 ∧
      operatorEnvelopeIncrement ieee 99 = 0x3FAC000000000000 := by decide +kernel

theorem lfoFrequency_corners :
    lfoFrequency ieee 0 = rMul ieee (rLit ieee 11 1) (minLfoFrequency ieee) ∧
      lfoFrequency ieee 99 = rLit ieee 239292 10000 := by decide +kernel

theorem lfoDelay_corners :
    lfoDelay ieee 0 = (rLit ieee 100000 1, rLit ieee 100000 1) ∧
      lfoDelay ieee 99 = (rLit ieee 18768 100000, rLit ieee 75072 100000) := by decide +kernel

theorem pitchEnvelopeLevel_corners :
    pitchEnvelopeLevel ieee 0 = 0xC011805B70691EA8 ∧ pitchEnvelopeLevel ieee 18 = 0xBFF008B154764EE7 ∧
      pitchEnvelopeLevel ieee 19 = 0xBFEF000000000000 ∧ pitchEnvelopeLevel ieee 50 = r0 ∧
      pitchEnvelopeLevel ieee 99 = 0x401000010A5BF97B := by decide +kernel

theorem pitchEnvelopeIncrement_corners :
    pitchEnvelopeIncrement ieee 0 = 0x3EB1DC5F8880DBD7 ∧ pitchEnvelopeIncrement ieee 50 = 0x3F05C4946E5D0BEF ∧
      pitchEnvelopeIncrement ieee 99 = 0x3F313ABBF72F3E0B := by decide +kernel

/-! ### Scaling (R117, R118) -/

/-- Above the break point and its offset, the left curve and depth are not read (R118). -/
theorem keyboardScaling_right (fm : Formats) (note : RealBits) (bp ld rd lc rc : Nat)
    (h : rLt fm r0 (rSub fm (rSub fm note (rOfInt fm bp)) (rLit fm 15 1)) = true) :
    keyboardScaling fm note ⟨bp, ld, rd, lc, rc⟩ = keyboardScaling fm note ⟨bp, 0, rd, 0, rc⟩ := by
  simp only [keyboardScaling, h, if_true]

/-- The four right curves at note 60, break point 27, depth 50, which is 18 semitones right of the offset. -/
theorem keyboardScaling_curves (ld lc : Nat) :
    let k := fun rc => keyboardScaling ieee 0x404E000000000000 ⟨27, ld, 50, lc, rc⟩
    k 0 = 0xC03817CED916872B ∧ k 1 = 0xBFEB7FDAFCD72064 ∧ k 2 = 0x3FEB7FDAFCD72064 ∧
      k 3 = 0x403817CED916872B := by
  have hright : ∀ rc, keyboardScaling ieee 0x404E000000000000 ⟨27, ld, 50, lc, rc⟩ =
      keyboardScaling ieee 0x404E000000000000 ⟨27, 0, 50, 0, rc⟩ :=
    fun rc => keyboardScaling_right _ _ _ _ _ _ _ (by decide +kernel)
  simp only [hright]
  decide +kernel

/-- `rate_scaling` is EXP2 of its exponent, whatever EXP2 is (R117). -/
theorem rateScaling_of_exponent (cfg : Config.Params) (note x : RealBits) (rs : Nat)
    (h : rDiv ieee (rMul ieee (rOfInt ieee rs) (rSub ieee (rDiv ieee note (rLit ieee 3 1)) (rLit ieee 7 1)))
      (rLit ieee 32 1) = x) : rateScaling ieee cfg note rs = exp2 ieee cfg x := by
  rw [rateScaling, h]

/-- At note 21 the factor `note/3 - 7` is 0.0, and so is the exponent at every sensitivity. -/
theorem rateScaling_note21 (cfg : Config.Params) (rs : Nat) (h : rs < 8) :
    rateScaling ieee cfg 0x4035000000000000 rs = exp2 ieee cfg r0 := by
  have hexp : ∀ k < 8, rDiv ieee (rMul ieee (rOfInt ieee (k : Nat))
      (rSub ieee (rDiv ieee 0x4035000000000000 (rLit ieee 3 1)) (rLit ieee 7 1))) (rLit ieee 32 1) = r0 := by
    decide +kernel
  exact rateScaling_of_exponent cfg _ _ rs (hexp rs h)

/-! ### Ratios (R119, R123) -/

/-- No chunk is taken off a number that is at most 120 (R123). -/
theorem chunksDown_of_rLe (fm : Formats) (n : Nat) (s scale : RealBits) (h : rLe fm s (rLit fm 120 1) = true) :
    chunksDown fm n s scale = (s, scale) := by
  cases n with
  | zero => rfl
  | succ n => simp only [chunksDown, rLt_eq_false_of_rLe fm _ _ h, if_neg Bool.false_ne_true]

/-- No chunk is added to a number that is at least -120 (R123). -/
theorem chunksUp_of_rLe (fm : Formats) (n : Nat) (s scale : RealBits)
    (h : rLe fm (rNeg fm (rLit fm 120 1)) s = true) : chunksUp fm n s scale = (s, scale) := by
  cases n with
  | zero => rfl
  | succ n => simp only [chunksUp, rLt_eq_false_of_rLe fm _ _ h, if_neg Bool.false_ne_true]

/-- Where the first loop ends within -120 .. 120, the ratio is its scale times EXP2 of the rest over 12 (R123). -/
theorem semitonesToRatioSafe_of_chunksDown (fm : Formats) (cfg : Config.Params) (s r scale : RealBits)
    (hdown : chunksDown fm 128 s (r1 fm) = (r, scale)) (hlo : rLe fm (rNeg fm (rLit fm 120 1)) r = true)
    (hhi : rLe fm r (rLit fm 120 1) = true) :
    semitonesToRatioSafe fm cfg s = rMul fm scale (exp2 fm cfg (rDiv fm r (rLit fm 12 1))) := by
  simp only [semitonesToRatioSafe, hdown, rLt_eq_false_of_rLe fm _ _ hhi, chunksUp_of_rLe fm _ _ _ hlo,
    rLt_eq_false_of_rLe fm _ _ hlo, if_neg Bool.false_ne_true]

/-- The encodings of 120, -120 and 12. -/
theorem semitone_literals :
    rLit ieee 120 1 = 0x405E000000000000 ∧ rNeg ieee (rLit ieee 120 1) = 0xC05E000000000000 ∧
      rLit ieee 12 1 = 0x4028000000000000 := by decide +kernel

/-- Within -120 .. 120 no chunk is taken (R123). -/
theorem semitonesToRatioSafe_within (cfg : Config.Params) (s : RealBits)
    (hlo : rLe ieee 0xC05E000000000000 s = true) (hhi : rLe ieee s 0x405E000000000000 = true) :
    semitonesToRatioSafe ieee cfg s = rMul ieee (r1 ieee) (exp2 ieee cfg (rDiv ieee s 0x4028000000000000)) := by
  obtain ⟨h120, hneg120, h12⟩ := semitone_literals
  rw [← h120] at hhi
  rw [← hneg120] at hlo
  rw [← h12]
  exact semitonesToRatioSafe_of_chunksDown ieee cfg s s _ (chunksDown_of_rLe _ _ _ _ hhi) hlo hhi

/-- Zero semitones. -/
theorem semitonesToRatioSafe_zero (cfg : Config.Params) :
    semitonesToRatioSafe ieee cfg r0 = rMul ieee (r1 ieee) (exp2 ieee cfg r0) := by
  have hdiv : rDiv ieee r0 0x4028000000000000 = r0 := by decide +kernel
  rw [semitonesToRatioSafe_within cfg r0 (by decide +kernel) (by decide +kernel), hdiv]

/-- 130 semitones: one chunk of 120 is taken off and 10 are left. -/
theorem semitonesToRatioSafe_130 (cfg : Config.Params) :
    semitonesToRatioSafe ieee cfg 0x4060400000000000 =
      rMul ieee 0x4090000000000000 (exp2 ieee cfg (rDiv ieee 0x4024000000000000 0x4028000000000000)) := by
  obtain ⟨-, -, h12⟩ := semitone_literals
  have hdown : chunksDown ieee 128 0x4060400000000000 (r1 ieee) = (0x4024000000000000, 0x4090000000000000) := by
    decide +kernel
  rw [← h12]
  exact semitonesToRatioSafe_of_chunksDown ieee cfg _ _ _ hdown (by decide +kernel) (by decide +kernel)

/-- In ratio mode with the middle detune, the ratio is that of the coarse entry times the fine multiplier (R119). -/
theorem frequencyRatio_ratioMode (cfg : Config.Params) (op : OpPatch) (hmode : op.mode = 0) (hdetune : op.detune = 7) :
    frequencyRatio ieee cfg op =
      rMul ieee (semitonesToRatioSafe ieee cfg (rAdd ieee (lutCoarse ieee cfg op.coarse) r0))
        (if op.fine ≠ 0 then rAdd ieee (r1 ieee) (rMul ieee (rLit ieee 1 100) (rOfInt ieee op.fine))
         else r1 ieee) := by
  have hzero : rMul ieee (rOfInt ieee (((7 : Nat) : Int) - 7)) (rLit ieee 15 1000) = r0 := by decide +kernel
  simp only [frequencyRatio, hmode, hdetune, hzero, true_and, if_true]

/-- In fixed mode with the middle detune, it is the ratio of the fixed frequency in semitones (R119). -/
theorem frequencyRatio_fixedMode (cfg : Config.Params) (op : OpPatch) (hmode : op.mode = 1) (hdetune : op.detune = 7) :
    frequencyRatio ieee cfg op =
      rMul ieee (semitonesToRatioSafe ieee cfg (rAdd ieee
        (rMul ieee (rOfInt ieee ((op.coarse &&& 3) * 100 + op.fine : Nat)) (rLit ieee 39864 100000)) r0))
        (r1 ieee) := by
  have hzero : rMul ieee (rOfInt ieee (((7 : Nat) : Int) - 7)) (rLit ieee 15 1000) = r0 := by decide +kernel
  simp only [frequencyRatio, hmode, hdetune, hzero, one_ne_zero, false_and, if_false]

/-- Coarse 1 and no detune: entry 1 of the coarse table is 0.0 whatever the open parameters are (R125). -/
theorem frequencyRatio_coarse_one (cfg : Config.Params) (op : OpPatch) (hmode : op.mode = 0) (hcoarse : op.coarse = 1)
    (hdetune : op.detune = 7) :
    (op.fine = 0 → frequencyRatio ieee cfg op = rMul ieee (rMul ieee (r1 ieee) (exp2 ieee cfg r0)) (r1 ieee)) ∧
      (op.fine = 50 → frequencyRatio ieee cfg op =
        rMul ieee (rMul ieee (r1 ieee) (exp2 ieee cfg r0)) 0x3FF8000000000000) := by
  have hbase : rAdd ieee (lutCoarse ieee cfg 1) r0 = r0 := (by decide : rAdd ieee r0 r0 = r0)
  rw [frequencyRatio_ratioMode cfg op hmode hdetune, hcoarse, hbase, semitonesToRatioSafe_zero]
  constructor
  · intro hfine
    rw [if_neg (not_not.2 hfine)]
  · intro hfine
    have hmult : rAdd ieee (r1 ieee) (rMul ieee (rLit ieee 1 100) (rOfInt ieee (50 : Nat))) = 0x3FF8000000000000 := by
      decide +kernel
    rw [if_pos (by omega), hfine, hmult]

/-- Fixed mode, no fine part and no detune: coarse 0 is 1 Hz, coarse 5 counts as 1 and is 10 Hz (R119). -/
theorem frequencyRatio_fixed (cfg : Config.Params) (op : OpPatch) (hmode : op.mode = 1) (hfine : op.fine = 0)
    (hdetune : op.detune = 7) :
    (op.coarse = 0 → frequencyRatio ieee cfg op = rMul ieee (rMul ieee (r1 ieee) (exp2 ieee cfg r0)) (r1 ieee)) ∧
      (op.coarse = 5 → frequencyRatio ieee cfg op =
        rMul ieee (rMul ieee (r1 ieee) (exp2 ieee cfg (rDiv ieee 0x4043EE978D4FDF3B 0x4028000000000000)))
          (r1 ieee)) := by
  rw [frequencyRatio_fixedMode cfg op hmode hdetune, hfine]
  constructor
  · intro hcoarse
    have hbase : rAdd ieee (rMul ieee (rOfInt ieee ((0 &&& 3) * 100 + 0 : Nat)) (rLit ieee 39864 100000)) r0 = r0 := by
      decide +kernel
    rw [hcoarse, hbase, semitonesToRatioSafe_zero]
  · intro hcoarse
    have hbase : rAdd ieee (rMul ieee (rOfInt ieee ((5 &&& 3) * 100 + 0 : Nat)) (rLit ieee 39864 100000)) r0 =
        0x4043EE978D4FDF3B := by decide +kernel
    rw [hcoarse, hbase, semitonesToRatioSafe_within cfg _ (by decide +kernel) (by decide +kernel)]

/-! ### The cube-root table and the velocity (R120, R128) -/

/-- Entries 1 to 15 are cube roots but for their rounding, whatever the open table holds (log 4). -/
theorem lutCubeRoot_allowed (cfg : Config.Params) (i : Nat) (h1 : 1 ≤ i) (h15 : i ≤ 15) :
    cubeRootAllowed ieee i (lutCubeRoot ieee cfg i) = true := by
  rw [lutCubeRoot, if_neg (by omega), if_neg (by omega)]
  split
  · assumption
  · exact cubeRootNearest_allowed i h1 h15

/-- What is above 0.0 has a clear sign bit. -/
theorem rSign_of_rLt_zero (y : RealBits) (h : rLt ieee r0 y = true) : rSign ieee y = false := by
  have hkey : (0 : Int) < rKey ieee y := by
    simp only [rLt, Bool.and_eq_true, decide_eq_true_eq] at h
    exact h.2
  cases hs : rSign ieee y with
  | false => rfl
  | true =>
    simp only [rKey, hs, signed, if_true] at hkey
    omega

/-- Above 0.0 and not finite is the encoding of +infinity. -/
theorem eq_rInf_of_rLt_zero (y : RealBits) (h : rLt ieee r0 y = true) (hfin : rIsFinite ieee y = false) :
    y = rInf ieee false := by
  have hnan : rIsNaN ieee y = false := by
    simp only [rLt, Bool.and_eq_true, Bool.not_eq_true'] at h
    exact h.1.2
  have hsign := rSign_of_rLt_zero y h
  simp only [rIsNaN_eq, decide_eq_false_iff_not] at hnan
  simp only [rIsFinite_eq, decide_eq_false_iff_not] at hfin
  have hbits : rMag ieee y = y := by
    simp only [rSign, fmtSign, decide_eq_false_iff_not, not_le] at hsign
    exact if_pos hsign
  calc y = rMag ieee y := hbits.symm
    _ = 0x7FF0000000000000 := by omega
    _ = rInf ieee false := by decide

/-- An admitted cube root is above 0.0. -/
theorem cubeRootAllowed_pos (fm : Formats) (i : Nat) (y : RealBits) (h : cubeRootAllowed fm i y = true) :
    rLt fm r0 y = true := by
  rw [cubeRootAllowed, Bool.and_eq_true] at h
  exact h.1

/-- An admitted cube root is a positive finite number: the number next below +infinity is not below the root. -/
theorem cubeRootAllowed_finite (i : Nat) (hi : i ≤ 15) (y : RealBits) (h : cubeRootAllowed ieee i y = true) :
    rIsFinite ieee y = true ∧ rSign ieee y = false := by
  have hpos := cubeRootAllowed_pos ieee i y h
  refine ⟨?_, rSign_of_rLt_zero y hpos⟩
  by_contra hfin
  have hinf : ∀ k < 16, cubeRootAllowed ieee k (rInf ieee false) = false := by decide +kernel
  rw [eq_rInf_of_rLt_zero y hpos (by simpa using hfin), hinf i (by omega)] at h
  exact Bool.false_ne_true h

/-- NVEL of velocity 0.0: the interpolation between entries 0 and 1 gives entry 0, whatever entry 1 is. -/
theorem normalizeVelocity_zero (cfg : Config.Params) : normalizeVelocity ieee cfg r0 = 0xC02D604189374BC7 := by
  have hx : rMul ieee r0 (rLit ieee 16 1) = r0 := by decide +kernel
  have hlow : rLe ieee (rLit ieee 16 1) r0 = false := by decide +kernel
  have hindex : (rFloor ieee r0).toNat = 0 := by decide +kernel
  have hfrac : rSub ieee r0 (rOfInt ieee ((0 : Nat) : Int)) = r0 := by decide +kernel
  have hentry : lutCubeRoot ieee cfg 0 = r0 := rfl
  obtain ⟨hfin, hsign⟩ :=
    cubeRootAllowed_finite 1 (by decide) _ (lutCubeRoot_allowed cfg 1 (by decide) (by decide))
  simp only [normalizeVelocity, hx, hlow, hindex, hfrac, hentry, if_neg Bool.false_ne_true, Nat.zero_add,
    interpolate_zero _ hfin hsign]
  decide +kernel

/-- Where v·16 reaches 16, NVEL reads entry 16, which is 1.0 whatever the open table holds (R120, R128). -/
theorem normalizeVelocity_of_rLe (fm : Formats) (cfg : Config.Params) (v : RealBits)
    (h : rLe fm (rLit fm 16 1) (rMul fm v (rLit fm 16 1)) = true) :
    normalizeVelocity fm cfg v = rMul fm (rLit fm 16 1) (rSub fm (r1 fm) (rLit fm 918 1000)) := by
  have hentry : lutCubeRoot fm cfg 16 = r1 fm := rfl
  simp only [normalizeVelocity, h, if_true, hentry]

/-- NVEL of velocity 1.0. -/
theorem normalizeVelocity_one (cfg : Config.Params) : normalizeVelocity ieee cfg (r1 ieee) = 0x3FF4FDF3B645A1C8 :=
  (normalizeVelocity_of_rLe ieee cfg _ (by decide +kernel)).trans (by decide +kernel)

/-! ### The statement -/

/-- Settles O30: each clause by its conversion's lemma. Where a conversion goes through EXP2 or a table, the lemma
computes the argument and leaves the open parameter as it is. -/
theorem conversionCorners : Obligations.ConversionCorners := by
  obtain ⟨l0, l14, l15, l19, l20, l50, l99⟩ := operatorLevel_corners
  obtain ⟨i0, i50, i99⟩ := operatorEnvelopeIncrement_corners
  obtain ⟨f0, f99⟩ := lfoFrequency_corners
  obtain ⟨d0, d99⟩ := lfoDelay_corners
  obtain ⟨p0, p18, p19, p50, p99⟩ := pitchEnvelopeLevel_corners
  obtain ⟨q0, q50, q99⟩ := pitchEnvelopeIncrement_corners
  refine ⟨l0, l14, l15, l19, l20, l50, l99, i0, i50, i99, f0, f99, d0, d99, p0, p18, p19, p50, p99, q0, q50, q99,
    keyboardScaling_curves, fun cfg => ⟨normalizeVelocity_zero cfg, normalizeVelocity_one cfg, lutCubeRoot_allowed cfg,
      rfl, rfl, ?_, ?_, rateScaling_note21 cfg, semitonesToRatioSafe_within cfg, semitonesToRatioSafe_130 cfg,
      frequencyRatio_coarse_one cfg, frequencyRatio_fixed cfg⟩⟩
  · exact rateScaling_of_exponent cfg _ _ 0 (by decide +kernel)
  · exact rateScaling_of_exponent cfg _ _ 7 (by decide +kernel)

end Sys2Proof.Machine
end

section
/-!
PROOFS. OPRESET and the sine lookups (41_sine_operator.md R141 to R146): the effect of OPRESET, the offset of a
modulation, and `sine_pm` at modulation 0 against `sine`, whose reals are dyadic fractions that no operation rounds.
-/
namespace Sys2Proof.Machine

/-! ### OPRESET -/

/-- What the instruction OPRESET runs. -/
theorem exec_opreset (k : Int) (s : State) : exec (.opreset k) s = execOpreset k s := rfl

/-- The operator indices OPRESET takes (R146). -/
theorem operatorIndexOk_iff (k : Int) : operatorIndexOk k = true ↔ 0 ≤ k ∧ k ≤ 5 := by
  simp [operatorIndexOk]

/-- OPRESET of any other index is refused (R146). -/
theorem execOpreset_refused (k : Int) (s : State) (hc : s.constructed = true) (hk : operatorIndexOk k = false) :
    execOpreset k s = .refused .operatorIndexOutOfDomain := by
  have hneed : s.needConstructed = .ok () := (needConstructed_ok s ()).2 hc
  simp only [execOpreset, hneed, hk, ok_bind, require_false, refuse_bind, finish_refuse]

/-- Settles O21: OPRESET writes one operator of the six, by the laws of `Six.set`. -/
theorem opresetResult : Obligations.OpresetResult := by
  intro k s hc
  constructor
  · intro hlo hhi
    refine ⟨_, (execOpreset_next k s _).2 ⟨hc, (operatorIndexOk_iff k).2 ⟨hlo, hhi⟩, rfl⟩, rfl, ?_, ?_⟩
    · exact Six.get_set_same _ _ _ (by omega)
    · intro j hj hne
      exact Six.get_set_other _ _ _ _ hj hne
  · intro hout
    refine execOpreset_refused k s hc (Bool.eq_false_iff.2 fun hok => ?_)
    obtain ⟨hlo, hhi⟩ := (operatorIndexOk_iff k).1 hok
    omega

/-! ### The offset of a modulation (R143) -/

/-- A 32-bit word times 64 has its low six bits 0: the wrap takes away a multiple of 64. -/
theorem toNat_mul_64_mod (w : U32) : (w * 64#32).toNat % 64 = 0 := by
  rw [BitVec.toNat_mul, show (64#32).toNat = 64 from rfl]
  omega

/-- Modulation 0 has offset 0. -/
theorem pmOffset_zero : pmOffset ieee r0 = 0#32 := by decide +kernel

/-- Settles O29: an offset is a word times 64, and the worked offsets are computed. -/
theorem pmOffsetIsAMultipleOf64 : Obligations.PmOffsetIsAMultipleOf64 :=
  ⟨fun _ _ => toNat_mul_64_mod _, pmOffset_zero, by decide +kernel, by decide +kernel, by decide +kernel,
    by decide +kernel, by decide +kernel⟩

/-! ### Dyadic fractions

A real `m · 2^e` with `m` below 2^53 and `e` in the middle of the exponent range is exact, and so are its product and
quotient with a power of two, its floor, and its difference from one of the same unit. -/

/-- The number `m · 2^e` as a real. -/
def dyadic (m : Nat) (e : Int) : RealBits := rPack ieee false m e

/-- Packing sees the number, not how it is written. -/
theorem rPack_eq_dyadic (n m k : Nat) (f e : Int) (hn : n = m * 2 ^ k) (hf : f = e - k) :
    rPack ieee false n f = dyadic m e := by
  simp only [dyadic, rPack_eq, hn, hf, roundMag_shift]

/-- Zero is 0.0 in every unit. -/
theorem dyadic_zero (e : Int) : dyadic 0 e = r0 := by
  simp [dyadic, rPack_eq, roundMag, rEncode, fmtEncode, r0]

/-- A number below 2^53 is a real at every such exponent, written with some number of further fraction bits. -/
theorem rExact_dyadic (m : Nat) (e : Int) (hm : m < 2 ^ 53) (hlo : -1022 ≤ e) (hhi : e ≤ 970) :
    ∃ j : Nat, rExact ieee (dyadic m e) = .fin false (m * 2 ^ j) (e - j) := by
  by_cases h0 : m = 0
  · subst h0
    refine ⟨(e + 1074).toNat, ?_⟩
    rw [dyadic_zero, Nat.zero_mul, show e - ((e + 1074).toNat : Int) = -1074 by omega]
    decide
  · have hlog : Nat.log2 m < 53 := (Nat.log2_lt h0).2 hm
    refine ⟨52 - Nat.log2 m, ?_⟩
    rw [dyadic, rExact_rPack_of_fits false m e h0 (by omega) (by omega) (by omega),
      show e + (Nat.log2 m : Int) - 52 = e - ((52 - Nat.log2 m : Nat) : Int) by omega]

/-- A power of two as a real has its one at bit 52. -/
theorem rExact_two_pow (d : Int) (hlo : -1022 ≤ d) (hhi : d ≤ 970) :
    rExact ieee (dyadic 1 d) = .fin false (2 ^ 52) (d - 52) := by
  have hlog : Nat.log2 1 = 0 := by decide
  rw [dyadic, rExact_rPack_of_fits false 1 d one_ne_zero (by omega) (by omega) (by omega), hlog]
  simp

/-- A natural number as a real. -/
theorem rOfInt_natCast (n : Nat) : rOfInt ieee n = dyadic n 0 := by
  rw [rOfInt, decide_eq_false (by omega), Int.natAbs_natCast, dyadic]

/-- Times a power of two. -/
theorem rMul_two_pow (m : Nat) (e d : Int) (hm : m < 2 ^ 53) (he : -1022 ≤ e ∧ e ≤ 970)
    (hd : -1022 ≤ d ∧ d ≤ 970) :
    rMul ieee (dyadic m e) (dyadic 1 d) = dyadic m (e + d) := by
  obtain ⟨j, hj⟩ := rExact_dyadic m e hm he.1 he.2
  simp only [rMul, hj, rExact_two_pow d hd.1 hd.2, Bool.xor_false]
  exact rPack_eq_dyadic _ m (j + 52) _ _ (by ring) (by push_cast; ring)

/-- Divided by a power of two: the quotient leaves no remainder. -/
theorem rDiv_two_pow (m : Nat) (e d : Int) (hm : m < 2 ^ 53) (he : -1022 ≤ e ∧ e ≤ 970)
    (hd : -1022 ≤ d ∧ d ≤ 970) :
    rDiv ieee (dyadic m e) (dyadic 1 d) = dyadic m (e - d) := by
  obtain ⟨j, hj⟩ := rExact_dyadic m e hm he.1 he.2
  have hk : ieee.real.precision + 3 + Nat.log2 (2 ^ 52) = 56 + 52 := by rw [Nat.log2_two_pow]; rfl
  have hnum : (m * 2 ^ j) <<< (56 + 52) = m * 2 ^ (j + 56) * 2 ^ 52 := by rw [Nat.shiftLeft_eq]; ring
  simp only [rDiv, hj, rExact_two_pow d hd.1 hd.2, hk, hnum, Nat.mul_mod_left,
    Nat.mul_div_cancel _ (Nat.two_pow_pos 52), if_neg (Nat.two_pow_pos 52).ne', if_true, Bool.xor_false]
  exact rPack_eq_dyadic _ m (j + 57) _ _ (by ring) (by push_cast; ring)

/-- The floor is the quotient by the unit. -/
theorem rFloor_dyadic (m k : Nat) (hm : m < 2 ^ 53) (hk : k ≤ 1022) :
    rFloor ieee (dyadic m (-k)) = ((m / 2 ^ k : Nat) : Int) := by
  obtain ⟨j, hj⟩ := rExact_dyadic m (-k) hm (by omega) (by omega)
  simp only [rFloor, hj, signed, Bool.false_eq_true, if_false]
  split
  · obtain ⟨rfl, rfl⟩ : k = 0 ∧ j = 0 := by omega
    simp
  · rw [show (-(-(k : Int) - j)).toNat = k + j by omega, pow_add, ← Int.natCast_ediv,
      Nat.mul_div_mul_right _ _ (Nat.two_pow_pos j)]

/-- Negation flips the sign of what a finite encoding stands for. -/
theorem rExact_rNeg (x : RealBits) (s : Bool) (m : Nat) (e : Int) (h : rExact ieee x = .fin s m e) :
    rExact ieee (rNeg ieee x) = .fin (!s) m e := by
  have hs : rSign ieee x = s := by
    rcases rExact_sign x with g | g | ⟨_, _, g⟩ <;> rw [h] at g <;> cases g; rfl
  have hfin : rIsFinite ieee (rNeg ieee x) = true := by
    simpa only [rIsFinite_eq, rMag_rNeg] using rIsFinite_of_rExact x s m e h
  obtain ⟨n, f, hn, -⟩ := rExact_fin _ hfin
  obtain ⟨rfl, rfl⟩ := rExact_inj _ _ _ _ _ _ _ _ hn h (rMag_rNeg x)
  rw [hn, rSign_rNeg, hs]

/-- The difference of two multiples of one unit, the second not above the first: equal numbers give +0.0. -/
theorem rSub_dyadic (a b : Nat) (e : Int) (hba : b ≤ a) (ha : a < 2 ^ 53) (hlo : -1022 ≤ e) (hhi : e ≤ 970) :
    rSub ieee (dyadic a e) (dyadic b e) = dyadic (a - b) e := by
  obtain ⟨i, hi⟩ := rExact_dyadic a e ha hlo hhi
  obtain ⟨j, hj⟩ := rExact_dyadic b e (by omega) hlo hhi
  have hneg := rExact_rNeg _ _ _ _ hj
  obtain ⟨g, hg⟩ : ∃ g : Nat, min (e - i) (e - j) = e - g := ⟨max i j, by omega⟩
  have hscale : ∀ m k : Nat, k ≤ g → (m * 2 ^ k) <<< (e - k - (e - g)).toNat = m * 2 ^ g := by
    intro m k hk
    rw [Nat.shiftLeft_eq, Nat.mul_assoc, ← pow_add]
    congr 2; omega
  have hsum : signed false (a * 2 ^ g) + signed true (b * 2 ^ g) = ((a - b) * 2 ^ g : Nat) := by
    simp only [signed, Bool.false_eq_true, if_false, if_true]
    push_cast [hba]; ring
  simp only [rSub, rAdd, hi, hneg, Bool.not_false, hg, hscale a i (by omega), hscale b j (by omega), hsum]
  rw [decide_eq_false (by omega), Int.natAbs_natCast, rPack_eq_dyadic _ (a - b) g _ e rfl rfl]
  split
  · rename_i hz
    have hab : a - b = 0 :=
      (Nat.mul_eq_zero.1 (Int.natCast_eq_zero.1 hz)).resolve_right (Nat.two_pow_pos g).ne'
    rw [hab, dyadic_zero]
    rfl
  · rfl

/-! ### `sine_pm` at modulation 0 (R145) -/

/-- `sine_pm` at modulation 0 reads the entry the high nine bits select, at the fraction of the low 23. -/
theorem sinePm_zero (phase : U32) :
    sinePm ieee phase r0 = sineBetween ieee (phase.toNat / 2 ^ 23) (dyadic (phase.toNat % 2 ^ 23) (-23)) := by
  have hlit : rLit ieee 8388608 1 = dyadic 1 23 := by decide +kernel
  have hlow : phase.toNat % 2 ^ 23 < 2 ^ 23 := Nat.mod_lt _ (by norm_num)
  simp only [sinePm, pmOffset_zero, BitVec.add_zero, hlit, rOfInt_natCast]
  rw [rDiv_two_pow _ _ _ (by omega) (by omega) (by omega)]
  rfl

/-- `sine` at a phase of `n` parts in 2^32 reads the entry `n / 2^23`, at the fraction the remainder is of 2^23. -/
theorem sine_dyadic (n : Nat) (hn : n < 2 ^ 32) :
    sine ieee (dyadic n (-32)) = sineBetween ieee (n / 2 ^ 23) (dyadic (n % 2 ^ 23) (-23)) := by
  have hlit : rLit ieee 512 1 = dyadic 1 9 := by decide +kernel
  have hwrap : rSub ieee (dyadic n (-32)) (rOfInt ieee (rFloor ieee (dyadic n (-32)))) = dyadic n (-32) := by
    have hfloor : rFloor ieee (dyadic n (-32)) = ((0 : Nat) : Int) := by
      have h := rFloor_dyadic n 32 (by omega) (by omega)
      rwa [Nat.div_eq_of_lt hn] at h
    rw [hfloor, rOfInt_natCast, dyadic_zero, ← dyadic_zero (-32),
      rSub_dyadic n 0 _ (Nat.zero_le _) (by omega) (by omega) (by omega), Nat.sub_zero]
  have hscaled : rMul ieee (dyadic n (-32)) (dyadic 1 9) = dyadic n (-23) :=
    rMul_two_pow n _ _ (by omega) (by omega) (by omega)
  have hentry : rFloor ieee (dyadic n (-23)) = ((n / 2 ^ 23 : Nat) : Int) := rFloor_dyadic n 23 (by omega) (by omega)
  have hfrac : rSub ieee (dyadic n (-23)) (rOfInt ieee ((n / 2 ^ 23 : Nat) : Int)) = dyadic (n % 2 ^ 23) (-23) := by
    have hunit : dyadic (n / 2 ^ 23) 0 = dyadic (n / 2 ^ 23 * 2 ^ 23) (-23) :=
      (rPack_eq_dyadic _ (n / 2 ^ 23) 23 _ 0 rfl rfl).symm
    rw [rOfInt_natCast, hunit,
      rSub_dyadic _ _ _ (Nat.div_mul_le_self _ _) (by omega) (by omega) (by omega)]
    congr 1
    omega
  have hindex : (((n / 2 ^ 23 : Nat) : Int) % 512).toNat = n / 2 ^ 23 := by omega
  simp only [sine, hlit, hwrap, hscaled, hentry, hfrac, hindex]

/-- Settles O28: both lookups interpolate after the same entry at the same fraction, for every step from the phase to
the fraction is exact. -/
theorem sinePmAtZeroIsSine : Obligations.SinePmAtZeroIsSine := by
  intro phase
  have hlit : rLit ieee 4294967296 1 = dyadic 1 32 := by decide +kernel
  have hphase : rDiv ieee (rOfInt ieee phase.toNat) (rLit ieee 4294967296 1) = dyadic phase.toNat (-32) := by
    rw [hlit, rOfInt_natCast, rDiv_two_pow _ _ _ (by have := phase.isLt; omega) (by omega) (by omega)]
    rfl
  rw [sinePm_zero, hphase, sine_dyadic _ phase.isLt]

end Sys2Proof.Machine
end

section
/-!
PROOFS. The chain renderer (42_chain_renderer.md R150 to R165): the specializations with no modulation and with feedback
in closed form, the range of the phase increment (R153), and the calls of a compiled plan (43_algorithm_router.md R176).
-/
namespace Sys2Proof.Machine

/-! ### Calls without modulation and calls modulated by their own history -/

/-- A call of one operator with no modulation, replacing or adding (R158, R159). -/
theorem chainCall_unmodulated (add : Bool) (first : Fin 6) (inp out : Slot) (s : State) (c : RenderCtx)
    (hin : s.inRender c first 1) (hout : add = true → s.blockWritten out c.block) :
    ∃ t, finish (chainCall Config.bmax 1 .none add first inp out s) = .next t ∧ chainFrame s t c first 1 out ∧
      t.ops.get first = opAfter s c first ∧ t.fb0 = s.fb0 ∧ t.fb1 = s.fb1 ∧
      ∀ i < c.block, ∀ v, (add = true → s.sample out.toNat i = some v) →
        t.sample out.toNat i = some (storedAt s.formats add v (opOut s c first i r0)) := by
  have hscale : chainScale .none s = .ok r0 := (chainScale_ok _ _ _).2 (.inr ⟨rfl, rfl⟩)
  obtain ⟨t, hcall, hframe, hops, -, hsample, -⟩ := chainCall_completes 1 .none add first inp out s c r0 (le_refl 1)
    (by omega) rfl hin hscale nofun hout
  obtain ⟨hfb0, hfb1⟩ := chainCall_history _ _ _ _ _ _ s t rfl hcall
  refine ⟨t, (finish_next _ _).2 hcall, hframe, hops first (le_refl _) (by omega), hfb0, hfb1, fun i hi v hv => ?_⟩
  rw [hsample i hi 0 v nofun hv, sampleOut_one]
  rfl

/-- Settles O31: both specializations are one call, replacing or adding. -/
theorem ch1NoneResult : Obligations.Ch1NoneResult := by
  intro first inp out s c fm hin
  constructor
  · obtain ⟨t, hexec, hframe, hop, hfb0, hfb1, hsample⟩ := chainCall_unmodulated false first inp out s c hin nofun
    exact ⟨t, hexec, hframe, hop, hfb0, hfb1, fun i hi => hsample i hi 0 nofun⟩
  · intro hout
    obtain ⟨t, hexec, hframe, hop, hfb0, hfb1, hsample⟩ :=
      chainCall_unmodulated true first inp out s c hin fun _ => hout
    exact ⟨t, hexec, hframe, hop, hfb0, hfb1, fun i hi v hv => hsample i hi v fun _ => hv⟩

/-- The feedback scale as R154 writes it, of the patch that is loaded. -/
theorem chainScale_feedback (k : Nat) (s : State) (p : Patch) (hp : s.patch = some p) :
    chainScale (.feedback k) s =
      .ok (if p.fb = 0 then r0 else rDiv s.formats (rOfInt s.formats (2 ^ p.fb)) (rLit s.formats 512 1)) :=
  (chainScale_ok _ _ _).2 (.inl ⟨rfl, p, hp, (fbScale_eq p.fb).symm⟩)

/-- A feedback call of `k + 1` operators, the last of them its tap, replacing or adding (R162 to R165): `y` is what the
operators in series give in a sample, and the seed and the history are those of `histAt` for it. -/
theorem chainCall_feedback (k : Nat) (add : Bool) (first : Nat) (inp out : Slot) (s : State) (c : RenderCtx)
    (scale : RealBits) (y : Nat → RealBits → RealBits) (hfit : first + (k + 1) ≤ 6) (hin : s.inRender c first (k + 1))
    (hscale : chainScale (.feedback k) s = .ok scale) (hout : add = true → s.blockWritten out c.block)
    (hy : lanesOut s.formats (chainLanes s.formats s.ops c first (k + 1)) = y) :
    ∃ t, finish (chainCall Config.bmax (k + 1) (.feedback k) add first inp out s) = .next t ∧
      chainFrame s t c first (k + 1) out ∧
      (∀ j, first ≤ j → j < first + (k + 1) → t.ops.get j = opAfter s c j) ∧
      t.fb0 = (histAt s.formats y scale s.fb0 s.fb1 c.block).1 ∧
      t.fb1 = (histAt s.formats y scale s.fb0 s.fb1 c.block).2 ∧
      ∀ i < c.block, ∀ v, (add = true → s.sample out.toNat i = some v) →
        t.sample out.toNat i = some (storedAt s.formats add v (y i (rMul s.formats
          (rAdd s.formats (histAt s.formats y scale s.fb0 s.fb1 i).1 (histAt s.formats y scale s.fb0 s.fb1 i).2)
          scale))) := by
  obtain ⟨t, hcall, hframe, hops, hhist, hsample, -⟩ := chainCall_completes (k + 1) (.feedback k) add first inp out s c
    scale (Nat.le_add_left 1 k) hfit (decide_eq_true rfl) hin hscale nofun hout
  rw [historyAt_feedback, hy, Prod.ext_iff] at hhist
  obtain ⟨hfb0, hfb1⟩ := hhist
  refine ⟨t, (finish_next _ _).2 hcall, hframe, hops, hfb0, hfb1, fun i hi v hv => ?_⟩
  rw [hsample i hi 0 v nofun hv, sampleOut, historyAt_feedback, hy]
  rfl

/-- Settles O33: both specializations are one feedback call of one operator, replacing or adding. -/
theorem ch1FbResult : Obligations.Ch1FbResult := by
  intro first inp out s c p fm hin hp scale y h x
  have hcall := fun add => chainCall_feedback 0 add first inp out s c scale y (by omega) hin
    (chainScale_feedback 0 s p hp) (hy := rfl)
  constructor
  · obtain ⟨t, hexec, hframe, hops, hfb0, hfb1, hsample⟩ := hcall false nofun
    exact ⟨t, hexec, hframe, hops _ (by omega) (by omega), hfb0, hfb1, fun i hi => hsample i hi 0 nofun⟩
  · intro hout
    obtain ⟨t, hexec, hframe, hops, hfb0, hfb1, hsample⟩ := hcall true fun _ => hout
    exact ⟨t, hexec, hframe, hops _ (by omega) (by omega), hfb0, hfb1, fun i hi v hv => hsample i hi v fun _ => hv⟩

/-- Settles O34: a feedback call of two operators, the first modulating the second. -/
theorem ch2FbResult : Obligations.Ch2FbResult := by
  intro first inp out s c p fm hfit hin hp hout scale y h
  obtain ⟨t, hexec, hframe, hops, hfb0, hfb1, hsample⟩ := chainCall_feedback 1 true first inp out s c scale y hfit hin
    (chainScale_feedback 1 s p hp) (fun _ => hout) rfl
  exact ⟨t, hexec, hframe, hops _ (by omega) (by omega), hops _ (by omega) (by omega), hfb0, hfb1,
    fun i hi v hv => hsample i hi v fun _ => hv⟩

/-- Settles O35: a feedback call of three operators, each modulating the next. -/
theorem ch3FbResult : Obligations.Ch3FbResult := by
  intro first inp out s c p fm hfit hin hp hout scale y h
  obtain ⟨t, hexec, hframe, hops, hfb0, hfb1, hsample⟩ := chainCall_feedback 2 true first inp out s c scale y hfit hin
    (chainScale_feedback 2 s p hp) (fun _ => hout) rfl
  exact ⟨t, hexec, hframe, hops _ (by omega) (by omega), hops _ (by omega) (by omega), hops _ (by omega) (by omega),
    hfb0, hfb1, fun i hi v hv => hsample i hi v fun _ => hv⟩

/-! ### The phase increment (R153) -/

/-- The product of 2^32 and a target clamped at 0.5 is no greater than 2^31: rounding is monotone (R152, R153). -/
theorem rMag_scaled_le (g : RealBits) (hg : rMag ieee g ≤ rMag ieee (rHalf ieee)) :
    rMag ieee (rMul ieee g (rLit ieee 4294967296 1)) ≤ roundMag 53 (-1074) (2 ^ 31) 0 := by
  have hhalf : rMag ieee (rHalf ieee) = 1022 * 2 ^ 52 := by decide
  have hlit : rExact ieee (rLit ieee 4294967296 1) = .fin false (2 ^ 52) (-20) := by decide +kernel
  obtain ⟨m, e, hm, hbound⟩ : ∃ m e, rExact ieee g = .fin (rSign ieee g) m e ∧
      (m ≤ 2 ^ 52 ∧ e ≤ -53 ∨ m ≤ 2 ^ 53 ∧ e ≤ -54) := by
    rw [rExact_eq, if_neg (by omega)]
    split
    · exact ⟨_, _, rfl, by omega⟩
    · exact ⟨_, _, rfl, by omega⟩
  obtain ⟨j, hj⟩ : ∃ j : Nat, e = -(j : Int) - 53 := ⟨(-e - 53).toNat, by omega⟩
  have hunits : m * 2 ^ 52 ≤ 2 ^ 31 * 2 ^ (j + 73) := by
    have hpow : 2 ^ 31 * 2 ^ (j + 73) = 2 ^ j * 2 ^ 52 * 2 ^ 52 := by ring
    have hmj : m ≤ 2 ^ j * 2 ^ 52 := by
      rcases hbound with ⟨hm, -⟩ | ⟨hm, he⟩
      · exact hm.trans (Nat.le_mul_of_pos_left _ (Nat.two_pow_pos j))
      · have htwo : 2 ^ 1 ≤ 2 ^ j := Nat.pow_le_pow_right (by norm_num) (by omega)
        omega
    rw [hpow]
    exact Nat.mul_le_mul_right _ hmj
  simp only [rMul, hm, hlit, (rPack_mag _ _ _).1]
  calc min (roundMag 53 (-1074) (m * 2 ^ 52) (e + -20)) 0x7FF0000000000000
      ≤ roundMag 53 (-1074) (m * 2 ^ 52) (e + -20) := min_le_left _ _
    _ ≤ roundMag 53 (-1074) (2 ^ 31 * 2 ^ (j + 73)) (e + -20) := roundMag_mono _ _ _ _ _ (by norm_num) hunits
    _ = roundMag 53 (-1074) (2 ^ 31) 0 := by
      rw [← roundMag_shift 53 (-1074) (2 ^ 31) (j + 73) 0]
      congr 1
      omega

/-- The floor of a finite number that is not below 0.0 is a natural number. -/
theorem rFloor_nonneg (x : RealBits) (hx : rLt ieee x r0 = false) (hf : rIsFinite ieee x = true) :
    0 ≤ rFloor ieee x := by
  obtain ⟨m, e, h, -, hz⟩ := rExact_fin x hf
  have hs : rSign ieee x = false ∨ m = 0 := by
    rcases (rLt_zero_iff x).1 hx with hn | hs | hmag
    · rw [rIsNaN_of_finite x hf] at hn; cases hn
    · exact .inl hs
    · exact .inr (hz.2 hmag)
  simp only [rFloor, h, signed_of_nonneg _ _ hs]
  split
  · rw [signed_of_nonneg _ _ (hs.imp_right fun h0 => by rw [h0, Nat.zero_shiftLeft])]
    exact Int.natCast_nonneg _
  · exact Int.ediv_nonneg (Int.natCast_nonneg _) (Int.natCast_nonneg _)

/-- A signed integer is no greater than its magnitude. -/
theorem signed_le (neg : Bool) (m : Nat) : signed neg m ≤ m := by
  unfold signed
  split <;> omega

/-- The floor of a number whose magnitude is that of 2^31 or less: the next integer is a greater real. -/
theorem rFloor_le_two_pow_31 (x : RealBits) (hx : rLt ieee x r0 = false)
    (hmag : rMag ieee x ≤ roundMag 53 (-1074) (2 ^ 31) 0) : rFloor ieee x ≤ 2 ^ 31 := by
  have hstep : roundMag 53 (-1074) (2 ^ 31) 0 < roundMag 53 (-1074) (2 ^ 31 + 1) 0 ∧
      roundMag 53 (-1074) (2 ^ 31) 0 < 0x7FF0000000000000 := by decide
  obtain ⟨hnext, hinf⟩ := hstep
  have hf : rIsFinite ieee x = true := by rw [rIsFinite_eq]; exact decide_eq_true (by omega)
  by_contra hgt
  obtain ⟨k, hk⟩ := Int.eq_ofNat_of_zero_le (rFloor_nonneg x hx hf)
  have hmono : roundMag 53 (-1074) (2 ^ 31 + 1) 0 ≤ roundMag 53 (-1074) k 0 :=
    roundMag_mono _ _ _ _ _ (by norm_num) (by omega)
  have hle := rOfInt_rFloor_le x hx hf
  rw [hk, rOfInt_natCast, dyadic] at hle
  obtain ⟨hkmag, hksign⟩ := rPack_mag false k 0
  simp only [rLe, Bool.and_eq_true, decide_eq_true_eq, rKey, hkmag, hksign] at hle
  obtain ⟨-, hkey⟩ := hle
  have hbound : ((min (roundMag 53 (-1074) k 0) 0x7FF0000000000000 : Nat) : Int) ≤ rMag ieee x :=
    hkey.trans (signed_le _ _)
  omega

/-- A target the renderer takes, clamped at 0.5, is a number from 0.0 to 0.5 (R151, R152). -/
theorem clampedFreq_range (f : RealBits) (h : callFreqOk ieee f = true) :
    rLt ieee (rMin ieee f (rHalf ieee)) r0 = false ∧
      rMag ieee (rMin ieee f (rHalf ieee)) ≤ rMag ieee (rHalf ieee) := by
  simp only [callFreqOk, Bool.and_eq_true, Bool.not_eq_true'] at h
  obtain ⟨hn, h0⟩ := h
  have hhalf : rIsNaN ieee (rHalf ieee) = false ∧ rLt ieee (rHalf ieee) r0 = false ∧
      rKey ieee (rHalf ieee) = rMag ieee (rHalf ieee) ∧ rSign ieee (rHalf ieee) = false := by decide
  obtain ⟨hhn, hh0, hkey, hsign⟩ := hhalf
  have hfmag : rKey ieee f ≤ rKey ieee (rHalf ieee) → rMag ieee f ≤ rMag ieee (rHalf ieee) := by
    intro hle
    have hs : rSign ieee f = false ∨ rMag ieee f = 0 := by
      simpa [hn] using (rLt_zero_iff f).1 h0
    rw [hkey, rKey, signed_of_nonneg _ _ hs] at hle
    omega
  simp only [rMin, hn, hhn, Bool.or_self, Bool.false_eq_true, if_false]
  split
  · exact ⟨hh0, le_refl _⟩
  · have hle : rMag ieee f ≤ rMag ieee (rHalf ieee) := hfmag (by omega)
    split
    · exact ⟨h0, hle⟩
    · split
      · exact ⟨h0, hle⟩
      · exact ⟨hh0, le_refl _⟩

/-- Settles O37: the product's floor is a natural number up to 2^31, so it is its own u32. -/
theorem incrementIsAtMostHalfACycle : Obligations.IncrementIsAtMostHalfACycle := by
  intro f hf
  obtain ⟨h0, hmag⟩ := clampedFreq_range f hf
  have hlit : rLt ieee (rLit ieee 4294967296 1) r0 = false := rLt_zero_of_sign _ (rLit_sign _ _)
  have hx := rMul_notNeg _ _ h0 hlit
  have hle := rMag_scaled_le _ hmag
  have hlt : roundMag 53 (-1074) (2 ^ 31) 0 < 0x7FF0000000000000 := by decide
  have hlow := rFloor_nonneg _ hx (by rw [rIsFinite_eq]; exact decide_eq_true (by omega))
  have hhigh := rFloor_le_two_pow_31 _ hx hle
  refine ⟨hlow, hhigh, ?_⟩
  rw [incOf, rTruncU32, BitVec.toNat_ofInt]
  omega

/-! ### The calls of a plan (R176, R150) -/

/-- An opcode of a row from an index on. -/
theorem Six.toList_drop_getElem? {α : Type} (x : Six α) (i j : Nat) (h : i + j < 6) :
    (x.toList.drop i)[j]? = some (x.get (i + j)) := by
  rw [List.getElem?_drop, ← Nat.add_zero (i + j), ← List.getElem?_drop, Six.toList_drop x _ h]
  rfl

/-- The opcodes of a call, by their places in the row. -/
theorem chain_getElem? (row : Six Byte) (first n j : Nat) (hj : j < n) (hfit : first + n ≤ 6) :
    ((row.toList.drop first).take n)[j]? = some (row.get (first + j)) := by
  rw [List.getElem?_take_of_lt hj]
  exact Six.toList_drop_getElem? row first j (by omega)

/-- A call of a plan is the call of its own opcodes, which are its part of the row. -/
theorem compile_mem_callOf (row : Six Byte) (plan : List Call) (c : Call) (h : compile row = some plan)
    (hc : c ∈ plan) :
    ∃ rest src, chainSource (row.get c.first :: rest) = some src ∧
      specOf c.n src c.add = some c.spec ∧ c.inp = opcodeSrc (row.get c.first) ∧
      c.add = opcodeAdd (row.get (c.first + c.n - 1)) ∧ c.out = opcodeDst (row.get (c.first + c.n - 1)) ∧
      ∀ j, (row.get c.first :: rest)[j]? = if j < c.n then some (row.get (c.first + j)) else none := by
  obtain ⟨-, hpos, hfit, -, hat⟩ := compile_mem row plan h c hc
  obtain ⟨-, -, hcall, -⟩ := callAt_eq_some _ _ _ hat
  obtain ⟨o, rest, src, hchain, hsrc, -, hlen, hspec, hadd, hinp, hout⟩ := callOf_eq_some _ _ _ hcall
  have hget := fun j hj => chain_getElem? row c.first c.n j hj hfit
  rw [hchain] at hsrc hlen hadd hout hget
  obtain rfl : o = row.get c.first := by simpa using hget 0 hpos
  have hlast : (row.get c.first :: rest).getLastD (row.get c.first) = row.get (c.first + c.n - 1) := by
    rw [List.getLastD_eq_getLast?, List.getLast?_eq_getElem?, ← hlen, hget _ (by omega), Option.getD_some]
    congr 1
    omega
  rw [hlast] at hadd hout
  refine ⟨rest, src, hsrc, hspec, hinp, hadd, hout, fun j => ?_⟩
  split
  · exact hget j ‹_›
  · exact List.getElem?_eq_none (by omega)

/-- The source of a chain that starts with OPN (R173). -/
theorem chainSource_none (o : Byte) (rest : List Byte) (h : opcodeSrc o = 0#2) :
    chainSource (o :: rest) = some .none := by
  simp only [chainSource, h, if_true]

/-- The source of a chain that starts with OPX1 or OPX2 (R174). -/
theorem chainSource_external (o : Byte) (rest : List Byte) (h : opcodeSrc o = 1#2 ∨ opcodeSrc o = 2#2) :
    chainSource (o :: rest) = some .external := by
  rcases h with h | h <;> simp [chainSource, h]

/-- The source of a chain that starts with OPF is FEEDBACK at one of its taps (R175). -/
theorem chainSource_feedback (o : Byte) (rest : List Byte) (src : Source) (h : opcodeSrc o = 3#2)
    (hsrc : chainSource (o :: rest) = some src) :
    ∃ j x, src = .feedback j ∧ (o :: rest)[j]? = some x ∧ opcodeTap x = true := by
  simp only [chainSource, h] at hsrc
  rw [if_neg (by decide), if_neg (by decide)] at hsrc
  obtain ⟨j, hj, rfl⟩ := Option.map_eq_some_iff.1 hsrc
  rcases lastTap_spec _ _ _ _ hj with hnone | ⟨i, x, rfl, hx, htap⟩
  · cases hnone
  · exact ⟨_, x, rfl, by simpa using hx, htap⟩

/-- A specialization of more than one operator is an adding feedback chain whose tap is its last operator (R150). -/
theorem ChainSpec.of_one_lt_len (x : ChainSpec) (h : 1 < x.len) :
    x.src = .feedback (x.len - 1) ∧ x.adds = true := by
  cases x with
  | ch2Fb1A => exact ⟨rfl, rfl⟩
  | ch3Fb2A => exact ⟨rfl, rfl⟩
  | _ => exact absurd h (by decide)

/-- The links of a call's opcodes, by their places in the row. -/
theorem compile_mem_links (row : Six Byte) (plan : List Call) (c : Call) (h : compile row = some plan) (hc : c ∈ plan)
    (j : Nat) (hj : j + 1 < c.n) :
    opcodeAdd (row.get (c.first + j)) = false ∧
      opcodeDst (row.get (c.first + j)) = opcodeSrc (row.get (c.first + j + 1)) := by
  obtain ⟨-, -, hfit, -, hat⟩ := compile_mem row plan h c hc
  obtain ⟨-, -, -, hlinks⟩ := callAt_eq_some _ _ _ hat
  obtain ⟨x, y, hx, hy, hadd, hdst⟩ := hlinks j hj
  rw [Six.toList_drop_getElem? row _ _ (by omega), Option.some_inj] at hx hy
  subst hx hy
  exact ⟨hadd, hdst⟩

/-- Settles O41: the source of the first opcode gives the specialization's source, and the specializations of more than
one operator are the two feedback chains. -/
theorem callsOfAPlan : Obligations.CallsOfAPlan := by
  intro row plan c h hc
  obtain ⟨-, hpos, hfit, hlen, -⟩ := compile_mem row plan h c hc
  obtain ⟨rest, src, hsrc, hspec, hinp, hadd, hout, hget⟩ := compile_mem_callOf row plan c h hc
  have hfeedback : opcodeSrc (row.get c.first) = 3#2 →
      ∃ j < c.n, opcodeTap (row.get (c.first + j)) = true ∧ src = .feedback j := by
    intro h3
    obtain ⟨j, x, hj, hx, htap⟩ := chainSource_feedback _ rest src h3 hsrc
    rw [hget] at hx
    split at hx
    · cases hx
      exact ⟨j, ‹_›, htap, hj⟩
    · cases hx
  refine ⟨hpos, hfit, hinp, hout, hadd, fun h0 => ?_, fun h12 => ?_, fun h3 => ?_, fun hlong => ?_⟩
  · rw [chainSource_none _ rest h0] at hsrc
    cases hsrc
    exact hspec
  · rw [chainSource_external _ rest h12] at hsrc
    cases hsrc
    exact hspec
  · obtain ⟨j, hj, htap, rfl⟩ := hfeedback h3
    exact ⟨j, hj, htap, hspec⟩
  · obtain ⟨-, hsrc', hadd'⟩ := (specOf_eq_some _ _ _ _).1 hspec
    obtain ⟨htapsrc, hadds⟩ := c.spec.of_one_lt_len (hlen ▸ hlong)
    rw [htapsrc, ← hlen] at hsrc'
    have h3 : opcodeSrc (row.get c.first) = 3#2 := by
      rcases source_cases (opcodeSrc (row.get c.first)) with h0 | h1 | h2 | h3
      · rw [chainSource_none _ rest h0, hsrc'] at hsrc; cases hsrc
      · rw [chainSource_external _ rest (.inl h1), hsrc'] at hsrc; cases hsrc
      · rw [chainSource_external _ rest (.inr h2), hsrc'] at hsrc; cases hsrc
      · exact h3
    obtain ⟨j, hj, htap, hjsrc⟩ := hfeedback h3
    obtain rfl : j = c.n - 1 := by rw [hsrc'] at hjsrc; cases hjsrc; rfl
    refine ⟨h3, hadd'.trans hadds, ?_, compile_mem_links row plan c h hc⟩
    rwa [Nat.add_sub_assoc hpos]

end Sys2Proof.Machine
end

section
/-!
PROOFS. No instruction faults (60_exceptions.md R287, 42_chain_renderer.md R157): only a sample that does not exist
makes a computation fault, and no block reaches one.
-/
namespace Sys2Proof.Machine

/-! ### Computations that never fault (R157, R287) -/

/-- A computation that answers or is refused. -/
structure NoFault {α : Type} (x : Run α) : Prop where
  ne_fault : ∀ r : Fault, x ≠ faultWith r

section
variable {α β : Type}

theorem NoFault.ok (a : α) : NoFault (.ok a : Run α) := ⟨nofun⟩

theorem NoFault.refuse (r : Refusal) : NoFault (refuse r : Run α) := ⟨nofun⟩

theorem NoFault.require (c : Bool) (r : Refusal) : NoFault (require c r) := by
  cases c with
  | true => exact .ok ()
  | false => exact .refuse r

theorem NoFault.written (x : Option α) (r : Refusal) : NoFault (written x r) := by
  cases x with
  | some v => exact .ok v
  | none => exact .refuse r

/-- A sequence faults only where one of its parts does. -/
theorem NoFault.bind {x : Run α} {f : α → Run β} (hx : NoFault x) (hf : ∀ a, x = .ok a → NoFault (f a)) :
    NoFault (x >>= f) := by
  cases x with
  | ok a => exact hf a rfl
  | error e => exact ⟨fun r h => hx.ne_fault r (by cases h; rfl)⟩

/-- A choice faults only where one of its branches does. -/
theorem NoFault.ite {c : Prop} [Decidable c] {x y : Run α} (hx : NoFault x) (hy : NoFault y) :
    NoFault (if c then x else y) := by
  split
  · exact hx
  · exact hy

end

/-- What ends in a fault comes from a computation that faults. -/
theorem NoFault.finish {x : Run State} (h : NoFault x) (r : Fault) : finish x ≠ .fault r :=
  fun hx => h.ne_fault r ((finish_fault x r).1 hx)

theorem needConstructed_noFault (s : State) : NoFault s.needConstructed := .require _ _

theorem needPatch_noFault (s : State) : NoFault s.needPatch := .bind (.require _ _) fun _ _ => .written _ _

/-! ### RENDER step by step -/

theorem setupWith_noFault (cfg : Config.Params) (s : State) : NoFault (setupWith cfg s) :=
  .bind (needPatch_noFault s) fun _ _ => .ite (.ok _) (.ok _)

theorem renderChecks_noFault (cfg : Config.Params) (a : RenderArgs) (s : State) : NoFault (renderChecks cfg a s) :=
  .bind (needConstructed_noFault s) fun _ _ => .bind (.require _ _) fun _ _ => .bind (.require _ _) fun _ _ =>
    .bind (needPatch_noFault s) fun _ _ => .bind (.require _ _) fun _ _ => .ok _

theorem envBlock_noFault (fm : Formats) (u : EnvUnit) (e : Env) (a : RenderArgs) (rate ad rel : RealBits) :
    NoFault (envBlock fm u e a rate ad rel) :=
  .ite
    (.bind (.bind (.written _ _) fun _ _ => .bind (.written _ _) fun _ _ => .ok _) fun _ _ => .ok _)
    (.bind (.written _ _) fun _ _ => .bind (.written _ _) fun _ _ => .ok _)

theorem opTarget_noFault (cfg : Config.Params) (b : BlockInput) (p : Patch) (s : State) (i : Nat) :
    NoFault (opTarget cfg b p s i) :=
  .bind (.written _ _) fun _ _ => .bind (.written _ _) fun _ _ => .bind (envBlock_noFault ..) fun _ _ => .ok _

theorem opTargets_noFault (cfg : Config.Params) (b : BlockInput) (p : Patch) (s : State) :
    NoFault (opTargets cfg b p s) :=
  .bind (opTarget_noFault ..) fun _ _ => .bind (opTarget_noFault ..) fun _ _ => .bind (opTarget_noFault ..) fun _ _ =>
    .bind (opTarget_noFault ..) fun _ _ => .bind (opTarget_noFault ..) fun _ _ =>
      .bind (opTarget_noFault ..) fun _ _ => .ok _

theorem renderTargets_noFault (cfg : Config.Params) (a : RenderArgs) (p : Patch) (s : State) :
    NoFault (renderTargets cfg a p s) :=
  .bind (envBlock_noFault ..) fun _ _ => .bind (.written _ _) fun _ _ => .bind (.written _ _) fun _ _ =>
    .bind (opTargets_noFault ..) fun _ _ => .ok _

/-- The block of a context in a state that meets the invariant has at most BMAX samples (R240). -/
theorem State.Inv.block_le {s : State} (h : s.Inv) (c : RenderCtx) (hrc : s.rc = some c) : c.block ≤ Config.bmax := by
  have hok := h.rc c hrc
  simp only [RenderCtx.ok, Bool.and_eq_true, decide_eq_true_eq] at hok
  exact hok.2

/-- The calls of a plan find every sample of the block: each keeps the context's block (R60, R179). -/
theorem runPlan_noFault (plan : List Call) (s : State) (c : RenderCtx) (hrc : s.rc = some c)
    (hb : c.block ≤ Config.bmax) (hplan : ∀ x ∈ plan, x.first < 6) : NoFault (runPlan plan s) := by
  induction plan generalizing s c with
  | nil => exact .ok s
  | cons x rest ih =>
    have hx := runCall_eq x s (hplan x (List.mem_cons_self ..))
    refine .bind ⟨fun r => ?_⟩ fun t ht => ?_
    · rw [hx]
      exact chainCall_no_fault _ _ _ _ _ _ s (fun d hd => by rw [hrc] at hd; cases hd; exact hb) r
    · rw [hx] at ht
      exact ih t _ (chainCall_rc _ _ _ _ _ _ s t c hrc ht) hb fun y hy => hplan y (List.mem_cons_of_mem _ hy)

/-- RENDER faults nowhere: the context it makes is of a block in range (R240). -/
theorem renderWith_noFault (cfg : Config.Params) (a : RenderArgs) (s : State) : NoFault (renderWith cfg a s) := by
  refine .bind (renderChecks_noFault ..) fun p hp => .bind (setupWith_noFault ..) fun u _ =>
    .bind (renderTargets_noFault ..) fun t ht => .bind ?_ fun _ _ => .ok _
  obtain ⟨-, hblock, -⟩ := (renderChecks_ok _ _ _ _).1 hp
  obtain ⟨_, _, _, _, _, -, -, -, -, rfl⟩ := (renderTargets_ok _ _ _ _ _).1 ht
  refine .bind (.written _ _) fun plan hplan => .bind ?_ fun _ _ => .ok _
  have hcalls := compile_mem _ plan ((written_ok _ _ _).1 hplan)
  exact runPlan_noFault plan _ _ rfl ((blockOk_iff _).1 hblock).2 fun x hx => (hcalls x hx).1

/-! ### Every instruction -/

/-- A routing opcode or a chain call is refused or is one chain call, of a block in range inside a RENDER. -/
theorem exec_inner_no_fault (i : Instr) (s : State) (h : s.Inv) (hi : (encode i).format ≠ .command) (r : Fault) :
    exec i s ≠ .fault r := by
  rcases exec_inner i s hi with ⟨q, hq⟩ | ⟨x, first, inp, out, hx⟩
  · rw [hq]; nofun
  · rw [hx]
    exact NoFault.finish ⟨chainCall_no_fault _ _ _ _ _ _ s h.block_le⟩ r

/-- No host command touches a sample but RENDER. -/
theorem exec_command_no_fault (i : Instr) (s : State) (hi : (encode i).format = .command) (r : Fault) :
    exec i s ≠ .fault r := by
  rcases command_cases i hi with ⟨sr, rfl⟩ | ⟨img, rfl⟩ | rfl | ⟨a, rfl⟩ | ⟨k, rfl⟩ | rfl | rfl | ⟨x, rfl⟩ |
    ⟨x, rfl⟩ | ⟨bank, rfl⟩
  · exact NoFault.finish (.bind (.require _ _) fun _ _ => .ok _) r
  · exact NoFault.finish (.bind (needConstructed_noFault s) fun _ _ => .ite (.ok _) (.ok _)) r
  · exact NoFault.finish (.bind (needConstructed_noFault s) fun _ _ => .bind (setupWith_noFault ..) fun _ _ => .ok _) r
  · exact NoFault.finish (renderWith_noFault _ a s) r
  · exact NoFault.finish (.bind (needConstructed_noFault s) fun _ _ => .bind (.require _ _) fun _ _ => .ok _) r
  · exact NoFault.finish (.bind (needConstructed_noFault s) fun _ _ => .bind (needPatch_noFault s) fun _ _ => .ok _) r
  · exact NoFault.finish (.bind (needConstructed_noFault s) fun _ _ => .ok _) r
  · exact NoFault.finish (.bind (needConstructed_noFault s) fun _ _ => .bind (.written _ _) fun _ _ =>
      .bind (.written _ _) fun _ _ => .bind (.written _ _) fun _ _ => .bind (.require _ _) fun _ _ => .ok _) r
  · exact NoFault.finish (.bind (needConstructed_noFault s) fun _ _ => .bind (.written _ _) fun _ _ =>
      .bind (.written _ _) fun _ _ => .bind (.written _ _) fun _ _ => .bind (.require _ _) fun _ _ => .ok _) r
  · exact NoFault.finish (.ite (.ok _) (.ite (.ok _) (.ok _))) r

/-- Settles O55: only a sample that does not exist faults, and every context is of a block in range. -/
theorem noInstructionFaults : Obligations.NoInstructionFaults := by
  intro s i r h
  by_cases hi : (encode i).format = .command
  · exact exec_command_no_fault i s hi r
  · exact exec_inner_no_fault i s h hi r

end Sys2Proof.Machine
end

section
/-!
PROOFS. The algorithm router (43_algorithm_router.md R170 to R182): what a plan covers, the rows of the ROM that runs,
the worked compilations, and the call OPF issues.
-/
namespace Sys2Proof.Machine

/-! ### What a plan covers (R180) -/

/-- The calls from router index `i` on cover the operators from `i` on, one per opcode and in order. -/
theorem compileFrom_covers (fuel i : Nat) (ops : List Byte) (plan : List Call)
    (h : compileFrom fuel i ops = some plan) :
    (plan.flatMap fun c => List.range' c.first c.n) = List.range' i ops.length := by
  induction fuel generalizing i ops plan with
  | zero =>
    cases ops with
    | nil => cases h; rfl
    | cons o rest => cases h
  | succ fuel ih =>
    cases ops with
    | nil => cases h; rfl
    | cons o rest =>
      obtain ⟨c, plan', hcall, hplan', rfl⟩ := (compileFrom_cons _ _ _ _ _).1 h
      obtain ⟨hfirst, -⟩ := callAt_first_len _ _ _ hcall
      obtain ⟨-, hlen, -⟩ := callAt_eq_some _ _ _ hcall
      rw [List.flatMap_cons, ih _ _ _ hplan', hfirst, List.length_drop, List.range'_append_1]
      congr 1
      omega

/-- Settles O40: the six opcodes of the row are covered from router index 0 on, and the sum counts what is covered. -/
theorem planCoversEachOperatorOnce : Obligations.PlanCoversEachOperatorOnce := by
  intro row plan h
  have hcovers := compileFrom_covers 6 0 row.toList plan h
  have hlength := congrArg List.length hcovers
  simp only [List.length_flatMap, List.length_range'] at hlength
  exact ⟨hcovers, hlength⟩

/-! ### The ROM that runs (R178, R181) -/

/-- The three clauses of a well-formed row (R178). -/
theorem rowWf_iff (row : Six Byte) :
    rowWf row = true ↔ row.all opcodeReservedClear = true ∧
      ∃ plan, compile row = some plan ∧ ∃ c ∈ plan, c.out = 0#2 ∧ c.add = true := by
  rw [rowWf, Bool.and_eq_true]
  refine and_congr_right fun _ => ?_
  cases compile row with
  | none => simp
  | some plan => simp [and_comm]

/-- Settles O59: every row of the ROM that runs is an admitted one, which is well formed. -/
theorem romIsAdmissible : Obligations.RomIsAdmissible := by
  refine ⟨romAdmissible_params, fun g _ => ?_, rfl, algRow_withAdmissibleRom_of_wf⟩
  have hwf := rowWf_algRow_params g
  exact ⟨hwf, (rowWf_iff _).1 hwf⟩

/-- Settles O42: the compiler evaluated on the rows of R182. -/
theorem workedCompilations : Obligations.WorkedCompilations := by
  unfold Obligations.WorkedCompilations
  decide

/-! ### The extension loop (R176) -/

/-- One opcode continues another's chain: it reads the slot the other overwrites. -/
def Continues (x y : Byte) : Prop := opcodeAdd x = false ∧ opcodeDst x = opcodeSrc y

/-- The opcodes `xs` extend the chain that starts at `first` and now ends at `prev`, and the opcode after them, if there
is one, does not read what `first` writes, so that the chain is not cut back. -/
def Extends (first prev : Byte) (xs tail : List Byte) : Prop :=
  (prev :: xs).IsChain Continues ∧ ∀ y ∈ tail.head?, opcodeSrc y ≠ opcodeDst first

/-- The loop's guard is that the next opcode does not continue the chain. -/
theorem extendChain_guard (x y : Byte) : (opcodeAdd x || opcodeDst x != opcodeSrc y) = true ↔ ¬ Continues x y := by
  cases h : opcodeAdd x <;> simp [Continues, h]

/-- The loop gives the length of an extension where it can go no further. -/
theorem extendChain_of_extends (first prev : Byte) (xs tail : List Byte) (n : Nat) (h : Extends first prev xs tail)
    (hend : opcodeAdd (xs.getLastD prev) = true) : extendChain first prev (xs ++ tail) n = n + xs.length := by
  obtain ⟨hchain, hkept⟩ := h
  induction xs generalizing prev n with
  | nil =>
    cases tail with
    | nil => rfl
    | cons y tail =>
      have hstop : ¬ Continues prev y := fun hc => by rw [List.getLastD_nil, hc.1] at hend; cases hend
      rw [List.nil_append, extendChain, if_pos ((extendChain_guard _ _).2 hstop), if_neg (hkept y rfl)]
      rfl
  | cons x xs ih =>
    obtain ⟨hx, hxs⟩ := List.isChain_cons_cons.1 hchain
    rw [List.cons_append, extendChain, if_neg (mt (extendChain_guard _ _).1 (not_not.2 hx)),
      ih x (n + 1) (by rwa [List.getLastD_cons] at hend) hxs, List.length_cons]
    omega

/-- The loop cuts the chain back to its first opcode, or gives the length of an extension. -/
theorem extendChain_cases (first prev : Byte) (rest : List Byte) (n : Nat) :
    extendChain first prev rest n = 1 ∨
      ∃ xs tail, rest = xs ++ tail ∧ Extends first prev xs tail ∧ extendChain first prev rest n = n + xs.length := by
  induction rest generalizing prev n with
  | nil => exact .inr ⟨[], [], rfl, ⟨.singleton _, nofun⟩, rfl⟩
  | cons y rest ih =>
    by_cases hy : Continues prev y
    · rw [extendChain, if_neg (mt (extendChain_guard _ _).1 (not_not.2 hy))]
      rcases ih y (n + 1) with hcut | ⟨xs, tail, rfl, ⟨hchain, hkept⟩, hlen⟩
      · exact .inl hcut
      · refine .inr ⟨y :: xs, tail, rfl, ⟨List.isChain_cons_cons.2 ⟨hy, hchain⟩, hkept⟩, ?_⟩
        rw [hlen, List.length_cons]
        omega
    · rw [extendChain, if_pos ((extendChain_guard _ _).2 hy)]
      split
      · exact .inl rfl
      · rename_i hkept
        refine .inr ⟨[], y :: rest, rfl, ⟨.singleton _, fun z hz => ?_⟩, rfl⟩
        cases hz
        exact hkept

/-! ### The call of a chain that starts at OPF (R175, R176) -/

/-- The last tap of a chain is its last opcode exactly when that opcode has its tap bit set. -/
theorem lastTap_eq_last_iff (o : Byte) (xs : List Byte) (j : Nat) (found : Option Nat) (hfound : ∀ k ∈ found, k < j) :
    lastTap (o :: xs) j found = some (j + xs.length) ↔ opcodeTap (xs.getLastD o) = true := by
  induction xs generalizing o j found with
  | nil =>
    cases ho : opcodeTap o with
    | true => simp [lastTap, ho]
    | false =>
      simp only [lastTap, ho, List.getLastD_nil, Bool.false_eq_true, if_false, List.length_nil, iff_false]
      intro hj
      exact absurd (hfound _ hj) (by omega)
  | cons x xs ih =>
    rw [lastTap, List.getLastD_cons, List.length_cons, ← ih x (j + 1) (if opcodeTap o then some j else found)]
    · rw [Nat.add_right_comm, Nat.add_assoc]
    · intro k hk
      split at hk
      · cases hk; omega
      · exact (hfound k hk).trans (Nat.lt_succ_self j)

/-- A feedback specialization of `n + 1` operators has its tap at its last operator (R150). -/
theorem specOf_feedback (n j : Nat) (add : Bool) (x : ChainSpec) (h : specOf (n + 1) (.feedback j) add = some x) :
    j = n := by
  obtain ⟨hlen, hsrc, -⟩ := (specOf_eq_some _ _ _ _).1 h
  have htap := x.tapLast
  rw [← hlen, ← hsrc] at htap
  simpa [tapLast] using htap

/-- A chain that starts at OPF is a call exactly where its last opcode is a tap and it has a specialization. -/
theorem callOf_feedback_iff (i : Nat) (o : Byte) (xs : List Byte) (d : Call) (hsrc : opcodeSrc o = 3#2) :
    callOf i (o :: xs) = some d ↔
      opcodeTap (xs.getLastD o) = true ∧
        ∃ x, specOf (xs.length + 1) (.feedback xs.length) (opcodeAdd (xs.getLastD o)) = some x ∧
          d = ⟨x, i, xs.length + 1, opcodeAdd (xs.getLastD o), 3#2, opcodeDst (xs.getLastD o)⟩ := by
  have htap := lastTap_eq_last_iff o xs 0 none nofun
  rw [Nat.zero_add] at htap
  have hsource : chainSource (o :: xs) = (lastTap (o :: xs) 0 none).map .feedback := by
    simp only [chainSource, hsrc]
    rfl
  constructor
  · intro h
    obtain ⟨first, rest, src, hchain, hs, hfirst, hlen, hspec, hadd, hinp, hout⟩ := callOf_eq_some _ _ _ h
    cases hchain
    rw [hsource] at hs
    obtain ⟨j, hj, rfl⟩ := Option.map_eq_some_iff.1 hs
    rw [List.length_cons] at hlen
    rw [List.getLastD_cons] at hadd hout
    rw [hlen] at hspec
    obtain rfl := specOf_feedback _ _ _ _ hspec
    refine ⟨htap.1 hj, d.spec, by rw [← hadd]; exact hspec, ?_⟩
    rw [← hfirst, ← hlen, ← hadd, ← hout, ← hsrc, ← hinp]
  · rintro ⟨hlast, x, hx, rfl⟩
    simp only [callOf, hsource, htap.2 hlast, Option.map_some, List.length_cons, List.getLastD_cons, hx, hsrc]

/-- The opcodes `xs` after an OPF fuse with it: they extend its chain and are not cut back, and the last of them adds
and is the tap. -/
def Fuses (o : Byte) (xs tail : List Byte) : Prop :=
  Extends o o xs tail ∧ opcodeAdd (xs.getLastD o) = true ∧ opcodeTap (xs.getLastD o) = true

/-- Opcodes that fuse, in a length that has a specialization, are one call (R176). -/
theorem callAt_of_fuses (i : Nat) (o : Byte) (xs tail : List Byte) (x : ChainSpec) (hsrc : opcodeSrc o = 3#2)
    (h : Fuses o xs tail) (hx : specOf (xs.length + 1) (.feedback xs.length) true = some x) :
    callAt i (o :: (xs ++ tail)) = some ⟨x, i, xs.length + 1, true, 3#2, opcodeDst (xs.getLastD o)⟩ := by
  obtain ⟨hextends, hadd, htap⟩ := h
  have hcall := (callOf_feedback_iff i o xs _ hsrc).2 ⟨htap, x, by rwa [hadd], rfl⟩
  rw [hadd] at hcall
  have hlen := extendChain_of_extends o o xs tail 1 hextends hadd
  simp only [callAt, hlen, Nat.add_comm 1, List.take_succ_cons, List.take_left', hcall]

/-- Where no opcodes fuse with it, the call of an OPF is that of itself alone (R176). -/
theorem callAt_unfused (i : Nat) (o : Byte) (rest : List Byte) (hsrc : opcodeSrc o = 3#2)
    (h : ∀ xs tail, rest = xs ++ tail → xs.length = 1 ∨ xs.length = 2 → ¬ Fuses o xs tail) :
    callAt i (o :: rest) = callOf i [o] := by
  have hlong : ∀ d, callOf i ((o :: rest).take (extendChain o o rest 1)) = some d → 1 < extendChain o o rest 1 →
      False := by
    intro d hd hlt
    rcases extendChain_cases o o rest 1 with hcut | ⟨xs, tail, rfl, hextends, hlen⟩
    · omega
    · rw [hlen, Nat.add_comm, List.take_succ_cons, List.take_left' rfl] at hd
      obtain ⟨htap, x, hx, -⟩ := (callOf_feedback_iff _ _ _ _ hsrc).1 hd
      obtain ⟨hxlen, -, hadds⟩ := (specOf_eq_some _ _ _ _).1 hx
      obtain ⟨-, hadd⟩ := x.of_one_lt_len (by omega)
      refine h xs tail rfl ?_ ⟨hextends, hadds.trans hadd, htap⟩
      have : x.len ≤ 3 := by cases x <;> decide
      omega
  obtain ⟨hone, -⟩ := extendChain_bounds o o rest 1 (Nat.le_refl 1)
  simp only [callAt]
  rcases Nat.eq_or_lt_of_le hone with hn | hn
  · rw [← hn, List.take_succ_cons, List.take_zero]
    cases callOf i [o] <;> rfl
  · cases hcall : callOf i ((o :: rest).take (extendChain o o rest 1)) with
    | none => simp only [hn, if_true]
    | some d => exact (hlong d hcall hn).elim

/-! ### OPF in its row (R175 to R177) -/

/-- The opcodes of a row from `k` on begin with `a` exactly where `a` is the row's opcode at `k`. -/
theorem Six.toList_drop_eq_cons_iff {α : Type} (x : Six α) (k : Nat) (a : α) (l : List α) :
    x.toList.drop k = a :: l ↔ k < 6 ∧ a = x.get k ∧ l = x.toList.drop (k + 1) := by
  by_cases hk : k < 6
  · rw [Six.toList_drop x k hk, List.cons.injEq]
    simp only [hk, true_and, eq_comm]
  · have hnil : x.toList.drop k = [] := List.drop_eq_nil_of_le (by simpa [Six.toList] using hk)
    simp [hnil, hk]

/-- What is asked of the next opcode is asked of the row's opcode at `k`, unless the row ends there. -/
theorem Six.forall_head?_toList_drop {α : Type} (x : Six α) (k : Nat) (hk : k ≤ 6) (p : α → Prop) :
    (∀ y ∈ (x.toList.drop k).head?, p y) ↔ k = 6 ∨ p (x.get k) := by
  rcases Nat.eq_or_lt_of_le hk with rfl | hlt
  · simp [Six.toList]
  · simp [Six.toList_drop x k hlt, Nat.ne_of_lt hlt]

/-- One opcode fuses with an OPF: it continues the chain, adds, is the tap, and the one after it does not read what the
OPF writes. -/
theorem fuses_one_iff (o : Byte) (row : Six Byte) (i : Nat) (hfit : i + 2 ≤ 6) :
    Fuses o [row.get (i + 1)] (row.toList.drop (i + 2)) ↔
      opcodeAdd o = false ∧ opcodeSrc (row.get (i + 1)) = opcodeDst o ∧ opcodeAdd (row.get (i + 1)) = true ∧
        opcodeTap (row.get (i + 1)) = true ∧ (i + 2 = 6 ∨ opcodeSrc (row.get (i + 2)) ≠ opcodeDst o) := by
  simp only [Fuses, Extends, Continues, Six.forall_head?_toList_drop row _ hfit, List.isChain_cons_cons,
    List.isChain_singleton, List.getLastD_cons, List.getLastD_nil, and_true, eq_comm (a := opcodeDst o)]
  tauto

/-- Two opcodes fuse with an OPF: each continues the chain, the last adds and is the tap, and the one after them does
not read what the OPF writes. -/
theorem fuses_two_iff (o : Byte) (row : Six Byte) (i : Nat) (hfit : i + 3 ≤ 6) :
    Fuses o [row.get (i + 1), row.get (i + 2)] (row.toList.drop (i + 3)) ↔
      opcodeAdd o = false ∧ opcodeSrc (row.get (i + 1)) = opcodeDst o ∧ opcodeAdd (row.get (i + 1)) = false ∧
        opcodeSrc (row.get (i + 2)) = opcodeDst (row.get (i + 1)) ∧ opcodeAdd (row.get (i + 2)) = true ∧
        opcodeTap (row.get (i + 2)) = true ∧ (i + 3 = 6 ∨ opcodeSrc (row.get (i + 3)) ≠ opcodeDst o) := by
  simp only [Fuses, Extends, Continues, Six.forall_head?_toList_drop row _ hfit, List.isChain_cons_cons,
    List.isChain_singleton, List.getLastD_cons, List.getLastD_nil, and_true, eq_comm (a := opcodeDst o),
    eq_comm (a := opcodeDst (row.get (i + 1)))]
  tauto

/-- One or two opcodes after router index `i` are the row's, and the rest of the row follows them. -/
theorem toList_drop_split (row : Six Byte) (i : Nat) (xs tail : List Byte)
    (h : row.toList.drop (i + 1) = xs ++ tail) (hlen : xs.length = 1 ∨ xs.length = 2) :
    (i + 2 ≤ 6 ∧ xs = [row.get (i + 1)] ∧ tail = row.toList.drop (i + 2)) ∨
      (i + 3 ≤ 6 ∧ xs = [row.get (i + 1), row.get (i + 2)] ∧ tail = row.toList.drop (i + 3)) := by
  rcases hlen with hlen | hlen
  · obtain ⟨x, rfl⟩ := List.length_eq_one_iff.1 hlen
    obtain ⟨hi, rfl, htail⟩ := (Six.toList_drop_eq_cons_iff _ _ _ _).1 h
    exact .inl ⟨hi, rfl, htail⟩
  · obtain ⟨x, y, rfl⟩ := List.length_eq_two.1 hlen
    obtain ⟨-, rfl, hrest⟩ := (Six.toList_drop_eq_cons_iff _ _ _ _).1 h
    obtain ⟨hi, rfl, htail⟩ := (Six.toList_drop_eq_cons_iff _ _ _ _).1 hrest.symm
    exact .inr ⟨hi, rfl, htail⟩

/-- A routing opcode at the router index is the chain call that its turn of the loop gives. -/
theorem routeOpcode_of_callAt (o : Byte) (s : State) (c : RenderCtx) (d : Call) (hrc : s.rc = some c)
    (hi : c.index < 6) (hat : callAt c.index (o :: c.row.toList.drop (c.index + 1)) = some d) :
    routeOpcode o s = chainCall Config.bmax d.spec.len d.spec.src d.spec.adds c.index d.inp d.out s := by
  obtain ⟨hfirst, -⟩ := callAt_first_len _ _ _ hat
  simp only [routeOpcode, hrc, written_some, ok_bind, hi, decide_true, require_true, hat]
  rw [runCall_eq d s (hfirst ▸ hi), hfirst]

/-- A routing opcode whose turn of the loop fails is refused. -/
theorem routeOpcode_of_callAt_none (o : Byte) (s : State) (c : RenderCtx) (hrc : s.rc = some c) (hi : c.index < 6)
    (hat : callAt c.index (o :: c.row.toList.drop (c.index + 1)) = none) :
    routeOpcode o s = refuse .rowIllFormed := by
  simp only [routeOpcode, hrc, written_some, ok_bind, hi, decide_true, require_true, hat, written_none, refuse_bind]

/-- The tap bit of a routing opcode (R81). -/
theorem opcodeTap_routingByte (src dst : Slot) (add tap : Bool) : opcodeTap (routingByte src dst add tap) = tap := by
  revert src dst add tap; decide

/-- An OPF with which no opcode fuses is self-feedback of its operator where it is a tap, else refused (R175, R177). -/
theorem routeOpcode_opf_unfused (dst : Slot) (add tap : Bool) (s : State) (c : RenderCtx) (hrc : s.rc = some c)
    (hi : c.index < 6)
    (h : ∀ xs tail, c.row.toList.drop (c.index + 1) = xs ++ tail → xs.length = 1 ∨ xs.length = 2 →
      ¬ Fuses (routingByte 3#2 dst add tap) xs tail) :
    routeOpcode (routingByte 3#2 dst add tap) s =
      if tap = true then chainCall Config.bmax 1 (.feedback 0) add c.index 3#2 dst s else refuse .rowIllFormed := by
  obtain ⟨hdst, hadd⟩ := opcodeFields_routingByte 3#2 dst add tap
  have htap := opcodeTap_routingByte 3#2 dst add tap
  have hsrc := opcodeSrc_routingByte 3#2 dst add tap
  have hat := callAt_unfused c.index _ _ hsrc h
  have hcall := fun d => callOf_feedback_iff c.index _ [] d hsrc
  simp only [List.getLastD_nil, List.length_nil, hdst, hadd, htap] at hcall
  cases tap with
  | true =>
    obtain ⟨x, hx⟩ : ∃ x, specOf 1 (.feedback 0) add = some x := by cases add <;> exact ⟨_, rfl⟩
    obtain ⟨hlen, hsource, hadds⟩ := (specOf_eq_some _ _ _ _).1 hx
    rw [(hcall _).2 ⟨rfl, x, hx, rfl⟩] at hat
    rw [routeOpcode_of_callAt _ s c _ hrc hi hat, if_pos rfl, hlen, hsource, hadds]
  | false =>
    rw [Option.eq_none_iff_forall_ne_some.2 fun d hd => nomatch ((hcall d).1 hd).1] at hat
    rw [routeOpcode_of_callAt_none _ s c hrc hi hat, if_neg Bool.false_ne_true]

/-- A feedback call at the router index completes where the slot it adds into is written (R154 to R156). -/
theorem chainCall_feedback_next (n : Nat) (add : Bool) (inp out : Slot) (s : State) (c : RenderCtx) (p : Patch)
    (hp : s.patch = some p) (hfit : c.index + (n + 1) ≤ 6) (hin : s.inRender c c.index (n + 1))
    (hout : add = true → s.blockWritten out c.block) :
    ∃ t, finish (chainCall Config.bmax (n + 1) (.feedback n) add c.index inp out s) = .next t := by
  obtain ⟨t, ht, -⟩ := chainCall_feedback n add c.index inp out s c _ _ hfit hin (chainScale_feedback n s p hp) hout rfl
  exact ⟨t, ht⟩

/-- An OPF with which the opcodes `xs` fuse is the fused call into the slot the last of them writes, and completes where
that slot is written (R175, R176). -/
theorem exec_opf_fused (dst : Slot) (add tap : Bool) (s : State) (c : RenderCtx) (p : Patch) (xs tail : List Byte)
    (x : ChainSpec) (out : Slot) (hrc : s.rc = some c) (hp : s.patch = some p) (hfit : c.index + (xs.length + 1) ≤ 6)
    (hrow : c.row.toList.drop (c.index + 1) = xs ++ tail) (h : Fuses (routingByte 3#2 dst add tap) xs tail)
    (hx : specOf (xs.length + 1) (.feedback xs.length) true = some x)
    (hout : opcodeDst (xs.getLastD (routingByte 3#2 dst add tap)) = out) :
    exec (.opf dst add tap) s =
        finish (chainCall Config.bmax (xs.length + 1) (.feedback xs.length) true c.index 3#2 out s) ∧
      (s.inRender c c.index (xs.length + 1) → s.blockWritten out c.block →
        ∃ t, exec (.opf dst add tap) s = .next t) := by
  have hat := callAt_of_fuses c.index _ xs tail x (opcodeSrc_routingByte 3#2 dst add tap) h hx
  obtain ⟨hlen, hsource, hadds⟩ := (specOf_eq_some _ _ _ _).1 hx
  rw [← hrow, hout] at hat
  have hroute := routeOpcode_of_callAt _ s c _ hrc (by omega) hat
  rw [← hlen, ← hsource, ← hadds] at hroute
  have hexec : exec (.opf dst add tap) s = _ := congrArg finish hroute
  refine ⟨hexec, fun hin hwritten => ?_⟩
  rw [hexec]
  exact chainCall_feedback_next xs.length true 3#2 out s c p hp hfit hin fun _ => hwritten

/-- Settles O39: an OPF issues the call of the opcodes that fuse with it, or that of itself alone. -/
theorem feedbackRoutingOpcode : Obligations.FeedbackRoutingOpcode := by
  intro dst add tap s c p hi hrc hp k o fusesTwo fusesThree single
  obtain ⟨hdst, hadd⟩ := opcodeFields_routingByte 3#2 dst add tap
  refine ⟨fun hno2 hno3 => ?_, fun h2 => ?_, fun h3 => ?_⟩
  · have hroute := routeOpcode_opf_unfused dst add tap s c hrc hi fun xs tail hrow hlen hfuses => by
      rcases toList_drop_split _ _ _ _ hrow hlen with ⟨hfit, rfl, rfl⟩ | ⟨hfit, rfl, rfl⟩
      · rw [fuses_one_iff _ _ _ hfit, hdst, hadd] at hfuses
        obtain ⟨hover, hrest⟩ := hfuses
        exact hno2 ⟨hover, hfit, hrest⟩
      · rw [fuses_two_iff _ _ _ hfit, hdst, hadd] at hfuses
        obtain ⟨hover, hrest⟩ := hfuses
        exact hno3 ⟨hover, hfit, hrest⟩
    have hopf : exec (.opf dst add tap) s = _ := congrArg finish hroute
    have hsingle : exec single s = finish (chainCall Config.bmax 1 (.feedback 0) add c.index 3#2 dst s) := by
      cases add <;> rfl
    refine ⟨fun htap => ?_, fun htap => ?_⟩
    · rw [if_pos htap, ← hsingle] at hopf
      refine ⟨hopf, fun hin hout => ?_⟩
      obtain ⟨t, ht⟩ := chainCall_feedback_next 0 add 3#2 dst s c p hp hi hin hout
      exact ⟨t, by rw [hopf, hsingle, ht], hsingle.trans ht⟩
    · rw [hopf, if_neg (ne_true_of_eq_false htap)]
      rfl
  · obtain ⟨hover, hfit, hrest⟩ := h2
    exact exec_opf_fused dst add tap s c p [o 1] _ .ch2Fb1A _ hrc hp hfit (Six.toList_drop _ _ (by omega))
      ((fuses_one_iff _ _ _ hfit).2 (by rw [hdst, hadd]; exact ⟨hover, hrest⟩)) rfl rfl
  · obtain ⟨hover, hfit, hrest⟩ := h3
    have hrow : c.row.toList.drop (c.index + 1) = [o 1, o 2] ++ c.row.toList.drop (c.index + 3) := by
      rw [Six.toList_drop _ _ (by omega), Six.toList_drop _ _ (by omega)]
      rfl
    exact exec_opf_fused dst add tap s c p [o 1, o 2] _ .ch3Fb2A _ hrc hp hfit hrow
      ((fuses_two_iff _ _ _ hfit).2 (by rw [hdst, hadd]; exact ⟨hover, hrest⟩)) rfl rfl

end Sys2Proof.Machine
end

section
/-!
PROOFS. The envelopes (44_envelope.md R191 to R206): the worked configurations of both kinds of unit, and the scrubbed
render: its walk over the gate stages, its worked values, and its agreement with the saturated sustain stage.
-/
namespace Sys2Proof.Machine

/-! ### The worked configurations (R193, R194) -/

/-- An operator patch with the registers an operator envelope is configured from (R191, R192), the others at 0. -/
def envOpPatch (rate level : Four Nat) (olevel : Nat) : OpPatch :=
  { (default : OpPatch) with rate := rate, level := level, olevel := olevel }

/-- A patch with the registers the pitch envelope is configured from (R194), the others at 0. -/
def envPitchPatch (rate level : Four Nat) : Patch :=
  { (default : Patch) with prate := rate, plevel := level }

/-- The tables of a configured operator envelope are those of the four rates, the four levels, the output level and
SCALE: no other register is read (R191, R192). -/
theorem envSetOp_tables_of {fm : Formats} {p : OpPatch} {e : Env} {rate level : Four Nat} {olevel : Nat}
    {lv : Four RealBits} (holevel : p.olevel = olevel) (hrate : p.rate = rate) (hlevel : p.level = level)
    (hlv : operatorStageLevels fm (envOpPatch rate level olevel) = lv) :
    (envSetOp fm p e).level = lv.map some ∧
      ∀ {scale : RealBits} {inc : Four RealBits}, e.scale = scale →
        Four.ofFn (operatorStageIncr fm (envOpPatch rate level olevel) lv scale) = inc →
        (envSetOp fm p e).incr = inc.map some := by
  subst holevel hrate hlevel hlv
  refine ⟨rfl, fun hscale hinc => ?_⟩
  subst hscale hinc
  rfl

/-- The tables of a configured pitch envelope are those of the four rates, the four levels and SCALE (R194). -/
theorem envSetPitch_tables_of {fm : Formats} {p : Patch} {e : Env} {rate level : Four Nat} {scale : RealBits}
    {lv inc : Four RealBits} (hlevel : p.plevel = level) (hrate : p.prate = rate) (hscale : e.scale = scale)
    (hlv : pitchStageLevels fm (envPitchPatch rate level) = lv)
    (hinc : Four.ofFn (pitchStageIncr fm (envPitchPatch rate level) scale) = inc) :
    (envSetPitch fm p e).level = lv.map some ∧ (envSetPitch fm p e).incr = inc.map some := by
  subst hlevel hrate hscale hlv hinc
  exact ⟨rfl, rfl⟩

/-- The levels of the four worked operator configurations (R193). -/
theorem operatorStageLevels_worked :
    operatorStageLevels ieee (envOpPatch ⟨80, 50, 30, 60⟩ ⟨99, 80, 70, 0⟩ 99) =
        ⟨0x402E000000000000, 0x4029800000000000, 0x4027000000000000, 0x3FB0000000000000⟩ ∧
      operatorStageLevels ieee (envOpPatch ⟨0, 0, 0, 0⟩ ⟨99, 99, 99, 99⟩ 99) =
        ⟨0x402E000000000000, 0x402E000000000000, 0x402E000000000000, 0x402E000000000000⟩ ∧
      operatorStageLevels ieee (envOpPatch ⟨50, 50, 50, 50⟩ ⟨0, 0, 0, 0⟩ 99) =
        ⟨0x3FB0000000000000, 0x3FB0000000000000, 0x3FB0000000000000, 0x3FB0000000000000⟩ ∧
      operatorStageLevels ieee (envOpPatch ⟨50, 50, 50, 50⟩ ⟨30, 20, 10, 0⟩ 60) =
        ⟨0x3FFA000000000000, 0x3FD8000000000000, 0x3FB0000000000000, 0x3FB0000000000000⟩ := by decide +kernel

/-- The increments of the first worked operator configuration, from its levels, at both of its scales (R193): an
ascending stage and three descending ones. -/
theorem operatorStageIncr_worked_scales :
    let incr := fun scale => Four.ofFn (operatorStageIncr ieee (envOpPatch ⟨80, 50, 30, 60⟩ ⟨99, 80, 70, 0⟩ 99)
      ⟨0x402E000000000000, 0x4029800000000000, 0x4027000000000000, 0x3FB0000000000000⟩ scale)
    incr (r1 ieee) = ⟨0x3F784A062B2E43DA, 0x3F1C71C71C71C71C, 0x3EF6666666666666, 0x3F10C9714FBCDA3B⟩ ∧
      incr 0x3FED666666666666 =
        ⟨0x3F7650CF4478E7F0, 0x3F1A222222222221, 0x3EF4947AE147AE14, 0x3F0ED88D02849DCC⟩ := by decide +kernel

/-- The increments of the other three worked operator configurations, from their levels (R193): plateaus, the factor 20
of stage 0 at level 0, and an ascent below the floor 6.7. -/
theorem operatorStageIncr_worked_plateaus :
    Four.ofFn (operatorStageIncr ieee (envOpPatch ⟨0, 0, 0, 0⟩ ⟨99, 99, 99, 99⟩ 99)
        ⟨0x402E000000000000, 0x402E000000000000, 0x402E000000000000, 0x402E000000000000⟩ (r1 ieee)) =
        ⟨0x3EA3333333333333, 0x3EA3333333333333, 0x3EA3333333333333, 0x3EA3333333333333⟩ ∧
      Four.ofFn (operatorStageIncr ieee (envOpPatch ⟨50, 50, 50, 50⟩ ⟨0, 0, 0, 0⟩ 99)
        ⟨0x3FB0000000000000, 0x3FB0000000000000, 0x3FB0000000000000, 0x3FB0000000000000⟩ (r1 ieee)) =
        ⟨0x3F68000000000000, 0x3F23333333333333, 0x3F23333333333333, 0x3F23333333333333⟩ ∧
      Four.ofFn (operatorStageIncr ieee (envOpPatch ⟨50, 50, 50, 50⟩ ⟨30, 20, 10, 0⟩ 60)
        ⟨0x3FFA000000000000, 0x3FD8000000000000, 0x3FB0000000000000, 0x3FB0000000000000⟩ (r1 ieee)) =
        ⟨0x3FF0000000000000, 0x3F2999999999999A, 0x3F4999999999999A, 0x3F23333333333333⟩ := by decide +kernel

/-- The levels of the two worked pitch configurations (R194). -/
theorem pitchStageLevels_worked :
    pitchStageLevels ieee (envPitchPatch ⟨99, 99, 99, 99⟩ ⟨50, 50, 50, 50⟩) = ⟨r0, r0, r0, r0⟩ ∧
      pitchStageLevels ieee (envPitchPatch ⟨50, 60, 70, 80⟩ ⟨60, 40, 50, 50⟩) =
        ⟨0x3FD4000000000000, 0xBFD4000000000000, r0, r0⟩ := by decide +kernel

/-- The increments of the two worked pitch configurations at SCALE 1.0 (R194). -/
theorem pitchStageIncr_worked :
    Four.ofFn (pitchStageIncr ieee (envPitchPatch ⟨99, 99, 99, 99⟩ ⟨50, 50, 50, 50⟩) (r1 ieee)) =
        ⟨0x3FC999999999999A, 0x3FC999999999999A, 0x3FC999999999999A, 0x3F313ABBF72F3E0B⟩ ∧
      Four.ofFn (pitchStageIncr ieee (envPitchPatch ⟨50, 60, 70, 80⟩ ⟨60, 40, 50, 50⟩) (r1 ieee)) =
        ⟨0x3F216A10584A6FF2, 0x3F18426AAE51D046, 0x3F316E085CDF7481, 0x3F20101573E87C12⟩ := by decide +kernel

/-- Settles O20: a configured unit's tables are those of the registers each configuration fixes, and of these they are
computed. -/
theorem workedEnvelopeConfigurations : Obligations.WorkedEnvelopeConfigurations := by
  obtain ⟨lv1, lv2, lv3, lv4⟩ := operatorStageLevels_worked
  obtain ⟨inc1, inc1'⟩ := operatorStageIncr_worked_scales
  obtain ⟨inc2, inc3, inc4⟩ := operatorStageIncr_worked_plateaus
  obtain ⟨plv1, plv2⟩ := pitchStageLevels_worked
  obtain ⟨pinc1, pinc2⟩ := pitchStageIncr_worked
  refine ⟨fun p e => ⟨fun ho hr hl => ?_, fun ho hr hl hs => ?_, fun ho hr hl hs => ?_, fun ho hr hl hs => ?_⟩,
    fun p e hs => ⟨fun hl hr => envSetPitch_tables_of hl hr hs plv1 pinc1,
      fun hl hr => envSetPitch_tables_of hl hr hs plv2 pinc2⟩⟩
  · obtain ⟨hlevel, hincr⟩ := envSetOp_tables_of ho hr hl lv1
    exact ⟨hlevel, fun hs => hincr hs inc1, fun hs => hincr hs inc1'⟩
  · exact (envSetOp_tables_of ho hr hl lv2).imp_right fun hincr => hincr hs inc2
  · exact (envSetOp_tables_of ho hr hl lv3).imp_right fun hincr => hincr hs inc3
  · exact (envSetOp_tables_of ho hr hl lv4).imp_right fun hincr => hincr hs inc4

/-! ### The scrubbed render (R205) -/

/-- A unit with its tables written is evaluated by `scrub` (R205). -/
theorem envScrub_of_tables {fm : Formats} (u : EnvUnit) {e : Env} {lv inc : Four RealBits} (t g : RealBits)
    (hlevel : e.level.sequence = some lv) (hincr : e.incr.sequence = some inc) :
    envScrub fm u e t g = .ok (scrubValue fm u lv inc t g) :=
  (envScrub_ok u e t g _).2 ⟨lv, inc, hlevel, hincr, rfl⟩

/-- In scrubbing mode a block gives a unit's scrubbed value and leaves the unit as it is (R243, R247). -/
theorem envBlock_of_sustain {fm : Formats} (u : EnvUnit) (e : Env) (a : RenderArgs) (rate ad rel v : RealBits)
    (hsustain : a.sustain = true) (hscrub : envScrub fm u e a.scrubT a.scrubG = .ok v) :
    envBlock fm u e a rate ad rel = .ok (e, v) := by
  simp only [envBlock, hsustain, if_true, hscrub, ok_bind]

/-- The walk over the three gate stages, stage by stage (R205). -/
theorem scrubHeld_three (fm : Formats) (u : EnvUnit) (lv inc : Four RealBits) (x : RealBits) :
    scrubHeld fm u lv inc 3 0 x =
      let x1 := rSub fm x (rDiv fm (r1 fm) inc.s0)
      let x2 := rSub fm x1 (rDiv fm (r1 fm) inc.s1)
      if rLt fm x (rDiv fm (r1 fm) inc.s0) = true then envValue fm u lv 0 (rMul fm x inc.s0) .previousLevel
      else if rLt fm x1 (rDiv fm (r1 fm) inc.s1) = true then envValue fm u lv 1 (rMul fm x1 inc.s1) .previousLevel
      else if rLt fm x2 (rDiv fm (r1 fm) inc.s2) = true then envValue fm u lv 2 (rMul fm x2 inc.s2) .previousLevel
      else envValue fm u lv 2 (r1 fm) .previousLevel := rfl

/-- Once all three gate stages are over, the walk ends at the saturated sustain stage (R205). -/
theorem scrubHeld_three_of_over {fm : Formats} (u : EnvUnit) (lv : Four RealBits) {inc : Four RealBits} {x : RealBits}
    (h0 : rLt fm x (rDiv fm (r1 fm) inc.s0) = false)
    (h1 : rLt fm (rSub fm x (rDiv fm (r1 fm) inc.s0)) (rDiv fm (r1 fm) inc.s1) = false)
    (h2 : rLt fm (rSub fm (rSub fm x (rDiv fm (r1 fm) inc.s0)) (rDiv fm (r1 fm) inc.s1))
      (rDiv fm (r1 fm) inc.s2) = false) :
    scrubHeld fm u lv inc 3 0 x = envValue fm u lv 2 (r1 fm) .previousLevel := by
  simp only [scrubHeld_three, h0, h1, h2, if_neg Bool.false_ne_true]

/-- A scrub at the end of the gate or before it walks the gate stages (R205). -/
theorem scrubValue_of_not_rLt {fm : Formats} (u : EnvUnit) (lv inc : Four RealBits) {t g : RealBits}
    (h : rLt fm g t = false) : scrubValue fm u lv inc t g = scrubHeld fm u lv inc 3 0 t := by
  simp only [scrubValue, h, if_neg Bool.false_ne_true]

/-! ### The gated render in the sustain stage (R201) -/

/-- A gate that is held does nothing outside the release stage (R201). -/
theorem envGate_held {fm : Formats} (u : EnvUnit) (lv : Four RealBits) (e : Env) (h : e.stage ≠ 3) :
    envGate fm u lv true e = e := by
  simp only [envGate, if_true, if_neg h]

/-- A unit saturated in the sustain stage stays as it is under an advance that is not negative: 1.0 and more saturates
again (R201). -/
theorem envAdvance_saturated (inc : Four RealBits) (rate ad rel : RealBits) (e : Env) (hstage : e.stage = 2)
    (hphase : e.phase = r1 ieee) (hadv : rLe ieee r0 (rMul ieee (rMul ieee inc.s2 rate) ad) = true) :
    envAdvance ieee inc rate ad rel e = e := by
  have hsat : rLe ieee (r1 ieee) (rAdd ieee (r1 ieee) (rMul ieee (rMul ieee (inc.get 2) rate) ad)) = true :=
    rLe_rAdd _ _ (by decide) (by decide) hadv
  have hne : (2 : Fin 4) ≠ 3 := by decide
  simp only [envAdvance, hstage, hphase, if_neg hne, hsat, if_true, le_refl]
  rw [← hphase, ← hstage]

/-- The gated render of a unit saturated in the sustain stage: the unit stays, and its value is the stage's at phase 1.0
(R201). -/
theorem envRender_saturated (u : EnvUnit) {e : Env} {lv inc : Four RealBits} (rate ad rel : RealBits)
    (hlevel : e.level.sequence = some lv) (hincr : e.incr.sequence = some inc) (hstage : e.stage = 2)
    (hphase : e.phase = r1 ieee) (hstart : e.start = .previousLevel)
    (hadv : rLe ieee r0 (rMul ieee (rMul ieee inc.s2 rate) ad) = true) :
    envRender ieee u e true rate ad rel = .ok (e, envValue ieee u lv 2 (r1 ieee) .previousLevel) := by
  have hne : e.stage ≠ 3 := hstage ▸ by decide
  refine (envRender_ok u e e true rate ad rel _).2 ⟨lv, inc, hlevel, hincr, ?_, by rw [hstage, hphase, hstart]⟩
  rw [envGate_held u lv e hne, envAdvance_saturated inc rate ad rel e hstage hphase hadv]

/-! ### The three statements of R205 and R206 -/

/-- The worked scrubs of an operator unit (R206): along the gate stages up to t = G, in the release, past its end, and in
a release from the first decay. -/
theorem scrubValue_worked :
    let at' := scrubValue ieee .operator
      ⟨0x402E000000000000, 0x4029800000000000, 0x4027000000000000, 0x3FB0000000000000⟩
      ⟨0x3F784A062B2E43DA, 0x3F1C71C71C71C71C, 0x3EF6666666666666, 0x3F10C9714FBCDA3B⟩
    at' 0x0000000000000000 0x408F400000000000 = 0x401ACCCCCCCCCCCD ∧
      at' 0x4059000000000000 0x40F0266000000000 = 0x4029EA2A416350D0 ∧
      at' 0x409F400000000000 0x40F0266000000000 = 0x402D1B1451451451 ∧
      at' 0x40D3880000000000 0x40F0266000000000 = 0x4028EEDE38E38E39 ∧
      at' 0x40F0266000000000 0x40F0266000000000 = 0x4027000000000000 ∧
      at' 0x40F1170000000000 0x40F0266000000000 = 0x40215C4000000000 ∧
      at' 0x413044A600000000 0x40F0266000000000 = 0x3FB0000000000000 ∧
      at' 0x407F400000000000 0x4069000000000000 = 0x402D693A7C095378 := by decide +kernel

/-- Settles O51: the scrub is its walk written out; the worked scrubs are computed; and at t = G both renders are at
phase 1.0 of the sustain stage, the scrub because its walk ends there, the gated unit because it stays there. -/
theorem scrubAtGateEndIsSustain : Obligations.ScrubAtGateEndIsSustain := by
  refine ⟨fun fm u e lv inc t g hlevel hincr => ?_, fun e hlevel hincr => ?_,
    fun u e lv inc g rate ad rel hlevel hincr hover hstage hphase hstart hadv => ?_⟩
  · have hscrub := fun t g => envScrub_of_tables (fm := fm) u t g hlevel hincr
    simp only [scrubValue, scrubHeld_three] at hscrub
    refine ⟨hscrub t g, fun a rate ad rel hsustain ht hg => ?_⟩
    exact envBlock_of_sustain u e a rate ad rel _ hsustain (ht ▸ hg ▸ hscrub _ _)
  · have hscrub := fun t g => envScrub_of_tables (fm := ieee) .operator (e := e) t g (by rw [hlevel]; rfl)
      (by rw [hincr]; rfl)
    obtain ⟨v1, v2, v3, v4, v5, v6, v7, v8⟩ := scrubValue_worked
    simp only [hscrub]
    exact ⟨congrArg _ v1, congrArg _ v2, congrArg _ v3, congrArg _ v4, congrArg _ v5, congrArg _ v6, congrArg _ v7,
      congrArg _ v8⟩
  · obtain ⟨h0, h1, h2⟩ := hover
    have hsustain : scrubValue ieee u lv inc g g = envValue ieee u lv 2 (r1 ieee) .previousLevel :=
      (scrubValue_of_not_rLt u lv inc (rLt_irrefl ieee g)).trans (scrubHeld_three_of_over u lv h0 h1 h2)
    exact ⟨_, hsustain ▸ envScrub_of_tables u g g hlevel hincr,
      envRender_saturated u rate ad rel hlevel hincr hstage hphase hstart hadv⟩

end Sys2Proof.Machine
end

section
/-!
PROOFS. The LFO unit (45_lfo.md R215 to R229): the four commands with their refusals, the waveforms and outputs, and
what keeps the delay phase in its range and the outputs silent.
-/
namespace Sys2Proof.Machine

/-! ### The four commands -/

/-- LCFG with PATCH_VALID clear is refused (R217). -/
theorem execLcfg_refused (s : State) (hc : s.constructed = true) (hv : s.patchValid = false) :
    execLcfg s = .refused .noPatchLoaded := by
  simp only [execLcfg, (needConstructed_ok s ()).2 hc, State.needPatch, hv, ok_bind, require_false,
    refuse_bind, finish_refuse]

/-- Settles O22: LCFG's next state, by its law. -/
theorem lcfgResult : Obligations.LcfgResult := fun s hc =>
  ⟨execLcfg_refused s hc, fun p hv hp => (execLcfg_next s _).2 ⟨hc, hv, p, hp, rfl⟩⟩

/-- Settles O23: LRESET's next state, by its law. -/
theorem lresetResult : Obligations.LresetResult := fun s hc => (execLreset_next s _).2 ⟨hc, rfl⟩

/-- The operands LSTEP and LSCRUB take (R220, R222). -/
theorem nonNegOperand_iff (fm : Formats) (x : RealBits) :
    nonNegOperand fm x = true ↔ rIsFinite fm x = true ∧ rLt fm x r0 = false := by
  simp [nonNegOperand]

/-- The operands LSTEP and LSCRUB refuse (R220, R222). -/
theorem nonNegOperand_eq_false_iff (fm : Formats) (x : RealBits) :
    nonNegOperand fm x = false ↔ rIsFinite fm x = false ∨ rLt fm x r0 = true := by
  cases h : rIsFinite fm x <;> simp [nonNegOperand, h]

section
variable (x : RealBits) {s : State} (hc : s.constructed = true)
include hc

/-- LSTEP before LCFG is refused (R220). -/
theorem execLstep_notConfigured (hf : s.lfo.freq = none) : execLstep x s = .refused .lfoNotConfigured := by
  simp only [execLstep, lstepWith, (needConstructed_ok s ()).2 hc, hf, ok_bind, written_none, refuse_bind,
    finish_refuse]

/-- LSCRUB before LCFG is refused (R222). -/
theorem execLscrub_notConfigured (hf : s.lfo.freq = none) : execLscrub x s = .refused .lfoNotConfigured := by
  simp only [execLscrub, lscrubWith, (needConstructed_ok s ()).2 hc, hf, ok_bind, written_none, refuse_bind,
    finish_refuse]

variable {f d0 d1 : RealBits} (hf : s.lfo.freq = some f) (h0 : s.lfo.delayInc0 = some d0)
  (h1 : s.lfo.delayInc1 = some d1) (hx : nonNegOperand s.formats x = false)
include hf h0 h1 hx

/-- LSTEP of a scale that is negative, NaN or infinite is refused (R220). -/
theorem execLstep_badScale : execLstep x s = .refused .scaleOutOfDomain := by
  simp only [execLstep, lstepWith, (needConstructed_ok s ()).2 hc, hf, h0, h1, hx, ok_bind, written_some,
    require_false, refuse_bind, finish_refuse]

/-- LSCRUB of a sample time that is negative, NaN or infinite is refused (R222). -/
theorem execLscrub_badSample : execLscrub x s = .refused .sampleOutOfDomain := by
  simp only [execLscrub, lscrubWith, (needConstructed_ok s ()).2 hc, hf, h0, h1, hx, ok_bind, written_some,
    require_false, refuse_bind, finish_refuse]

end

/-- Settles O24: the draw is the block's own (R229), and the next state is LSTEP's law. -/
theorem lstepResult : Obligations.LstepResult := by
  intro scale s fm hc
  refine ⟨execLstep_notConfigured scale hc, fun f d0 d1 hf h0 h1 => ⟨fun hbad => ?_, fun hfin hnn => ?_⟩⟩
  · exact execLstep_badScale scale hc hf h0 h1 ((nonNegOperand_eq_false_iff fm scale).2 hbad)
  · refine ⟨shDraw fm Config.params s.draws, fun hfm => hfm ▸ shDraw_range _ _, ?_⟩
    exact (execLstep_next scale s _).2 ⟨hc, (nonNegOperand_iff fm scale).2 ⟨hfin, hnn⟩, f, d0, d1, hf, h0, h1, rfl⟩

/-- Settles O25: the draw is the block's own (R229), and the next state is LSCRUB's law. -/
theorem lscrubResult : Obligations.LscrubResult := by
  intro sample s fm hc
  refine ⟨execLscrub_notConfigured sample hc, fun f d0 d1 hf h0 h1 => ⟨fun hbad => ?_, fun hfin hnn => ?_⟩⟩
  · exact execLscrub_badSample sample hc hf h0 h1 ((nonNegOperand_eq_false_iff fm sample).2 hbad)
  · refine ⟨shDraw fm Config.params s.draws, fun hfm => hfm ▸ shDraw_range _ _, ?_⟩
    refine (execLscrub_next sample s _).2
      ⟨hc, (nonNegOperand_iff fm sample).2 ⟨hfin, hnn⟩, f, d0, d1, hf, h0, h1, ?_⟩
    -- the model tests for a changed cycle, the statement for the same one
    simp only [lfoScrub, lfoScrubDraws, ne_eq, ite_not, decide_not, Bool.not_eq_true', decide_eq_false_iff_not]
    rfl

/-! ### The waveforms and the outputs -/

/-- Only the sample-and-hold waveform reads the held sample (R224). -/
theorem lfoWave_of_le_four (fm : Formats) (w : Nat) (phase sh sh' : RealBits) (hw : w ≤ 4) :
    lfoWave fm w phase sh = lfoWave fm w phase sh' := by
  match w, hw with
  | 0, _ | 1, _ | 2, _ | 3, _ | 4, _ => rfl

/-- The worked values of the waveforms (R224). -/
theorem lfoWave_worked :
    lfoWave ieee 0 0x3FEFF7CED916872B r0 = 0x3FEFEF9DB22D0E56 ∧
      lfoWave ieee 1 0x3FEFF7CED916872B r0 = 0x3F50624DD2F1AA00 ∧ lfoWave ieee 3 0x3FEFF7CED916872B r0 = r1 ieee ∧
      lfoWave ieee 4 r0 r0 = rHalf ieee ∧ lfoWave ieee 4 0x3FD0000000000000 r0 = r0 ∧
      lfoWave ieee 4 0x3FE8000000000000 r0 = r1 ieee ∧
      lfoWave ieee 4 0x3FEFF7CED916872B r0 = 0x3FE019BC3B6125A6 := by decide +kernel

/-- The ramp reads the delay phase alone (R225). -/
theorem Lfo.delayRamp_of_delayPhase (fm : Formats) (l : Lfo) (d : RealBits) (h : l.delayPhase = d) :
    l.delayRamp fm = { Lfo.reset with delayPhase := d }.delayRamp fm := by
  simp only [Lfo.delayRamp, h]

/-- The worked values of the delay ramp (R225). -/
theorem Lfo.delayRamp_worked :
    { Lfo.reset with delayPhase := 0x3FD0000000000000 }.delayRamp ieee = r0 ∧
      { Lfo.reset with delayPhase := rHalf ieee }.delayRamp ieee = r0 ∧
      { Lfo.reset with delayPhase := 0x3FE8000000000000 }.delayRamp ieee = rHalf ieee ∧
      { Lfo.reset with delayPhase := r1 ieee }.delayRamp ieee = r1 ieee := by decide +kernel

/-- Settles O58: the formulas are the definitions, and the printed values are computed. -/
theorem lfoWaveformsAndOutputs : Obligations.LfoWaveformsAndOutputs := by
  refine ⟨fun fm phase sh => ⟨rfl, rfl, rfl, rfl, rfl, rfl⟩, fun fm l => ⟨rfl, rfl, rfl⟩, fun l => ?_, fun sh => ?_⟩
  · have hramp := l.delayRamp_of_delayPhase ieee
    obtain ⟨quarter, half, threeQuarters, one⟩ := Lfo.delayRamp_worked
    refine ⟨?_, fun h => (hramp _ h).trans threeQuarters, fun h => (hramp _ h).trans one⟩
    rintro (h | h)
    · exact (hramp _ h).trans quarter
    · exact (hramp _ h).trans half
  · have hsh := fun w (hw : w ≤ 4) phase => lfoWave_of_le_four ieee w phase sh r0 hw
    rw [hsh 0 (by decide), hsh 1 (by decide), hsh 3 (by decide), hsh 4 (by decide), hsh 4 (by decide),
      hsh 4 (by decide), hsh 4 (by decide)]
    exact lfoWave_worked

/-! ### Silence before the delay is over (R225, R226) -/

/-- Addition is commutative, NaNs and infinities included. -/
theorem rAdd_comm (fm : Formats) (x y : RealBits) : rAdd fm x y = rAdd fm y x := by
  unfold rAdd
  cases rExact fm x with
  | nan => cases rExact fm y <;> rfl
  | inf s =>
    cases rExact fm y with
    | nan => rfl
    | inf t => cases s <;> cases t <;> rfl
    | fin => rfl
  | fin s m e =>
    cases rExact fm y with
    | nan => rfl
    | inf => rfl
    | fin t n f => simp only [min_comm f e, add_comm (signed t _), Bool.and_comm t s]

/-- A finite number's exponent is at most that of the greatest numbers. -/
theorem rExact_exponent_le (x : RealBits) (s : Bool) (m : Nat) (e : Int) (h : rExact ieee x = .fin s m e) :
    e ≤ 971 := by
  rw [rExact_eq] at h
  split at h
  · split at h <;> cases h
  · split at h <;> (cases h; omega)

/-- A signed integer's magnitude. -/
theorem natAbs_signed (s : Bool) (m : Nat) : (signed s m).natAbs = m := by
  cases s <;> simp [signed]

/-- The greatest number plus 1.0 rounds to a finite number. -/
theorem roundMag_greatest_add_one :
    roundMag 53 (-1074) ((2 ^ 53 - 1) * 2 ^ 971 + 1) 0 < 0x7FF0000000000000 := by decide +kernel

/-- A finite number plus or minus a power of two at most 1.0 is finite: too little to reach the next rounding boundary
above the greatest number. -/
theorem rAdd_two_pow_finite (x y : RealBits) (t : Bool) (f : Int) (hx : rIsFinite ieee x = true)
    (hy : rExact ieee y = .fin t (2 ^ 52) f) (hf : f ≤ -52) : rIsFinite ieee (rAdd ieee x y) = true := by
  obtain ⟨m, e, hm, -, -⟩ := rExact_fin x hx
  have hm53 := rExact_lt x _ m e hm
  have he := rExact_exponent_le x _ m e hm
  simp only [rAdd, hm, hy]
  generalize hg : min e f = g
  obtain ⟨k, rfl⟩ : ∃ k : Nat, g = 0 - (k : Int) := ⟨(-g).toNat, by omega⟩
  have hA : m <<< (e - (0 - (k : Int))).toNat ≤ (2 ^ 53 - 1) * 2 ^ 971 * 2 ^ k := by
    rw [Nat.shiftLeft_eq, Nat.mul_assoc, ← pow_add]
    exact Nat.mul_le_mul (by omega) (Nat.pow_le_pow_right (by omega) (by omega))
  have hB : 2 ^ 52 <<< (f - (0 - (k : Int))).toNat ≤ 2 ^ k := by
    rw [Nat.shiftLeft_eq, ← pow_add]
    exact Nat.pow_le_pow_right (by omega) (by omega)
  have hsum := Int.natAbs_add_le (signed (rSign ieee x) (m <<< (e - (0 - (k : Int))).toNat))
    (signed t (2 ^ 52 <<< (f - (0 - (k : Int))).toNat))
  rw [natAbs_signed, natAbs_signed] at hsum
  split
  · cases rSign ieee x && t <;> decide
  · rw [rIsFinite_eq, (rPack_mag _ _ _).1, decide_eq_true_eq]
    refine lt_of_le_of_lt (min_le_left _ _) (lt_of_le_of_lt ?_ roundMag_greatest_add_one)
    rw [← roundMag_shift 53 (-1074) _ k 0]
    refine roundMag_mono _ _ _ _ _ (by omega) ?_
    rw [Nat.add_mul, Nat.one_mul]
    exact hsum.trans (Nat.add_le_add hA hB)

/-- The difference the pitch output starts from is finite (R226). -/
theorem rSub_half_finite (x : RealBits) (hx : rIsFinite ieee x = true) :
    rIsFinite ieee (rSub ieee x (rHalf ieee)) = true :=
  rAdd_two_pow_finite x _ true (-53) hx (by decide) (by decide)

/-- The difference the amplitude output starts from is finite (R226). -/
theorem one_rSub_finite (x : RealBits) (hx : rIsFinite ieee x = true) :
    rIsFinite ieee (rSub ieee (r1 ieee) x) = true := by
  have hneg : rIsFinite ieee (rNeg ieee x) = true := by simpa only [rIsFinite_eq, rMag_rNeg] using hx
  rw [rSub, rAdd_comm]
  exact rAdd_two_pow_finite _ _ false (-52) hneg (by decide) (by decide)

/-- A finite number times 0.0 times a finite number is a zero. -/
theorem rMul_zero_mul (x y : RealBits) (hx : rIsFinite ieee x = true) (hy : rIsFinite ieee y = true) :
    rEq ieee (rMul ieee (rMul ieee x r0) y) r0 = true := by
  rw [rMul_zero x hx, rZero_mul _ y hy]
  cases rSign ieee x ^^ rSign ieee y <;> decide

/-- Below 0.5 of the delay phase the ramp is 0.0 (R225). -/
theorem Lfo.delayRamp_of_rLt (fm : Formats) (l : Lfo) (h : rLt fm l.delayPhase (rHalf fm) = true) :
    l.delayRamp fm = r0 := if_pos h

/-- Below 0.5 of the delay phase both outputs are zero (R226). -/
theorem Lfo.outputs_of_rLt (l : Lfo) (h : rLt ieee l.delayPhase (rHalf ieee) = true)
    (hvalue : rIsFinite ieee l.value = true) (hpmd : rIsFinite ieee l.pmd = true)
    (hamd : rIsFinite ieee l.amd = true) :
    rEq ieee (l.pitchMod ieee) r0 = true ∧ rEq ieee (l.ampMod ieee) r0 = true := by
  simp only [Lfo.pitchMod, Lfo.ampMod, l.delayRamp_of_rLt ieee h]
  exact ⟨rMul_zero_mul _ _ (rSub_half_finite _ hvalue) hpmd, rMul_zero_mul _ _ (one_rSub_finite _ hvalue) hamd⟩

/-- No instruction but LSTEP and LSCRUB moves the delay phase, except back to 0.0 (R219, R236). -/
theorem exec_delayPhase (i : Instr) (s t : State) (hx : exec i s = .next t) (hstep : ∀ x, i ≠ .lstep x)
    (hscrub : ∀ x, i ≠ .lscrub x) : t.lfo.delayPhase = s.lfo.delayPhase ∨ t.lfo.delayPhase = r0 := by
  by_cases hv : ∃ sr, i = .vreset sr
  · obtain ⟨sr, rfl⟩ := hv
    obtain ⟨-, rfl⟩ := execVreset_next sr s t hx
    exact .inr rfl
  · by_cases hr : i = .lreset
    · subst hr
      obtain ⟨-, rfl⟩ := (execLreset_next s t).1 hx
      exact .inr rfl
    · obtain ⟨-, -, -, -, -, -, -, hlfo, -⟩ := onlyTheNamedWriters i s t hx (not_exists.1 hv)
      obtain ⟨-, -, -, hphases⟩ := hlfo hstep hscrub
      exact .inl (hphases hr).2

/-- Settles O26: LRESET's own law, the writers of the delay phase, and the silence of a ramp at 0.0. -/
theorem lresetSilencesTheOutputs : Obligations.LresetSilencesTheOutputs := by
  refine ⟨fun s t hx => ?_, exec_delayPhase, Lfo.outputs_of_rLt⟩
  obtain ⟨-, rfl⟩ := (execLreset_next s t).1 hx
  rfl

/-! ### The delay phase under LSTEP (R218) -/

/-- Order of numbers is transitive. -/
theorem rLe_trans {fm : Formats} {x y z : RealBits} (hxy : rLe fm x y = true) (hyz : rLe fm y z = true) :
    rLe fm x z = true := by
  simp only [rLe, Bool.and_eq_true, decide_eq_true_eq] at hxy hyz ⊢
  exact ⟨⟨hxy.1.1, hyz.1.2⟩, hxy.2.trans hyz.2⟩

/-- A value not below `x` that does not reach `a` is at most `a`. -/
theorem rLe_of_not_rLe {fm : Formats} {a x y : RealBits} (ha : rIsNaN fm a = false) (hxy : rLe fm x y = true)
    (h : rLe fm a y = false) : rLe fm y a = true := by
  simp only [rLe, Bool.and_eq_true, decide_eq_true_eq, ha, Bool.not_false, Bool.true_and] at hxy h ⊢
  obtain ⟨⟨-, hy⟩, -⟩ := hxy
  simp only [hy, Bool.true_and, decide_eq_false_iff_not] at h
  exact ⟨⟨hy, trivial⟩, by omega⟩

/-- An operand LSTEP takes is a number at least 0.0. -/
theorem rLe_zero_of_nonNegOperand {x : RealBits} (h : nonNegOperand ieee x = true) : rLe ieee r0 x = true := by
  obtain ⟨hfin, hnn⟩ := (nonNegOperand_iff ieee x).1 h
  have hnum := rIsNaN_of_finite x hfin
  refine (rLe_zero_iff x).2 ⟨hnum, ((rLt_zero_iff x).1 hnn).resolve_left ?_⟩
  simp [hnum]

/-- A number in 0.0 .. 1.0 is finite. -/
theorem rIsFinite_of_unit {x : RealBits} (h0 : rLe ieee r0 x = true) (h1 : rLe ieee x (r1 ieee) = true) :
    rIsFinite ieee x = true := by
  have hone : rKey ieee (r1 ieee) = 0x3FF0000000000000 := by decide
  obtain ⟨-, hx⟩ := (rLe_zero_iff x).1 h0
  simp only [rLe, Bool.and_eq_true, decide_eq_true_eq] at h1
  obtain ⟨-, hkey⟩ := h1
  rw [hone, rKey] at hkey
  rw [rIsFinite_eq, decide_eq_true_eq]
  rcases hx with hsign | hmag
  · simp only [hsign, signed, if_neg Bool.false_ne_true] at hkey
    omega
  · omega

/-- The delay phase moves up to a saturated sum (R220). -/
theorem rLe_saturated_rAdd (x y : RealBits) (h0 : rLe ieee r0 x = true) (h1 : rLe ieee x (r1 ieee) = true)
    (hy : rLe ieee r0 y = true) :
    let z := if rLe ieee (r1 ieee) (rAdd ieee x y) = true then r1 ieee else rAdd ieee x y
    rLe ieee x z = true ∧ rLe ieee z (r1 ieee) = true := by
  have hup := rLe_rAdd x y (rIsFinite_of_unit h0 h1) h0 hy
  by_cases h : rLe ieee (r1 ieee) (rAdd ieee x y) = true
  · simp only [h, if_true]
    exact ⟨h1, by decide⟩
  · simp only [h]
    exact ⟨hup, rLe_of_not_rLe (by decide) hup (by simpa using h)⟩

/-- Settles O27: LSTEP adds a product of numbers at least 0.0 and saturates at 1.0. -/
theorem delayPhaseNeverDecreases : Obligations.DelayPhaseNeverDecreases := by
  intro scale d0 d1 s t hfm hx h0 h1 hd0 hd1 hlo hhi
  obtain ⟨-, hs, f, e0, e1, -, he0, he1, rfl⟩ := (execLstep_next scale s t).1 hx
  obtain rfl : d0 = e0 := Option.some.inj (h0.symm.trans he0)
  obtain rfl : d1 = e1 := Option.some.inj (h1.symm.trans he1)
  rw [hfm] at hs
  have hinc : nonNegOperand ieee (if rLt ieee s.lfo.delayPhase (rHalf ieee) = true then d0 else d1) = true := by
    split
    · exact hd0
    · exact hd1
  have hmove := rMul_nonneg scale _ ((nonNegOperand_iff ieee _).1 hs).1 ((nonNegOperand_iff ieee _).1 hinc).1
    (rLe_zero_of_nonNegOperand hs) (rLe_zero_of_nonNegOperand hinc)
  obtain ⟨hup, hone⟩ := rLe_saturated_rAdd s.lfo.delayPhase _ hlo hhi hmove
  simp only [State.withResult_lfo, State.withDraws_lfo, State.withLfo_lfo, lfoAdvance, hfm]
  exact ⟨hup, rLe_trans hlo hup, hone⟩

end Sys2Proof.Machine
end

section
/-!
PROOFS. The voice does not see the LFO (45_lfo.md R228, R312): the operations of the voice carry the LFO registers
along, and so does every instruction outside the LFO unit but VRESET.
-/
namespace Sys2Proof.Machine

/-! ### Operations that carry the LFO registers along -/

/-- What replacing the LFO registers does to the end of a computation: a next state has them replaced, a stop is the
same stop. -/
def Run.withLfo (x : Run State) (l : Lfo) : Run State := (State.withLfo · l) <$> x

/-- An operation does the same whatever the LFO registers hold, and carries them along. -/
def CarriesLfo (f : State → Run State) : Prop := ∀ (s : State) (l : Lfo), f (s.withLfo l) = Run.withLfo (f s) l

/-- An update that commutes with replacing the LFO registers. -/
theorem CarriesLfo.update {u : State → State} (hu : ∀ s l, u (s.withLfo l) = (u s).withLfo l) :
    CarriesLfo fun s => .ok (u s) := fun s l => congrArg Except.ok (hu s l)

/-- A choice no LFO register enters. -/
theorem CarriesLfo.ite {c : State → Prop} [∀ s, Decidable (c s)] {f g : State → Run State}
    (hc : ∀ s l, c (s.withLfo l) ↔ c s) (hf : CarriesLfo f) (hg : CarriesLfo g) :
    CarriesLfo fun s => if c s then f s else g s := by
  intro s l
  by_cases h : c s
  · simp only [if_pos h, if_pos ((hc s l).2 h), hf s l]
  · simp only [if_neg h, if_neg (mt (hc s l).1 h), hg s l]

/-- A value read that no LFO register enters, then an operation for it. -/
theorem CarriesLfo.read {α : Type} {x : State → Run α} {g : α → State → Run State}
    (hx : ∀ s l, x (s.withLfo l) = x s) (hg : ∀ a, CarriesLfo (g a)) :
    CarriesLfo fun s => x s >>= fun a => g a s := by
  intro s l
  simp only [hx s l, Run.withLfo, map_bind]
  exact bind_congr fun a => hg a s l

/-- One operation after the other. -/
theorem CarriesLfo.seq {f g : State → Run State} (hf : CarriesLfo f) (hg : CarriesLfo g) :
    CarriesLfo fun s => f s >>= g := by
  intro s l
  simp only [hf s l, Run.withLfo, map_bind, bind_map_left]
  exact bind_congr fun t => hg t l

/-! ### The chain renderer and the router -/

/-- A chain call (R151 to R156). -/
theorem chainCall_carriesLfo (bmax n : Nat) (src : Source) (add : Bool) (first : Nat) (inp out : Slot) :
    CarriesLfo (chainCall bmax n src add first inp out) := by
  refine .read (fun _ _ => rfl) fun c => .read (fun _ _ => rfl) fun _ => .read (fun _ _ => rfl) fun _ =>
    .read (fun _ _ => rfl) fun scale => .read (fun _ _ => rfl) fun r => .update fun s l => ?_
  unfold chainCommit
  cases src.isFeedback <;> rfl

/-- Issuing a call of a plan (R179). -/
theorem runCall_carriesLfo (c : Call) : CarriesLfo (runCall c) := by
  intro s l
  by_cases h : c.first < 6
  · rw [runCall_eq c _ h, runCall_eq c _ h, chainCall_carriesLfo]
  · simp only [runCall, dif_neg h]
    rfl

/-- The calls of a plan (R179). -/
theorem runPlan_carriesLfo (plan : List Call) : CarriesLfo (runPlan plan) := by
  induction plan with
  | nil => exact .update fun _ _ => rfl
  | cons c rest ih => exact .seq (runCall_carriesLfo c) ih

/-- A routing opcode (R173 to R176). -/
theorem routeOpcode_carriesLfo (o : Byte) : CarriesLfo (routeOpcode o) :=
  .read (fun _ _ => rfl) fun _ => .read (fun _ _ => rfl) fun _ => .read (fun _ _ => rfl) fun call =>
    runCall_carriesLfo call

/-! ### The voice driver -/

/-- SETUP's effect (R238). -/
theorem setupWith_carriesLfo (cfg : Config.Params) : CarriesLfo (setupWith cfg) :=
  .read (fun _ _ => rfl) fun _ => .ite (fun _ _ => Iff.rfl) (.update fun _ _ => rfl) (.update fun _ _ => rfl)

/-- Step 4 of RENDER (R245). -/
theorem noteStep_withLfo (cfg : Config.Params) (p : Patch) (a : RenderArgs) (s : State) (l : Lfo) :
    noteStep cfg p a (s.withLfo l) = (noteStep cfg p a s).withLfo l := by
  rw [noteStep_frame, noteStep_frame]
  rfl

/-- Steps 1 to 5 of RENDER (R242 to R249). -/
theorem renderTargets_carriesLfo (cfg : Config.Params) (a : RenderArgs) (p : Patch) :
    CarriesLfo (renderTargets cfg a p) := by
  have hnote := noteStep_withLfo cfg p a
  refine .read (fun _ _ => rfl) fun (penv, pe) => .read (fun s l => ?_) fun note => .read (fun s l => ?_) fun nvel =>
    .read (fun s l => ?_) fun t => .update fun s l => ?_
  all_goals
    rw [hnote]
    rfl

/-- Step 6 of RENDER (R179). -/
theorem renderDispatch_carriesLfo (cfg : Config.Params) (p : Patch) : CarriesLfo (renderDispatch cfg p) :=
  .read (fun _ _ => rfl) fun plan => .seq (runPlan_carriesLfo plan) (.update fun _ _ => rfl)

/-- RENDER (R240, R312). -/
theorem renderWith_carriesLfo (cfg : Config.Params) (a : RenderArgs) : CarriesLfo (renderWith cfg a) :=
  .read (x := renderChecks cfg a) (fun _ _ => rfl) fun p => .seq (setupWith_carriesLfo cfg) <|
    .seq (renderTargets_carriesLfo cfg a p) <| .seq (renderDispatch_carriesLfo cfg p) (.update fun _ _ => rfl)

/-! ### Every instruction -/

/-- Every instruction but VRESET and the four LFO commands carries the LFO registers along. -/
theorem exec_carriesLfo (i : Instr) (hvreset : ∀ sr, i ≠ .vreset sr) (hlcfg : i ≠ .lcfg) (hlreset : i ≠ .lreset)
    (hlstep : ∀ x, i ≠ .lstep x) (hlscrub : ∀ x, i ≠ .lscrub x) :
    ∃ f, CarriesLfo f ∧ ∀ s, exec i s = finish (f s) := by
  have hchain : ∀ {n src add first inp out}, CarriesLfo (chainCall Config.bmax n src add first inp out) :=
    chainCall_carriesLfo _ _ _ _ _ _ _
  cases i with
  | opn dst add tap => exact ⟨_, routeOpcode_carriesLfo _, fun _ => rfl⟩
  | opx1 dst add tap => exact ⟨_, routeOpcode_carriesLfo _, fun _ => rfl⟩
  | opx2 dst add tap => exact ⟨_, routeOpcode_carriesLfo _, fun _ => rfl⟩
  | opf dst add tap => exact ⟨_, routeOpcode_carriesLfo _, fun _ => rfl⟩
  | ch1NoneW first inp out => exact ⟨_, hchain, fun _ => rfl⟩
  | ch1NoneA first inp out => exact ⟨_, hchain, fun _ => rfl⟩
  | ch1ExtW first inp out => exact ⟨_, hchain, fun _ => rfl⟩
  | ch1ExtA first inp out => exact ⟨_, hchain, fun _ => rfl⟩
  | ch1Fb0W first inp out => exact ⟨_, hchain, fun _ => rfl⟩
  | ch1Fb0A first inp out => exact ⟨_, hchain, fun _ => rfl⟩
  | ch2Fb1A first inp out => exact ⟨_, hchain, fun _ => rfl⟩
  | ch3Fb2A first inp out => exact ⟨_, hchain, fun _ => rfl⟩
  | vreset sr => exact absurd rfl (hvreset sr)
  | pload img =>
    refine ⟨_, .read (fun _ _ => rfl) fun _ => .ite (fun _ _ => Iff.rfl) (.update fun _ _ => rfl)
      (.update fun _ _ => rfl), fun _ => rfl⟩
  | setup =>
    refine ⟨_, .read (fun _ _ => rfl) fun _ => .seq (setupWith_carriesLfo _) (.update fun _ _ => rfl), fun _ => rfl⟩
  | render a => exact ⟨_, renderWith_carriesLfo _ a, fun _ => rfl⟩
  | opreset k =>
    refine ⟨_, .read (fun _ _ => rfl) fun _ => .read (fun _ _ => rfl) fun _ => .update fun _ _ => rfl, fun _ => rfl⟩
  | lcfg => exact absurd rfl hlcfg
  | lreset => exact absurd rfl hlreset
  | lstep scale => exact absurd rfl (hlstep scale)
  | lscrub sample => exact absurd rfl (hlscrub sample)
  | bunpack bank =>
    refine ⟨_, .ite (fun _ _ => Iff.rfl) (.update fun _ _ => rfl) <|
      .ite (fun _ _ => Iff.rfl) (.update fun _ _ => rfl) (.update fun _ _ => rfl), fun _ => rfl⟩

/-- Settles O57: the computation behind each such instruction carries the LFO registers along, so its next state has
them replaced and its refusal is the same. -/
theorem voiceDoesNotSeeTheLfo : Obligations.VoiceDoesNotSeeTheLfo := by
  intro i s l hvreset hlcfg hlreset hlstep hlscrub
  obtain ⟨f, hf, hexec⟩ := exec_carriesLfo i hvreset hlcfg hlreset hlstep hlscrub
  have hl : exec i { s with lfo := l } = finish (Run.withLfo (f s) l) := (hexec _).trans (congrArg finish (hf s l))
  rw [hl, hexec]
  refine ⟨fun t ht => ?_, fun r hr => ?_⟩
  · rw [(finish_next _ _).1 ht]
    rfl
  · rw [(finish_refused _ _).1 hr]
    rfl

end Sys2Proof.Machine
end

section
/-!
PROOFS. The voice driver's VRESET and SETUP (46_voice.md R236, R238).
-/
namespace Sys2Proof.Machine

/-! ### VRESET -/

/-- The sample rates VRESET refuses (R236). -/
theorem sampleRateOk_eq_false_iff (fm : Formats) (sr : RealBits) :
    sampleRateOk fm sr = false ↔ rIsFinite fm sr = false ∨ rLt fm r0 sr = false := by
  cases h : rIsFinite fm sr <;> simp [sampleRateOk, h]

/-- VRESET of any other operand is refused (R236). -/
theorem execVreset_refused (sr : RealBits) (s : State) (h : sampleRateOk s.formats sr = false) :
    execVreset sr s = .refused .sampleRateOutOfDomain := by
  simp only [execVreset, h, require_false, refuse_bind, finish_refuse]

/-- Settles O8: VRESET's whole next state is the reset state with the operand's rate and scale (R302). -/
theorem vresetResult : Obligations.VresetResult := by
  intro sr s
  refine ⟨fun hfinite hpos => ?_, fun hbad => execVreset_refused sr s ((sampleRateOk_eq_false_iff _ _).2 hbad)⟩
  have hok : sampleRateOk s.formats sr = true := by simp only [sampleRateOk, hfinite, hpos, Bool.and_self]
  exact execVreset_of_sampleRateOk sr s hok

/-! ### SETUP -/

/-- The patch registers of a loaded patch. -/
theorem needPatch_of_patch {s : State} {p : Patch} (hv : s.patchValid = true) (hp : s.patch = some p) :
    s.needPatch = .ok p :=
  (needPatch_ok s p).2 ⟨hv, hp⟩

/-- Nothing is read of the patch registers while PATCH_VALID is clear (R28). -/
theorem needPatch_refused {s : State} (hv : s.patchValid = false) : s.needPatch = refuse .noPatchLoaded := by
  simp only [State.needPatch, hv, require_false, refuse_bind]

/-- SETUP with PATCH_VALID clear is refused (R238). -/
theorem execSetup_refused (s : State) (hc : s.constructed = true) (hv : s.patchValid = false) :
    execSetup s = .refused .noPatchLoaded := by
  simp only [execSetup, (needConstructed_ok s ()).2 hc, setupWith, needPatch_refused hv, ok_bind, refuse_bind,
    finish_refuse]

/-- Settles O18: SETUP's next state, by its law; the units it configures stand still, and the registers it derives are
read back entry by entry. -/
theorem setupResult : Obligations.SetupResult := by
  intro s fm hc
  refine ⟨execSetup_refused s hc, fun p hv hp => ⟨fun hclean => ?_, fun hdirty => ?_⟩⟩
  · exact (execSetup_next s _).2 ⟨hc, s, (setupWith_ok _ s s).2 ⟨hv, p, hp, .inr ⟨hclean, rfl⟩⟩, rfl⟩
  · have hsetup := (setupWith_ok Config.params s _).2 ⟨hv, p, hp, .inl ⟨hdirty, rfl⟩⟩
    obtain ⟨⟨hpstage, hpphase, hpstart⟩, hunits, -, -⟩ := setupWith_units _ s _ hsetup
    obtain ⟨-, -, -, hpscale, hscale⟩ := State.settings_registers (setupWith_settings _ s _ hsetup)
    refine ⟨_, (execSetup_next s _).2 ⟨hc, _, hsetup, rfl⟩, rfl, rfl, hpstage, hpphase, hpstart, hpscale,
      fun k hk => ?_⟩
    obtain ⟨hstage, hphase, hstart⟩ := hunits k hk
    exact ⟨Six.get_ofFn _ k hk, hstage, hphase, hstart, hscale k hk, Six.get_map _ _ k, Six.get_map _ _ k⟩

/-- SETUP's effect leaves DIRTY clear (R238). -/
theorem setupWith_dirty {cfg : Config.Params} {s t : State} (h : setupWith cfg s = .ok t) : t.dirty = false := by
  rw [setupWith_frame cfg s t h]

/-- SETUP's effect on a state that is not dirty, with a patch loaded: none (R238). -/
theorem setupWith_clean {cfg : Config.Params} {s : State} {p : Patch} (hv : s.patchValid = true) (hp : s.patch = some p)
    (hclean : s.dirty = false) : setupWith cfg s = .ok s :=
  (setupWith_ok cfg s s).2 ⟨hv, p, hp, .inr ⟨hclean, rfl⟩⟩

/-- A state SETUP's effect left has a patch loaded, the one it had before (R238). -/
theorem setupWith_patch {cfg : Config.Params} {s t : State} (h : setupWith cfg s = .ok t) :
    ∃ p, s.patchValid = true ∧ s.patch = some p ∧ t.patchValid = true ∧ t.patch = some p := by
  obtain ⟨hv, p, hp, -⟩ := (setupWith_ok cfg s t).1 h
  rw [setupWith_frame cfg s t h]
  exact ⟨p, hv, hp, hv, hp⟩

/-- Where the derived registers already hold what SETUP derives, forcing it by DIRTY writes the same values (R73(b)). -/
theorem setupWith_forced {s : State} {p : Patch} (hv : s.patchValid = true) (hp : s.patch = some p)
    (hclean : s.dirty = false) (h : s.DerivedFrom p) : setupWith Config.params { s with dirty := true } = .ok s := by
  refine (setupWith_ok _ _ s).2 ⟨hv, p, hp, .inl ⟨rfl, ?_⟩⟩
  obtain ⟨henv, hpenv, hratio, hheadroom⟩ := h
  have henv' : (Six.ofFn fun k => envSetOp s.formats (p.op.get k) (s.env.get k)) = s.env :=
    Six.ext_get _ _ fun k hk => (Six.get_ofFn _ k hk).trans (henv k hk)
  have hratio' : (p.op.map fun q => some (ratioOf s.formats Config.params q)) = s.ratio :=
    Six.ext_get _ _ fun k hk => (Six.get_map _ _ k).trans (hratio k hk).symm
  have hheadroom' : (p.op.map fun q => some (headroomOf s.formats q)) = s.headroom :=
    Six.ext_get _ _ fun k hk => (Six.get_map _ _ k).trans (hheadroom k hk).symm
  simp only [setupRegs, henv', hpenv, hratio', hheadroom', ← hclean]

/-- Settles O19: SETUP leaves DIRTY clear, so a second one does nothing; and it leaves a coherent state, in which a
forced one derives what is there. -/
theorem setupIsIdempotent : Obligations.SetupIsIdempotent := by
  intro s t h
  obtain ⟨hc, u, hu, rfl⟩ := (execSetup_next s t).1 h
  obtain ⟨p, -, -, hv, hp⟩ := setupWith_patch hu
  have hclean := setupWith_dirty hu
  have hcu : u.constructed = true := by rw [setupWith_frame _ s u hu]; exact hc
  refine ⟨?_, fun hcoherent => ?_⟩
  · exact (execSetup_next _ _).2 ⟨hcu, _, setupWith_clean hv hp hclean, rfl⟩
  · have hu' : u.Coherent := setupWith_keeps_coherence s u (hcoherent.elim State.coherent_of_dirty id) hu
    exact (execSetup_next _ _).2
      ⟨hcu, _, setupWith_forced (s := u.withResult .ok) hv hp hclean (hu' hclean p hp), rfl⟩

end Sys2Proof.Machine
end

section
/-!
PROOFS. RENDER (46_voice.md R240 to R251): the states between its steps, what it leaves alone, and what it computes.
-/
namespace Sys2Proof.Machine

/-! ### The steps of a RENDER -/

/-- What the instruction RENDER runs. -/
theorem exec_render (a : RenderArgs) (s : State) : exec (.render a) s = execRender a s := rfl

/-- A RENDER from `s` that runs to its end, with the states between its steps: after the preamble (R241), after step 5
and after step 6. -/
structure RenderRun (a : RenderArgs) (s : State) where
  p : Patch
  configured : State
  targeted : State
  ctx : RenderCtx
  plan : List Call
  dispatched : State
  patch : s.patch = some p
  constructed : s.constructed = true
  setup : setupWith Config.params s = .ok configured
  targets : renderTargets Config.params a p configured = .ok targeted
  rc : targeted.rc = some ctx
  index : ctx.index = 0
  block : ctx.block = a.block.toNat
  row : ctx.row = algRow Config.params p.alg
  compiled : compile (algRow Config.params p.alg) = some plan
  run : runPlan plan targeted = .ok dispatched

/-- The state such a RENDER answers. -/
def RenderRun.final {a : RenderArgs} {s : State} (r : RenderRun a s) : State :=
  (r.dispatched.withRc none).withResult .ok

/-- Step 5 binds a context at the start of the row (R37, R151). -/
theorem renderTargets_rc {cfg : Config.Params} {a : RenderArgs} {p : Patch} {s t : State}
    (h : renderTargets cfg a p s = .ok t) :
    ∃ c, t.rc = some c ∧ c.index = 0 ∧ c.block = a.block.toNat ∧ c.row = algRow cfg p.alg := by
  obtain ⟨_, _, _, _, _, -, -, -, -, rfl⟩ := (renderTargets_ok _ _ _ _ _).1 h
  exact ⟨_, rfl, rfl, rfl, rfl⟩

/-- Every RENDER that runs to its end takes these steps. -/
theorem execRender_run {a : RenderArgs} {s t : State} (h : execRender a s = .next t) :
    ∃ r : RenderRun a s, t = r.final := by
  obtain ⟨p, s1, s2, plan, s3, hchecks, hsetup, htargets, hplan, hrun, hanswer⟩ := (execRender_next a s t).1 h
  obtain ⟨hc, -, -, -, hp, -⟩ := (renderChecks_ok _ a s p).1 hchecks
  obtain ⟨c, hrc, hindex, hblock, hrow⟩ := renderTargets_rc htargets
  exact ⟨⟨p, s1, s2, c, plan, s3, hp, hc, hsetup, htargets, hrc, hindex, hblock, hrow, hplan, hrun⟩, hanswer⟩

/-! ### What each step leaves alone -/

/-- A note is latched on a rising edge of the gate and in every scrubbing block (R245). -/
theorem latchesNote_iff (gate gatePrev sustain : Bool) :
    latchesNote gate gatePrev sustain = true ↔ (gate = true ∧ gatePrev = false) ∨ sustain = true := by
  simp [latchesNote, noteOn]

/-- Neither where the gate was held, or is not, and the mode is not scrubbing (R245). -/
theorem latchesNote_of_held {gate gatePrev sustain : Bool} (hgate : gate = false ∨ gatePrev = true)
    (hs : sustain = false) : latchesNote gate gatePrev sustain = false := by
  rcases hgate with h | h <;> simp [latchesNote, noteOn, h, hs]

/-- Beside step 4's registers, steps 1 to 5 write the units, the readout LEVEL_OUT and the context (R242 to R249). -/
theorem renderTargets_frame {cfg : Config.Params} {a : RenderArgs} {p : Patch} {s t : State}
    (h : renderTargets cfg a p s = .ok t) :
    t = { noteStep cfg p a s with env := t.env, penv := t.penv, levelOut := t.levelOut, rc := t.rc } := by
  obtain ⟨_, _, _, _, _, -, -, -, -, rfl⟩ := (renderTargets_ok _ _ _ _ _).1 h
  rfl

/-- Steps 1 to 5 write every readout LEVEL_OUT (R248). -/
theorem renderTargets_levelOut {cfg : Config.Params} {a : RenderArgs} {p : Patch} {s t : State}
    (h : renderTargets cfg a p s = .ok t) : t.levelOut.all Option.isSome = true := by
  obtain ⟨_, _, _, _, _, -, -, -, -, rfl⟩ := (renderTargets_ok _ _ _ _ _).1 h
  rfl

/-- In scrubbing mode steps 1 to 5 move no envelope unit (R205, R243, R247). -/
theorem renderTargets_scrubbed {cfg : Config.Params} {a : RenderArgs} {p : Patch} {s t : State}
    (h : renderTargets cfg a p s = .ok t) (hs : a.sustain = true) : t.penv = s.penv ∧ t.env = s.env := by
  obtain ⟨penv, pe, note, nvel, x, hpenv, -, -, htargets, rfl⟩ := (renderTargets_ok _ _ _ _ _).1 h
  obtain ⟨-, -, -, hstill⟩ := envBlock_frame _ _ _ _ _ _ _ _ hpenv
  refine ⟨hstill hs, Six.ext_get _ _ fun k hk => ?_⟩
  obtain ⟨_, _, _, -, -, hblock, -⟩ := (opTarget_ok _ _ _ _ _ _).1 ((opTargets_ok _ _ _ _ _).1 htargets k hk)
  obtain ⟨-, -, -, hstill'⟩ := envBlock_frame _ _ _ _ _ _ _ _ hblock
  calc (x.map (·.env)).get k = (x.get k).env := Six.get_map _ _ _
    _ = (noteStep cfg p a s).env.get k := hstill' hs
    _ = s.env.get k := by rw [noteStep_frame]

/-- What the host reads of the buffer depends on the buffer alone (R64). -/
theorem State.sample_congr {s t : State} (h : t.buf = s.buf) (slot i : Nat) : t.sample slot i = s.sample slot i := by
  simp only [State.sample, h]

/-- So does which samples are written (R63). -/
theorem State.blockWritten_congr {s t : State} (h : t.buf = s.buf) (slot : Slot) (n : Nat) :
    t.blockWritten slot n ↔ s.blockWritten slot n := by
  simp only [State.blockWritten, State.sample_congr h]

namespace RenderRun

variable {a : RenderArgs} {s : State} (r : RenderRun a s)

/-- The plan's calls name operators that exist (R180). -/
theorem first_lt : ∀ x ∈ r.plan, x.first < 6 := fun x hx => (compile_mem _ _ r.compiled x hx).1

/-- Up to step 5 a RENDER writes what SETUP and steps 1 to 5 write (R238, R242 to R249). -/
theorem targeted_frame :
    r.targeted = { s with
      ops := r.targeted.ops, env := r.targeted.env, penv := r.targeted.penv, note := r.targeted.note,
      nvel := r.targeted.nvel, ratio := r.targeted.ratio, headroom := r.targeted.headroom,
      levelOut := r.targeted.levelOut, gatePrev := a.gate, dirty := false, rc := r.targeted.rc } := by
  rw [renderTargets_frame r.targets, noteStep_frame, setupWith_frame _ s _ r.setup]

/-- Step 6 writes operators, feedback history and buffer alone; the rest stands as step 5 left it (R250). -/
theorem final_frame :
    r.final = { r.targeted with
      ops := r.final.ops, fb0 := r.final.fb0, fb1 := r.final.fb1, buf := r.final.buf, rc := none, result := .ok } := by
  obtain ⟨hrun, -⟩ := runPlan_frame r.plan _ _ r.run r.ctx r.rc r.first_lt
  rw [final, hrun]
  rfl

/-- The whole RENDER (R240, R251). -/
theorem frame :
    r.final = { s with
      ops := r.final.ops, env := r.final.env, penv := r.final.penv, fb0 := r.final.fb0, fb1 := r.final.fb1,
      note := r.final.note, nvel := r.final.nvel, ratio := r.final.ratio, headroom := r.final.headroom,
      levelOut := r.final.levelOut, gatePrev := a.gate, dirty := false, buf := r.final.buf, rc := none,
      result := .ok } := by
  rw [r.final_frame, r.targeted_frame]

/-- The flags, the result and the patch after a RENDER (R27, R241, R245). -/
theorem flags :
    r.final.gatePrev = a.gate ∧ r.final.dirty = false ∧ r.final.result = .ok ∧ r.final.rc = none ∧
      r.final.patch = s.patch := by
  rw [r.frame]
  exact ⟨rfl, rfl, rfl, rfl, rfl⟩

/-- A RENDER leaves every readout LEVEL_OUT written (R248). -/
theorem levelOut_written : r.final.levelOut.all Option.isSome = true := by
  have h := renderTargets_levelOut r.targets
  rw [r.final_frame]
  exact h

/-- The preamble finds DIRTY clear and does nothing (R241). -/
theorem configured_of_clean (hclean : s.dirty = false) : r.configured = s := by
  obtain ⟨-, -, -, ⟨hdirty, -⟩ | ⟨-, h⟩⟩ := (setupWith_ok _ s _).1 r.setup
  · rw [hclean] at hdirty; cases hdirty
  · exact h

/-- After the preamble a RENDER derives nothing (R241). -/
theorem sameDerived : r.configured.SameDerived r.final := by
  obtain ⟨hdirty, hpatch, hformats, hratio, hheadroom, henv, hpenv⟩ :=
    renderTargets_sameDerived _ _ _ _ _ r.targets
  rw [r.final_frame]
  exact ⟨hdirty, hpatch, hformats, hratio, hheadroom, henv, hpenv⟩

/-- In scrubbing mode a RENDER moves no envelope unit: the preamble does not either (R205, R238). -/
theorem units_of_scrubbed (hs : a.sustain = true) :
    (r.final.penv.stage = s.penv.stage ∧ r.final.penv.phase = s.penv.phase ∧ r.final.penv.start = s.penv.start) ∧
      ∀ k < 6, (r.final.env.get k).stage = (s.env.get k).stage ∧ (r.final.env.get k).phase = (s.env.get k).phase ∧
        (r.final.env.get k).start = (s.env.get k).start := by
  obtain ⟨hpenv, henv⟩ := renderTargets_scrubbed r.targets hs
  obtain ⟨hpunit, hunits, -, -⟩ := setupWith_units _ s _ r.setup
  rw [r.final_frame]
  simp only [hpenv, henv]
  exact ⟨hpunit, hunits⟩

/-- The registers of step 4, from those before the RENDER (R245): the preamble does not write them. -/
theorem targeted_notes :
    r.targeted.note = (if latchesNote a.gate s.gatePrev a.sustain then some a.note else s.note) ∧
      r.targeted.nvel = (if latchesNote a.gate s.gatePrev a.sustain
        then some (normalizeVelocity s.formats Config.params a.velocity) else s.nvel) ∧
      r.targeted.ops = (if noteOn a.gate s.gatePrev && r.p.resetPhase = 1 then clearPhases s.ops else s.ops) := by
  rw [renderTargets_frame r.targets, noteStep_frame, setupWith_frame _ s _ r.setup]
  exact ⟨rfl, rfl, rfl⟩

/-- Samples a RENDER leaves alone (R251): those at or beyond B, and every slot no call of the plan writes. -/
theorem sample_final (slot i : Nat) (h : a.block.toNat ≤ i ∨ ∀ c ∈ r.plan, c.out.toNat ≠ slot) :
    r.final.sample slot i = s.sample slot i := by
  obtain ⟨-, -, hbeyond, hslot, -⟩ := runPlan_frame r.plan _ _ r.run r.ctx r.rc r.first_lt
  have hbuf : r.targeted.buf = s.buf := by rw [r.targeted_frame]
  calc r.final.sample slot i = r.dispatched.sample slot i := State.sample_congr rfl slot i
    _ = r.targeted.sample slot i := h.elim (fun hi => hbeyond slot i (r.block ▸ hi)) (hslot slot i)
    _ = s.sample slot i := State.sample_congr hbuf slot i

end RenderRun

/-- Settles O46: what each step leaves alone, put together. -/
theorem renderFrame : Obligations.RenderFrame := by
  intro a s t h
  obtain ⟨-, -, -, hscale⟩ := State.settings_registers (execRender_settings a s t h)
  obtain ⟨r, rfl⟩ := execRender_run h
  refine ⟨r.frame, fun hclean => ?_, hscale, fun hs => ?_, fun hgate hs => ?_, fun slot i hi =>
    r.sample_final slot i (.inl hi), fun p plan hp hplan slot i hslot => r.sample_final slot i (.inr ?_)⟩
  · obtain ⟨-, -, -, hratio, hheadroom, henv, hpenv⟩ := r.configured_of_clean hclean ▸ r.sameDerived
    exact ⟨hratio, hheadroom, hpenv.level, hpenv.incr, fun k hk => ⟨(henv k hk).level, (henv k hk).incr⟩⟩
  · obtain ⟨⟨hpstage, hpphase, hpstart⟩, hunits⟩ := r.units_of_scrubbed hs
    exact ⟨hpstage, hpphase, hpstart, hunits⟩
  · obtain ⟨hnote, hnvel, -⟩ := r.targeted_notes
    rw [latchesNote_of_held hgate hs, if_neg Bool.false_ne_true] at hnote hnvel
    rw [r.final_frame]
    exact ⟨hnote, hnvel⟩
  · obtain rfl : r.p = p := Option.some.inj (r.patch.symm.trans hp)
    obtain rfl : r.plan = plan := Option.some.inj (r.compiled.symm.trans hplan)
    exact hslot

end Sys2Proof.Machine
end

section
/-!
PROOFS. What a RENDER computes (46_voice.md R242 to R250).
-/
namespace Sys2Proof.Machine

/-! ### Step 5 in the model's own formulas -/

/-- The adjusted level with the modulator test of R172 written out (R248). -/
theorem adjustedLevel_eq (fm : Formats) (q : OpPatch) (row : Six Byte) (k : Nat)
    (brightness note nvel headroom l : RealBits) :
    adjustedLevel fm q (isModulator row k) brightness note nvel headroom l =
      rAdd fm l (rMul fm (rLit fm 125 1000) (rMin fm (rAdd fm (rAdd fm (keyboardScaling fm note q.ks)
        (rMul fm nvel (rOfInt fm q.vs)))
        (if opcodeDst (row.get k) = 0#2 then r0 else rMul fm (rSub fm brightness (rHalf fm)) (rLit fm 32 1)))
        headroom)) := by
  by_cases h : opcodeDst (row.get k) = 0#2
  · have hm : isModulator row k = false := by simp [isModulator, h]
    simp [adjustedLevel, hm, h]
  · have hm : isModulator row k = true := by simp [isModulator, h]
    simp [adjustedLevel, hm, h]

/-- Clearing the phases, operator by operator (R245). -/
theorem clearPhases_get (ops : Six Oper) (k : Nat) : (clearPhases ops).get k = { ops.get k with phase := 0#32 } :=
  Six.get_map _ _ _

/-- What steps 1 to 5 leave, register by register (R242 to R249): the units after one block, the latched note and
velocity, each level, and the targets bound for the chain calls. -/
theorem renderTargets_registers {cfg : Config.Params} {a : RenderArgs} {p : Patch} {s t : State} {c : RenderCtx}
    (h : renderTargets cfg a p s = .ok t) (hc : t.rc = some c) :
    ∃ note nvel pe, t.note = some note ∧ t.nvel = some nvel ∧
      envBlock s.formats .pitch s.penv a (envelopeRate s.formats a) (adScale s.formats cfg a.envctl)
        (releaseScale s.formats cfg a.envctl) = .ok (t.penv, pe) ∧
      ∀ k < 6, ∃ l l2 ratio headroom, s.ratio.get k = some ratio ∧ s.headroom.get k = some headroom ∧
        envBlock s.formats .operator (s.env.get k) a
          (rMul s.formats (envelopeRate s.formats a) (rateScaling s.formats cfg note (p.op.get k).rs))
          (adScale s.formats cfg a.envctl) (releaseScale s.formats cfg a.envctl) = .ok (t.env.get k, l) ∧
        l2 = adjustedLevel s.formats (p.op.get k) (isModulator (algRow cfg p.alg) k) a.brightness note nvel headroom l ∧
        t.levelOut.get k = some l2 ∧
        c.f.get k = targetFrequency s.formats s.sampleRate
          (baseFrequency s.formats cfg s.sampleRate a.note (rAdd s.formats pe a.pitchMod) p.transpose) ratio ∧
        c.a.get k = targetAmplitude s.formats cfg (p.op.get k).ams a.ampMod l2 := by
  obtain ⟨penv, pe, note, nvel, x, hpenv, hnote, hnvel, htargets, rfl⟩ := (renderTargets_ok _ _ _ _ _).1 h
  obtain rfl := Option.some.inj hc
  refine ⟨note, nvel, pe, hnote, hnvel, hpenv, fun k hk => ?_⟩
  obtain ⟨ratio, headroom, l, hratio, hheadroom, hblock, hf, hlevel, ha⟩ :=
    (opTarget_ok _ _ _ _ _ _).1 ((opTargets_ok _ _ _ _ _).1 htargets k hk)
  rw [noteStep_frame] at hratio hheadroom hblock hf hlevel ha
  refine ⟨l, _, ratio, headroom, hratio, hheadroom, ?_, hlevel, Six.get_map _ _ k, ?_, ?_⟩
  · exact hblock.trans (congrArg (fun e => Except.ok (e, l)) (Six.get_map OpTarget.env x k).symm)
  · exact (Six.get_map _ _ k).trans hf
  · exact (Six.get_map _ _ k).trans ha

/-- Settles O45: the registers steps 1 to 5 leave, with the model's formulas written out, and the plan as
instructions. -/
theorem renderMeaning : Obligations.RenderMeaning := by
  intro a s t fm h
  obtain ⟨r, rfl⟩ := execRender_run h
  obtain ⟨is, his⟩ := compile_instrs _ _ r.compiled
  obtain ⟨note, nvel, pe, hnote, hnvel, hpenv, hunits⟩ := renderTargets_registers r.targets r.rc
  obtain ⟨hlatch, hlatchv, hops⟩ := r.targeted_notes
  have hfm : r.configured.formats = fm := by rw [setupWith_frame _ s _ r.setup]
  have hsr : r.configured.sampleRate = s.sampleRate := by rw [setupWith_frame _ s _ r.setup]
  have hrun : execAll is r.targeted = .next r.dispatched := by
    rw [← runPlan_execAll r.plan is _ his, r.run, finish_ok]
  rw [hfm] at hpenv
  rw [hnote] at hlatch
  rw [hnvel] at hlatchv
  refine ⟨r.p, r.configured.withResult .ok, r.targeted, r.ctx, r.plan, is, r.dispatched, note, nvel, pe, r.patch,
    (execSetup_next _ _).2 ⟨r.constructed, _, r.setup, rfl⟩, ?_, ?_, ?_, ?_, ?_, ?_, r.rc, r.index, r.block,
    r.row, ?_, ?_, ?_, ?_, ?_, r.compiled, his, hrun, rfl⟩
  · rw [r.final_frame]; exact hpenv
  · rw [r.final_frame]; exact hnote
  · rw [r.final_frame]; exact hnvel
  · intro hl
    rw [if_pos ((latchesNote_iff _ _ _).2 hl)] at hlatch hlatchv
    exact ⟨Option.some.inj hlatch, Option.some.inj hlatchv⟩
  · intro hrising hs
    have hl : ¬ latchesNote a.gate s.gatePrev a.sustain = true := by
      rw [latchesNote_iff, hs]
      simpa using hrising
    rw [if_neg hl] at hlatch hlatchv
    exact ⟨hlatch.symm, hlatchv.symm⟩
  · intro k hk
    obtain ⟨l, l2, ratio, headroom, hratio, hheadroom, hblock, hlevel, hout, hf, ha⟩ := hunits k hk
    rw [hfm] at hblock hf ha hlevel
    rw [hsr] at hf
    rw [adjustedLevel_eq] at hlevel
    rw [r.final_frame]
    exact ⟨l, l2, ratio, headroom, hratio, hheadroom, hblock, hlevel, hout, hf, ha⟩
  · rw [r.targeted_frame]
  · rw [r.targeted_frame]
  · rw [r.targeted_frame]
  · rw [r.targeted_frame]; exact r.patch
  · intro k hk
    rw [hops]
    by_cases hon : (a.gate = true ∧ s.gatePrev = false) ∧ r.p.resetPhase = 1
    · rw [if_pos hon, if_pos (by simpa [noteOn] using hon), clearPhases_get]
      rfl
    · rw [if_neg hon, if_neg (by simpa [noteOn] using hon)]

end Sys2Proof.Machine
end

section
/-!
PROOFS. Where a RENDER runs to its end and where it is refused (46_voice.md R240, R246; 60_exceptions.md R290).
-/
namespace Sys2Proof.Machine

/-! ### The registers SETUP writes, written -/

/-- A table with every entry written reads back whole. -/
theorem allWritten_eq (x : Four (Option RealBits)) : allWritten x = x.sequence.isSome := by
  obtain ⟨x0, x1, x2, x3⟩ := x
  cases x0 <;> cases x1 <;> cases x2 <;> cases x3 <;> rfl

/-- The two tables of a unit that SETUP has configured. -/
theorem Env.tablesWritten_iff (e : Env) :
    e.tablesWritten = true ↔ ∃ lv inc, e.level.sequence = some lv ∧ e.incr.sequence = some inc := by
  simp only [Env.tablesWritten, allWritten_eq, Bool.and_eq_true, Option.isSome_iff_exists, exists_and_left,
    exists_and_right]

/-- What SETUP writes, unit by unit and cache by cache (R238). -/
theorem State.setupWritten_iff (s : State) :
    s.setupWritten = true ↔ s.penv.tablesWritten = true ∧ ∀ k < 6, (s.env.get k).tablesWritten = true ∧
      (s.ratio.get k).isSome = true ∧ (s.headroom.get k).isSome = true := by
  simp only [State.setupWritten, Bool.and_eq_true, Six.all_iff]
  constructor
  · rintro ⟨⟨⟨henv, hpenv⟩, hratio⟩, hheadroom⟩
    exact ⟨hpenv, fun k hk => ⟨henv k hk, hratio k hk, hheadroom k hk⟩⟩
  · rintro ⟨hpenv, hall⟩
    exact ⟨⟨⟨fun k hk => (hall k hk).1, hpenv⟩, fun k hk => (hall k hk).2.1⟩, fun k hk => (hall k hk).2.2⟩

/-- SETUP's effect answers with a patch loaded (R238), and then all it writes is written, if it was or DIRTY was set. -/
theorem setupWith_completes (cfg : Config.Params) {s : State} {p : Patch} (hv : s.patchValid = true)
    (hp : s.patch = some p) (hw : s.dirty = true ∨ s.setupWritten = true) :
    ∃ t, setupWith cfg s = .ok t ∧ t.setupWritten = true := by
  cases hdirty : s.dirty with
  | true => exact ⟨_, (setupWith_ok cfg s _).2 ⟨hv, p, hp, .inl ⟨hdirty, rfl⟩⟩, rfl⟩
  | false => exact ⟨s, setupWith_clean hv hp hdirty, hw.resolve_left (by simp [hdirty])⟩

/-! ### Steps 1 to 5 -/

/-- A block of a unit with its tables written (R201, R205). -/
theorem envBlock_of_written (fm : Formats) (u : EnvUnit) {e : Env} (a : RenderArgs) (rate ad rel : RealBits)
    (h : e.tablesWritten = true) : ∃ e' v, envBlock fm u e a rate ad rel = .ok (e', v) := by
  obtain ⟨lv, inc, hlevel, hincr⟩ := e.tablesWritten_iff.1 h
  obtain ⟨⟨e', v⟩, hx⟩ := envBlock_completes u e a rate ad rel lv inc hlevel hincr
  exact ⟨e', v, hx⟩

/-- Step 5 answers for an operator where SETUP's registers are written (R247 to R249). -/
theorem opTarget_completes (cfg : Config.Params) (b : BlockInput) (p : Patch) {s : State} (h : s.setupWritten = true)
    {i : Nat} (hi : i < 6) : ∃ x, opTarget cfg b p s i = .ok x := by
  obtain ⟨-, hall⟩ := s.setupWritten_iff.1 h
  obtain ⟨henv, hratio, hheadroom⟩ := hall i hi
  obtain ⟨ratio, hratio⟩ := Option.isSome_iff_exists.1 hratio
  obtain ⟨headroom, hheadroom⟩ := Option.isSome_iff_exists.1 hheadroom
  obtain ⟨e, l, hblock⟩ := envBlock_of_written s.formats .operator b.args
    (rMul s.formats (envelopeRate s.formats b.args) (rateScaling s.formats cfg b.note (p.op.get i).rs)) b.ad b.rel henv
  exact ⟨_, by simp only [opTarget, hratio, hheadroom, hblock, written_some, ok_bind]; rfl⟩

/-- So it does for all six (R251). -/
theorem opTargets_completes (cfg : Config.Params) (b : BlockInput) (p : Patch) {s : State}
    (h : s.setupWritten = true) : ∃ x, opTargets cfg b p s = .ok x := by
  have : Nonempty OpTarget := ⟨(opTarget_completes cfg b p h (i := 0) (by omega)).choose⟩
  choose! f hf using fun i (hi : i < 6) => opTarget_completes cfg b p h hi
  exact ⟨Six.ofFn f, (opTargets_ok cfg b p s _).2 fun i hi => by rw [Six.get_ofFn f i hi]; exact hf i hi⟩

/-- Step 4 leaves what SETUP writes alone. -/
theorem noteStep_setupWritten (cfg : Config.Params) (p : Patch) (a : RenderArgs) (s : State) :
    (noteStep cfg p a s).setupWritten = s.setupWritten := by
  rw [noteStep_frame]
  rfl

/-- After step 4, NOTE and NVEL are written where they are latched, or were before (R245). -/
theorem noteStep_latched (cfg : Config.Params) (p : Patch) (a : RenderArgs) (s : State)
    (h : (a.gate = true ∧ s.gatePrev = false) ∨ a.sustain = true ∨
      (s.note.isSome = true ∧ s.nvel.isSome = true)) :
    ∃ note nvel, (noteStep cfg p a s).note = some note ∧ (noteStep cfg p a s).nvel = some nvel := by
  rw [noteStep_frame]
  by_cases hl : latchesNote a.gate s.gatePrev a.sustain = true
  · simp only [hl, if_true]
    exact ⟨_, _, rfl, rfl⟩
  · rw [latchesNote_iff, not_or] at hl
    obtain ⟨hnote, hnvel⟩ := (h.resolve_left hl.1).resolve_left hl.2
    simp only [if_neg (mt (latchesNote_iff _ _ _).1 (not_or.2 hl))]
    exact ⟨_, _, (Option.some_get hnote).symm, (Option.some_get hnvel).symm⟩

/-- Steps 1 to 5 answer where SETUP's registers are written and a note is latched (R246). -/
theorem renderTargets_completes (cfg : Config.Params) (a : RenderArgs) (p : Patch) {s : State}
    (hw : s.setupWritten = true)
    (hlatch : (a.gate = true ∧ s.gatePrev = false) ∨ a.sustain = true ∨
      (s.note.isSome = true ∧ s.nvel.isSome = true)) :
    ∃ t, renderTargets cfg a p s = .ok t := by
  obtain ⟨hpenv, -⟩ := s.setupWritten_iff.1 hw
  obtain ⟨penv, pe, hblock⟩ := envBlock_of_written s.formats .pitch a (envelopeRate s.formats a)
    (adScale s.formats cfg a.envctl) (releaseScale s.formats cfg a.envctl) hpenv
  obtain ⟨note, nvel, hnote, hnvel⟩ := noteStep_latched cfg p a s hlatch
  obtain ⟨x, hx⟩ := opTargets_completes cfg
    ⟨a, algRow cfg p.alg, s.sampleRate,
      baseFrequency s.formats cfg s.sampleRate a.note (rAdd s.formats pe a.pitchMod) p.transpose,
      adScale s.formats cfg a.envctl, releaseScale s.formats cfg a.envctl, note, nvel⟩ p
    ((noteStep_setupWritten cfg p a s).trans hw)
  exact ⟨_, (renderTargets_ok cfg a p s _).2 ⟨penv, pe, note, nvel, x, hblock, hnote, hnvel, hx, rfl⟩⟩

/-- Steps 1 to 5 are refused where the note is neither latched nor was before (R246). -/
theorem renderTargets_noteUnwritten (cfg : Config.Params) (a : RenderArgs) (p : Patch) {s : State}
    (hw : s.setupWritten = true) (hlatch : latchesNote a.gate s.gatePrev a.sustain = false) (hnote : s.note = none) :
    renderTargets cfg a p s = refuse .noteUnwritten := by
  obtain ⟨hpenv, -⟩ := s.setupWritten_iff.1 hw
  obtain ⟨penv, pe, hblock⟩ := envBlock_of_written s.formats .pitch a (envelopeRate s.formats a)
    (adScale s.formats cfg a.envctl) (releaseScale s.formats cfg a.envctl) hpenv
  have hnone : (noteStep cfg p a s).note = none := by
    rw [noteStep_frame]
    simp only [hlatch, hnote, if_neg Bool.false_ne_true]
  simp only [renderTargets, hblock, hnone, ok_bind, written_none, refuse_bind]

/-! ### The checks -/

/-- A block size out of domain (R240, D6). -/
theorem blockOk_eq_false_of {b : Int} (h : b < 1 ∨ (Config.bmax : Int) < b) : blockOk b = false := by
  refine Bool.eq_false_iff.2 fun hok => ?_
  obtain ⟨hlo, hhi⟩ := (blockOk_iff b).1 hok
  omega

/-- The real operands RENDER refuses (R240). -/
theorem renderRealsOk_eq_false_iff (fm : Formats) (a : RenderArgs) :
    renderRealsOk fm a = false ↔
      rIsFinite fm a.note = false ∨ rIsFinite fm a.velocity = false ∨ rLt fm a.velocity r0 = true ∨
        rIsFinite fm a.brightness = false ∨ rIsFinite fm a.envctl = false ∨ rIsFinite fm a.pitchMod = false ∨
        rIsFinite fm a.ampMod = false ∨
        (a.sustain = true ∧ (rIsFinite fm a.scrubT = false ∨ rLt fm a.scrubT r0 = true ∨
          rIsFinite fm a.scrubG = false ∨ rLt fm a.scrubG r0 = true)) := by
  simp only [renderRealsOk, finiteOperand, Bool.and_eq_false_iff, Bool.or_eq_false_iff, nonNegOperand_eq_false_iff,
    Bool.not_eq_false', or_assoc]

section

variable {cfg : Config.Params} {a : RenderArgs} {s : State} {p : Patch} (hc : s.constructed = true)
include hc

/-- B outside 1..BMAX (R240). -/
theorem renderChecks_badBlock (hb : blockOk a.block = false) :
    renderChecks cfg a s = refuse .blockSizeOutOfDomain := by
  simp only [renderChecks, (needConstructed_ok s ()).2 hc, hb, ok_bind, require_false, refuse_bind]

variable (hb : blockOk a.block = true)
include hb

/-- A real operand outside the checked domain (R240). -/
theorem renderChecks_badOperand (ho : renderRealsOk s.formats a = false) :
    renderChecks cfg a s = refuse .renderOperandOutOfDomain := by
  simp only [renderChecks, (needConstructed_ok s ()).2 hc, hb, ho, ok_bind, require_true, require_false, refuse_bind]

variable (ho : renderRealsOk s.formats a = true)
include ho

/-- No patch (R240). -/
theorem renderChecks_noPatch (hv : s.patchValid = false) : renderChecks cfg a s = refuse .noPatchLoaded := by
  simp only [renderChecks, (needConstructed_ok s ()).2 hc, hb, ho, needPatch_refused hv, ok_bind, require_true,
    refuse_bind]

/-- The patch selects a row that is not well formed (R178). -/
theorem renderChecks_illFormed (hv : s.patchValid = true) (hp : s.patch = some p)
    (hrow : rowWf (algRow cfg p.alg) = false) : renderChecks cfg a s = refuse .rowIllFormed := by
  simp only [renderChecks, (needConstructed_ok s ()).2 hc, hb, ho, needPatch_of_patch hv hp, hrow, ok_bind,
    require_true, Bool.and_false, require_false, refuse_bind]

end

/-! ### A whole RENDER -/

/-- A RENDER that fails a check is refused with that check's refusal (R240). -/
theorem execRender_of_checks {a : RenderArgs} {s : State} {r : Refusal}
    (h : renderChecks Config.params a s = refuse r) : execRender a s = .refused r := by
  simp only [execRender, renderWith, h, refuse_bind, finish_refuse]

/-- Up to step 5 a RENDER gets with a patch loaded, SETUP's registers written or to be written, and a note latched or to
be latched (R241, R246); the formats, the patch and the buffer are then those it began with. -/
theorem render_reaches_dispatch {a : RenderArgs} {s : State} {p : Patch} (hv : s.patchValid = true)
    (hp : s.patch = some p) (hw : s.dirty = true ∨ s.setupWritten = true)
    (hlatch : (a.gate = true ∧ s.gatePrev = false) ∨ a.sustain = true ∨
      (s.note.isSome = true ∧ s.nvel.isSome = true)) :
    ∃ s1 t1 c, setupWith Config.params s = .ok s1 ∧ renderTargets Config.params a p s1 = .ok t1 ∧ t1.rc = some c ∧
      c.block = a.block.toNat ∧ t1.formats = s.formats ∧ t1.patch = some p ∧ t1.buf = s.buf := by
  obtain ⟨s1, hsetup, hw1⟩ := setupWith_completes Config.params hv hp hw
  have hframe := setupWith_frame _ s s1 hsetup
  obtain ⟨t1, htargets⟩ := renderTargets_completes Config.params a p hw1 (by rw [hframe]; exact hlatch)
  obtain ⟨c, hrc, -, hblock, -⟩ := renderTargets_rc htargets
  refine ⟨s1, t1, c, hsetup, htargets, hrc, hblock, ?_⟩
  rw [renderTargets_frame htargets, noteStep_frame, hframe]
  exact ⟨rfl, hp, rfl⟩

/-- The plan of row 31 (R181): a chain with feedback and five without a source, all adding into slot 0. -/
theorem compile_row31 (cfg : Config.Params) :
    compile (algRow cfg 31) = some
      [⟨.ch1Fb0A, 0, 1, true, 3#2, 0#2⟩, ⟨.ch1NoneA, 1, 1, true, 0#2, 0#2⟩, ⟨.ch1NoneA, 2, 1, true, 0#2, 0#2⟩,
       ⟨.ch1NoneA, 3, 1, true, 0#2, 0#2⟩, ⟨.ch1NoneA, 4, 1, true, 0#2, 0#2⟩, ⟨.ch1NoneA, 5, 1, true, 0#2, 0#2⟩] := by
  rw [show algRow cfg 31 = algRow31 from rfl]
  decide

/-- The plan of row 31 stops at its first call where a sample of slot 0 is unwritten (R63, R310). -/
theorem renderDispatch_row31_unwritten {cfg : Config.Params} {p : Patch} {s : State} {c : RenderCtx} (h31 : p.alg = 31)
    (hrc : s.rc = some c) (hb : c.block ≤ Config.bmax) (hp : s.patch = some p)
    (hops : ∀ k < 6, callFreqOk s.formats (c.f.get k) = true ∧ callAmpOk s.formats (c.a.get k) = true)
    (hun : ¬ s.blockWritten 0#2 c.block) : renderDispatch cfg p s = refuse .sampleUnwritten := by
  have hcall : runCall ⟨.ch1Fb0A, 0, 1, true, 3#2, 0#2⟩ s = refuse .sampleUnwritten := by
    rw [runCall_eq _ _ (by decide)]
    have hin : s.inRender c 0 1 := ⟨hrc, hb, fun k _ hk => hops k (by omega)⟩
    exact chainCall_sampleUnwritten _ _ _ _ _ _ s c hin (by decide) (fun _ => by rw [hp]; rfl) (.inr ⟨rfl, hun⟩)
  simp only [renderDispatch, h31, compile_row31, written_some, ok_bind, runPlan, hcall, refuse_bind]

/-- Settles O44: up to step 5 by `render_reaches_dispatch`, step 6 by `runPlan_completes`. -/
theorem renderCompletes : Obligations.RenderCompletes := by
  refine ⟨fun plan hplan => ?_, fun a s p hc hlo hhi ho hv hp halg hw hlatch htypes hwritten => ?_⟩
  · rw [compile_row31, Option.some.injEq] at hplan
    subst hplan
    decide
  · have hb : blockOk a.block = true := (blockOk_iff _).2 ⟨hlo, by omega⟩
    have hrow := rowWf_algRow_params p.alg
    obtain ⟨-, plan, hplan, -⟩ := (rowWf_iff _).1 hrow
    obtain ⟨s1, t1, c, hsetup, htargets, hrc, hblock, hfm, hpatch, hbuf⟩ := render_reaches_dispatch hv hp hw hlatch
    have hfit : ∀ x ∈ plan, x.first < 6 ∧ x.first + x.spec.len ≤ 6 := fun x hx => by
      obtain ⟨hfirst, -, hfit, hlen, -⟩ := compile_mem _ plan hplan x hx
      exact ⟨hfirst, hlen ▸ hfit⟩
    obtain ⟨u, hu⟩ := runPlan_completes plan t1 c p hrc (by omega) hpatch
      (by rw [hfm]; exact htypes s1 t1 c hsetup htargets hrc) hfit [] (by simp)
      (fun slot hs => (State.blockWritten_congr hbuf slot _).2 (hblock ▸ hwritten plan hplan slot hs))
    have hchecks := (renderChecks_ok Config.params a s p).2 ⟨hc, hb, ho, hv, hp, halg, hrow⟩
    have hnext := (execRender_next a s _).2 ⟨p, s1, t1, plan, u, hchecks, hsetup, htargets, hplan, hu, rfl⟩
    obtain ⟨r, hr⟩ := execRender_run hnext
    obtain ⟨hgate, hdirty, hresult, hrc', hpatch'⟩ := r.flags
    rw [hr] at hnext
    exact ⟨_, hnext, hgate, hdirty, hresult, hrc', hpatch'.trans hp, r.levelOut_written⟩

/-- Settles O48: each check in its order, step 4 without a note, and the first call of row 31. -/
theorem renderRefusals : Obligations.RenderRefusals := by
  intro a s fm hc
  refine ⟨fun hblock => execRender_of_checks (renderChecks_badBlock hc (blockOk_eq_false_of hblock)),
    fun hlo hhi => ?_⟩
  have hb : blockOk a.block = true := (blockOk_iff _).2 ⟨hlo, by omega⟩
  refine ⟨fun hbad => execRender_of_checks
      (renderChecks_badOperand hc hb ((renderRealsOk_eq_false_iff _ _).2 hbad)), fun ho => ⟨fun hv =>
    execRender_of_checks (renderChecks_noPatch hc hb ho hv), fun p hv hp => ⟨fun cfg hrow => ?_, ?_, ?_⟩⟩⟩
  · simp only [renderWith, renderChecks_illFormed hc hb ho hv hp hrow, refuse_bind]
  · intro halg hw hs hgate hnote
    have hchecks := (renderChecks_ok Config.params a s p).2 ⟨hc, hb, ho, hv, hp, halg, rowWf_algRow_params _⟩
    obtain ⟨s1, hsetup, hw1⟩ := setupWith_completes Config.params hv hp hw
    have htargets := renderTargets_noteUnwritten Config.params a p hw1
      (by rw [setupWith_frame _ s s1 hsetup]; exact latchesNote_of_held hgate hs)
      (by rw [setupWith_frame _ s s1 hsetup]; exact hnote)
    simp only [exec_render, execRender, renderWith, hchecks, hsetup, htargets, ok_bind, refuse_bind, finish_refuse]
  · intro h31 hw hlatch htypes hun
    have hchecks := (renderChecks_ok Config.params a s p).2 ⟨hc, hb, ho, hv, hp, by omega, rowWf_algRow_params _⟩
    obtain ⟨s1, t1, c, hsetup, htargets, hrc, hblock, hfm, hpatch, hbuf⟩ := render_reaches_dispatch hv hp hw hlatch
    have hdispatch : renderDispatch Config.params p t1 = refuse .sampleUnwritten :=
      renderDispatch_row31_unwritten h31 hrc (by omega) hpatch (by rw [hfm]; exact htypes s1 t1 c hsetup htargets hrc)
        (by rwa [State.blockWritten_congr hbuf, hblock])
    simp only [exec_render, execRender, renderWith, hchecks, hsetup, htargets, hdispatch, ok_bind, refuse_bind,
      finish_refuse]

end Sys2Proof.Machine
end

section
/-!
PROOFS. What a RENDER does not depend on (46_voice.md R240, R241, R247; 43_algorithm_router.md R172): a SETUP before it,
and operands it does not use.
-/
namespace Sys2Proof.Machine

/-! ### Steps 1 to 6 carry the result of the command before along -/

section

variable (x : Result)

/-- A chain call reads no result (R151 to R156). -/
theorem chainCall_withResult (bmax n : Nat) (src : Source) (add : Bool) (first : Nat) (inp out : Slot) (s : State) :
    chainCall bmax n src add first inp out (s.withResult x) =
      (State.withResult · x) <$> chainCall bmax n src add first inp out s := by
  have hcommit : ∀ c r,
      chainCommit src first n c r (s.withResult x) = (chainCommit src first n c r s).withResult x := by
    intro c r
    unfold chainCommit
    cases src.isFeedback <;> rfl
  simp only [chainCall, hcommit, map_bind]
  rfl

/-- Nor does a call of a plan (R179). -/
theorem runCall_withResult (c : Call) (s : State) :
    runCall c (s.withResult x) = (State.withResult · x) <$> runCall c s := by
  by_cases h : c.first < 6
  · rw [runCall_eq c _ h, runCall_eq c _ h, chainCall_withResult]
  · simp only [runCall, dif_neg h]
    rfl

/-- Nor does a plan (R179). -/
theorem runPlan_withResult (plan : List Call) (s : State) :
    runPlan plan (s.withResult x) = (State.withResult · x) <$> runPlan plan s := by
  induction plan generalizing s with
  | nil => rfl
  | cons c rest ih =>
    simp only [runPlan, runCall_withResult, map_bind, bind_map_left]
    exact bind_congr fun s' => ih s'

/-- Nor do steps 1 to 5 (R242 to R249). -/
theorem renderTargets_withResult (cfg : Config.Params) (a : RenderArgs) (p : Patch) (s : State) :
    renderTargets cfg a p (s.withResult x) = (State.withResult · x) <$> renderTargets cfg a p s := by
  have hnote : noteStep cfg p a (s.withResult x) = (noteStep cfg p a s).withResult x := by
    rw [noteStep_frame, noteStep_frame]
    rfl
  simp only [renderTargets, hnote, map_bind]
  rfl

/-- Nor does step 6 (R250). -/
theorem renderDispatch_withResult (cfg : Config.Params) (p : Patch) (s : State) :
    renderDispatch cfg p (s.withResult x) = (State.withResult · x) <$> renderDispatch cfg p s := by
  simp only [renderDispatch, runPlan_withResult, map_bind, bind_map_left]
  rfl

end

/-- RENDER's checks see nothing of what SETUP writes (R240, R238). -/
theorem renderChecks_of_setup {cfg : Config.Params} (a : RenderArgs) {s t : State} (h : setupWith cfg s = .ok t) :
    renderChecks cfg a t = renderChecks cfg a s := by
  rw [setupWith_frame cfg s t h]
  rfl

/-- Settles O47: the RENDER after a SETUP finds DIRTY clear and begins with step 1 on the registers its own preamble
would have written; only the result, which it overwrites, differs. -/
theorem renderBeginsWithSetup : Obligations.RenderBeginsWithSetup := by
  intro a s s1 h
  obtain ⟨-, u, hsetup, rfl⟩ := (execSetup_next s s1).1 h
  obtain ⟨p, -, -, hv, hp⟩ := setupWith_patch hsetup
  have hdirty : u.dirty = false := setupWith_dirty hsetup
  have hclean := setupWith_clean (cfg := Config.params) (s := u.withResult .ok) hv hp hdirty
  have hchecks : renderChecks Config.params a (u.withResult .ok) = renderChecks Config.params a s := by
    rw [← renderChecks_of_setup a hsetup]
    rfl
  have hrender : renderWith Config.params a (u.withResult .ok) = renderWith Config.params a s := by
    simp only [renderWith, hchecks, hsetup, hclean, ok_bind, renderTargets_withResult, renderDispatch_withResult,
      bind_map_left, State.withResult_withResult]
  exact congrArg finish hrender.symm

/-! ### Operands RENDER does not use -/

/-- Operands that steps 1 to 5 do not tell apart on a row: they may differ in the scrub and in the envelope control
where a unit's block comes out the same, and in brightness where every operator's level does. -/
structure RenderArgs.Alike (cfg : Config.Params) (fm : Formats) (row : Six Byte) (a a' : RenderArgs) : Prop where
  gate : a'.gate = a.gate := by rfl
  sustain : a'.sustain = a.sustain := by rfl
  note : a'.note = a.note := by rfl
  velocity : a'.velocity = a.velocity := by rfl
  pitchMod : a'.pitchMod = a.pitchMod := by rfl
  ampMod : a'.ampMod = a.ampMod := by rfl
  block : a'.block = a.block := by rfl
  unit : ∀ u e rate,
    envBlock fm u e a' rate (adScale fm cfg a'.envctl) (releaseScale fm cfg a'.envctl) =
      envBlock fm u e a rate (adScale fm cfg a.envctl) (releaseScale fm cfg a.envctl)
  level : ∀ q k, k < 6 →
    adjustedLevel fm q (isModulator row k) a'.brightness = adjustedLevel fm q (isModulator row k) a.brightness

section

variable {cfg : Config.Params} {a a' : RenderArgs} {p : Patch} {s : State}

/-- Step 4 (R245). -/
theorem noteStep_alike {fm : Formats} {row : Six Byte} (h : RenderArgs.Alike cfg fm row a a') :
    noteStep cfg p a' s = noteStep cfg p a s := by
  simp only [noteStep, h.gate, h.sustain, h.note, h.velocity]

/-- Step 5 for one operator (R247 to R249). -/
theorem opTarget_alike {row : Six Byte} (h : RenderArgs.Alike cfg s.formats row a a') (sr f0 note nvel : RealBits)
    {i : Nat} (hi : i < 6) :
    opTarget cfg ⟨a', row, sr, f0, adScale s.formats cfg a'.envctl, releaseScale s.formats cfg a'.envctl, note, nvel⟩
        p s i =
      opTarget cfg ⟨a, row, sr, f0, adScale s.formats cfg a.envctl, releaseScale s.formats cfg a.envctl, note, nvel⟩
        p s i := by
  simp only [opTarget, envelopeRate, h.block, h.unit, h.level _ i hi, h.ampMod]

/-- Steps 1 to 5 (R242 to R249). -/
theorem renderTargets_alike (h : RenderArgs.Alike cfg s.formats (algRow cfg p.alg) a a') :
    renderTargets cfg a' p s = renderTargets cfg a p s := by
  have hfm := noteStep_formats cfg p a s
  have htargets : ∀ sr f0 note nvel,
      opTargets cfg ⟨a', algRow cfg p.alg, sr, f0, adScale s.formats cfg a'.envctl,
        releaseScale s.formats cfg a'.envctl, note, nvel⟩ p (noteStep cfg p a s) =
      opTargets cfg ⟨a, algRow cfg p.alg, sr, f0, adScale s.formats cfg a.envctl,
        releaseScale s.formats cfg a.envctl, note, nvel⟩ p (noteStep cfg p a s) := by
    intro sr f0 note nvel
    rw [← hfm] at h ⊢
    have hop := fun i (hi : i < 6) => opTarget_alike (p := p) h sr f0 note nvel hi
    simp (disch := omega) only [opTargets, hop]
  simp only [renderTargets, envelopeRate, h.block, h.unit, h.note, h.pitchMod, noteStep_alike h, htargets]

/-- A RENDER with operands not told apart by its checks nor by steps 1 to 5. -/
theorem exec_render_alike (hreals : renderRealsOk s.formats a' = renderRealsOk s.formats a)
    (h : ∀ p, s.patch = some p → RenderArgs.Alike Config.params s.formats (algRow Config.params p.alg) a a')
    (hblock : a'.block = a.block) : exec (.render a') s = exec (.render a) s := by
  have hchecks : renderChecks Config.params a' s = renderChecks Config.params a s := by
    simp only [renderChecks, hreals, hblock]
  refine congrArg finish ?_
  simp only [renderWith, hchecks]
  cases hp : renderChecks Config.params a s with
  | error e => rfl
  | ok p =>
    cases hs1 : setupWith Config.params s with
    | error e => rfl
    | ok s1 =>
      obtain ⟨-, -, -, -, hpatch, -⟩ := (renderChecks_ok _ _ _ _).1 hp
      have hfm : s1.formats = s.formats := by rw [setupWith_frame _ s s1 hs1]
      simp only [ok_bind, renderTargets_alike (hfm ▸ h p hpatch)]

end

/-- In gated mode a unit's block reads no scrub operand (R243, R247). -/
theorem envBlock_gated (fm : Formats) (u : EnvUnit) (e : Env) (a : RenderArgs) (rate ad rel t g : RealBits)
    (h : a.sustain = false) :
    envBlock fm u e { a with scrubT := t, scrubG := g } rate ad rel = envBlock fm u e a rate ad rel := by
  simp only [envBlock, h, if_neg Bool.false_ne_true]

/-- In scrubbing mode a unit's block reads neither scale, so no envelope control (R205, R243, R247). -/
theorem envBlock_scrubbed (fm : Formats) (u : EnvUnit) (e : Env) (a : RenderArgs) (rate ad rel ad' rel' c : RealBits)
    (h : a.sustain = true) :
    envBlock fm u e { a with envctl := c } rate ad' rel' = envBlock fm u e a rate ad rel := by
  simp only [envBlock, h, if_true]

/-- Row 31 has no modulator (R172, R181). -/
theorem isModulator_row31 (cfg : Config.Params) {k : Nat} (hk : k < 6) : isModulator (algRow cfg 31) k = false := by
  rw [show algRow cfg 31 = algRow31 from rfl]
  obtain rfl | rfl | rfl | rfl | rfl | rfl := lt_six_cases hk <;> rfl

/-- The level of an operator that is no modulator has no brightness in it (R248). -/
theorem adjustedLevel_carrier (fm : Formats) (q : OpPatch) (brightness brightness' : RealBits) :
    adjustedLevel fm q false brightness' = adjustedLevel fm q false brightness := rfl

/-- Settles O49: in each case the operands pass the same checks and steps 1 to 5 do not tell them apart. -/
theorem renderIgnores : Obligations.RenderIgnores := by
  intro a s
  refine ⟨fun hs t g => ?_, fun h31 hfinite b hb => ?_, fun hs hfinite c hc => ?_⟩
  · refine exec_render_alike ?_ (fun p _ => { unit := fun u e rate => ?_, level := fun _ _ _ => rfl }) rfl
    · simp only [renderRealsOk, hs, Bool.not_false, Bool.true_or]
    · exact envBlock_gated _ u e a rate _ _ t g hs
  · refine exec_render_alike ?_ (fun p hp => { unit := fun _ _ _ => rfl, level := fun q k hk => ?_ }) rfl
    · simp only [renderRealsOk, finiteOperand, hfinite, hb]
    · rw [h31 p hp, isModulator_row31 _ hk]
      exact adjustedLevel_carrier _ q _ _
  · refine exec_render_alike ?_ (fun p _ => { unit := fun u e rate => ?_, level := fun _ _ _ => rfl }) rfl
    · simp only [renderRealsOk, finiteOperand, hfinite, hc]
    · exact envBlock_scrubbed _ u e a rate _ _ _ _ c hs

end Sys2Proof.Machine
end

section
/-!
PROOFS. The packed voice (47_patch.md R262 to R269): PLOAD writes each register from its byte, bits and maximum, and the
packed voice is its inverse. Both directions of the round trip are read off the bytes of an image as numbers.
-/
namespace Sys2Proof.Machine

/-! ### The field table as arithmetic (R263, R264) -/

/-- The registers of operator block k, each from its byte, bits and maximum (R263). -/
theorem decodeOp_eq (img : List Byte) (k : Nat) :
    let b := fun j => (byteAt img (17 * k + j)).toNat
    decodeOp img k =
      { rate := ⟨min (b 0 % 128) 99, min (b 1 % 128) 99, min (b 2 % 128) 99, min (b 3 % 128) 99⟩
        level := ⟨min (b 4 % 128) 99, min (b 5 % 128) 99, min (b 6 % 128) 99, min (b 7 % 128) 99⟩
        ks := ⟨min (b 8 % 128) 99, min (b 9 % 128) 99, min (b 10 % 128) 99, b 11 % 4, b 11 / 4 % 4⟩
        rs := b 12 % 8
        detune := min (b 12 / 8 % 16) 14
        ams := b 13 % 4
        vs := b 13 / 4 % 8
        olevel := min (b 14 % 128) 99
        mode := b 15 % 2
        coarse := b 15 / 2 % 32
        fine := min (b 16 % 128) 99 } := by
  simp only [decodeOp, Four.ofFn, field7_eq, clampField, byteField_eq, pow_zero, Nat.div_one]
  rfl

/-- The registers of the whole voice, those of the operators aside (R264, R31). -/
theorem decodeVoice_eq (img : List Byte) :
    let g := fun i => (byteAt img (102 + i)).toNat
    decodeVoice img =
      { op := Six.ofFn (decodeOp img)
        prate := ⟨min (g 0 % 128) 99, min (g 1 % 128) 99, min (g 2 % 128) 99, min (g 3 % 128) 99⟩
        plevel := ⟨min (g 4 % 128) 99, min (g 5 % 128) 99, min (g 6 % 128) 99, min (g 7 % 128) 99⟩
        alg := g 8 % 32
        fb := g 9 % 8
        resetPhase := g 9 / 8 % 2
        lfo := ⟨min (g 10 % 128) 99, min (g 11 % 128) 99, min (g 12 % 128) 99, min (g 13 % 128) 99, g 14 % 2,
          min (g 14 / 2 % 8) 5, g 14 / 16 % 8⟩
        transpose := min (g 15 % 128) 48
        name := (List.range 10).map fun i => BitVec.ofNat 8 ((byteAt img (118 + i)).toNat % 128)
        active := 0x3F#6 } := by
  have hname : ∀ b : Byte, b &&& 0x7F#8 = BitVec.ofNat 8 (b.toNat % 128) := by decide +kernel
  simp only [decodeVoice, Four.ofFn, field7_eq, clampField, byteField_eq, pow_zero, Nat.div_one, hname]
  rfl

/-! ### PLOAD -/

/-- Settles O10: PLOAD writes the decoded voice, whose registers are those of the field table. -/
theorem ploadWritesTheFieldTable : Obligations.PloadWritesTheFieldTable := by
  intro img s hc hlen
  refine ⟨decodeVoice img, (execPload_next img s _).2 ⟨hc, .inl ⟨hlen, rfl⟩⟩, fun k hk => ?_, ?_⟩
  · have hop : (decodeVoice img).op.get k = decodeOp img k := Six.get_ofFn _ k hk
    rw [hop, decodeOp_eq]
    exact ⟨rfl, rfl, rfl, rfl, rfl, rfl, rfl, rfl, rfl, rfl, rfl⟩
  · rw [decodeVoice_eq]
    refine ⟨rfl, rfl, rfl, rfl, rfl, rfl, rfl, rfl, fun j hj => ?_, rfl⟩
    simp only [List.getElem?_map, List.getElem?_range hj, Option.map_some]
    rfl

/-- Settles O11: the other of the two things PLOAD can do. -/
theorem ploadOfAWrongLength : Obligations.PloadOfAWrongLength := fun img s hc hlen =>
  (execPload_next img s _).2 ⟨hc, .inr ⟨hlen, rfl⟩⟩

/-- Settles O12: a PLOAD that ends well wrote the decoded voice, and a field is below its width or at most its
maximum. -/
theorem ploadedPatchIsInRange : Obligations.PloadedPatchIsInRange := by
  intro img s t hx hok
  obtain ⟨-, ⟨-, rfl⟩ | ⟨-, rfl⟩⟩ := (execPload_next img s t).1 hx
  · refine ⟨decodeVoice img, rfl, decodeVoice_inRange img, byteField_lt _ 0 5, byteField_lt _ 4 3,
      clampField_le _ 1 3 5, fun k hk => ?_⟩
    have hop : (decodeVoice img).op.get k = decodeOp img k := Six.get_ofFn _ k hk
    rw [hop]
    exact ⟨byteField_lt _ 1 5, byteField_lt _ 0 2⟩
  · cases hok

end Sys2Proof.Machine
end

section
/-!
PROOFS. The packed voice and the register file round trip (47_patch.md R268). The bytes of a packed voice are written as
numbers; decoding takes each apart into the fields it was put together from, and packing puts the fields of a decoded
byte back together, with unused bits 0 and clamped fields at or below their maximum.
-/
namespace Sys2Proof.Machine

/-! ### The bytes of a packed voice as numbers -/

/-- The bytes of an operator block (R263). -/
def opBytes (q : OpPatch) : List Nat :=
  [q.rate.s0, q.rate.s1, q.rate.s2, q.rate.s3, q.level.s0, q.level.s1, q.level.s2, q.level.s3, q.ks.bp, q.ks.ld,
    q.ks.rd, q.ks.lc + 4 * q.ks.rc, q.rs + 8 * q.detune, q.ams + 4 * q.vs, q.olevel, q.mode + 2 * q.coarse, q.fine]

/-- Bytes 102 .. 117 of a packed voice (R264). -/
def globalBytes (p : Patch) : List Nat :=
  [p.prate.s0, p.prate.s1, p.prate.s2, p.prate.s3, p.plevel.s0, p.plevel.s1, p.plevel.s2, p.plevel.s3, p.alg,
    p.fb + 8 * p.resetPhase, p.lfo.rate, p.lfo.delay, p.lfo.pmd, p.lfo.amd,
    p.lfo.sync + 2 * p.lfo.wave + 16 * p.lfo.pms, p.transpose]

/-- A field put above one of `w` bits. -/
theorem or_shiftLeft_eq (a b w : Nat) (h : a < 2 ^ w) : a ||| b <<< w = a + 2 ^ w * b := by
  rw [Nat.or_comm, ← Nat.shiftLeft_add_eq_or_of_lt h, Nat.shiftLeft_eq]
  ring

/-- In range, no field reaches into the next one of its byte. -/
theorem packOp_eq {q : OpPatch} (h : q.inRange = true) : packOp q = (opBytes q).map (BitVec.ofNat 8) := by
  simp only [OpPatch.inRange, Bool.and_eq_true, decide_eq_true_eq] at h
  have hlc := or_shiftLeft_eq q.ks.lc q.ks.rc 2 (by omega)
  have hrs := or_shiftLeft_eq q.rs q.detune 3 (by omega)
  have hams := or_shiftLeft_eq q.ams q.vs 2 (by omega)
  have hmode := or_shiftLeft_eq q.mode q.coarse 1 (by omega)
  simp only [packOp, hlc, hrs, hams, hmode]
  rfl

/-- A packed voice is six operator blocks, 16 bytes of common registers and the name (R263, R264). -/
theorem packVoice_eq {p : Patch} (h : p.inRange = true) :
    packVoice p =
      (p.op.toList.map packOp).flatten ++ ((globalBytes p).map (BitVec.ofNat 8) ++ p.name) := by
  simp only [Patch.inRange, LfoPatch.inRange, Bool.and_eq_true, decide_eq_true_eq] at h
  have hfb := or_shiftLeft_eq p.fb p.resetPhase 3 (by omega)
  have hsync := or_shiftLeft_eq p.lfo.sync p.lfo.wave 1 (by omega)
  have hpms := or_shiftLeft_eq (p.lfo.sync + 2 ^ 1 * p.lfo.wave) p.lfo.pms 4 (by omega)
  simp only [packVoice, hfb, hsync, hpms]
  rfl

/-! ### Byte j of a packed voice -/

theorem byteAt_append_left (l l' : List Byte) {j : Nat} (h : j < l.length) : byteAt (l ++ l') j = byteAt l j :=
  List.getD_append l l' _ j h

theorem byteAt_append_right (l l' : List Byte) {n : Nat} (j : Nat) (h : l.length = n) :
    byteAt (l ++ l') (n + j) = byteAt l' j := by
  rw [byteAt, List.getD_append_right _ _ _ _ (by omega), h, Nat.add_sub_cancel_left]
  rfl

/-- A byte of one of several blocks of equal length. -/
theorem byteAt_flatten (blocks : List (List Byte)) (rest : List Byte) {n : Nat} (hlen : ∀ l ∈ blocks, l.length = n)
    {k i : Nat} (hk : k < blocks.length) (hi : i < n) :
    byteAt (blocks.flatten ++ rest) (n * k + i) = byteAt blocks[k] i := by
  induction blocks generalizing k with
  | nil => cases hk
  | cons l ls ih =>
    have hl := hlen l List.mem_cons_self
    rw [List.flatten_cons, List.append_assoc]
    cases k with
    | zero => rw [Nat.mul_zero, Nat.zero_add, byteAt_append_left _ _ (hl ▸ hi)]; rfl
    | succ k =>
      rw [Nat.mul_succ, Nat.add_comm (n * k), Nat.add_assoc, byteAt_append_right _ _ _ hl]
      exact ih (fun l' h => hlen l' (List.mem_cons_of_mem _ h)) (Nat.lt_of_succ_lt_succ hk)

/-- A number below 256 is its byte. -/
theorem byteAt_map_ofNat {l : List Nat} (h : ∀ b ∈ l, b < 256) {j : Nat} (hj : j < l.length) :
    (byteAt (l.map (BitVec.ofNat 8)) j).toNat = l[j] := by
  rw [byteAt, List.getD_eq_getElem _ _ (by simpa using hj), List.getElem_map, BitVec.toNat_ofNat]
  exact Nat.mod_eq_of_lt (h _ (List.getElem_mem hj))

theorem opBytes_lt {q : OpPatch} (h : q.inRange = true) : ∀ b ∈ opBytes q, b < 256 := by
  simp only [OpPatch.inRange, Four.all, Bool.and_eq_true, decide_eq_true_eq] at h
  intro b hb
  simp only [opBytes, List.mem_cons, List.not_mem_nil, or_false] at hb
  omega

theorem globalBytes_lt {p : Patch} (h : p.inRange = true) : ∀ b ∈ globalBytes p, b < 256 := by
  simp only [Patch.inRange, LfoPatch.inRange, Four.all, Bool.and_eq_true, decide_eq_true_eq] at h
  intro b hb
  simp only [globalBytes, List.mem_cons, List.not_mem_nil, or_false] at hb
  omega

section

variable {p : Patch} (h : p.inRange = true)

include h

theorem Patch.inRange_op {k : Nat} (hk : k < 6) : (p.op.get k).inRange = true := by
  simp only [Patch.inRange, Bool.and_eq_true, and_assoc] at h
  obtain ⟨hop, -⟩ := h
  exact (Six.all_iff _ _).1 hop k hk

theorem Patch.inRange_name_length : p.name.length = 10 := by
  simp only [Patch.inRange, Bool.and_eq_true, decide_eq_true_eq] at h
  omega

theorem packVoice_length : (packVoice p).length = 128 := by
  simp only [packVoice, packOp, List.length_append, List.length_map, List.length_cons, List.length_nil,
    Patch.inRange_name_length h]

/-- Byte i of operator block k. -/
theorem byteAt_packVoice_op {k i : Nat} (hk : k < 6) (hi : i < (opBytes (p.op.get k)).length) :
    (byteAt (packVoice p) (17 * k + i)).toNat = (opBytes (p.op.get k))[i] := by
  have hk' : k < (p.op.toList.map packOp).length := hk
  have hblock : (p.op.toList.map packOp)[k] = packOp (p.op.get k) := by
    obtain rfl | rfl | rfl | rfl | rfl | rfl := lt_six_cases hk <;> rfl
  have hlen : ∀ l ∈ p.op.toList.map packOp, l.length = 17 := by
    intro l hl
    obtain ⟨q, -, rfl⟩ := List.mem_map.1 hl
    rfl
  rw [packVoice_eq h, byteAt_flatten _ _ hlen hk' hi, hblock, packOp_eq (Patch.inRange_op h hk),
    byteAt_map_ofNat (opBytes_lt (Patch.inRange_op h hk)) hi]

/-- Byte 102 + i. -/
theorem byteAt_packVoice_global {i : Nat} (hi : i < (globalBytes p).length) :
    (byteAt (packVoice p) (102 + i)).toNat = (globalBytes p)[i] := by
  rw [packVoice_eq h, byteAt_append_right _ _ (n := 102) i rfl, byteAt_append_left _ _ (by simpa using hi),
    byteAt_map_ofNat (globalBytes_lt h) hi]

/-- Byte 118 + i, a character of the name. -/
theorem byteAt_packVoice_name (i : Nat) : byteAt (packVoice p) (118 + i) = byteAt p.name i := by
  rw [packVoice_eq h, ← List.append_assoc, byteAt_append_right _ _ (n := 118) i rfl]

end

end Sys2Proof.Machine
end

section
/-!
PROOFS. The two directions of R268: unpacking a packed voice, and packing an unpacked image.
-/
namespace Sys2Proof.Machine

/-! ### Unpacking a packed voice -/

/-- The fields of a block's bytes are the registers the bytes are made of. -/
theorem decodeOp_of_bytes (img : List Byte) (k : Nat) {q : OpPatch} (h : q.inRange = true)
    (hbytes : ∀ i (hi : i < (opBytes q).length), (byteAt img (17 * k + i)).toNat = (opBytes q)[i]) :
    decodeOp img k = q := by
  have hb : ∀ i (hi : i < 17), (byteAt img (17 * k + i)).toNat = (opBytes q)[i] := hbytes
  simp only [OpPatch.inRange, Four.all, Bool.and_eq_true, decide_eq_true_eq] at h
  rw [decodeOp_eq]
  obtain ⟨⟨r0, r1, r2, r3⟩, ⟨l0, l1, l2, l3⟩, ⟨bp, ld, rd, lc, rc⟩, rs, ams, vs, olevel, mode, coarse, fine,
    detune⟩ := q
  simp only at h
  simp (disch := omega) only [hb]
  simp only [opBytes, List.getElem_cons_succ, List.getElem_cons_zero, OpPatch.mk.injEq, Four.mk.injEq,
    KeyScaling.mk.injEq]
  omega

/-- Ten 7-bit characters read back as they are. -/
theorem decodedName_eq {name : List Byte} (hlen : name.length = 10) (h7 : name.all (· ≤ 0x7F#8) = true) :
    ((List.range 10).map fun i => BitVec.ofNat 8 ((byteAt name i).toNat % 128)) = name := by
  refine List.ext_getElem (by simp [hlen]) fun i hi hi' => ?_
  have hle : name[i].toNat ≤ 127 := of_decide_eq_true (List.all_eq_true.1 h7 _ (List.getElem_mem hi'))
  rw [List.getElem_map, List.getElem_range, byteAt, List.getD_eq_getElem _ _ hi', Nat.mod_eq_of_lt (by omega),
    BitVec.ofNat_toNat, BitVec.setWidth_eq]

/-- The fields of a voice's bytes are the registers the bytes are made of. -/
theorem decodeVoice_of_bytes (img : List Byte) {p : Patch} (h : p.inRange = true)
    (hop : ∀ k < 6, decodeOp img k = p.op.get k)
    (hglobal : ∀ i (hi : i < (globalBytes p).length), (byteAt img (102 + i)).toNat = (globalBytes p)[i])
    (hname : ∀ i, byteAt img (118 + i) = byteAt p.name i) : decodeVoice img = p := by
  have hops : Six.ofFn (decodeOp img) = p.op := Six.ext_get _ _ fun k hk => (Six.get_ofFn _ k hk).trans (hop k hk)
  have hg : ∀ i (hi : i < 16), (byteAt img (102 + i)).toNat = (globalBytes p)[i] := hglobal
  simp only [Patch.inRange, LfoPatch.inRange, Four.all, Bool.and_eq_true, decide_eq_true_eq] at h
  obtain ⟨⟨⟨hrange, hlen⟩, h7⟩, hactive⟩ := h
  rw [decodeVoice_eq, hops]
  simp only [hname, decodedName_eq hlen h7]
  obtain ⟨op, ⟨r0, r1, r2, r3⟩, ⟨l0, l1, l2, l3⟩, alg, fb, reset, transpose, ⟨rate, delay, pmd, amd, sync, wave, pms⟩,
    name, active⟩ := p
  simp only at hrange hactive
  simp (disch := omega) only [hg]
  simp only [globalBytes, List.getElem_cons_succ, List.getElem_cons_zero, Patch.mk.injEq, Four.mk.injEq,
    LfoPatch.mk.injEq, hactive, true_and, and_true]
  omega

/-- `unpack(pack(P)) = P` for a register file in range (R268). -/
theorem decodeVoice_packVoice {p : Patch} (h : p.inRange = true) : decodeVoice (packVoice p) = p :=
  decodeVoice_of_bytes _ h
    (fun k hk => decodeOp_of_bytes _ k (Patch.inRange_op h hk) fun _ hi => byteAt_packVoice_op h hk hi)
    (fun _ hi => byteAt_packVoice_global h hi) (byteAt_packVoice_name h)

/-! ### Packing an unpacked image -/

/-- Byte i of an operator block with its unused bits 0 and its fields at or below their maximum: its fields, put back
together (R263). -/
def cleanedOpByte (i b : Nat) : Nat :=
  if i = 11 then b % 4 + 4 * (b / 4 % 4)
  else if i = 12 then b % 8 + 8 * min (b / 8 % 16) 14
  else if i = 13 then b % 4 + 4 * (b / 4 % 8)
  else if i = 15 then b % 2 + 2 * (b / 2 % 32)
  else min (b % 128) 99

/-- The same of byte 102 + i (R264). -/
def cleanedGlobalByte (i b : Nat) : Nat :=
  if i = 8 then b % 32
  else if i = 9 then b % 8 + 8 * (b / 8 % 2)
  else if i = 14 then b % 2 + 2 * min (b / 2 % 8) 5 + 16 * (b / 16 % 8)
  else if i = 15 then min (b % 128) 48
  else min (b % 128) 99

/-- The same of byte j of a packed voice. -/
def cleanedByte (j b : Nat) : Nat :=
  if j < 102 then cleanedOpByte (j % 17) b else if j < 118 then cleanedGlobalByte (j - 102) b else b % 128

theorem opBytes_decodeOp (img : List Byte) (k : Nat) :
    opBytes (decodeOp img k) = (List.range 17).map fun i => cleanedOpByte i (byteAt img (17 * k + i)).toNat := by
  rw [decodeOp_eq]
  rfl

theorem globalBytes_decodeVoice (img : List Byte) :
    globalBytes (decodeVoice img) = (List.range 16).map fun i => cleanedGlobalByte i (byteAt img (102 + i)).toNat := by
  rw [decodeVoice_eq]
  rfl

/-- Packing an unpacked image cleans each byte. -/
theorem byteAt_packVoice_decodeVoice (img : List Byte) {j : Nat} (hj : j < 128) :
    (byteAt (packVoice (decodeVoice img)) j).toNat = cleanedByte j (byteAt img j).toNat := by
  have h := decodeVoice_inRange img
  by_cases hop : j < 102
  · have hk : j / 17 < 6 := by omega
    have hi : j % 17 < (opBytes ((decodeVoice img).op.get (j / 17))).length := Nat.mod_lt _ (by decide)
    have hblock : (decodeVoice img).op.get (j / 17) = decodeOp img (j / 17) := Six.get_ofFn _ _ hk
    have hbyte := byteAt_packVoice_op h hk hi
    simp only [hblock, opBytes_decodeOp, List.getElem_map, List.getElem_range, Nat.div_add_mod] at hbyte
    rw [hbyte, cleanedByte, if_pos hop]
  · by_cases hg : j < 118
    · obtain ⟨i, rfl⟩ : ∃ i, j = 102 + i := ⟨j - 102, by omega⟩
      have hi : i < (globalBytes (decodeVoice img)).length := show i < 16 by omega
      have hbyte := byteAt_packVoice_global h hi
      simp only [globalBytes_decodeVoice, List.getElem_map, List.getElem_range] at hbyte
      rw [hbyte, cleanedByte, if_neg hop, if_pos hg, Nat.add_sub_cancel_left]
    · obtain ⟨i, rfl⟩ : ∃ i, j = 118 + i := ⟨j - 118, by omega⟩
      have hi : i < 10 := by omega
      rw [byteAt_packVoice_name h, cleanedByte, if_neg hop, if_neg hg, decodeVoice_eq, byteAt,
        List.getD_eq_getElem _ _ (by simpa using hi), List.getElem_map, List.getElem_range, BitVec.toNat_ofNat]
      exact Nat.mod_eq_of_lt ((Nat.mod_lt _ (by decide)).trans (by decide))

/-- Two images of one length with the same bytes are the same image. -/
theorem eq_iff_byteAt {l l' : List Byte} {n : Nat} (hl : l.length = n) (hl' : l'.length = n) :
    l = l' ↔ ∀ j < n, (byteAt l j).toNat = (byteAt l' j).toNat := by
  refine ⟨fun h j _ => by rw [h], fun h => List.ext_getElem (hl.trans hl'.symm) fun j hj hj' => ?_⟩
  have hbyte := h j (hl ▸ hj)
  rwa [byteAt, byteAt, List.getD_eq_getElem _ _ hj, List.getD_eq_getElem _ _ hj', ← BitVec.toNat_eq] at hbyte

/-- An image is clean exactly when cleaning leaves each of its bytes. -/
theorem imageClean_iff {img : List Byte} (hlen : img.length = 128) :
    imageClean img ↔ ∀ j < 128, cleanedByte j (byteAt img j).toNat = (byteAt img j).toNat := by
  refine (and_iff_right hlen).trans (forall₂_congr fun j hj => ?_)
  have hget : img[j]? = some (byteAt img j) := by
    rw [byteAt, List.getD_eq_getElem _ _ (hlen ▸ hj), List.getElem?_eq_getElem]
  have hlt : (byteAt img j).toNat < 256 := (byteAt img j).isLt
  simp only [hget, Option.some.injEq, forall_eq', cleanedByte, cleanedOpByte, cleanedGlobalByte]
  generalize (byteAt img j).toNat = b at hlt
  split_ifs <;> omega

/-- Settles O13: a register file in range is read back from its bytes; and packing what an image unpacks to cleans the
image byte by byte. -/
theorem packAndUnpack : Obligations.PackAndUnpack := by
  refine ⟨fun p hp => ⟨packVoice_length hp, decodeVoice_packVoice hp⟩, fun img hlen => ?_⟩
  rw [eq_iff_byteAt (packVoice_length (decodeVoice_inRange img)) hlen, imageClean_iff hlen]
  exact forall₂_congr fun j hj => by rw [byteAt_packVoice_decodeVoice img hj]

end Sys2Proof.Machine
end

section
/-!
PROOFS. BUNPACK (47_patch.md R266) and the errors a command can return (60_exceptions.md R281 to R292).
-/
namespace Sys2Proof.Machine

/-! ### BUNPACK -/

/-- Image n of a bank, cut at its fixed offset (R266). -/
theorem bankVoices_getElem? (bank : List Byte) {n : Nat} (hn : n < 32) :
    (bankVoices bank)[n]? = some ((bank.drop (6 + 128 * n)).take 128) := by
  rw [bankVoices, List.getElem?_map, List.getElem?_range hn]
  rfl

/-- Settles O14: the three results BUNPACK chooses from, and the images of a bank as its slices. -/
theorem bunpackResult : Obligations.BunpackResult := by
  intro bank s
  have hx := execBunpack_next bank s
  refine ⟨fun hlen => ?_, fun hlen (hheader : bank.take 6 ≠ bankHeader) => ?_,
    fun hlen (hheader : bank.take 6 = bankHeader) => ?_⟩
  · rw [if_pos hlen] at hx
    exact hx
  · rw [if_neg (not_not.2 hlen), if_pos hheader] at hx
    exact hx
  · rw [if_neg (not_not.2 hlen), if_neg (not_not.2 hheader)] at hx
    refine ⟨bankVoices bank, hx, ?_, fun n hn => ⟨_, bankVoices_getElem? bank hn, ?_, fun j hj => ?_⟩⟩
    · rw [bankVoices, List.length_map, List.length_range]
    · rw [List.length_take, List.length_drop]
      omega
    · rw [List.getElem?_take, if_pos hj, List.getElem?_drop]

/-! ### Which command returns an error -/

/-- A command other than PLOAD and BUNPACK returns no error: it ends well or it is refused (R282). -/
theorem exec_result_ok (i : Instr) (s t : State) (hi : (encode i).format = .command) (hx : exec i s = .next t)
    (hpload : ∀ img, i ≠ .pload img) (hbunpack : ∀ bank, i ≠ .bunpack bank) : t.result = .ok := by
  rcases command_cases i hi with ⟨sr, rfl⟩ | ⟨img, rfl⟩ | rfl | ⟨a, rfl⟩ | ⟨k, rfl⟩ | rfl | rfl | ⟨x, rfl⟩ |
    ⟨x, rfl⟩ | ⟨bank, rfl⟩
  · obtain ⟨-, rfl⟩ := execVreset_next sr s t hx
    rfl
  · exact absurd rfl (hpload img)
  · obtain ⟨-, -, -, rfl⟩ := (execSetup_next s t).1 hx
    rfl
  · obtain ⟨-, -, -, -, -, -, -, -, -, -, rfl⟩ := (execRender_next a s t).1 hx
    rfl
  · obtain ⟨-, -, rfl⟩ := (execOpreset_next k s t).1 hx
    rfl
  · obtain ⟨-, -, -, -, rfl⟩ := (execLcfg_next s t).1 hx
    rfl
  · obtain ⟨-, rfl⟩ := (execLreset_next s t).1 hx
    rfl
  · obtain ⟨-, -, -, -, -, -, -, -, rfl⟩ := (execLstep_next x s t).1 hx
    rfl
  · obtain ⟨-, -, -, -, -, -, -, -, rfl⟩ := (execLscrub_next x s t).1 hx
    rfl
  · exact absurd rfl (hbunpack bank)

/-- A command that returns an error is a PLOAD or a BUNPACK of the wrong operand, and writes nothing but its result
(R283 to R286). -/
theorem exec_error (i : Instr) (s t : State) (e : ErrorKind) (hi : (encode i).format = .command)
    (hx : exec i s = .next t) (he : t.result = .error e) :
    t = { s with result := .error e } ∧
      ((∃ bank, i = .bunpack bank ∧ e = .badBankLength ∧ bank.length ≠ 4104) ∨
        (∃ bank, i = .bunpack bank ∧ e = .badBankHeader ∧ bank.length = 4104 ∧ bank.take 6 ≠ bankHeader) ∨
        ∃ img, i = .pload img ∧ e = .badVoiceLength ∧ img.length ≠ 128) := by
  by_cases hpload : ∃ img, i = .pload img
  · obtain ⟨img, rfl⟩ := hpload
    obtain ⟨-, ⟨-, rfl⟩ | ⟨hlen, rfl⟩⟩ := (execPload_next img s t).1 hx
    · cases he
    · cases he
      exact ⟨rfl, .inr (.inr ⟨img, rfl, rfl, hlen⟩)⟩
  by_cases hbunpack : ∃ bank, i = .bunpack bank
  · obtain ⟨bank, rfl⟩ := hbunpack
    obtain rfl := Host.Outcome.next.inj ((execBunpack_next bank s).symm.trans hx)
    dsimp only at he ⊢
    rw [he]
    refine ⟨rfl, ?_⟩
    split_ifs at he with hlen hheader
    · cases he
      exact .inl ⟨bank, rfl, rfl, hlen⟩
    · cases he
      exact .inr (.inl ⟨bank, rfl, rfl, not_not.1 hlen, hheader⟩)
  · rw [exec_result_ok i s t hi hx (not_exists.1 hpload) (not_exists.1 hbunpack)] at he
    cases he

/-- Settles O16: the first half of `exec_error`. -/
theorem errorsChangeNothing : Obligations.ErrorsChangeNothing := fun i s t e hi hx he =>
  (exec_error i s t e hi hx he).1

/-- Settles O17: the second half of `exec_error`. -/
theorem whichCommandRaisesWhichError : Obligations.WhichCommandRaisesWhichError := fun i s t e hi hx he =>
  (exec_error i s t e hi hx he).2

end Sys2Proof.Machine
end

section
/-!
PROOFS. Before the first VRESET and right after reset (70_reset_and_hazards.md R300, R302).
-/
namespace Sys2Proof.Machine

/-! ### Before the first VRESET -/

section

variable {s : State} (hc : s.constructed = false)

include hc

/-- The check for a VRESET, in a state without one. -/
theorem needConstructed_refused : s.needConstructed = refuse .notConstructed := by
  rw [State.needConstructed, hc, require_false]

/-- Every command but VRESET and BUNPACK begins with the check for a VRESET before it (R300). -/
theorem exec_notConstructed (i : Instr) (hi : (encode i).format = .command) (hvreset : ∀ sr, i ≠ .vreset sr)
    (hbunpack : ∀ bank, i ≠ .bunpack bank) : exec i s = .refused .notConstructed := by
  have hstop : ∀ f : Unit → Run State, finish (s.needConstructed >>= f) = .refused .notConstructed := fun f => by
    rw [needConstructed_refused hc, refuse_bind, finish_refuse]
  rcases command_cases i hi with ⟨sr, rfl⟩ | ⟨img, rfl⟩ | rfl | ⟨a, rfl⟩ | ⟨k, rfl⟩ | rfl | rfl | ⟨x, rfl⟩ |
    ⟨x, rfl⟩ | ⟨bank, rfl⟩
  · exact absurd rfl (hvreset sr)
  · exact hstop _
  · exact hstop _
  · have hchecks : renderChecks Config.params a s = refuse .notConstructed := by
      rw [renderChecks, needConstructed_refused hc, refuse_bind]
    exact execRender_of_checks hchecks
  · exact hstop _
  · exact hstop _
  · exact hstop _
  · exact hstop _
  · exact hstop _
  · exact absurd rfl (hbunpack bank)

/-- The host's port makes the same check (R300, log 22). -/
theorem portWrite_notConstructed (slot i : Nat) (v : SampleBits) :
    portWrite slot i v s = .refused .notConstructed := by
  rw [portWrite, needConstructed_refused hc, refuse_bind, finish_refuse]

end

/-- Settles O9: the check for a VRESET stops eight commands and the host's port; BUNPACK and VRESET do not make it, and
formats R and K need a RENDER under way. -/
theorem beforeTheFirstVreset : Obligations.BeforeTheFirstVreset := by
  intro s fm hc
  refine ⟨exec_notConstructed hc, fun bank => ⟨_, execBunpack_next bank s⟩, fun sr hfinite hpos => ?_,
    fun i hi hrc => exec_inner_outsideRender i s hi hrc, fun slot j v rest hport => ?_⟩
  · have hsr : sampleRateOk s.formats sr = true := Bool.and_eq_true_iff.2 ⟨hfinite, hpos⟩
    exact ⟨_, execVreset_of_sampleRateOk sr s hsr, rfl⟩
  · rw [step_writeSample s slot j v rest hport]
    exact portWrite_notConstructed (s := s.withPort rest) hc slot j v

/-! ### Right after reset -/

/-- Settles O52: each range holds of the value R302 gives; what is written together is unwritten; and the state is
dirty, of which coherence claims nothing. -/
theorem resetMeetsTheInvariant : Obligations.ResetMeetsTheInvariant := by
  obtain ⟨hphase, hrates⟩ := Env.reset_ok (r1 ieee) (by decide)
  have hinv : State.reset.Inv :=
    { formats := rfl
      buf := reset_buf_wf
      rate := fun _ => by rw [show State.reset.sampleRate = _ from rLit_44100]; exact sampleRateOk_44100
      valid := rfl
      patch := fun _ hp => by cases hp
      setup := .inr rfl
      dirty := fun _ => rfl
      latch := rfl
      gate := fun hg => by cases hg
      levelOut := .inr rfl
      phases := ⟨(Six.all_iff _ _).2 fun k hk => (congrArg _ (Six.get_ofFn _ k hk)).trans hphase, hphase⟩
      rates := ⟨(Six.all_iff _ _).2 fun k hk => (congrArg _ (Six.get_ofFn _ k hk)).trans hrates, hrates⟩
      wave := Lfo.reset_ok.wave
      lfoFreq := Lfo.reset_ok.lfoFreq
      hold := Lfo.reset_ok.hold
      lfoPhases := Lfo.reset_ok.lfoPhases
      lfoRates := Lfo.reset_ok.lfoRates
      rc := fun _ hc => by cases hc }
  exact ⟨hinv, State.coherent_of_dirty rfl⟩

end Sys2Proof.Machine
end
